-- ==== Sys2Proof/Word.lean ====
section
/-! DEFINITION. The one word of the block: the byte (00_scope.md R11). Everything wider is a count, an
index or an address, and those are natural numbers (00_scope.md R10, 10_state.md introduction). -/

namespace Sys2Proof

/-- A byte: 8 bits, bit 7 the most significant (R11). -/
abbrev Byte := BitVec 8

end Sys2Proof
end

