-- ==== Sys2Proof/Config.lean ====
section
/-! DEFINITION. What one implementation of the block fixes: the build-time parameters of 00_scope.md R8.
The block leaves no value free (00_scope.md R7 point 6), so there is no free value here. -/

namespace Sys2Proof

/-- The two values of `ENC_SINK_FILLED_STATUS` (R8). -/
inductive FilledAnswer where
  | full | misuse
  deriving DecidableEq, Repr

/-- The build-time parameters (R8): "None is a register; none can change while the block exists".
They stand in the machine's state only so that every statement is about every build (log 1). -/
structure Build where
  /-- `W`, the width of the distance field. -/
  windowBits : Nat
  /-- `L`, the width of the length field. -/
  lookaheadBits : Nat
  /-- `S`, the number of staging bytes of the decoder. -/
  stagingSize : Nat
  /-- `INDEXED`: the linked occurrence index instead of the brute-force scan. -/
  indexed : Bool
  /-- `EMIT_ON_EXACT_FILL`: `push_bits` emits a byte in the call that fills its last bit. -/
  emitOnExactFill : Bool
  /-- `ENC_SINK_FILLED_STATUS`: what `ENC.SINK` answers in state `Filled`, not finishing. -/
  sinkFilledStatus : FilledAnswer
  deriving DecidableEq, Repr

/-- The shipped configuration: the column "Default (shipped)" of R8. -/
def Build.shipped : Build :=
  { windowBits := 8, lookaheadBits := 4, stagingSize := 32, indexed := false,
    emitOnExactFill := true, sinkFilledStatus := .full }

end Sys2Proof
end

