-- ==== Sys2Proof/Syntax.lean ====
section
/-! DEFINITION. The enumerations of the block (statuses, the states of the two machines) and the
instructions: one constructor for each of the 82 rows of spec/opcode_table.json (30_encoding.md R108). -/

namespace Sys2Proof

/-- The status a command returns (30_encoding.md R103, 60_exceptions.md R241 to R246). -/
inductive Status where
  | ok | full | empty | more | done | misuse
  deriving DecidableEq, Repr

/-- The ten states of the encoder state machine, in the order of their codes (10_state.md R21,
30_encoding.md R104). -/
inductive EncState where
  | notFull | filled | search | yieldTagBit | yieldLiteral | yieldBrIndex | yieldBrLength | saveBacklog | flushBits | done
  deriving DecidableEq, Repr

/-- The six states of the decoder state machine, in the order of their codes (10_state.md R33,
30_encoding.md R105). -/
inductive DecState where
  | tagBit | yieldLiteral | backrefIndexMsb | backrefIndexLsb | backrefCountLsb | yieldBackref
  deriving DecidableEq, Repr

/-- The instructions. A token `brefW_L` is the row `BREF(W,L)`; `bref` is the row `BREF`, the format of
the shipped build (8,4). `index` is the distance minus one, `count` the length minus one (R93). -/
inductive Instr where
  | lit (byte : Byte)
  | bref (index : BitVec 8) (count : BitVec 4)
  | bref4_3 (index : BitVec 4) (count : BitVec 3)
  | bref5_3 (index : BitVec 5) (count : BitVec 3)
  | bref5_4 (index : BitVec 5) (count : BitVec 4)
  | bref6_3 (index : BitVec 6) (count : BitVec 3)
  | bref6_4 (index : BitVec 6) (count : BitVec 4)
  | bref6_5 (index : BitVec 6) (count : BitVec 5)
  | bref7_3 (index : BitVec 7) (count : BitVec 3)
  | bref7_4 (index : BitVec 7) (count : BitVec 4)
  | bref7_5 (index : BitVec 7) (count : BitVec 5)
  | bref7_6 (index : BitVec 7) (count : BitVec 6)
  | bref8_3 (index : BitVec 8) (count : BitVec 3)
  | bref8_5 (index : BitVec 8) (count : BitVec 5)
  | bref8_6 (index : BitVec 8) (count : BitVec 6)
  | bref8_7 (index : BitVec 8) (count : BitVec 7)
  | bref9_3 (index : BitVec 9) (count : BitVec 3)
  | bref9_4 (index : BitVec 9) (count : BitVec 4)
  | bref9_5 (index : BitVec 9) (count : BitVec 5)
  | bref9_6 (index : BitVec 9) (count : BitVec 6)
  | bref9_7 (index : BitVec 9) (count : BitVec 7)
  | bref9_8 (index : BitVec 9) (count : BitVec 8)
  | bref10_3 (index : BitVec 10) (count : BitVec 3)
  | bref10_4 (index : BitVec 10) (count : BitVec 4)
  | bref10_5 (index : BitVec 10) (count : BitVec 5)
  | bref10_6 (index : BitVec 10) (count : BitVec 6)
  | bref10_7 (index : BitVec 10) (count : BitVec 7)
  | bref10_8 (index : BitVec 10) (count : BitVec 8)
  | bref11_3 (index : BitVec 11) (count : BitVec 3)
  | bref11_4 (index : BitVec 11) (count : BitVec 4)
  | bref11_5 (index : BitVec 11) (count : BitVec 5)
  | bref11_6 (index : BitVec 11) (count : BitVec 6)
  | bref11_7 (index : BitVec 11) (count : BitVec 7)
  | bref11_8 (index : BitVec 11) (count : BitVec 8)
  | bref12_3 (index : BitVec 12) (count : BitVec 3)
  | bref12_4 (index : BitVec 12) (count : BitVec 4)
  | bref12_5 (index : BitVec 12) (count : BitVec 5)
  | bref12_6 (index : BitVec 12) (count : BitVec 6)
  | bref12_7 (index : BitVec 12) (count : BitVec 7)
  | bref12_8 (index : BitVec 12) (count : BitVec 8)
  | bref13_3 (index : BitVec 13) (count : BitVec 3)
  | bref13_4 (index : BitVec 13) (count : BitVec 4)
  | bref13_5 (index : BitVec 13) (count : BitVec 5)
  | bref13_6 (index : BitVec 13) (count : BitVec 6)
  | bref13_7 (index : BitVec 13) (count : BitVec 7)
  | bref13_8 (index : BitVec 13) (count : BitVec 8)
  | bref14_3 (index : BitVec 14) (count : BitVec 3)
  | bref14_4 (index : BitVec 14) (count : BitVec 4)
  | bref14_5 (index : BitVec 14) (count : BitVec 5)
  | bref14_6 (index : BitVec 14) (count : BitVec 6)
  | bref14_7 (index : BitVec 14) (count : BitVec 7)
  | bref14_8 (index : BitVec 14) (count : BitVec 8)
  | bref15_3 (index : BitVec 15) (count : BitVec 3)
  | bref15_4 (index : BitVec 15) (count : BitVec 4)
  | bref15_5 (index : BitVec 15) (count : BitVec 5)
  | bref15_6 (index : BitVec 15) (count : BitVec 6)
  | bref15_7 (index : BitVec 15) (count : BitVec 7)
  | bref15_8 (index : BitVec 15) (count : BitVec 8)
  | encSink (input : List Byte)
  | encPoll (cap : Nat)
  | encFinish
  | encReset
  | decSink (input : List Byte)
  | decPoll (cap : Nat)
  | decFinish
  | decReset
  | encStepNotFull
  | encStepFilled
  | encStepSearch
  | encStepYieldTagBit
  | encStepYieldLiteral
  | encStepYieldBrIndex
  | encStepYieldBrLength
  | encStepSaveBacklog
  | encStepFlushBits
  | encStepDone
  | decStepTagBit
  | decStepYieldLiteral
  | decStepBackrefIndexMsb
  | decStepBackrefIndexLsb
  | decStepBackrefCountLsb
  | decStepYieldBackref
  deriving DecidableEq, Repr

/-- The backreference format (W, L) an instruction belongs to, if it is a backreference token (R93). -/
def Instr.format? : Instr → Option (Nat × Nat)
  | .bref _ _ => some (8, 4)
  | .bref4_3 _ _ => some (4, 3)
  | .bref5_3 _ _ => some (5, 3)
  | .bref5_4 _ _ => some (5, 4)
  | .bref6_3 _ _ => some (6, 3)
  | .bref6_4 _ _ => some (6, 4)
  | .bref6_5 _ _ => some (6, 5)
  | .bref7_3 _ _ => some (7, 3)
  | .bref7_4 _ _ => some (7, 4)
  | .bref7_5 _ _ => some (7, 5)
  | .bref7_6 _ _ => some (7, 6)
  | .bref8_3 _ _ => some (8, 3)
  | .bref8_5 _ _ => some (8, 5)
  | .bref8_6 _ _ => some (8, 6)
  | .bref8_7 _ _ => some (8, 7)
  | .bref9_3 _ _ => some (9, 3)
  | .bref9_4 _ _ => some (9, 4)
  | .bref9_5 _ _ => some (9, 5)
  | .bref9_6 _ _ => some (9, 6)
  | .bref9_7 _ _ => some (9, 7)
  | .bref9_8 _ _ => some (9, 8)
  | .bref10_3 _ _ => some (10, 3)
  | .bref10_4 _ _ => some (10, 4)
  | .bref10_5 _ _ => some (10, 5)
  | .bref10_6 _ _ => some (10, 6)
  | .bref10_7 _ _ => some (10, 7)
  | .bref10_8 _ _ => some (10, 8)
  | .bref11_3 _ _ => some (11, 3)
  | .bref11_4 _ _ => some (11, 4)
  | .bref11_5 _ _ => some (11, 5)
  | .bref11_6 _ _ => some (11, 6)
  | .bref11_7 _ _ => some (11, 7)
  | .bref11_8 _ _ => some (11, 8)
  | .bref12_3 _ _ => some (12, 3)
  | .bref12_4 _ _ => some (12, 4)
  | .bref12_5 _ _ => some (12, 5)
  | .bref12_6 _ _ => some (12, 6)
  | .bref12_7 _ _ => some (12, 7)
  | .bref12_8 _ _ => some (12, 8)
  | .bref13_3 _ _ => some (13, 3)
  | .bref13_4 _ _ => some (13, 4)
  | .bref13_5 _ _ => some (13, 5)
  | .bref13_6 _ _ => some (13, 6)
  | .bref13_7 _ _ => some (13, 7)
  | .bref13_8 _ _ => some (13, 8)
  | .bref14_3 _ _ => some (14, 3)
  | .bref14_4 _ _ => some (14, 4)
  | .bref14_5 _ _ => some (14, 5)
  | .bref14_6 _ _ => some (14, 6)
  | .bref14_7 _ _ => some (14, 7)
  | .bref14_8 _ _ => some (14, 8)
  | .bref15_3 _ _ => some (15, 3)
  | .bref15_4 _ _ => some (15, 4)
  | .bref15_5 _ _ => some (15, 5)
  | .bref15_6 _ _ => some (15, 6)
  | .bref15_7 _ _ => some (15, 7)
  | .bref15_8 _ _ => some (15, 8)
  | .lit _ | .encSink _ | .encPoll _ | .encFinish | .encReset | .decSink _ | .decPoll _
  | .decFinish | .decReset | .encStepNotFull | .encStepFilled | .encStepSearch
  | .encStepYieldTagBit | .encStepYieldLiteral | .encStepYieldBrIndex | .encStepYieldBrLength
  | .encStepSaveBacklog | .encStepFlushBits | .encStepDone | .decStepTagBit
  | .decStepYieldLiteral | .decStepBackrefIndexMsb | .decStepBackrefIndexLsb
  | .decStepBackrefCountLsb | .decStepYieldBackref => none

end Sys2Proof
end

