-- ==== Sys2Proof/WellFormed.lean ====
section
/-! DEFINITION. Which builds are legal (00_scope.md R8) and which instructions a build has. -/

namespace Sys2Proof

/-- The legal ranges of R8: 4 ≤ W ≤ 15, 3 ≤ L ≤ 8, L < W, S ≥ 1. -/
def Build.legal (b : Build) : Bool :=
  decide (4 ≤ b.windowBits) && decide (b.windowBits ≤ 15) && decide (3 ≤ b.lookaheadBits) &&
    decide (b.lookaheadBits ≤ 8) && decide (b.lookaheadBits < b.windowBits) &&
    decide (1 ≤ b.stagingSize)

/-- A token's format is the build's (R91, R93). -/
def Instr.formatOf (b : Build) (i : Instr) : Bool :=
  match i.format? with
  | some f => decide (f = (b.windowBits, b.lookaheadBits))
  | none => true

/-- State `BackrefIndexMsb` exists only when W > 8 (10_state.md R33, 43_decoder_fsm.md R193). -/
def Instr.stateOf (b : Build) (i : Instr) : Bool :=
  decide (i = .decStepBackrefIndexMsb → 8 < b.windowBits)

/-- The instructions a legal build has. -/
def WellFormed (b : Build) (i : Instr) : Bool :=
  b.legal && i.formatOf b && i.stateOf b

end Sys2Proof
end

