-- ==== Sys2Proof/Decode.lean ====
section
/-! DEFINITION. The four encodings of 30_encoding.md: the compressed stream (R90 to R97), the command
codes (R99), the state codes that select a micro-step (R104, R105), and the status codes (R103). First the
bit order of 20_memory.md R74, then the decoder, then the encoder, then the host's numbering of the table. -/

namespace Sys2Proof

/-! ## Bits and bytes, most significant first (20_memory.md R74, 00_scope.md R11) -/

/-- The low `k` bits of `v`, the bit of highest weight first (R74 part b). -/
def fieldBits : Nat → Nat → List Bool
  | 0, _ => []
  | k + 1, v => v.testBit k :: fieldBits k v

/-- The unsigned number a string of bits stands for, first bit of highest weight (R74 part b). -/
def bitsValue (bits : List Bool) : Nat :=
  bits.foldl (fun acc bit => 2 * acc + bit.toNat) 0

/-- The eight bits of a byte of the stream, bit 7 the earliest (R74 part a). -/
def byteBits (v : Byte) : List Bool :=
  fieldBits 8 v.toNat

/-- A byte sequence as the bit stream it carries (R74 part d, R90). -/
def streamBits (bytes : List Byte) : List Bool :=
  bytes.flatMap byteBits

/-- The bytes that carry a bit stream, the last one padded with 0 bits (R74, R96). -/
def packBits : List Bool → List Byte
  | [] => []
  | b7 :: b6 :: b5 :: b4 :: b3 :: b2 :: b1 :: b0 :: later =>
    BitVec.ofNat 8 (bitsValue [b7, b6, b5, b4, b3, b2, b1, b0]) :: packBits later
  | last => [BitVec.ofNat 8 (bitsValue last * 2 ^ (8 - last.length))]

/-- The next `k` bits of a stream as a number, with the rest; nothing if fewer remain. -/
def takeField (k : Nat) (bits : List Bool) : Option (Nat × List Bool) :=
  if bits.length < k then none else some (bitsValue (bits.take k), bits.drop k)

/-! ## Codes (R103 to R105) -/

/-- Status codes (R103). Codes 5 and 6 are unused. -/
def Status.code : Status → BitVec 3
  | .ok => 0
  | .full => 1
  | .empty => 2
  | .more => 3
  | .done => 4
  | .misuse => 7

/-- Encoder state codes (R104). Codes 10 to 15 are unreachable. -/
def EncState.code : EncState → BitVec 4
  | .notFull => 0
  | .filled => 1
  | .search => 2
  | .yieldTagBit => 3
  | .yieldLiteral => 4
  | .yieldBrIndex => 5
  | .yieldBrLength => 6
  | .saveBacklog => 7
  | .flushBits => 8
  | .done => 9

/-- Decoder state codes (R105). Codes 6 and 7 are unreachable. -/
def DecState.code : DecState → BitVec 3
  | .tagBit => 0
  | .yieldLiteral => 1
  | .backrefIndexMsb => 2
  | .backrefIndexLsb => 3
  | .backrefCountLsb => 4
  | .yieldBackref => 5

/-! ## Decoding -/

/-- Why an encoding is rejected. -/
inductive DecodeError where
  /-- The bits end inside a token: the decoder waits (R96, R97). -/
  | incompleteToken
  /-- The format (W, L) is outside the legal range of 00_scope.md R8. -/
  | noSuchFormat
  /-- Encoder state codes 10 to 15: "no rule writes them" (R104). -/
  | unusedEncoderCode
  /-- Decoder state codes 6 and 7: unreachable (R105). -/
  | unusedDecoderCode
  deriving DecidableEq, Repr

/-- What the host drives on the command port: the 3-bit code (R99), the input slice of a `sink` and the
capacity of a `poll`. A line that the operation does not use is ignored (log 4). -/
structure CommandWord where
  code : BitVec 3
  slice : List Byte
  cap : Nat
  deriving DecidableEq, Repr

/-- An encoded instruction, in whichever of the four spaces it is encoded (R90, R99, R104, R105). -/
inductive Encoded where
  | stream (bits : List Bool)
  | command (w : CommandWord)
  | encoderState (code : BitVec 4)
  | decoderState (code : BitVec 3)
  deriving DecidableEq, Repr

/-- The backreference token of format (W, L) with the given fields (R93), for the 57 formats that
00_scope.md R8 allows. -/
def brefOf (W L index count : Nat) : Option Instr :=
  match W, L with
  | 8, 4 => some (.bref (BitVec.ofNat 8 index) (BitVec.ofNat 4 count))
  | 4, 3 => some (.bref4_3 (BitVec.ofNat 4 index) (BitVec.ofNat 3 count))
  | 5, 3 => some (.bref5_3 (BitVec.ofNat 5 index) (BitVec.ofNat 3 count))
  | 5, 4 => some (.bref5_4 (BitVec.ofNat 5 index) (BitVec.ofNat 4 count))
  | 6, 3 => some (.bref6_3 (BitVec.ofNat 6 index) (BitVec.ofNat 3 count))
  | 6, 4 => some (.bref6_4 (BitVec.ofNat 6 index) (BitVec.ofNat 4 count))
  | 6, 5 => some (.bref6_5 (BitVec.ofNat 6 index) (BitVec.ofNat 5 count))
  | 7, 3 => some (.bref7_3 (BitVec.ofNat 7 index) (BitVec.ofNat 3 count))
  | 7, 4 => some (.bref7_4 (BitVec.ofNat 7 index) (BitVec.ofNat 4 count))
  | 7, 5 => some (.bref7_5 (BitVec.ofNat 7 index) (BitVec.ofNat 5 count))
  | 7, 6 => some (.bref7_6 (BitVec.ofNat 7 index) (BitVec.ofNat 6 count))
  | 8, 3 => some (.bref8_3 (BitVec.ofNat 8 index) (BitVec.ofNat 3 count))
  | 8, 5 => some (.bref8_5 (BitVec.ofNat 8 index) (BitVec.ofNat 5 count))
  | 8, 6 => some (.bref8_6 (BitVec.ofNat 8 index) (BitVec.ofNat 6 count))
  | 8, 7 => some (.bref8_7 (BitVec.ofNat 8 index) (BitVec.ofNat 7 count))
  | 9, 3 => some (.bref9_3 (BitVec.ofNat 9 index) (BitVec.ofNat 3 count))
  | 9, 4 => some (.bref9_4 (BitVec.ofNat 9 index) (BitVec.ofNat 4 count))
  | 9, 5 => some (.bref9_5 (BitVec.ofNat 9 index) (BitVec.ofNat 5 count))
  | 9, 6 => some (.bref9_6 (BitVec.ofNat 9 index) (BitVec.ofNat 6 count))
  | 9, 7 => some (.bref9_7 (BitVec.ofNat 9 index) (BitVec.ofNat 7 count))
  | 9, 8 => some (.bref9_8 (BitVec.ofNat 9 index) (BitVec.ofNat 8 count))
  | 10, 3 => some (.bref10_3 (BitVec.ofNat 10 index) (BitVec.ofNat 3 count))
  | 10, 4 => some (.bref10_4 (BitVec.ofNat 10 index) (BitVec.ofNat 4 count))
  | 10, 5 => some (.bref10_5 (BitVec.ofNat 10 index) (BitVec.ofNat 5 count))
  | 10, 6 => some (.bref10_6 (BitVec.ofNat 10 index) (BitVec.ofNat 6 count))
  | 10, 7 => some (.bref10_7 (BitVec.ofNat 10 index) (BitVec.ofNat 7 count))
  | 10, 8 => some (.bref10_8 (BitVec.ofNat 10 index) (BitVec.ofNat 8 count))
  | 11, 3 => some (.bref11_3 (BitVec.ofNat 11 index) (BitVec.ofNat 3 count))
  | 11, 4 => some (.bref11_4 (BitVec.ofNat 11 index) (BitVec.ofNat 4 count))
  | 11, 5 => some (.bref11_5 (BitVec.ofNat 11 index) (BitVec.ofNat 5 count))
  | 11, 6 => some (.bref11_6 (BitVec.ofNat 11 index) (BitVec.ofNat 6 count))
  | 11, 7 => some (.bref11_7 (BitVec.ofNat 11 index) (BitVec.ofNat 7 count))
  | 11, 8 => some (.bref11_8 (BitVec.ofNat 11 index) (BitVec.ofNat 8 count))
  | 12, 3 => some (.bref12_3 (BitVec.ofNat 12 index) (BitVec.ofNat 3 count))
  | 12, 4 => some (.bref12_4 (BitVec.ofNat 12 index) (BitVec.ofNat 4 count))
  | 12, 5 => some (.bref12_5 (BitVec.ofNat 12 index) (BitVec.ofNat 5 count))
  | 12, 6 => some (.bref12_6 (BitVec.ofNat 12 index) (BitVec.ofNat 6 count))
  | 12, 7 => some (.bref12_7 (BitVec.ofNat 12 index) (BitVec.ofNat 7 count))
  | 12, 8 => some (.bref12_8 (BitVec.ofNat 12 index) (BitVec.ofNat 8 count))
  | 13, 3 => some (.bref13_3 (BitVec.ofNat 13 index) (BitVec.ofNat 3 count))
  | 13, 4 => some (.bref13_4 (BitVec.ofNat 13 index) (BitVec.ofNat 4 count))
  | 13, 5 => some (.bref13_5 (BitVec.ofNat 13 index) (BitVec.ofNat 5 count))
  | 13, 6 => some (.bref13_6 (BitVec.ofNat 13 index) (BitVec.ofNat 6 count))
  | 13, 7 => some (.bref13_7 (BitVec.ofNat 13 index) (BitVec.ofNat 7 count))
  | 13, 8 => some (.bref13_8 (BitVec.ofNat 13 index) (BitVec.ofNat 8 count))
  | 14, 3 => some (.bref14_3 (BitVec.ofNat 14 index) (BitVec.ofNat 3 count))
  | 14, 4 => some (.bref14_4 (BitVec.ofNat 14 index) (BitVec.ofNat 4 count))
  | 14, 5 => some (.bref14_5 (BitVec.ofNat 14 index) (BitVec.ofNat 5 count))
  | 14, 6 => some (.bref14_6 (BitVec.ofNat 14 index) (BitVec.ofNat 6 count))
  | 14, 7 => some (.bref14_7 (BitVec.ofNat 14 index) (BitVec.ofNat 7 count))
  | 14, 8 => some (.bref14_8 (BitVec.ofNat 14 index) (BitVec.ofNat 8 count))
  | 15, 3 => some (.bref15_3 (BitVec.ofNat 15 index) (BitVec.ofNat 3 count))
  | 15, 4 => some (.bref15_4 (BitVec.ofNat 15 index) (BitVec.ofNat 4 count))
  | 15, 5 => some (.bref15_5 (BitVec.ofNat 15 index) (BitVec.ofNat 5 count))
  | 15, 6 => some (.bref15_6 (BitVec.ofNat 15 index) (BitVec.ofNat 6 count))
  | 15, 7 => some (.bref15_7 (BitVec.ofNat 15 index) (BitVec.ofNat 7 count))
  | 15, 8 => some (.bref15_8 (BitVec.ofNat 15 index) (BitVec.ofNat 8 count))
  | _, _ => none

/-- The first token of a bit stream, in the format (W, L), and the bits after it (R91 to R95). There is no
illegal token: a stream that is no token ends inside one (R97). -/
def decodeToken (W L : Nat) : List Bool → Except DecodeError (Instr × List Bool)
  | [] => .error .incompleteToken
  | true :: rest =>
    match takeField 8 rest with
    | none => .error .incompleteToken
    | some (value, later) => .ok (.lit (BitVec.ofNat 8 value), later)
  | false :: rest =>
    match takeField W rest with
    | none => .error .incompleteToken
    | some (index, afterIndex) =>
      match takeField L afterIndex with
      | none => .error .incompleteToken
      | some (count, later) =>
        match brefOf W L index count with
        | none => .error .noSuchFormat
        | some i => .ok (i, later)

/-- The command a command word issues (R99): "All eight codes are used; there is no illegal command code". -/
def decodeCommand (w : CommandWord) : Instr :=
  match w.code.toNat with
  | 0 => .encSink w.slice
  | 1 => .encPoll w.cap
  | 2 => .encFinish
  | 3 => .encReset
  | 4 => .decSink w.slice
  | 5 => .decPoll w.cap
  | 6 => .decFinish
  | _ => .decReset

/-- The encoder micro-step a state selects (42_encoder_fsm.md R160). -/
def EncState.microStep : EncState → Instr
  | .notFull => .encStepNotFull
  | .filled => .encStepFilled
  | .search => .encStepSearch
  | .yieldTagBit => .encStepYieldTagBit
  | .yieldLiteral => .encStepYieldLiteral
  | .yieldBrIndex => .encStepYieldBrIndex
  | .yieldBrLength => .encStepYieldBrLength
  | .saveBacklog => .encStepSaveBacklog
  | .flushBits => .encStepFlushBits
  | .done => .encStepDone

/-- The decoder micro-step a state selects (43_decoder_fsm.md R190). -/
def DecState.microStep : DecState → Instr
  | .tagBit => .decStepTagBit
  | .yieldLiteral => .decStepYieldLiteral
  | .backrefIndexMsb => .decStepBackrefIndexMsb
  | .backrefIndexLsb => .decStepBackrefIndexLsb
  | .backrefCountLsb => .decStepBackrefCountLsb
  | .yieldBackref => .decStepYieldBackref

/-- The encoder state of a code (R104). -/
def decodeEncState (code : BitVec 4) : Except DecodeError EncState :=
  match code.toNat with
  | 0 => .ok .notFull
  | 1 => .ok .filled
  | 2 => .ok .search
  | 3 => .ok .yieldTagBit
  | 4 => .ok .yieldLiteral
  | 5 => .ok .yieldBrIndex
  | 6 => .ok .yieldBrLength
  | 7 => .ok .saveBacklog
  | 8 => .ok .flushBits
  | 9 => .ok .done
  | _ => .error .unusedEncoderCode

/-- The decoder state of a code (R105). -/
def decodeDecState (code : BitVec 3) : Except DecodeError DecState :=
  match code.toNat with
  | 0 => .ok .tagBit
  | 1 => .ok .yieldLiteral
  | 2 => .ok .backrefIndexMsb
  | 3 => .ok .backrefIndexLsb
  | 4 => .ok .backrefCountLsb
  | 5 => .ok .yieldBackref
  | _ => .error .unusedDecoderCode

/-- The decoder of the block of format (W, L): the instruction an encoding stands for, and the stream bits
left over. -/
def decode (W L : Nat) : Encoded → Except DecodeError (Instr × List Bool)
  | .stream bits => decodeToken W L bits
  | .command w => .ok (decodeCommand w, [])
  | .encoderState code =>
    match decodeEncState code with
    | .error r => .error r
    | .ok q => .ok (q.microStep, [])
  | .decoderState code =>
    match decodeDecState code with
    | .error r => .error r
    | .ok q => .ok (q.microStep, [])

/-! ## Encoding -/

/-- The bits of a backreference token (R91, R93). -/
def brefBits (W L index count : Nat) : List Bool :=
  false :: (fieldBits W index ++ fieldBits L count)

/-- The command word of a code with its argument lines idle: the empty slice and capacity 0. It is the word of a command
that has no argument (R99), and of a code that is given alone (log 26). -/
def CommandWord.plain (code : BitVec 3) : CommandWord :=
  { code := code, slice := [], cap := 0 }

/-- The encoding of an instruction (R91, R99, R104, R105). -/
def encode : Instr → Encoded
  | .lit value => .stream (true :: byteBits value)
  | .bref index count => .stream (brefBits 8 4 index.toNat count.toNat)
  | .bref4_3 index count => .stream (brefBits 4 3 index.toNat count.toNat)
  | .bref5_3 index count => .stream (brefBits 5 3 index.toNat count.toNat)
  | .bref5_4 index count => .stream (brefBits 5 4 index.toNat count.toNat)
  | .bref6_3 index count => .stream (brefBits 6 3 index.toNat count.toNat)
  | .bref6_4 index count => .stream (brefBits 6 4 index.toNat count.toNat)
  | .bref6_5 index count => .stream (brefBits 6 5 index.toNat count.toNat)
  | .bref7_3 index count => .stream (brefBits 7 3 index.toNat count.toNat)
  | .bref7_4 index count => .stream (brefBits 7 4 index.toNat count.toNat)
  | .bref7_5 index count => .stream (brefBits 7 5 index.toNat count.toNat)
  | .bref7_6 index count => .stream (brefBits 7 6 index.toNat count.toNat)
  | .bref8_3 index count => .stream (brefBits 8 3 index.toNat count.toNat)
  | .bref8_5 index count => .stream (brefBits 8 5 index.toNat count.toNat)
  | .bref8_6 index count => .stream (brefBits 8 6 index.toNat count.toNat)
  | .bref8_7 index count => .stream (brefBits 8 7 index.toNat count.toNat)
  | .bref9_3 index count => .stream (brefBits 9 3 index.toNat count.toNat)
  | .bref9_4 index count => .stream (brefBits 9 4 index.toNat count.toNat)
  | .bref9_5 index count => .stream (brefBits 9 5 index.toNat count.toNat)
  | .bref9_6 index count => .stream (brefBits 9 6 index.toNat count.toNat)
  | .bref9_7 index count => .stream (brefBits 9 7 index.toNat count.toNat)
  | .bref9_8 index count => .stream (brefBits 9 8 index.toNat count.toNat)
  | .bref10_3 index count => .stream (brefBits 10 3 index.toNat count.toNat)
  | .bref10_4 index count => .stream (brefBits 10 4 index.toNat count.toNat)
  | .bref10_5 index count => .stream (brefBits 10 5 index.toNat count.toNat)
  | .bref10_6 index count => .stream (brefBits 10 6 index.toNat count.toNat)
  | .bref10_7 index count => .stream (brefBits 10 7 index.toNat count.toNat)
  | .bref10_8 index count => .stream (brefBits 10 8 index.toNat count.toNat)
  | .bref11_3 index count => .stream (brefBits 11 3 index.toNat count.toNat)
  | .bref11_4 index count => .stream (brefBits 11 4 index.toNat count.toNat)
  | .bref11_5 index count => .stream (brefBits 11 5 index.toNat count.toNat)
  | .bref11_6 index count => .stream (brefBits 11 6 index.toNat count.toNat)
  | .bref11_7 index count => .stream (brefBits 11 7 index.toNat count.toNat)
  | .bref11_8 index count => .stream (brefBits 11 8 index.toNat count.toNat)
  | .bref12_3 index count => .stream (brefBits 12 3 index.toNat count.toNat)
  | .bref12_4 index count => .stream (brefBits 12 4 index.toNat count.toNat)
  | .bref12_5 index count => .stream (brefBits 12 5 index.toNat count.toNat)
  | .bref12_6 index count => .stream (brefBits 12 6 index.toNat count.toNat)
  | .bref12_7 index count => .stream (brefBits 12 7 index.toNat count.toNat)
  | .bref12_8 index count => .stream (brefBits 12 8 index.toNat count.toNat)
  | .bref13_3 index count => .stream (brefBits 13 3 index.toNat count.toNat)
  | .bref13_4 index count => .stream (brefBits 13 4 index.toNat count.toNat)
  | .bref13_5 index count => .stream (brefBits 13 5 index.toNat count.toNat)
  | .bref13_6 index count => .stream (brefBits 13 6 index.toNat count.toNat)
  | .bref13_7 index count => .stream (brefBits 13 7 index.toNat count.toNat)
  | .bref13_8 index count => .stream (brefBits 13 8 index.toNat count.toNat)
  | .bref14_3 index count => .stream (brefBits 14 3 index.toNat count.toNat)
  | .bref14_4 index count => .stream (brefBits 14 4 index.toNat count.toNat)
  | .bref14_5 index count => .stream (brefBits 14 5 index.toNat count.toNat)
  | .bref14_6 index count => .stream (brefBits 14 6 index.toNat count.toNat)
  | .bref14_7 index count => .stream (brefBits 14 7 index.toNat count.toNat)
  | .bref14_8 index count => .stream (brefBits 14 8 index.toNat count.toNat)
  | .bref15_3 index count => .stream (brefBits 15 3 index.toNat count.toNat)
  | .bref15_4 index count => .stream (brefBits 15 4 index.toNat count.toNat)
  | .bref15_5 index count => .stream (brefBits 15 5 index.toNat count.toNat)
  | .bref15_6 index count => .stream (brefBits 15 6 index.toNat count.toNat)
  | .bref15_7 index count => .stream (brefBits 15 7 index.toNat count.toNat)
  | .bref15_8 index count => .stream (brefBits 15 8 index.toNat count.toNat)
  | .encSink input => .command { code := 0, slice := input, cap := 0 }
  | .encPoll cap => .command { code := 1, slice := [], cap := cap }
  | .encFinish => .command (.plain 2)
  | .encReset => .command (.plain 3)
  | .decSink input => .command { code := 4, slice := input, cap := 0 }
  | .decPoll cap => .command { code := 5, slice := [], cap := cap }
  | .decFinish => .command (.plain 6)
  | .decReset => .command (.plain 7)
  | .encStepNotFull => .encoderState 0
  | .encStepFilled => .encoderState 1
  | .encStepSearch => .encoderState 2
  | .encStepYieldTagBit => .encoderState 3
  | .encStepYieldLiteral => .encoderState 4
  | .encStepYieldBrIndex => .encoderState 5
  | .encStepYieldBrLength => .encoderState 6
  | .encStepSaveBacklog => .encoderState 7
  | .encStepFlushBits => .encoderState 8
  | .encStepDone => .encoderState 9
  | .decStepTagBit => .decoderState 0
  | .decStepYieldLiteral => .decoderState 1
  | .decStepBackrefIndexMsb => .decoderState 2
  | .decStepBackrefIndexLsb => .decoderState 3
  | .decStepBackrefCountLsb => .decoderState 4
  | .decStepYieldBackref => .decoderState 5

/-- How many bits an encoding has: the stream bits, or the code (the argument of a command has none). -/
def Encoded.width : Encoded → Nat
  | .stream bits => bits.length
  | .command _ => 3
  | .encoderState _ => 4
  | .decoderState _ => 3

/-! ## The operands of a token -/

/-- The format and the two field values of a backreference token (R93), as (W, L, index, count). -/
def Instr.bref? : Instr → Option (Nat × Nat × Nat × Nat)
  | .bref index count => some (8, 4, index.toNat, count.toNat)
  | .bref4_3 index count => some (4, 3, index.toNat, count.toNat)
  | .bref5_3 index count => some (5, 3, index.toNat, count.toNat)
  | .bref5_4 index count => some (5, 4, index.toNat, count.toNat)
  | .bref6_3 index count => some (6, 3, index.toNat, count.toNat)
  | .bref6_4 index count => some (6, 4, index.toNat, count.toNat)
  | .bref6_5 index count => some (6, 5, index.toNat, count.toNat)
  | .bref7_3 index count => some (7, 3, index.toNat, count.toNat)
  | .bref7_4 index count => some (7, 4, index.toNat, count.toNat)
  | .bref7_5 index count => some (7, 5, index.toNat, count.toNat)
  | .bref7_6 index count => some (7, 6, index.toNat, count.toNat)
  | .bref8_3 index count => some (8, 3, index.toNat, count.toNat)
  | .bref8_5 index count => some (8, 5, index.toNat, count.toNat)
  | .bref8_6 index count => some (8, 6, index.toNat, count.toNat)
  | .bref8_7 index count => some (8, 7, index.toNat, count.toNat)
  | .bref9_3 index count => some (9, 3, index.toNat, count.toNat)
  | .bref9_4 index count => some (9, 4, index.toNat, count.toNat)
  | .bref9_5 index count => some (9, 5, index.toNat, count.toNat)
  | .bref9_6 index count => some (9, 6, index.toNat, count.toNat)
  | .bref9_7 index count => some (9, 7, index.toNat, count.toNat)
  | .bref9_8 index count => some (9, 8, index.toNat, count.toNat)
  | .bref10_3 index count => some (10, 3, index.toNat, count.toNat)
  | .bref10_4 index count => some (10, 4, index.toNat, count.toNat)
  | .bref10_5 index count => some (10, 5, index.toNat, count.toNat)
  | .bref10_6 index count => some (10, 6, index.toNat, count.toNat)
  | .bref10_7 index count => some (10, 7, index.toNat, count.toNat)
  | .bref10_8 index count => some (10, 8, index.toNat, count.toNat)
  | .bref11_3 index count => some (11, 3, index.toNat, count.toNat)
  | .bref11_4 index count => some (11, 4, index.toNat, count.toNat)
  | .bref11_5 index count => some (11, 5, index.toNat, count.toNat)
  | .bref11_6 index count => some (11, 6, index.toNat, count.toNat)
  | .bref11_7 index count => some (11, 7, index.toNat, count.toNat)
  | .bref11_8 index count => some (11, 8, index.toNat, count.toNat)
  | .bref12_3 index count => some (12, 3, index.toNat, count.toNat)
  | .bref12_4 index count => some (12, 4, index.toNat, count.toNat)
  | .bref12_5 index count => some (12, 5, index.toNat, count.toNat)
  | .bref12_6 index count => some (12, 6, index.toNat, count.toNat)
  | .bref12_7 index count => some (12, 7, index.toNat, count.toNat)
  | .bref12_8 index count => some (12, 8, index.toNat, count.toNat)
  | .bref13_3 index count => some (13, 3, index.toNat, count.toNat)
  | .bref13_4 index count => some (13, 4, index.toNat, count.toNat)
  | .bref13_5 index count => some (13, 5, index.toNat, count.toNat)
  | .bref13_6 index count => some (13, 6, index.toNat, count.toNat)
  | .bref13_7 index count => some (13, 7, index.toNat, count.toNat)
  | .bref13_8 index count => some (13, 8, index.toNat, count.toNat)
  | .bref14_3 index count => some (14, 3, index.toNat, count.toNat)
  | .bref14_4 index count => some (14, 4, index.toNat, count.toNat)
  | .bref14_5 index count => some (14, 5, index.toNat, count.toNat)
  | .bref14_6 index count => some (14, 6, index.toNat, count.toNat)
  | .bref14_7 index count => some (14, 7, index.toNat, count.toNat)
  | .bref14_8 index count => some (14, 8, index.toNat, count.toNat)
  | .bref15_3 index count => some (15, 3, index.toNat, count.toNat)
  | .bref15_4 index count => some (15, 4, index.toNat, count.toNat)
  | .bref15_5 index count => some (15, 5, index.toNat, count.toNat)
  | .bref15_6 index count => some (15, 6, index.toNat, count.toNat)
  | .bref15_7 index count => some (15, 7, index.toNat, count.toNat)
  | .bref15_8 index count => some (15, 8, index.toNat, count.toNat)
  | .lit _ | .encSink _ | .encPoll _ | .encFinish | .encReset | .decSink _ | .decPoll _
  | .decFinish | .decReset | .encStepNotFull | .encStepFilled | .encStepSearch
  | .encStepYieldTagBit | .encStepYieldLiteral | .encStepYieldBrIndex | .encStepYieldBrLength
  | .encStepSaveBacklog | .encStepFlushBits | .encStepDone | .decStepTagBit
  | .decStepYieldLiteral | .decStepBackrefIndexMsb | .decStepBackrefIndexLsb
  | .decStepBackrefCountLsb | .decStepYieldBackref => none

/-! ## The host's numbering of the table

The table's rows come from four spaces of codes that overlap (a token, a command and two kinds of state code
may all be the number 0), so a number alone does not name a row. The order of preference below is the
model's (log 19). -/

/-- A row of this width is asked about with this many bits: its own width, or that width in whole bytes. -/
def widthFits (nbits width : Nat) : Bool :=
  decide (width = nbits) ||
    (decide (nbits % 8 = 0) && decide (width ≤ nbits) && decide (nbits < width + 8))

/-- The 57 backreference formats, the shipped one first, then as the table lists them. -/
def tableFormats : List (Nat × Nat) :=
  [(8, 4), (4, 3), (5, 3), (5, 4), (6, 3), (6, 4), (6, 5), (7, 3), (7, 4)] ++
  [(7, 5), (7, 6), (8, 3), (8, 5), (8, 6), (8, 7), (9, 3), (9, 4), (9, 5)] ++
  [(9, 6), (9, 7), (9, 8), (10, 3), (10, 4), (10, 5), (10, 6), (10, 7), (10, 8)] ++
  [(11, 3), (11, 4), (11, 5), (11, 6), (11, 7), (11, 8), (12, 3), (12, 4), (12, 5)] ++
  [(12, 6), (12, 7), (12, 8), (13, 3), (13, 4), (13, 5), (13, 6), (13, 7), (13, 8)] ++
  [(14, 3), (14, 4), (14, 5), (14, 6), (14, 7), (14, 8), (15, 3), (15, 4), (15, 5)] ++
  [(15, 6), (15, 7), (15, 8)]

/-- The instruction an encoding stands for, without the bits left over and without the reason. -/
def decode? (W L : Nat) (e : Encoded) : Option Instr :=
  match decode W L e with
  | .ok (i, _) => some i
  | .error _ => none

/-- The token a number stands for: first stream bit the most significant (R108). -/
def decodeTableToken (nbits w : Nat) : Option Instr :=
  if widthFits nbits 9 && decide (256 ≤ w) && decide (w < 512) then
    decode? 8 4 (.stream (fieldBits 9 w))
  else
    match tableFormats.find? (fun f => widthFits nbits (1 + f.1 + f.2) && decide (w < 2 ^ (f.1 + f.2))) with
    | some (W, L) => decode? W L (.stream (fieldBits (1 + W + L) w))
    | none => none

/-- The instruction the decoder reads from a number, as the host asks it: a command for 3 bits, an encoder
micro-step for 4, a token for more; of one byte, a command below 8, an encoder micro-step for 8 and 9, a token
above (log 19).

DESIGN CHOICE (log 26): a number carries a command's 3-bit code and no argument, to which R99 gives no binary form. A `sink`
read from a number has the empty slice, a `poll` the capacity 0 (so that it answers `Misuse`, 44_streaming_protocol.md
R215, R221). -/
def decodeTableWord (nbits w : Nat) : Option Instr :=
  if nbits = 3 then
    if w < 8 then decode? 8 4 (.command (.plain (BitVec.ofNat 3 w))) else none
  else if nbits = 4 then
    if w < 16 then decode? 8 4 (.encoderState (BitVec.ofNat 4 w)) else none
  else if nbits = 8 then
    if w < 8 then decode? 8 4 (.command (.plain (BitVec.ofNat 3 w)))
    else if w < 10 then decode? 8 4 (.encoderState (BitVec.ofNat 4 w))
    else decodeTableToken nbits w
  else decodeTableToken nbits w

end Sys2Proof
end

