-- ==== Sys2Proof/Machine/State.lean ====
section
/-! DEFINITION. The state of the block as plain data (10_state.md), its reset value (R46), and the reasons a
step can stop. -/

namespace Sys2Proof.Machine

/-- A memory by address: rising addresses, nothing listed that reads as the reset contents (log 10). -/
abbrev Cells (α : Type) := List (Nat × α)

/-- A byte memory: a list of `Host.Cell`. An unlisted byte is 0, its reset value (10_state.md R29, R39, R40). -/
abbrev Memory := Cells Byte

/-- The index memory: an unlisted entry is `NONE`, its reset value (10_state.md R30). -/
abbrev IndexMemory := Cells (Option Nat)

/-- The four private memories (20_memory.md R60). -/
inductive Space where
  | encBuf | encIdx | decWin | decStg
  deriving DecidableEq, Repr

/-- The encoder unit (10_state.md R20 to R30). -/
structure Enc where
  /-- `enc.state` (R21). -/
  state : EncState
  /-- `enc.input_size` (R22). -/
  inputSize : Nat
  /-- `enc.match_scan_index` (R23). -/
  matchScanIndex : Nat
  /-- `enc.match_length` (R24). -/
  matchLength : Nat
  /-- `enc.match_pos`, a distance (R25). -/
  matchPos : Nat
  /-- `enc.outgoing_bits` (R26). -/
  outgoingBits : BitVec 16
  /-- `enc.outgoing_bits_count` (R26). -/
  outgoingBitsCount : Nat
  /-- `enc.flags` (R27, log 16). -/
  flags : BitVec 8
  /-- `enc.current_byte` (R28). -/
  currentByte : Byte
  /-- `enc.bit_index`: how many positions of `enc.current_byte` are filled (R28). -/
  bitIndex : Nat
  /-- `enc.buffer`; stale cells keep what was last written (R29, log 24). -/
  buffer : Memory
  /-- `enc.index`, empty when `INDEXED` is false (R30, log 23). -/
  index : IndexMemory
  deriving DecidableEq, Repr

/-- The decoder unit (10_state.md R32 to R40). -/
structure Dec where
  /-- `dec.state` (R33). -/
  state : DecState
  /-- `dec.input_size` (R34). -/
  inputSize : Nat
  /-- `dec.input_index` (R34). -/
  inputIndex : Nat
  /-- `dec.current_byte` (R35). -/
  currentByte : Byte
  /-- `dec.bit_index`: how many bits of `dec.current_byte` are not yet delivered (R35). -/
  bitIndex : Nat
  /-- `dec.head_index`, an unbounded count (R36, log 15). -/
  headIndex : Nat
  /-- `dec.output_index` (R37). -/
  outputIndex : Nat
  /-- `dec.output_count` (R38). -/
  outputCount : Nat
  /-- `dec.window` (R39). -/
  window : Memory
  /-- `dec.staging` (R40). -/
  staging : Memory
  deriving DecidableEq, Repr

/-- The bounded output sink of a running poll (44_streaming_protocol.md R212): `cap`, and `out[0 .. produced)`,
whose length is `produced`. -/
structure OutSink where
  cap : Nat
  out : List Byte
  deriving DecidableEq, Repr

/-- What a command returns to the host (44_streaming_protocol.md R213). `produced` is the length of the bytes;
`reset` returns nothing and has no reply. -/
inductive Reply where
  | sunk (status : Status) (consumed : Nat)
  | polled (status : Status) (out : List Byte)
  | finished (status : Status)
  deriving DecidableEq, Repr

/-- How much of the block's work one step shows: a whole command, one token of a running `DEC.POLL`, or one
micro-step of a running poll (log 6). -/
inductive Grain where
  | command | token | microStep
  deriving DecidableEq, Repr

/-- The state of the block and of its host port. -/
structure State where
  /-- The build-time parameters (00_scope.md R8), which no step changes (log 1). -/
  build : Build
  /-- The encoder unit. -/
  enc : Enc
  /-- The decoder unit. -/
  dec : Dec
  /-- The output sink of a running `ENC.POLL` (10_state.md R44 part d). -/
  encOut : Option OutSink
  /-- The output sink of a running `DEC.POLL`. -/
  decOut : Option OutSink
  /-- What the last command to the encoder returned (log 5). -/
  encReply : Option Reply
  /-- What the last command to the decoder returned (log 5). -/
  decReply : Option Reply
  /-- Commands issued by the host and not yet run, oldest first (log 3). -/
  pending : List CommandWord
  /-- How much one step shows (log 6). -/
  grain : Grain
  deriving DecidableEq, Repr

/-- Why the model stops. None is reachable from a state that meets the invariants of 10_state.md R31 and R41:
the block has "no fault that stops it" (60_exceptions.md). -/
inductive Fault where
  /-- An address outside its space: `Filled`, `Search`, `YieldLiteral` and every reader of stream bits raise it.
  Safe: 20_memory.md R62 says the address is always inside (log 11). -/
  | outsideSpace (space : Space)
  /-- A poll loop that used up its bound on micro-steps: `ENC.POLL` and `DEC.POLL` raise it.
  Safe: 42_encoder_fsm.md R173 and 43_decoder_fsm.md R202 say that the loop ends (log 12). -/
  | pollDidNotReturn
  /-- State `BackrefIndexMsb` in a build with W ≤ 8: the micro-step of that state raises it.
  Safe: the state is reachable only when W > 8 (10_state.md R33) (log 13). -/
  | stateNotInBuild
  deriving DecidableEq, Repr

/-- Why the model has no answer. All but `notModelled` are for what the host or the block cannot do. -/
inductive Refusal where
  /-- An instruction that has no meaning yet: `exec` raises it by the table's mnemonic. Safe. -/
  | notModelled (mnemonic : String)
  /-- Build parameters outside 00_scope.md R8: `step` raises it. Safe (log 2). -/
  | illegalBuild
  /-- A command to a unit whose poll is still running: the commands raise it. Safe: the source gives no
  behaviour (93_implementation_defined.md U10) (log 18). -/
  | unitBusy
  /-- A micro-step or a token outside a poll: they raise it. Safe: "Micro-steps run only inside" a poll (log 7). -/
  | noPollRunning
  /-- A micro-step that the unit's state register does not select: the micro-steps raise it. Safe:
  42_encoder_fsm.md R160, 43_decoder_fsm.md R190 (log 7). -/
  | microStepNotSelected
  /-- A token when the decoder is inside another token: the tokens raise it. Safe (log 8). -/
  | notAtTokenBoundary
  /-- A backreference token of a format that is not the build's: the backreferences raise it. Safe: no build
  decodes its stream to such a token (30_encoding.md R97) (log 8). -/
  | tokenOfOtherBuild
  deriving DecidableEq, Repr

/-- The outcome of an instruction or a step. -/
abbrev Result := Host.Outcome State Fault Refusal

/-- The encoder after power-on and after `ENC.RESET` (10_state.md R46). -/
def Enc.reset : Enc :=
  { state := .notFull, inputSize := 0, matchScanIndex := 0, matchLength := 0, matchPos := 0,
    outgoingBits := 0, outgoingBitsCount := 0, flags := 0, currentByte := 0, bitIndex := 0,
    buffer := [], index := [] }

/-- The decoder after power-on and after `DEC.RESET` (10_state.md R46). -/
def Dec.reset : Dec :=
  { state := .tagBit, inputSize := 0, inputIndex := 0, currentByte := 0, bitIndex := 0,
    headIndex := 0, outputIndex := 0, outputCount := 0, window := [], staging := [] }

/-- A block of the given build right after its creation: both units reset (70_reset_and_hazards.md R270), no
command issued, none answered (log 3, log 5, log 6). -/
def State.created (b : Build) : State :=
  { build := b, enc := .reset, dec := .reset, encOut := none, decOut := none, encReply := none,
    decReply := none, pending := [], grain := .command }

/-- The shipped block right after reset (R46, 00_scope.md R8). -/
def State.reset : State :=
  .created .shipped

end Sys2Proof.Machine
end

