-- ==== Sys2Proof/Machine/Ops.lean ====
section
/-! DEFINITION. The shared operations over memories, output sinks and replies, and what becomes of a command's
result. There are no exceptions to take: "The analogue of `raise <Exception>(info)` is `return (Status, count)`"
(00_scope.md R13, 60_exceptions.md R240), and that is `State.encReturn` and `State.decReturn`. -/

namespace Sys2Proof.Machine

/-! ## Memories (20_memory.md R62) -/

/-- The cell at an address; `d` is what an unlisted address reads as. -/
def Cells.read {α : Type} (d : α) : Cells α → Nat → α
  | [], _ => d
  | (b, v) :: rest, a => if a = b then v else Cells.read d rest a

/-- Puts a cell in front unless it reads as the unlisted value. -/
def Cells.put {α : Type} [DecidableEq α] (d : α) (a : Nat) (v : α) (rest : Cells α) : Cells α :=
  if v = d then rest else (a, v) :: rest

/-- The memory with the cell at address `a` replaced by `v`, in canonical form. -/
def Cells.write {α : Type} [DecidableEq α] (d : α) : Cells α → Nat → α → Cells α
  | [], a, v => Cells.put d a v []
  | (b, w) :: rest, a, v =>
    if a < b then Cells.put d a v ((b, w) :: rest)
    else if a = b then Cells.put d a v rest
    else (b, w) :: Cells.write d rest a v

/-- The canonical form: every listed address at or above `low`, addresses strictly rising, no cell that reads as
the unlisted value. -/
def Cells.wfFrom {α : Type} [DecidableEq α] (d : α) : Nat → Cells α → Bool
  | _, [] => true
  | low, (a, v) :: rest => decide (low ≤ a) && decide (v ≠ d) && Cells.wfFrom d (a + 1) rest

/-- Every listed address is below `size`: no cell of the memory is outside its space. -/
def Cells.within {α : Type} (size : Nat) (m : Cells α) : Bool :=
  m.all fun c => decide (c.1 < size)

/-- `MemRead` of a byte memory (R62). -/
def Memory.read (m : Memory) (a : Nat) : Byte :=
  Cells.read 0 m a

/-- `MemWrite` of a byte memory (R62). -/
def Memory.write (m : Memory) (a : Nat) (v : Byte) : Memory :=
  Cells.write 0 m a v

/-- A byte memory is in canonical form. -/
def Memory.wf (m : Memory) : Bool :=
  Cells.wfFrom 0 0 m

/-- `MemRead` of the index memory (R62, R73). -/
def IndexMemory.read (m : IndexMemory) (a : Nat) : Option Nat :=
  Cells.read none m a

/-- `MemWrite` of the index memory (R62, R73). -/
def IndexMemory.write (m : IndexMemory) (a : Nat) (p : Option Nat) : IndexMemory :=
  Cells.write none m a p

/-- The index memory is in canonical form. -/
def IndexMemory.wf (m : IndexMemory) : Bool :=
  Cells.wfFrom none 0 m

/-- Bytes stored at ascending addresses from `a` on (R64, R71). -/
def Memory.append (m : Memory) (a : Nat) : List Byte → Memory
  | [] => m
  | v :: rest => Memory.append (m.write a v) (a + 1) rest

/-- Cells `from`, …, `from + n - 1` each replaced by the cell `m` addresses above, ascending (R67). -/
def Memory.moveDown (b : Memory) (m : Nat) (start : Nat) : Nat → Memory
  | 0 => b
  | n + 1 => Memory.moveDown (b.write start (b.read (start + m))) m (start + 1) n

/-- A check that every address below `limit` is one of the `size` addresses of a space (R62: "`a` is always inside
the space"). -/
def checkSpace (space : Space) (limit size : Nat) : Except Fault Unit :=
  if limit ≤ size then .ok () else .error (.outsideSpace space)

/-! ## The bounded output sink (44_streaming_protocol.md R212) -/

/-- A new output sink of the given capacity: nothing produced. -/
def OutSink.start (cap : Nat) : OutSink :=
  { cap := cap, out := [] }

/-- `produced`. -/
def OutSink.produced (k : OutSink) : Nat :=
  k.out.length

/-- `can_take_byte()`. -/
def OutSink.canTakeByte (k : OutSink) : Bool :=
  decide (k.produced < k.cap)

/-- `emit_byte(v)`. -/
def OutSink.emit (k : OutSink) (v : Byte) : OutSink :=
  { k with out := k.out ++ [v] }

/-- `produced = cap`. -/
def OutSink.isFull (k : OutSink) : Bool :=
  decide (k.produced = k.cap)

/-! ## Returning to the host (00_scope.md R13, 60_exceptions.md R240) -/

/-- A command to the encoder ends: the unit's new state, and the result the host gets. -/
def State.encReturn (s : State) (e : Enc) (reply : Option Reply) : State :=
  { s with enc := e, encOut := none, encReply := reply }

/-- A command to the decoder ends. -/
def State.decReturn (s : State) (d : Dec) (reply : Option Reply) : State :=
  { s with dec := d, decOut := none, decReply := reply }

/-- The encoder inside a running poll moves on. -/
def State.encRun (s : State) (e : Enc) (k : OutSink) : State :=
  { s with enc := e, encOut := some k }

/-- The decoder inside a running poll moves on. -/
def State.decRun (s : State) (d : Dec) (k : OutSink) : State :=
  { s with dec := d, decOut := some k }

end Sys2Proof.Machine
end

