-- ==== Sys2Proof/Machine/Operands.lean ====
section
/-! DEFINITION. The derived constants of a build (00_scope.md R8), the bit-field form of R11 and the assembly of
the two token operands (30_encoding.md R93). -/

namespace Sys2Proof

/-- `N = 2^W`, the window size in bytes (R8). -/
def Build.window (b : Build) : Nat := 2 ^ b.windowBits

/-- `LA = 2^L`, the lookahead size in bytes (R8). -/
def Build.lookahead (b : Build) : Nat := 2 ^ b.lookaheadBits

/-- `BREAK_EVEN_BITS = 1 + W + L` (R8, 41_match_finder.md R140). -/
def Build.breakEvenBits (b : Build) : Nat := 1 + b.windowBits + b.lookaheadBits

/-- `BREAK_EVEN`, the truncated quotient by 8 (R8, R140). -/
def Build.breakEven (b : Build) : Nat := b.breakEvenBits / 8

/-- The size of each private memory (20_memory.md R60); the index memory exists only if `INDEXED`. -/
def Build.spaceSize (b : Build) : Machine.Space → Nat
  | .encBuf => 2 * b.window
  | .encIdx => if b.indexed then 2 * b.window else 0
  | .decWin => b.window
  | .decStg => b.stagingSize

namespace Machine

/-- `v[lo + width - 1 : lo]` as an unsigned number (00_scope.md R11). -/
def bitField (v lo width : Nat) : Nat :=
  (v >>> lo) % 2 ^ width

/-- An operand is its field plus one: "distances are stored minus one" (30_encoding.md R93). -/
def operandOfField (field : Nat) : Nat := field + 1

/-- A field is its operand minus one (R93). -/
def fieldOfOperand (operand : Nat) : Nat := operand - 1

/-- The width of the low piece of the distance field: `min(W, 8)` (43_decoder_fsm.md R194). -/
def lowIndexBits (b : Build) : Nat := min b.windowBits 8

/-- The width of the high piece of the distance field: `W - 8` (R193). -/
def highIndexBits (b : Build) : Nat := b.windowBits - 8

end Machine

end Sys2Proof
end

