-- ==== Sys2Proof/Machine/Accumulator.lean ====
section
/-! DEFINITION. The bit accumulators (40_bit_accumulator.md): the encoder's packs bits into bytes, the decoder's
takes them out again. -/

namespace Sys2Proof.Machine

/-! ## Packing -/

/-- `push_bits(count, bits)` (R122). The caller has seen that the sink can take a byte. Shifting left by `8 - r` in
eight bits keeps exactly the low `r` bits of the field, left-aligned. -/
def pushBits (b : Build) (count : Nat) (bits : Byte) (e : Enc) (k : OutSink) : Enc × OutSink :=
  let free := 8 - e.bitIndex
  if free < count ∨ (free = count ∧ b.emitOnExactFill = true) then
    let r := count - free
    ({ e with currentByte := if r = 0 then 0 else bits <<< (8 - r), bitIndex := r },
      k.emit (e.currentByte ||| (bits >>> r)))
  else
    ({ e with currentByte := e.currentByte ||| (bits <<< (free - count)),
              bitIndex := e.bitIndex + count }, k)

/-- How many bits one call of `push_outgoing_bits` pushes: up to 8 (R124). -/
def outgoingPiece (e : Enc) : Nat :=
  if 8 < e.outgoingBitsCount then 8 else e.outgoingBitsCount

/-- `push_outgoing_bits()` (R124): the top piece of the pending bits `enc.outgoing_bits[c-1 : 0]`; the third
component is the number it returns. -/
def pushOutgoingBits (b : Build) (e : Enc) (k : OutSink) : Enc × OutSink × Nat :=
  let c := e.outgoingBitsCount
  let count := outgoingPiece e
  if 0 < count then
    let bits : Byte := BitVec.ofNat 8 (bitField e.outgoingBits.toNat (c - count) count)
    let p := pushBits b count bits e k
    ({ p.1 with outgoingBitsCount := c - count }, p.2, count)
  else (e, k, 0)

/-- The bit stream produced so far, as far as this poll shows it: the bytes emitted, then the filled positions of
`enc.current_byte` (R120). -/
def packedBits (e : Enc) (k : OutSink) : List Bool :=
  streamBits k.out ++ fieldBits e.bitIndex (e.currentByte.toNat >>> (8 - e.bitIndex))

/-! ## Unpacking -/

/-- `bits_available()` (R130). -/
def bitsAvailable (d : Dec) : Nat :=
  d.bitIndex + 8 * (d.inputSize - d.inputIndex)

/-- The staging fetch (20_memory.md R72). -/
def stagingFetch (b : Build) (d : Dec) : Except Fault Dec :=
  match checkSpace .decStg (d.inputIndex + 1) (b.spaceSize .decStg) with
  | .error f => .error f
  | .ok () =>
    let drained := d.inputIndex + 1 = d.inputSize
    .ok { d with
      currentByte := d.staging.read d.inputIndex
      inputIndex := if drained then 0 else d.inputIndex + 1
      inputSize := if drained then 0 else d.inputSize
      bitIndex := 8 }

/-- Delivers one bit of the accumulator, the highest undelivered one (R129, R131). -/
def deliverBit (d : Dec) : Nat × Dec :=
  ((d.currentByte.getLsbD (d.bitIndex - 1)).toNat, { d with bitIndex := d.bitIndex - 1 })

/-- The loop of `get_bits` (R131): a byte is fetched only when a bit of it is needed. -/
def takeBits (b : Build) : Nat → Nat → Dec → Except Fault (Nat × Dec)
  | 0, acc, d => .ok (acc, d)
  | n + 1, acc, d =>
    match (if d.bitIndex = 0 then stagingFetch b d else .ok d) with
    | .error f => .error f
    | .ok loaded =>
      let (bit, rest) := deliverBit loaded
      takeBits b n (2 * acc + bit) rest

/-- `get_bits(count)` (R131): `none` suspends and writes nothing. -/
def getBits (b : Build) (count : Nat) (d : Dec) : Except Fault (Option (Nat × Dec)) :=
  if bitsAvailable d < count then .ok none
  else
    match takeBits b count 0 d with
    | .error f => .error f
    | .ok r => .ok (some r)

/-- The staged bytes not yet loaded, oldest first (R129). -/
def stagedBytes (d : Dec) : List Byte :=
  (List.range (d.inputSize - d.inputIndex)).map fun i => d.staging.read (d.inputIndex + i)

/-- The unread part of the compressed stream as far as the decoder holds it (R129). -/
def unreadBits (d : Dec) : List Bool :=
  fieldBits d.bitIndex d.currentByte.toNat ++ streamBits (stagedBytes d)

end Sys2Proof.Machine
end

