-- ==== Sys2Proof/Machine/DecoderFsm.lean ====
section
/-! DEFINITION. The decoder state machine (43_decoder_fsm.md): one transition function per state, over the decoder
and the output sink of the running poll, and the meaning of each decoder micro-step as an instruction. -/

namespace Sys2Proof.Machine

/-- A transition of the decoder inside a poll. -/
abbrev DecTransition := Build → Dec → OutSink → Except Fault (Dec × OutSink)

/-- Produces one byte: stored at `dec.head_index mod N` before `dec.head_index` is incremented, and emitted
(20_memory.md R68). -/
def produceByte (b : Build) (c : Byte) (d : Dec) (k : OutSink) : Dec × OutSink :=
  ({ d with window := d.window.write (d.headIndex % b.window) c, headIndex := d.headIndex + 1 }, k.emit c)

/-- The byte that the pending backreference copies next: 0 before the first byte produced, else the byte produced
`dec.output_index` bytes ago (R196, 20_memory.md R69). -/
def copySource (b : Build) (d : Dec) : Byte :=
  if d.headIndex < d.outputIndex then 0
  else d.window.read ((d.headIndex - d.outputIndex) % b.window)

/-- Copies `n` bytes of the pending backreference, byte by byte (R196, 20_memory.md R70). -/
def copyBytes (b : Build) : Nat → Dec → OutSink → Dec × OutSink
  | 0, d, k => (d, k)
  | n + 1, d, k =>
    let p := produceByte b (copySource b d) d k
    copyBytes b n { p.1 with outputCount := p.1.outputCount - 1 } p.2

/-- State `TagBit` (R191). -/
def tagBitStep : DecTransition := fun b d k =>
  match getBits b 1 d with
  | .error f => .error f
  | .ok none => .ok (d, k)
  | .ok (some (bit, d')) =>
    if bit = 0 then
      .ok ({ d' with outputIndex := 0
                     state := if 8 < b.windowBits then .backrefIndexMsb else .backrefIndexLsb }, k)
    else .ok ({ d' with state := .yieldLiteral }, k)

/-- State `YieldLiteral` (R192). -/
def decLiteralStep : DecTransition := fun b d k =>
  if k.canTakeByte then
    match getBits b 8 d with
    | .error f => .error f
    | .ok none => .ok (d, k)
    | .ok (some (c, d')) =>
      let p := produceByte b (BitVec.ofNat 8 c) d' k
      .ok ({ p.1 with state := .tagBit }, p.2)
  else .ok (d, k)

/-- State `BackrefIndexMsb` (R193), which a build with W ≤ 8 does not have (10_state.md R33, log 13). -/
def backrefIndexMsbStep : DecTransition := fun b d k =>
  if 8 < b.windowBits then
    match getBits b (highIndexBits b) d with
    | .error f => .error f
    | .ok none => .ok (d, k)
    | .ok (some (v, d')) => .ok ({ d' with outputIndex := v <<< 8, state := .backrefIndexLsb }, k)
  else .error .stateNotInBuild

/-- State `BackrefIndexLsb` (R194). -/
def backrefIndexLsbStep : DecTransition := fun b d k =>
  match getBits b (lowIndexBits b) d with
  | .error f => .error f
  | .ok none => .ok (d, k)
  | .ok (some (v, d')) =>
    .ok ({ d' with outputIndex := operandOfField (d.outputIndex ||| v)
                   outputCount := 0
                   state := .backrefCountLsb }, k)

/-- State `BackrefCountLsb` (R195). -/
def backrefCountLsbStep : DecTransition := fun b d k =>
  match getBits b b.lookaheadBits d with
  | .error f => .error f
  | .ok none => .ok (d, k)
  | .ok (some (v, d')) => .ok ({ d' with outputCount := operandOfField v, state := .yieldBackref }, k)

/-- How many bytes one `YieldBackref` copies: `min(dec.output_count, cap - produced)` (R196). -/
def copyCount (d : Dec) (k : OutSink) : Nat :=
  min d.outputCount (k.cap - k.produced)

/-- What `YieldBackref` does: copies as many bytes as there is room for, and leaves when none is left to copy (R196). -/
def copyBackref (b : Build) (d : Dec) (k : OutSink) : Dec × OutSink :=
  if copyCount d k = 0 then (d, k)
  else
    let p := copyBytes b (copyCount d k) d k
    if p.1.outputCount = 0 then ({ p.1 with state := .tagBit }, p.2) else p

/-- State `YieldBackref` (R196). -/
def yieldBackrefStep : DecTransition := fun b d k => .ok (copyBackref b d k)

/-- `dec_step()`: the micro-step of the state named by `dec.state` (R190). -/
def decStep : DecTransition := fun b d k =>
  match d.state with
  | .tagBit => tagBitStep b d k
  | .yieldLiteral => decLiteralStep b d k
  | .backrefIndexMsb => backrefIndexMsbStep b d k
  | .backrefIndexLsb => backrefIndexLsbStep b d k
  | .backrefCountLsb => backrefCountLsbStep b d k
  | .yieldBackref => yieldBackrefStep b d k

/-! ## The micro-steps as instructions

"Micro-steps run only inside `DEC.POLL`", and only the one that `dec.state` names (R190). -/

/-- Runs the transition `t` of state `q` under the running poll. -/
def decMicroStep (q : DecState) (t : DecTransition) (s : State) : Result :=
  match s.decOut with
  | none => .refused .noPollRunning
  | some k =>
    if s.dec.state = q then
      match t s.build s.dec k with
      | .error f => .fault f
      | .ok (d, k') => .next (s.decRun d k')
    else .refused .microStepNotSelected

/-- `DEC.STEP.TagBit` (R191). -/
def execDecStepTagBit (s : State) : Result := decMicroStep .tagBit tagBitStep s

/-- `DEC.STEP.YieldLiteral` (R192). -/
def execDecStepYieldLiteral (s : State) : Result := decMicroStep .yieldLiteral decLiteralStep s

/-- `DEC.STEP.BackrefIndexMsb` (R193). -/
def execDecStepBackrefIndexMsb (s : State) : Result := decMicroStep .backrefIndexMsb backrefIndexMsbStep s

/-- `DEC.STEP.BackrefIndexLsb` (R194). -/
def execDecStepBackrefIndexLsb (s : State) : Result := decMicroStep .backrefIndexLsb backrefIndexLsbStep s

/-- `DEC.STEP.BackrefCountLsb` (R195). -/
def execDecStepBackrefCountLsb (s : State) : Result := decMicroStep .backrefCountLsb backrefCountLsbStep s

/-- `DEC.STEP.YieldBackref` (R196). -/
def execDecStepYieldBackref (s : State) : Result := decMicroStep .yieldBackref yieldBackrefStep s

end Sys2Proof.Machine
end

