-- ==== Sys2Proof/Machine/Finder.lean ====
section
/-! DEFINITION. The match finder (41_match_finder.md): the result as R142 defines it, and the two strategies that
compute it, of which the build selects one. -/

namespace Sys2Proof.Machine

/-- A match that the finder reports (R142). -/
structure Match where
  distance : Nat
  length : Nat
  deriving DecidableEq, Repr

/-- `mlen(pos, end, max_len)`: the length of the common run (R141). -/
def mlen (m : Memory) (pos fin : Nat) : Nat → Nat
  | 0 => 0
  | n + 1 => if m.read pos = m.read fin then mlen m (pos + 1) (fin + 1) n + 1 else 0

/-! ## The result (R142) -/

/-- The greatest `mlen` over the candidates `fin - 1`, …, `fin - n`. -/
def bestLength (m : Memory) (fin maxLen : Nat) : Nat → Nat
  | 0 => 0
  | n + 1 => max (bestLength m fin maxLen n) (mlen m (fin - (n + 1)) fin maxLen)

/-- The least distance in `from`, …, `from + n - 1` whose candidate has the given `mlen`. -/
def nearest (m : Memory) (fin maxLen best : Nat) (start : Nat) : Nat → Option Nat
  | 0 => none
  | n + 1 =>
    if mlen m (fin - start) fin maxLen = best then some start
    else nearest m fin maxLen best (start + 1) n

/-- `find_longest_match(start, end, max_len)` by its definition (R142): the longest common run, and among equals the
nearest; `none` is `NoMatch`. -/
def findLongestMatch (breakEven : Nat) (m : Memory) (start fin maxLen : Nat) : Option Match :=
  let best := bestLength m fin maxLen (fin - start)
  if best ≤ breakEven then none
  else (nearest m fin maxLen best 1 (fin - start)).map fun d => { distance := d, length := best }

/-! ## What both strategies do with a candidate -/

/-- The best candidate so far: its length (0 when there is none) and its address. -/
structure Best where
  length : Nat
  pos : Nat
  deriving DecidableEq, Repr

/-- No candidate yet. -/
def Best.none : Best := { length := 0, pos := 0 }

/-- The acceptance test at the end of both procedures (R144, R145, R147). -/
def Best.accept (c : Best) (breakEven fin : Nat) : Option Match :=
  if breakEven < c.length then some { distance := fin - c.pos, length := c.length } else Option.none

/-! ## Brute force (R145) -/

/-- The scan over the candidates `start + n - 1` down to `start`. -/
def bruteScan (m : Memory) (start fin maxLen : Nat) : Nat → Best → Best
  | 0, best => best
  | n + 1, best =>
    let pos := start + n
    if m.read (pos + best.length) = m.read (fin + best.length) ∧ m.read pos = m.read fin then
      let len := mlen m pos fin maxLen
      if best.length < len then
        if len = maxLen then { length := len, pos := pos }
        else bruteScan m start fin maxLen n { length := len, pos := pos }
      else bruteScan m start fin maxLen n best
    else bruteScan m start fin maxLen n best

/-- The brute-force strategy (R145). -/
def bruteForce (breakEven : Nat) (m : Memory) (start fin maxLen : Nat) : Option Match :=
  (bruteScan m start fin maxLen (fin - start) .none).accept breakEven fin

/-! ## The linked occurrence index (R146, R147) -/

/-- The loop of `do_indexing` over the addresses `i`, …, `i + n - 1`; `last` is the scratch table of the most recent
position of each byte value (10_state.md R44 part c). -/
def indexFrom (m : Memory) (i : Nat) : Nat → IndexMemory → IndexMemory → IndexMemory
  | 0, index, _ => index
  | n + 1, index, last =>
    let v := (m.read i).toNat
    indexFrom m (i + 1) n (index.write i (last.read v)) (last.write v (some i))

/-- `do_indexing()` over the addresses below `limit` (R146). -/
def doIndexing (m : Memory) (limit : Nat) (index : IndexMemory) : IndexMemory :=
  indexFrom m 0 limit index []

/-- The walk along the chain (R147). It visits ever lower addresses, so at most `fuel` of them (R148). -/
def chainWalk (m : Memory) (index : IndexMemory) (start fin maxLen : Nat) : Nat → Option Nat → Best → Best
  | 0, _, best => best
  | _ + 1, none, best => best
  | fuel + 1, some pos, best =>
    if pos < start then best
    else if m.read (pos + best.length) = m.read (fin + best.length) then
      let len := mlen m pos fin maxLen
      if best.length < len then
        if len = maxLen then { length := len, pos := pos }
        else chainWalk m index start fin maxLen fuel (index.read pos) { length := len, pos := pos }
      else chainWalk m index start fin maxLen fuel (index.read pos) best
    else chainWalk m index start fin maxLen fuel (index.read pos) best

/-- The indexed strategy (R147). -/
def indexedSearch (breakEven : Nat) (m : Memory) (index : IndexMemory) (start fin maxLen : Nat) : Option Match :=
  (chainWalk m index start fin maxLen (fin - start) (index.read fin) .none).accept breakEven fin

/-- The strategy the build selects: "two implementations of one match-finder interface" (R150, log 25). -/
def searchMatch (b : Build) (m : Memory) (index : IndexMemory) (start fin maxLen : Nat) : Option Match :=
  if b.indexed then indexedSearch b.breakEven m index start fin maxLen
  else bruteForce b.breakEven m start fin maxLen

end Sys2Proof.Machine
end

