-- ==== Sys2Proof/Machine/Flags.lean ====
section
/-! DEFINITION. The block's only flag (10_state.md R27): `FINISHING`, bit 0 of `enc.flags`. No micro-step sets a
flag as a side effect, and there are no condition codes. -/

namespace Sys2Proof.Machine

/-- `enc.flags.FINISHING = 1` (R27). -/
def Enc.finishing (e : Enc) : Bool :=
  e.flags.getLsbD 0

/-- `enc.flags.FINISHING <- 1` (R27, 44_streaming_protocol.md R216). -/
def Enc.setFinishing (e : Enc) : Enc :=
  { e with flags := e.flags ||| 1 }

end Sys2Proof.Machine
end

