-- ==== Sys2Proof/Machine/EncoderFsm.lean ====
section
/-! DEFINITION. The encoder state machine (42_encoder_fsm.md): one transition function per state, over the encoder
and the output sink of the running poll, and the meaning of each encoder micro-step as an instruction. -/

namespace Sys2Proof.Machine

/-- A transition of the encoder inside a poll. -/
abbrev EncTransition := Build → Enc → OutSink → Except Fault (Enc × OutSink)

/-- `save_backlog()` (20_memory.md R67): everything moves down by the scan position. -/
def saveBacklog (b : Build) (e : Enc) : Enc :=
  let m := e.matchScanIndex
  { e with buffer := e.buffer.moveDown m 0 (2 * b.window - m)
           inputSize := e.inputSize - m
           matchScanIndex := 0 }

/-- State `NotFull`: "It has no micro-step effect" (R161). -/
def notFullStep : EncTransition := fun _ e k => .ok (e, k)

/-- State `Filled` (R162): builds the index if the build has one, then `Search`. -/
def filledStep : EncTransition := fun b e k =>
  if b.indexed then
    match checkSpace .encIdx (b.window + e.inputSize) (b.spaceSize .encIdx) with
    | .error f => .error f
    | .ok () =>
      .ok ({ e with index := doIndexing e.buffer (b.window + e.inputSize) e.index, state := .search }, k)
  else .ok ({ e with state := .search }, k)

/-- How much lookahead a search needs: all of it, or one byte when finishing (R163). -/
def neededLookahead (b : Build) (e : Enc) : Nat :=
  if e.finishing then 1 else b.lookahead

/-- What `Search` writes once the finder has answered (R163). -/
def afterSearch (e : Enc) : Option Match → Enc
  | none => { e with matchScanIndex := e.matchScanIndex + 1, matchLength := 0, state := .yieldTagBit }
  | some r => { e with matchPos := r.distance, matchLength := r.length, state := .yieldTagBit }

/-- State `Search` (R163). The finder reads addresses below `end + max_len` (20_memory.md R66). -/
def searchStep : EncTransition := fun b e k =>
  if e.inputSize < e.matchScanIndex + neededLookahead b e then
    .ok ({ e with state := if e.finishing then .flushBits else .saveBacklog }, k)
  else
    let fin := b.window + e.matchScanIndex
    let start := fin - b.window
    let maxLen := min b.lookahead (e.inputSize - e.matchScanIndex)
    match checkSpace .encBuf (fin + maxLen) (b.spaceSize .encBuf) with
    | .error f => .error f
    | .ok () => .ok (afterSearch e (searchMatch b e.buffer e.index start fin maxLen), k)

/-- State `YieldTagBit` (R164). -/
def yieldTagBitStep : EncTransition := fun b e k =>
  if k.canTakeByte then
    if e.matchLength = 0 then
      let p := pushBits b 1 1 e k
      .ok ({ p.1 with state := .yieldLiteral }, p.2)
    else
      let p := pushBits b 1 0 e k
      .ok ({ p.1 with outgoingBits := BitVec.ofNat 16 (fieldOfOperand e.matchPos)
                      outgoingBitsCount := b.windowBits
                      state := .yieldBrIndex }, p.2)
  else .ok (e, k)

/-- The address of the literal byte, the one the scan position has just stepped over (20_memory.md R65). -/
def literalAddress (b : Build) (e : Enc) : Nat :=
  b.window + e.matchScanIndex - 1

/-- State `YieldLiteral` (R165). -/
def yieldLiteralStep : EncTransition := fun b e k =>
  if k.canTakeByte then
    match checkSpace .encBuf (literalAddress b e + 1) (b.spaceSize .encBuf) with
    | .error f => .error f
    | .ok () =>
      let p := pushBits b 8 (e.buffer.read (literalAddress b e)) e k
      .ok ({ p.1 with state := .search }, p.2)
  else .ok (e, k)

/-- State `YieldBrIndex` (R166). -/
def yieldBrIndexStep : EncTransition := fun b e k =>
  if k.canTakeByte then
    let p := pushOutgoingBits b e k
    if 0 < p.2.2 then .ok (p.1, p.2.1)
    else
      .ok ({ e with outgoingBits := BitVec.ofNat 16 (fieldOfOperand e.matchLength)
                    outgoingBitsCount := b.lookaheadBits
                    state := .yieldBrLength }, k)
  else .ok (e, k)

/-- State `YieldBrLength` (R167). -/
def yieldBrLengthStep : EncTransition := fun b e k =>
  if k.canTakeByte then
    let p := pushOutgoingBits b e k
    if 0 < p.2.2 then .ok (p.1, p.2.1)
    else
      .ok ({ e with matchScanIndex := e.matchScanIndex + e.matchLength
                    matchLength := 0
                    state := .search }, k)
  else .ok (e, k)

/-- State `SaveBacklog` (R168). -/
def saveBacklogStep : EncTransition := fun b e k =>
  .ok ({ saveBacklog b e with state := .notFull }, k)

/-- State `FlushBits` (R169, 40_bit_accumulator.md R125). -/
def flushBitsStep : EncTransition := fun _ e k =>
  if e.bitIndex = 0 then .ok ({ e with state := .done }, k)
  else if k.canTakeByte then .ok ({ e with state := .done }, k.emit e.currentByte)
  else .ok (e, k)

/-- State `Done`: "No micro-step effect" (R170). -/
def doneStep : EncTransition := fun _ e k => .ok (e, k)

/-- `enc_step()`: the micro-step of the state named by `enc.state` (R160). -/
def encStep : EncTransition := fun b e k =>
  match e.state with
  | .notFull => notFullStep b e k
  | .filled => filledStep b e k
  | .search => searchStep b e k
  | .yieldTagBit => yieldTagBitStep b e k
  | .yieldLiteral => yieldLiteralStep b e k
  | .yieldBrIndex => yieldBrIndexStep b e k
  | .yieldBrLength => yieldBrLengthStep b e k
  | .saveBacklog => saveBacklogStep b e k
  | .flushBits => flushBitsStep b e k
  | .done => doneStep b e k

/-! ## The micro-steps as instructions

"Micro-steps run only inside `ENC.POLL`", and only the one that `enc.state` names (R160). -/

/-- Runs the transition `t` of state `q` under the running poll. -/
def encMicroStep (q : EncState) (t : EncTransition) (s : State) : Result :=
  match s.encOut with
  | none => .refused .noPollRunning
  | some k =>
    if s.enc.state = q then
      match t s.build s.enc k with
      | .error f => .fault f
      | .ok (e, k') => .next (s.encRun e k')
    else .refused .microStepNotSelected

/-- `ENC.STEP.NotFull` (R161). -/
def execEncStepNotFull (s : State) : Result := encMicroStep .notFull notFullStep s

/-- `ENC.STEP.Filled` (R162). -/
def execEncStepFilled (s : State) : Result := encMicroStep .filled filledStep s

/-- `ENC.STEP.Search` (R163). -/
def execEncStepSearch (s : State) : Result := encMicroStep .search searchStep s

/-- `ENC.STEP.YieldTagBit` (R164). -/
def execEncStepYieldTagBit (s : State) : Result := encMicroStep .yieldTagBit yieldTagBitStep s

/-- `ENC.STEP.YieldLiteral` (R165). -/
def execEncStepYieldLiteral (s : State) : Result := encMicroStep .yieldLiteral yieldLiteralStep s

/-- `ENC.STEP.YieldBrIndex` (R166). -/
def execEncStepYieldBrIndex (s : State) : Result := encMicroStep .yieldBrIndex yieldBrIndexStep s

/-- `ENC.STEP.YieldBrLength` (R167). -/
def execEncStepYieldBrLength (s : State) : Result := encMicroStep .yieldBrLength yieldBrLengthStep s

/-- `ENC.STEP.SaveBacklog` (R168). -/
def execEncStepSaveBacklog (s : State) : Result := encMicroStep .saveBacklog saveBacklogStep s

/-- `ENC.STEP.FlushBits` (R169). -/
def execEncStepFlushBits (s : State) : Result := encMicroStep .flushBits flushBitsStep s

/-- `ENC.STEP.Done` (R170). -/
def execEncStepDone (s : State) : Result := encMicroStep .done doneStep s

end Sys2Proof.Machine
end

