-- ==== Sys2Proof/Machine/Commands.lean ====
section
/-! DEFINITION. The eight host commands (44_streaming_protocol.md): first over one unit, then as instructions of the
block. A command is atomic: it runs to completion (R210, 20_memory.md R76). -/

namespace Sys2Proof.Machine

/-! ## Encoder -/

/-- `ENC_SINK_FILLED_STATUS` as a status (00_scope.md R8). -/
def filledStatus : FilledAnswer → Status
  | .full => .full
  | .misuse => .misuse

/-- Room in the input half (R214). -/
def encRoom (b : Build) (e : Enc) : Nat :=
  b.window - e.inputSize

/-- `ENC.SINK` in state `NotFull`: copies what fits (R214, 20_memory.md R64). -/
def encAccept (b : Build) (input : List Byte) (e : Enc) : Enc :=
  let k := min (encRoom b e) input.length
  { e with buffer := e.buffer.append (b.window + e.inputSize) (input.take k)
           inputSize := e.inputSize + k
           state := if k = encRoom b e then .filled else e.state }

/-- `ENC.SINK in[0..n)` (R214), statuses in the order of 60_exceptions.md R249. -/
def encSink (b : Build) (input : List Byte) (e : Enc) : Enc × Reply :=
  if e.finishing then (e, .sunk .misuse 0)
  else if e.state = .notFull then (encAccept b input e, .sunk .ok (min (encRoom b e) input.length))
  else if e.state = .filled then (e, .sunk (filledStatus b.sinkFilledStatus) 0)
  else (e, .sunk .misuse 0)

/-- Whether `ENC.POLL` returns after a micro-step that found the machine in `before` and left it in `after`, and with
which status (R215). The machine is looked at for `NotFull` and `Done` before the micro-step; in those two states the
micro-step has no effect (R161, R170), so that the look may come after it. -/
def encPollStatus (before after : EncState) (k : OutSink) : Option Status :=
  if before = .notFull ∨ before = .done ∨ after = .done then some .empty
  else if after = before ∧ k.isFull then some .more
  else none

/-- The loop of `ENC.POLL` (R215), for at most `fuel` micro-steps. -/
def encPollLoop (b : Build) : Nat → Enc → OutSink → Except Fault (Enc × OutSink × Status)
  | 0, _, _ => .error .pollDidNotReturn
  | fuel + 1, e, k =>
    match encStep b e k with
    | .error f => .error f
    | .ok (e', k') =>
      match encPollStatus e.state e'.state k' with
      | some status => .ok (e', k', status)
      | none => encPollLoop b fuel e' k'

/-- A bound on the micro-steps of one `ENC.POLL`: a constant number for each byte of input left (R173, log 12). -/
def encPollBound (b : Build) (e : Enc) : Nat :=
  (e.inputSize - e.matchScanIndex + 2) * (b.windowBits + b.lookaheadBits + 8) + e.outgoingBitsCount + 8

/-- `ENC.POLL cap` (R215). -/
def encPoll (b : Build) (cap : Nat) (e : Enc) : Except Fault (Enc × Reply) :=
  if cap = 0 then .ok (e, .polled .misuse [])
  else
    match encPollLoop b (encPollBound b e) e (.start cap) with
    | .error f => .error f
    | .ok (e', k, status) => .ok (e', .polled status k.out)

/-- `ENC.FINISH` (R216). -/
def encFinish (e : Enc) : Enc × Reply :=
  let marked := e.setFinishing
  let forced : Enc := { marked with state := if e.state = .notFull then .filled else e.state }
  (forced, .finished (if forced.state = .done then .done else .more))

/-! ## Decoder -/

/-- Room in the staging buffer (R220). -/
def decRoom (b : Build) (d : Dec) : Nat :=
  b.stagingSize - d.inputSize

/-- `DEC.SINK in[0..n)` (R220, 20_memory.md R71). -/
def decSink (b : Build) (input : List Byte) (d : Dec) : Dec × Reply :=
  if decRoom b d = 0 then (d, .sunk .full 0)
  else
    let k := min (decRoom b d) input.length
    ({ d with staging := d.staging.append d.inputSize (input.take k), inputSize := d.inputSize + k },
      .sunk .ok k)

/-- Whether `DEC.POLL` returns after a micro-step, and with which status (R221). -/
def decPollStatus (before after : DecState) (k : OutSink) : Option Status :=
  if after = before then some (if k.isFull then .more else .empty) else none

/-- The loop of `DEC.POLL` (R221), for at most `fuel` micro-steps. -/
def decPollLoop (b : Build) : Nat → Dec → OutSink → Except Fault (Dec × OutSink × Status)
  | 0, _, _ => .error .pollDidNotReturn
  | fuel + 1, d, k =>
    match decStep b d k with
    | .error f => .error f
    | .ok (d', k') =>
      match decPollStatus d.state d'.state k' with
      | some status => .ok (d', k', status)
      | none => decPollLoop b fuel d' k'

/-- A bound on the micro-steps of one `DEC.POLL`: a constant number for each unread bit (R202, log 12). -/
def decPollBound (d : Dec) : Nat :=
  4 * bitsAvailable d + 8

/-- `DEC.POLL cap` (R221). -/
def decPoll (b : Build) (cap : Nat) (d : Dec) : Except Fault (Dec × Reply) :=
  if cap = 0 then .ok (d, .polled .misuse [])
  else
    match decPollLoop b (decPollBound d) d (.start cap) with
    | .error f => .error f
    | .ok (d', k, status) => .ok (d', .polled status k.out)

/-- `DEC.FINISH` (R222). -/
def decFinish (d : Dec) : Reply :=
  .finished (if d.inputSize = 0 then .done else .more)

/-! ## The commands as instructions -/

/-- Runs a command of the encoder that ends with the given unit state and result, unless its poll is still running
(R210: "A unit accepts one command at a time"). -/
def encCommand (s : State) (r : Except Fault (Enc × Option Reply)) : Result :=
  match s.encOut with
  | some _ => .refused .unitBusy
  | none =>
    match r with
    | .error f => .fault f
    | .ok (e, reply) => .next (s.encReturn e reply)

/-- The same for the decoder. -/
def decCommand (s : State) (r : Except Fault (Dec × Option Reply)) : Result :=
  match s.decOut with
  | some _ => .refused .unitBusy
  | none =>
    match r with
    | .error f => .fault f
    | .ok (d, reply) => .next (s.decReturn d reply)

/-- The result of a command of a unit, as the host gets it. -/
def withReply {α : Type} (p : α × Reply) : α × Option Reply :=
  (p.1, some p.2)

/-- `ENC.SINK` (R214). -/
def execEncSink (input : List Byte) (s : State) : Result :=
  encCommand s (.ok (withReply (encSink s.build input s.enc)))

/-- `ENC.POLL` (R215). -/
def execEncPoll (cap : Nat) (s : State) : Result :=
  encCommand s ((encPoll s.build cap s.enc).map withReply)

/-- `ENC.FINISH` (R216). -/
def execEncFinish (s : State) : Result :=
  encCommand s (.ok (withReply (encFinish s.enc)))

/-- `ENC.RESET` (R217): "returns nothing". -/
def execEncReset (s : State) : Result :=
  encCommand s (.ok (.reset, none))

/-- `DEC.SINK` (R220). -/
def execDecSink (input : List Byte) (s : State) : Result :=
  decCommand s (.ok (withReply (decSink s.build input s.dec)))

/-- `DEC.POLL` (R221). -/
def execDecPoll (cap : Nat) (s : State) : Result :=
  decCommand s ((decPoll s.build cap s.dec).map withReply)

/-- `DEC.FINISH` (R222): writes nothing. -/
def execDecFinish (s : State) : Result :=
  decCommand s (.ok (withReply (s.dec, decFinish s.dec)))

/-- `DEC.RESET` (R223): "returns nothing". -/
def execDecReset (s : State) : Result :=
  decCommand s (.ok (.reset, none))

end Sys2Proof.Machine
end

