-- ==== Sys2Proof/Machine/Tokens.lean ====
section
/-! DEFINITION. The stream tokens as the instructions that the decoder executes (30_encoding.md R92, R93;
43_decoder_fsm.md: "the compressed stream is its program, a token is an instruction"). The fetch has taken the
token's bits (Step.lean); what is left is the token's effect: to produce bytes under the running poll. -/

namespace Sys2Proof.Machine

/-- `LIT` (R92, R192): produces the byte, or nothing when the output is full. -/
def runLiteral (b : Build) (value : Byte) (d : Dec) (k : OutSink) : Dec × OutSink :=
  if k.canTakeByte then produceByte b value d k else (d, k)

/-- The decoder once both fields of a backreference are read (R194, R195). -/
def loadBackref (index count : Nat) (d : Dec) : Dec :=
  { d with outputIndex := operandOfField index, outputCount := operandOfField count, state := .yieldBackref }

/-- `BREF` (R93, R196): loads distance and length, then copies as many bytes as there is room for. -/
def runBackref (b : Build) (index count : Nat) (d : Dec) (k : OutSink) : Dec × OutSink :=
  copyBackref b (loadBackref index count d) k

/-- A token executes in a running `DEC.POLL`, between two tokens. -/
def tokenStep (t : Dec → OutSink → Dec × OutSink) (s : State) : Result :=
  match s.decOut with
  | none => .refused .noPollRunning
  | some k =>
    if s.dec.state = .tagBit then
      let p := t s.dec k
      .next (s.decRun p.1 p.2)
    else .refused .notAtTokenBoundary

/-- A backreference of format (W, L) executes in a build of that format. -/
def execBackref (W L index count : Nat) (s : State) : Result :=
  if W = s.build.windowBits ∧ L = s.build.lookaheadBits then tokenStep (runBackref s.build index count) s
  else .refused .tokenOfOtherBuild

/-- `LIT` (R92). -/
def execLit (byte : Byte) (s : State) : Result :=
  tokenStep (runLiteral s.build byte) s

/-- `BREF` (R93). -/
def execBref (index : BitVec 8) (count : BitVec 4) (s : State) : Result :=
  execBackref 8 4 index.toNat count.toNat s

/-- `BREF(4,3)` (R93). -/
def execBref4_3 (index : BitVec 4) (count : BitVec 3) (s : State) : Result :=
  execBackref 4 3 index.toNat count.toNat s

/-- `BREF(5,3)` (R93). -/
def execBref5_3 (index : BitVec 5) (count : BitVec 3) (s : State) : Result :=
  execBackref 5 3 index.toNat count.toNat s

/-- `BREF(5,4)` (R93). -/
def execBref5_4 (index : BitVec 5) (count : BitVec 4) (s : State) : Result :=
  execBackref 5 4 index.toNat count.toNat s

/-- `BREF(6,3)` (R93). -/
def execBref6_3 (index : BitVec 6) (count : BitVec 3) (s : State) : Result :=
  execBackref 6 3 index.toNat count.toNat s

/-- `BREF(6,4)` (R93). -/
def execBref6_4 (index : BitVec 6) (count : BitVec 4) (s : State) : Result :=
  execBackref 6 4 index.toNat count.toNat s

/-- `BREF(6,5)` (R93). -/
def execBref6_5 (index : BitVec 6) (count : BitVec 5) (s : State) : Result :=
  execBackref 6 5 index.toNat count.toNat s

/-- `BREF(7,3)` (R93). -/
def execBref7_3 (index : BitVec 7) (count : BitVec 3) (s : State) : Result :=
  execBackref 7 3 index.toNat count.toNat s

/-- `BREF(7,4)` (R93). -/
def execBref7_4 (index : BitVec 7) (count : BitVec 4) (s : State) : Result :=
  execBackref 7 4 index.toNat count.toNat s

/-- `BREF(7,5)` (R93). -/
def execBref7_5 (index : BitVec 7) (count : BitVec 5) (s : State) : Result :=
  execBackref 7 5 index.toNat count.toNat s

/-- `BREF(7,6)` (R93). -/
def execBref7_6 (index : BitVec 7) (count : BitVec 6) (s : State) : Result :=
  execBackref 7 6 index.toNat count.toNat s

/-- `BREF(8,3)` (R93). -/
def execBref8_3 (index : BitVec 8) (count : BitVec 3) (s : State) : Result :=
  execBackref 8 3 index.toNat count.toNat s

/-- `BREF(8,5)` (R93). -/
def execBref8_5 (index : BitVec 8) (count : BitVec 5) (s : State) : Result :=
  execBackref 8 5 index.toNat count.toNat s

/-- `BREF(8,6)` (R93). -/
def execBref8_6 (index : BitVec 8) (count : BitVec 6) (s : State) : Result :=
  execBackref 8 6 index.toNat count.toNat s

/-- `BREF(8,7)` (R93). -/
def execBref8_7 (index : BitVec 8) (count : BitVec 7) (s : State) : Result :=
  execBackref 8 7 index.toNat count.toNat s

/-- `BREF(9,3)` (R93). -/
def execBref9_3 (index : BitVec 9) (count : BitVec 3) (s : State) : Result :=
  execBackref 9 3 index.toNat count.toNat s

/-- `BREF(9,4)` (R93). -/
def execBref9_4 (index : BitVec 9) (count : BitVec 4) (s : State) : Result :=
  execBackref 9 4 index.toNat count.toNat s

/-- `BREF(9,5)` (R93). -/
def execBref9_5 (index : BitVec 9) (count : BitVec 5) (s : State) : Result :=
  execBackref 9 5 index.toNat count.toNat s

/-- `BREF(9,6)` (R93). -/
def execBref9_6 (index : BitVec 9) (count : BitVec 6) (s : State) : Result :=
  execBackref 9 6 index.toNat count.toNat s

/-- `BREF(9,7)` (R93). -/
def execBref9_7 (index : BitVec 9) (count : BitVec 7) (s : State) : Result :=
  execBackref 9 7 index.toNat count.toNat s

/-- `BREF(9,8)` (R93). -/
def execBref9_8 (index : BitVec 9) (count : BitVec 8) (s : State) : Result :=
  execBackref 9 8 index.toNat count.toNat s

/-- `BREF(10,3)` (R93). -/
def execBref10_3 (index : BitVec 10) (count : BitVec 3) (s : State) : Result :=
  execBackref 10 3 index.toNat count.toNat s

/-- `BREF(10,4)` (R93). -/
def execBref10_4 (index : BitVec 10) (count : BitVec 4) (s : State) : Result :=
  execBackref 10 4 index.toNat count.toNat s

/-- `BREF(10,5)` (R93). -/
def execBref10_5 (index : BitVec 10) (count : BitVec 5) (s : State) : Result :=
  execBackref 10 5 index.toNat count.toNat s

/-- `BREF(10,6)` (R93). -/
def execBref10_6 (index : BitVec 10) (count : BitVec 6) (s : State) : Result :=
  execBackref 10 6 index.toNat count.toNat s

/-- `BREF(10,7)` (R93). -/
def execBref10_7 (index : BitVec 10) (count : BitVec 7) (s : State) : Result :=
  execBackref 10 7 index.toNat count.toNat s

/-- `BREF(10,8)` (R93). -/
def execBref10_8 (index : BitVec 10) (count : BitVec 8) (s : State) : Result :=
  execBackref 10 8 index.toNat count.toNat s

/-- `BREF(11,3)` (R93). -/
def execBref11_3 (index : BitVec 11) (count : BitVec 3) (s : State) : Result :=
  execBackref 11 3 index.toNat count.toNat s

/-- `BREF(11,4)` (R93). -/
def execBref11_4 (index : BitVec 11) (count : BitVec 4) (s : State) : Result :=
  execBackref 11 4 index.toNat count.toNat s

/-- `BREF(11,5)` (R93). -/
def execBref11_5 (index : BitVec 11) (count : BitVec 5) (s : State) : Result :=
  execBackref 11 5 index.toNat count.toNat s

/-- `BREF(11,6)` (R93). -/
def execBref11_6 (index : BitVec 11) (count : BitVec 6) (s : State) : Result :=
  execBackref 11 6 index.toNat count.toNat s

/-- `BREF(11,7)` (R93). -/
def execBref11_7 (index : BitVec 11) (count : BitVec 7) (s : State) : Result :=
  execBackref 11 7 index.toNat count.toNat s

/-- `BREF(11,8)` (R93). -/
def execBref11_8 (index : BitVec 11) (count : BitVec 8) (s : State) : Result :=
  execBackref 11 8 index.toNat count.toNat s

/-- `BREF(12,3)` (R93). -/
def execBref12_3 (index : BitVec 12) (count : BitVec 3) (s : State) : Result :=
  execBackref 12 3 index.toNat count.toNat s

/-- `BREF(12,4)` (R93). -/
def execBref12_4 (index : BitVec 12) (count : BitVec 4) (s : State) : Result :=
  execBackref 12 4 index.toNat count.toNat s

/-- `BREF(12,5)` (R93). -/
def execBref12_5 (index : BitVec 12) (count : BitVec 5) (s : State) : Result :=
  execBackref 12 5 index.toNat count.toNat s

/-- `BREF(12,6)` (R93). -/
def execBref12_6 (index : BitVec 12) (count : BitVec 6) (s : State) : Result :=
  execBackref 12 6 index.toNat count.toNat s

/-- `BREF(12,7)` (R93). -/
def execBref12_7 (index : BitVec 12) (count : BitVec 7) (s : State) : Result :=
  execBackref 12 7 index.toNat count.toNat s

/-- `BREF(12,8)` (R93). -/
def execBref12_8 (index : BitVec 12) (count : BitVec 8) (s : State) : Result :=
  execBackref 12 8 index.toNat count.toNat s

/-- `BREF(13,3)` (R93). -/
def execBref13_3 (index : BitVec 13) (count : BitVec 3) (s : State) : Result :=
  execBackref 13 3 index.toNat count.toNat s

/-- `BREF(13,4)` (R93). -/
def execBref13_4 (index : BitVec 13) (count : BitVec 4) (s : State) : Result :=
  execBackref 13 4 index.toNat count.toNat s

/-- `BREF(13,5)` (R93). -/
def execBref13_5 (index : BitVec 13) (count : BitVec 5) (s : State) : Result :=
  execBackref 13 5 index.toNat count.toNat s

/-- `BREF(13,6)` (R93). -/
def execBref13_6 (index : BitVec 13) (count : BitVec 6) (s : State) : Result :=
  execBackref 13 6 index.toNat count.toNat s

/-- `BREF(13,7)` (R93). -/
def execBref13_7 (index : BitVec 13) (count : BitVec 7) (s : State) : Result :=
  execBackref 13 7 index.toNat count.toNat s

/-- `BREF(13,8)` (R93). -/
def execBref13_8 (index : BitVec 13) (count : BitVec 8) (s : State) : Result :=
  execBackref 13 8 index.toNat count.toNat s

/-- `BREF(14,3)` (R93). -/
def execBref14_3 (index : BitVec 14) (count : BitVec 3) (s : State) : Result :=
  execBackref 14 3 index.toNat count.toNat s

/-- `BREF(14,4)` (R93). -/
def execBref14_4 (index : BitVec 14) (count : BitVec 4) (s : State) : Result :=
  execBackref 14 4 index.toNat count.toNat s

/-- `BREF(14,5)` (R93). -/
def execBref14_5 (index : BitVec 14) (count : BitVec 5) (s : State) : Result :=
  execBackref 14 5 index.toNat count.toNat s

/-- `BREF(14,6)` (R93). -/
def execBref14_6 (index : BitVec 14) (count : BitVec 6) (s : State) : Result :=
  execBackref 14 6 index.toNat count.toNat s

/-- `BREF(14,7)` (R93). -/
def execBref14_7 (index : BitVec 14) (count : BitVec 7) (s : State) : Result :=
  execBackref 14 7 index.toNat count.toNat s

/-- `BREF(14,8)` (R93). -/
def execBref14_8 (index : BitVec 14) (count : BitVec 8) (s : State) : Result :=
  execBackref 14 8 index.toNat count.toNat s

/-- `BREF(15,3)` (R93). -/
def execBref15_3 (index : BitVec 15) (count : BitVec 3) (s : State) : Result :=
  execBackref 15 3 index.toNat count.toNat s

/-- `BREF(15,4)` (R93). -/
def execBref15_4 (index : BitVec 15) (count : BitVec 4) (s : State) : Result :=
  execBackref 15 4 index.toNat count.toNat s

/-- `BREF(15,5)` (R93). -/
def execBref15_5 (index : BitVec 15) (count : BitVec 5) (s : State) : Result :=
  execBackref 15 5 index.toNat count.toNat s

/-- `BREF(15,6)` (R93). -/
def execBref15_6 (index : BitVec 15) (count : BitVec 6) (s : State) : Result :=
  execBackref 15 6 index.toNat count.toNat s

/-- `BREF(15,7)` (R93). -/
def execBref15_7 (index : BitVec 15) (count : BitVec 7) (s : State) : Result :=
  execBackref 15 7 index.toNat count.toNat s

/-- `BREF(15,8)` (R93). -/
def execBref15_8 (index : BitVec 15) (count : BitVec 8) (s : State) : Result :=
  execBackref 15 8 index.toNat count.toNat s

end Sys2Proof.Machine
end

