-- ==== Sys2Proof/Machine/Dispatch.lean ====
section
/-! DEFINITION. The meaning of every instruction: one arm for each constructor of `Instr`. -/

namespace Sys2Proof.Machine

def exec (i : Instr) (s : State) : Host.Outcome State Fault Refusal :=
  match i with
  | .lit byte => Sys2Proof.Machine.execLit byte s
  | .bref index count => Sys2Proof.Machine.execBref index count s
  | .bref4_3 index count => Sys2Proof.Machine.execBref4_3 index count s
  | .bref5_3 index count => Sys2Proof.Machine.execBref5_3 index count s
  | .bref5_4 index count => Sys2Proof.Machine.execBref5_4 index count s
  | .bref6_3 index count => Sys2Proof.Machine.execBref6_3 index count s
  | .bref6_4 index count => Sys2Proof.Machine.execBref6_4 index count s
  | .bref6_5 index count => Sys2Proof.Machine.execBref6_5 index count s
  | .bref7_3 index count => Sys2Proof.Machine.execBref7_3 index count s
  | .bref7_4 index count => Sys2Proof.Machine.execBref7_4 index count s
  | .bref7_5 index count => Sys2Proof.Machine.execBref7_5 index count s
  | .bref7_6 index count => Sys2Proof.Machine.execBref7_6 index count s
  | .bref8_3 index count => Sys2Proof.Machine.execBref8_3 index count s
  | .bref8_5 index count => Sys2Proof.Machine.execBref8_5 index count s
  | .bref8_6 index count => Sys2Proof.Machine.execBref8_6 index count s
  | .bref8_7 index count => Sys2Proof.Machine.execBref8_7 index count s
  | .bref9_3 index count => Sys2Proof.Machine.execBref9_3 index count s
  | .bref9_4 index count => Sys2Proof.Machine.execBref9_4 index count s
  | .bref9_5 index count => Sys2Proof.Machine.execBref9_5 index count s
  | .bref9_6 index count => Sys2Proof.Machine.execBref9_6 index count s
  | .bref9_7 index count => Sys2Proof.Machine.execBref9_7 index count s
  | .bref9_8 index count => Sys2Proof.Machine.execBref9_8 index count s
  | .bref10_3 index count => Sys2Proof.Machine.execBref10_3 index count s
  | .bref10_4 index count => Sys2Proof.Machine.execBref10_4 index count s
  | .bref10_5 index count => Sys2Proof.Machine.execBref10_5 index count s
  | .bref10_6 index count => Sys2Proof.Machine.execBref10_6 index count s
  | .bref10_7 index count => Sys2Proof.Machine.execBref10_7 index count s
  | .bref10_8 index count => Sys2Proof.Machine.execBref10_8 index count s
  | .bref11_3 index count => Sys2Proof.Machine.execBref11_3 index count s
  | .bref11_4 index count => Sys2Proof.Machine.execBref11_4 index count s
  | .bref11_5 index count => Sys2Proof.Machine.execBref11_5 index count s
  | .bref11_6 index count => Sys2Proof.Machine.execBref11_6 index count s
  | .bref11_7 index count => Sys2Proof.Machine.execBref11_7 index count s
  | .bref11_8 index count => Sys2Proof.Machine.execBref11_8 index count s
  | .bref12_3 index count => Sys2Proof.Machine.execBref12_3 index count s
  | .bref12_4 index count => Sys2Proof.Machine.execBref12_4 index count s
  | .bref12_5 index count => Sys2Proof.Machine.execBref12_5 index count s
  | .bref12_6 index count => Sys2Proof.Machine.execBref12_6 index count s
  | .bref12_7 index count => Sys2Proof.Machine.execBref12_7 index count s
  | .bref12_8 index count => Sys2Proof.Machine.execBref12_8 index count s
  | .bref13_3 index count => Sys2Proof.Machine.execBref13_3 index count s
  | .bref13_4 index count => Sys2Proof.Machine.execBref13_4 index count s
  | .bref13_5 index count => Sys2Proof.Machine.execBref13_5 index count s
  | .bref13_6 index count => Sys2Proof.Machine.execBref13_6 index count s
  | .bref13_7 index count => Sys2Proof.Machine.execBref13_7 index count s
  | .bref13_8 index count => Sys2Proof.Machine.execBref13_8 index count s
  | .bref14_3 index count => Sys2Proof.Machine.execBref14_3 index count s
  | .bref14_4 index count => Sys2Proof.Machine.execBref14_4 index count s
  | .bref14_5 index count => Sys2Proof.Machine.execBref14_5 index count s
  | .bref14_6 index count => Sys2Proof.Machine.execBref14_6 index count s
  | .bref14_7 index count => Sys2Proof.Machine.execBref14_7 index count s
  | .bref14_8 index count => Sys2Proof.Machine.execBref14_8 index count s
  | .bref15_3 index count => Sys2Proof.Machine.execBref15_3 index count s
  | .bref15_4 index count => Sys2Proof.Machine.execBref15_4 index count s
  | .bref15_5 index count => Sys2Proof.Machine.execBref15_5 index count s
  | .bref15_6 index count => Sys2Proof.Machine.execBref15_6 index count s
  | .bref15_7 index count => Sys2Proof.Machine.execBref15_7 index count s
  | .bref15_8 index count => Sys2Proof.Machine.execBref15_8 index count s
  | .encSink input => Sys2Proof.Machine.execEncSink input s
  | .encPoll cap => Sys2Proof.Machine.execEncPoll cap s
  | .encFinish => Sys2Proof.Machine.execEncFinish s
  | .encReset => Sys2Proof.Machine.execEncReset s
  | .decSink input => Sys2Proof.Machine.execDecSink input s
  | .decPoll cap => Sys2Proof.Machine.execDecPoll cap s
  | .decFinish => Sys2Proof.Machine.execDecFinish s
  | .decReset => Sys2Proof.Machine.execDecReset s
  | .encStepNotFull => Sys2Proof.Machine.execEncStepNotFull s
  | .encStepFilled => Sys2Proof.Machine.execEncStepFilled s
  | .encStepSearch => Sys2Proof.Machine.execEncStepSearch s
  | .encStepYieldTagBit => Sys2Proof.Machine.execEncStepYieldTagBit s
  | .encStepYieldLiteral => Sys2Proof.Machine.execEncStepYieldLiteral s
  | .encStepYieldBrIndex => Sys2Proof.Machine.execEncStepYieldBrIndex s
  | .encStepYieldBrLength => Sys2Proof.Machine.execEncStepYieldBrLength s
  | .encStepSaveBacklog => Sys2Proof.Machine.execEncStepSaveBacklog s
  | .encStepFlushBits => Sys2Proof.Machine.execEncStepFlushBits s
  | .encStepDone => Sys2Proof.Machine.execEncStepDone s
  | .decStepTagBit => Sys2Proof.Machine.execDecStepTagBit s
  | .decStepYieldLiteral => Sys2Proof.Machine.execDecStepYieldLiteral s
  | .decStepBackrefIndexMsb => Sys2Proof.Machine.execDecStepBackrefIndexMsb s
  | .decStepBackrefIndexLsb => Sys2Proof.Machine.execDecStepBackrefIndexLsb s
  | .decStepBackrefCountLsb => Sys2Proof.Machine.execDecStepBackrefCountLsb s
  | .decStepYieldBackref => Sys2Proof.Machine.execDecStepYieldBackref s

end Sys2Proof.Machine
end

