-- ==== Sys2Proof/Machine/Fetch.lean ====
section
/-! DEFINITION. What runs next, and how an instruction is placed where it will be fetched. The block has no program
counter (10_state.md R42): a running poll is sequenced by the unit's state register, the decoder's program is the
compressed stream, and between polls the host's next command runs. -/

namespace Sys2Proof.Machine

/-- Discards the next `n` bits of the stream, as `n` deliveries do (40_bit_accumulator.md R131). -/
def skipBits (b : Build) (n : Nat) (d : Dec) : Except Fault Dec :=
  match takeBits b n 0 d with
  | .error f => .error f
  | .ok (_, d') => .ok d'

/-- What the next step runs. -/
inductive Fetched where
  /-- No poll runs and the host has issued nothing: the block holds its state (60_exceptions.md R259). -/
  | idle
  /-- The encoder's running poll goes on with this micro-step (42_encoder_fsm.md R160). -/
  | encMicro (i : Instr)
  /-- The decoder's running poll goes on with this micro-step (43_decoder_fsm.md R190). -/
  | decMicro (i : Instr)
  /-- The decoder's running poll goes on with this token, of `width` bits. -/
  | token (i : Instr) (width : Nat)
  /-- The host's oldest command. -/
  | command (i : Instr) (later : List CommandWord)
  deriving DecidableEq, Repr

/-- A token needs room before its bits are taken only if it is a literal (R192: "The output-space check comes before
the bits are taken", log 9). -/
def tokenHasRoom (i : Instr) (k : OutSink) : Bool :=
  match i.bref? with
  | some _ => true
  | none => k.canTakeByte

/-- The whole token at the front of the decoder's stream, if one is there and can be executed now, and its width. -/
def nextToken (b : Build) (d : Dec) (k : OutSink) : Option (Instr × Nat) :=
  if d.state = .tagBit then
    match decodeToken b.windowBits b.lookaheadBits (unreadBits d) with
    | .error _ => none
    | .ok (i, later) =>
      if tokenHasRoom i k then some (i, (unreadBits d).length - later.length) else none
  else none

/-- A running poll goes on before a new command is looked at (44_streaming_protocol.md R210); of two running polls the
encoder's goes first, which nothing can observe (20_memory.md R79, log 17). -/
def State.fetch (s : State) : Fetched :=
  match s.encOut with
  | some _ => .encMicro s.enc.state.microStep
  | none =>
    match s.decOut with
    | some k =>
      match (if s.grain = .token then nextToken s.build s.dec k else none) with
      | some (i, width) => .token i width
      | none => .decMicro s.dec.state.microStep
    | none =>
      match s.pending with
      | [] => .idle
      | w :: later => .command (decodeCommand w) later

/-- After a micro-step of the encoder: the poll returns, or goes on (R215). -/
def State.encAfter (before : EncState) (s : State) : State :=
  match s.encOut with
  | none => s
  | some k =>
    match encPollStatus before s.enc.state k with
    | some status => s.encReturn s.enc (some (.polled status k.out))
    | none => s

/-- After a micro-step of the decoder: the poll returns, or goes on (R221). -/
def State.decAfter (before : DecState) (s : State) : State :=
  match s.decOut with
  | none => s
  | some k =>
    match decPollStatus before s.dec.state k with
    | some status => s.decReturn s.dec (some (.polled status k.out))
    | none => s

/-- A poll with room that is to be shown micro-step by micro-step or token by token: only its output sink is set up, and
the steps that follow run it (log 6). Every other command runs whole. -/
def State.opened (s : State) (i : Instr) : Option State :=
  match s.grain with
  | .command => none
  | _ =>
    match i with
    | .encPoll cap => if cap = 0 then none else some { s with encOut := some (.start cap) }
    | .decPoll cap => if cap = 0 then none else some { s with decOut := some (.start cap) }
    | _ => none

/-- Applies `f` to the next state an outcome gives. -/
def onNext (r : Result) (f : State → State) : Result :=
  match r with
  | .next s => .next (f s)
  | .fault x => .fault x
  | .refused x => .refused x

/-- The encoder state that a micro-step belongs to. -/
def encStateOfMicroStep (i : Instr) : Option EncState :=
  [EncState.notFull, .filled, .search, .yieldTagBit, .yieldLiteral, .yieldBrIndex, .yieldBrLength, .saveBacklog,
    .flushBits, .done].find? fun q => decide (q.microStep = i)

/-- The decoder state that a micro-step belongs to. -/
def decStateOfMicroStep (i : Instr) : Option DecState :=
  [DecState.tagBit, .yieldLiteral, .backrefIndexMsb, .backrefIndexLsb, .backrefCountLsb,
    .yieldBackref].find? fun q => decide (q.microStep = i)

/-- The room given to a poll that is set up to run one placed instruction: enough for the longest token. -/
def placedRoom : Nat := 256

/-- The state with the instruction placed where the next step fetches it (log 20): a command at the head of the host's
queue; a micro-step by the state register that selects it, in a running poll; a token by its bits in the staging
buffer, in a running poll at a token boundary, in a build of the token's format. -/
def State.placed (s : State) (i : Instr) : State :=
  match encode i with
  | .command w =>
    { s with encOut := none, decOut := none, grain := .command, pending := w :: s.pending }
  | .encoderState _ =>
    match encStateOfMicroStep i with
    | none => s
    | some q => { s with enc := { s.enc with state := q }, encOut := some (.start placedRoom) }
  | .decoderState _ =>
    match decStateOfMicroStep i with
    | none => s
    | some q =>
      { s with
        build := if q = .backrefIndexMsb ∧ s.build.windowBits ≤ 8
                 then { s.build with windowBits := 9 } else s.build
        dec := { s.dec with state := q }, encOut := none, decOut := some (.start placedRoom)
        grain := .microStep }
  | .stream bits =>
    let bytes := packBits bits
    let build := match i.format? with
      | some (W, L) => { s.build with windowBits := W, lookaheadBits := L }
      | none => s.build
    { s with
      build := { build with stagingSize := max build.stagingSize bytes.length }
      dec := { s.dec with
        state := .tagBit, inputSize := bytes.length, inputIndex := 0, bitIndex := 0
        staging := s.dec.staging.append 0 bytes }
      encOut := none, decOut := some (.start placedRoom), grain := .token }

end Sys2Proof.Machine
end

