-- ==== Sys2Proof/Machine/Step.lean ====
section
/-! DEFINITION. One step of the block: it runs what is next (Fetch.lean) and, inside a poll, returns to the host when
the poll is over. -/

namespace Sys2Proof.Machine

/-- One step of a legal build. After a token the poll is over if the token is not: its last micro-step,
`YieldBackref`, left the state unchanged (R221). -/
def stepLegal (s : State) : Result :=
  match s.fetch with
  | .idle => .next s
  | .encMicro i => onNext (exec i s) (State.encAfter s.enc.state)
  | .decMicro i => onNext (exec i s) (State.decAfter s.dec.state)
  | .token i width =>
    match skipBits s.build width s.dec with
    | .error f => .fault f
    | .ok d => onNext (exec i { s with dec := d }) (State.decAfter .yieldBackref)
  | .command i later =>
    match ({ s with pending := later } : State).opened i with
    | some s' => .next s'
    | none => exec i { s with pending := later }

/-- One step. Parameters outside 00_scope.md R8 are refused (93_implementation_defined.md U3). -/
def step (s : State) : Host.Outcome State Fault Refusal :=
  if s.build.legal then stepLegal s else .refused .illegalBuild

/-- The state with the instruction that the table numbers `w` (in `nbits` bits) placed where the next step fetches it. A
`sink` so placed has the empty slice and a `poll` the capacity 0, which are the model's choice (log 26). -/
def State.withFetchWord (s : State) (nbits w : Nat) : State :=
  match decodeTableWord nbits w with
  | some i => s.placed i
  | none => s

end Sys2Proof.Machine
end

