-- ==== Sys2Proof/Machine/Invariant.lean ====
section
/-! DEFINITION. The invariants of the two units (10_state.md R31, R41) with the facts of 42_encoder_fsm.md R163, R168, R172
and 43_decoder_fsm.md R193, R194 that make them inductive. -/

namespace Sys2Proof.Machine

/-- The encoder invariants: R31 parts (a) to (g), R28, R30 and the resting facts of R172. -/
structure EncInv (b : Build) (e : Enc) : Prop where
  /-- R31 (a). -/
  scan_le_size : e.matchScanIndex ≤ e.inputSize
  /-- R31 (a). -/
  size_le_window : e.inputSize ≤ b.window
  /-- R31 (b). -/
  notFull_has_room : e.state = .notFull → e.inputSize < b.window
  /-- R31 (c). -/
  match_in_input : e.matchLength = 0 ∨
    (b.breakEven + 1 ≤ e.matchLength ∧ e.matchLength ≤ b.lookahead ∧
      e.matchScanIndex + e.matchLength ≤ e.inputSize ∧ 1 ≤ e.matchPos ∧ e.matchPos ≤ b.window)
  /-- R31 (d). -/
  literal_behind_scan : e.state = .yieldLiteral → 1 ≤ e.matchScanIndex ∧ e.matchLength = 0
  /-- A literal's tag: the scan position has stepped over the literal (R163). -/
  tag_behind_scan : e.state = .yieldTagBit → e.matchLength = 0 → 1 ≤ e.matchScanIndex
  /-- A field is drained only inside a backreference (R164). -/
  fields_have_match : e.state = .yieldBrIndex ∨ e.state = .yieldBrLength → e.matchLength ≠ 0
  /-- R31 (e). -/
  unfilled_zero : e.currentByte.toNat % 2 ^ (8 - e.bitIndex) = 0
  /-- R28. -/
  filled_le : e.bitIndex ≤ 8
  /-- R28: with the default setting the accumulator never holds a full byte. -/
  filled_partial : b.emitOnExactFill = true → e.bitIndex ≤ 7
  /-- R31 (f). -/
  outgoing_le : e.outgoingBitsCount ≤ b.windowBits
  /-- R31 (g): bits 7:1 of the flags are 0. -/
  flags_reserved : e.flags &&& 0xFE = 0
  /-- R172: "every non-finishing `Search` sees a full input half". -/
  pass_is_full : e.finishing = false → e.state ≠ .notFull → e.inputSize = b.window
  /-- R168: "Entered only when not finishing and `enc.match_scan_index + LA > enc.input_size`". -/
  backlog_small : e.state = .saveBacklog →
    e.finishing = false ∧ e.inputSize < e.matchScanIndex + b.lookahead
  /-- R224: "`NotFull` with the flag set does not occur". -/
  notFull_not_finishing : e.state = .notFull → e.finishing = false
  /-- R163: the exit to `FlushBits` is taken exactly when the scan position has reached the end. -/
  flush_at_end : e.state = .flushBits ∨ e.state = .done →
    e.finishing = true ∧ e.matchScanIndex = e.inputSize
  /-- R29: the buffer is in canonical form and has 2N cells. -/
  buffer_wf : e.buffer.wf = true
  buffer_within : e.buffer.within (2 * b.window) = true
  /-- R30: the index is in canonical form, has 2N entries, and is absent unless `INDEXED`. -/
  index_wf : e.index.wf = true
  index_within : e.index.within (b.spaceSize .encIdx) = true
  /-- R30: "position `p` with 0 ≤ p < a". -/
  index_below : ∀ c ∈ e.index, ∀ p, c.2 = some p → p < c.1

/-- R146: entry `i` is the greatest `j < i` that holds the same byte, or `NONE`. -/
def indexEntryCorrect (m : Memory) (index : IndexMemory) (i : Nat) : Prop :=
  match index.read i with
  | none => ∀ j, j < i → m.read j ≠ m.read i
  | some p => p < i ∧ m.read p = m.read i ∧ ∀ j, p < j → j < i → m.read j ≠ m.read i

/-- 41_match_finder.md R149: during a pass the index describes the present buffer. -/
def indexFresh (b : Build) (e : Enc) : Prop :=
  b.indexed = true → e.state ≠ .notFull → e.state ≠ .filled →
    ∀ i, i < b.window + e.inputSize → indexEntryCorrect e.buffer e.index i

/-- The decoder invariants: R41 parts (a) to (d), R33, the field being assembled (R193, R194), and of R39 that a cell
never written is 0. -/
structure DecInv (b : Build) (d : Dec) : Prop where
  /-- R41 (a). -/
  staged_le : d.inputSize ≤ b.stagingSize
  /-- R41 (a). -/
  index_lt_size : d.inputIndex < d.inputSize ∨ (d.inputIndex = 0 ∧ d.inputSize = 0)
  /-- R41 (b). -/
  undelivered_le : d.bitIndex ≤ 8
  /-- R41 (c). -/
  copy_in_range : d.state = .yieldBackref →
    1 ≤ d.outputIndex ∧ d.outputIndex ≤ b.window ∧ 1 ≤ d.outputCount ∧ d.outputCount ≤ b.lookahead
  /-- R41 (d). -/
  no_copy_no_count : d.state ≠ .yieldBackref → d.outputCount = 0
  /-- R33. -/
  msb_only_wide : d.state = .backrefIndexMsb → 8 < b.windowBits
  /-- R194: on entry `dec.output_index` is 0 or `b_msb << 8`. -/
  high_field : d.state = .backrefIndexLsb →
    d.outputIndex < b.window ∧ d.outputIndex % 2 ^ lowIndexBits b = 0
  /-- R199. -/
  distance_in_range : d.state = .backrefCountLsb → 1 ≤ d.outputIndex ∧ d.outputIndex ≤ b.window
  /-- R39: the window is in canonical form and has N cells. -/
  window_wf : d.window.wf = true
  window_within : d.window.within b.window = true
  /-- R40: the staging buffer is in canonical form and has S cells. -/
  staging_wf : d.staging.wf = true
  staging_within : d.staging.within b.stagingSize = true
  /-- R39: "or 0 if no such byte has been produced". -/
  window_unwritten : ∀ a, d.headIndex ≤ a → a < b.window → d.window.read a = 0

/-- A running poll has an output slice with room for at least one byte, and no more bytes than fit (R212, R215). -/
def sinkInv (k : OutSink) : Prop :=
  1 ≤ k.cap ∧ k.produced ≤ k.cap

/-- The invariant of the block. -/
structure StateInv (s : State) : Prop where
  /-- 00_scope.md R8. -/
  build_legal : s.build.legal = true
  enc : EncInv s.build s.enc
  dec : DecInv s.build s.dec
  enc_fresh : indexFresh s.build s.enc
  enc_sink : ∀ k, s.encOut = some k → sinkInv k
  dec_sink : ∀ k, s.decOut = some k → sinkInv k
  /-- R172: between commands never `Search` or `SaveBacklog`. -/
  enc_resting : s.encOut = none → s.enc.state ≠ .search ∧ s.enc.state ≠ .saveBacklog

end Sys2Proof.Machine
end

