-- ==== Sys2Proof/Machine/Claims.lean ====
section
/-! DEFINITION. The words in which the statements of Certificates/Slice0/Obligations.lean speak about the block: none of
them is used by the machine. -/

namespace Sys2Proof.Machine

/-! ## The accumulators -/

/-- The encoder's accumulator is as 10_state.md R28 and R31 part e say: at most 8 filled positions, the others 0. -/
def accumulatorOk (e : Enc) : Prop :=
  e.bitIndex ≤ 8 ∧ e.currentByte.toNat % 2 ^ (8 - e.bitIndex) = 0

/-- The stream grows by exactly these bits, at most one byte comes out, and the accumulator stays as it must be
(40_bit_accumulator.md R122). -/
def Appends (e : Enc) (k : OutSink) (e' : Enc) (k' : OutSink) (bits : List Bool) : Prop :=
  packedBits e' k' = packedBits e k ++ bits ∧ accumulatorOk e' ∧ k'.cap = k.cap ∧
    (k'.out = k.out ∨ ∃ v, k'.out = k.out ++ [v])

/-- The decoder's staging indices and accumulator are as 10_state.md R41 parts a and b say. -/
def stagingOk (b : Build) (d : Dec) : Prop :=
  d.inputSize ≤ b.stagingSize ∧ (d.inputIndex < d.inputSize ∨ (d.inputIndex = 0 ∧ d.inputSize = 0)) ∧ d.bitIndex ≤ 8

/-- The decoder has taken the next `n` bits of the stream, of value `v`, and written nothing but what `get_bits` may write
(40_bit_accumulator.md R131). -/
def Took (b : Build) (d : Dec) (n v : Nat) (d' : Dec) : Prop :=
  (∃ c i size index, d' = { d with currentByte := c, bitIndex := i, inputSize := size, inputIndex := index }) ∧
    unreadBits d = fieldBits n v ++ unreadBits d' ∧ v < 2 ^ n ∧ d'.bitIndex ≤ 7 ∧ stagingOk b d'

/-! ## Producing bytes -/

/-- The pending backreference of `d` has produced the bytes `new`, as many as it owes and the output sink takes, each by
43_decoder_fsm.md R196: 0 before the start, a byte of this same copy once the distance is reached, and a byte of the
window before that; every one of them is stored in the window, and nothing else is written. -/
def Copied (b : Build) (d : Dec) (k : OutSink) (new : List Byte) (d' : Dec) (k' : OutSink) : Prop :=
  new.length = min d.outputCount (k.cap - k.produced) ∧
  (∀ i, i < new.length → new.getD i 0 =
    if d.headIndex + i < d.outputIndex then 0
    else if d.outputIndex ≤ i then new.getD (i - d.outputIndex) 0
    else d.window.read ((d.headIndex + i - d.outputIndex) % b.window)) ∧
  k' = { k with out := k.out ++ new } ∧
  ∃ w : Memory, w.wf = true ∧
    (∀ i, i < new.length → w.read ((d.headIndex + i) % b.window) = new.getD i 0) ∧
    (∀ a, (∀ i, i < new.length → a ≠ (d.headIndex + i) % b.window) → w.read a = d.window.read a) ∧
    d' = { d with
      window := w
      headIndex := d.headIndex + new.length
      outputCount := d.outputCount - new.length
      state := if new.length = d.outputCount then .tagBit else .yieldBackref }

/-- The window as 10_state.md R39 describes it, when the bytes `y` have been produced since reset: a cell holds the last of
them whose ordinal falls on it, or 0. -/
def windowDescribes (b : Build) (y : List Byte) (d : Dec) : Prop :=
  d.headIndex = y.length ∧
  (∀ k, k < y.length → (∀ j, k < j → j < y.length → j % b.window ≠ k % b.window) →
    d.window.read (k % b.window) = y.getD k 0) ∧
  (∀ a, (∀ k, k < y.length → k % b.window ≠ a) → d.window.read a = 0)

/-- What an instruction has given to the host or to the running poll's output sink of the decoder. -/
def Delivered (i : Instr) (s t : State) (new : List Byte) : Prop :=
  (∃ cap status, i = .decPoll cap ∧ t.decReply = some (.polled status new)) ∨
  (∃ k, s.decOut = some k ∧ t.decOut = some { k with out := k.out ++ new }) ∨
  new = []

/-! ## The tables of transitions -/

/-- Where a micro-step of the encoder goes: the rows "by step" of the table of 42_encoder_fsm.md R171. -/
def encTarget (s : State) (k : OutSink) : EncState :=
  let e := s.enc
  let room := decide (k.produced < k.cap)
  match e.state with
  | .notFull => .notFull
  | .filled => .search
  | .search =>
    if e.flags.getLsbD 0 = false ∧ e.inputSize < e.matchScanIndex + 2 ^ s.build.lookaheadBits then .saveBacklog
    else if e.flags.getLsbD 0 = true ∧ e.inputSize < e.matchScanIndex + 1 then .flushBits
    else .yieldTagBit
  | .yieldTagBit =>
    if room then (if e.matchLength = 0 then .yieldLiteral else .yieldBrIndex) else .yieldTagBit
  | .yieldLiteral => if room then .search else .yieldLiteral
  | .yieldBrIndex => if room ∧ e.outgoingBitsCount = 0 then .yieldBrLength else .yieldBrIndex
  | .yieldBrLength => if room ∧ e.outgoingBitsCount = 0 then .search else .yieldBrLength
  | .saveBacklog => .notFull
  | .flushBits => if e.bitIndex = 0 ∨ room then .done else .flushBits
  | .done => .done

/-- Where a micro-step of the decoder goes: the table of 43_decoder_fsm.md R197. -/
def decTarget (s : State) (k : OutSink) : DecState :=
  let d := s.dec
  let room := k.cap - k.produced
  let available := (unreadBits d).length
  match d.state with
  | .tagBit =>
    match unreadBits d with
    | [] => .tagBit
    | true :: _ => .yieldLiteral
    | false :: _ => if 8 < s.build.windowBits then .backrefIndexMsb else .backrefIndexLsb
  | .yieldLiteral => if 0 < room ∧ 8 ≤ available then .tagBit else .yieldLiteral
  | .backrefIndexMsb => if s.build.windowBits - 8 ≤ available then .backrefIndexLsb else .backrefIndexMsb
  | .backrefIndexLsb => if min s.build.windowBits 8 ≤ available then .backrefCountLsb else .backrefIndexLsb
  | .backrefCountLsb => if s.build.lookaheadBits ≤ available then .yieldBackref else .backrefCountLsb
  | .yieldBackref => if 0 < room ∧ d.outputCount ≤ room then .tagBit else .yieldBackref

/-- The bits that the micro-step of a decoder state asks `get_bits` for (40_bit_accumulator.md R132). -/
def wantedBits (b : Build) : DecState → Nat
  | .tagBit => 1
  | .yieldLiteral => 8
  | .backrefIndexMsb => b.windowBits - 8
  | .backrefIndexLsb => min b.windowBits 8
  | .backrefCountLsb => b.lookaheadBits
  | .yieldBackref => 0

/-! ## The two units -/

/-- The instructions of the encoder unit: its commands and its micro-steps. -/
def ofEncoder : Instr → Bool
  | .encSink _ | .encPoll _ | .encFinish | .encReset | .encStepNotFull | .encStepFilled | .encStepSearch
  | .encStepYieldTagBit | .encStepYieldLiteral | .encStepYieldBrIndex | .encStepYieldBrLength | .encStepSaveBacklog
  | .encStepFlushBits | .encStepDone => true
  | _ => false

/-- The commands of the encoder. -/
def encCommands (i : Instr) : Prop :=
  (∃ input, i = .encSink input) ∨ (∃ cap, i = .encPoll cap) ∨ i = .encFinish ∨ i = .encReset

/-- The commands of the decoder. -/
def decCommands (i : Instr) : Prop :=
  (∃ input, i = .decSink input) ∨ (∃ cap, i = .decPoll cap) ∨ i = .decFinish ∨ i = .decReset

/-- What the host has been answered by the instruction `i`. -/
def replyTo (i : Instr) (t : State) : Option Reply :=
  match i with
  | .encSink _ | .encPoll _ | .encFinish => t.encReply
  | .decSink _ | .decPoll _ | .decFinish => t.decReply
  | _ => none

/-- The status of a reply. -/
def Reply.status : Reply → Status
  | .sunk status _ => status
  | .polled status _ => status
  | .finished status => status

/-- A reply's count: bytes consumed or bytes produced; a `finish` has none. -/
def Reply.count : Reply → Nat
  | .sunk _ consumed => consumed
  | .polled _ out => out.length
  | .finished _ => 0

/-! ## Runs of micro-steps -/

/-- `n` micro-steps of the encoder, each the one its state register selects. -/
def encMicroSteps : Nat → State → Result
  | 0, s => .next s
  | n + 1, s =>
    match exec s.enc.state.microStep s with
    | .next t => encMicroSteps n t
    | .fault f => .fault f
    | .refused r => .refused r

/-- `n` micro-steps of the decoder, each the one its state register selects. -/
def decMicroSteps : Nat → State → Result
  | 0, s => .next s
  | n + 1, s =>
    match exec s.dec.state.microStep s with
    | .next t => decMicroSteps n t
    | .fault f => .fault f
    | .refused r => .refused r

end Sys2Proof.Machine
end

