-- ==== Sys2Proof/Machine/HostLoop.lean ====
section
/-! DEFINITION. What a host does to get a complete stream (44_streaming_protocol.md R230 to R232, the abbreviations of
30_encoding.md R107): any chunking of the input, any capacity of at least 1 at every poll. The loops are the host's, so
they are relations over the results of the commands and not operations of the block. -/

namespace Sys2Proof.Machine

/-- `ENC.DRAIN` (R230): polls until one returns `Empty`; the bytes delivered on the way. -/
inductive EncDrain (b : Build) : Enc → List Byte → Enc → Prop where
  | last {e e' : Enc} {out : List Byte} (cap : Nat) (room : 0 < cap)
      (poll : encPoll b cap e = .ok (e', .polled .empty out)) : EncDrain b e out e'
  | more {e e₁ e' : Enc} {out later : List Byte} (cap : Nat) (room : 0 < cap)
      (poll : encPoll b cap e = .ok (e₁, .polled .more out)) (rest : EncDrain b e₁ later e') :
      EncDrain b e (out ++ later) e'

/-- The sink loop of R232 over the bytes `x`: a sink of any part of what is left, then a drain, until all is accepted. -/
inductive EncFeed (b : Build) : Enc → List Byte → List Byte → Enc → Prop where
  | done (e : Enc) : EncFeed b e [] [] e
  | sink {e e₁ e₂ e' : Enc} {out later x : List Byte} (n k : Nat)
      (accepted : encSink b (x.take n) e = (e₁, .sunk .ok k))
      (drain : EncDrain b e₁ out e₂) (rest : EncFeed b e₂ (x.drop k) later e') :
      EncFeed b e x (out ++ later) e'

/-- `ENC.CLOSE` (R231): `finish` and drain until `finish` returns `Done`. -/
inductive EncClose (b : Build) : Enc → List Byte → Enc → Prop where
  | done {e e' : Enc} (finish : encFinish e = (e', .finished .done)) : EncClose b e [] e'
  | more {e e₁ e₂ e' : Enc} {out later : List Byte} (finish : encFinish e = (e₁, .finished .more))
      (drain : EncDrain b e₁ out e₂) (rest : EncClose b e₂ later e') :
      EncClose b e (out ++ later) e'

/-- A complete encode (R232): from a reset encoder, the input `x` gives the bytes `z`. -/
def Encodes (b : Build) (x z : List Byte) : Prop :=
  ∃ fed closing e e', EncFeed b .reset x fed e ∧ EncClose b e closing e' ∧ z = fed ++ closing

/-- `DEC.DRAIN` (R230). -/
inductive DecDrain (b : Build) : Dec → List Byte → Dec → Prop where
  | last {d d' : Dec} {out : List Byte} (cap : Nat) (room : 0 < cap)
      (poll : decPoll b cap d = .ok (d', .polled .empty out)) : DecDrain b d out d'
  | more {d d₁ d' : Dec} {out later : List Byte} (cap : Nat) (room : 0 < cap)
      (poll : decPoll b cap d = .ok (d₁, .polled .more out)) (rest : DecDrain b d₁ later d') :
      DecDrain b d (out ++ later) d'

/-- The sink loop of R232 for the decoder over the stream `z`. -/
inductive DecFeed (b : Build) : Dec → List Byte → List Byte → Dec → Prop where
  | done (d : Dec) : DecFeed b d [] [] d
  | sink {d d₁ d₂ d' : Dec} {out later z : List Byte} (n k : Nat)
      (accepted : decSink b (z.take n) d = (d₁, .sunk .ok k))
      (drain : DecDrain b d₁ out d₂) (rest : DecFeed b d₂ (z.drop k) later d') :
      DecFeed b d z (out ++ later) d'

/-- A complete decode (R232): from a reset decoder, the stream `z` gives the bytes `y`. A drain leaves nothing staged, so
that closing adds nothing (R221, R231). -/
def Decodes (b : Build) (z y : List Byte) : Prop :=
  ∃ d, DecFeed b .reset z y d

end Sys2Proof.Machine
end

