-- ==== Sys2Proof/Machine/Stream.lean ====
section
/-! DEFINITION. What the two units compute as functions of a whole stream: the greedy parse of 42_encoder_fsm.md R174,
the packing of 30_encoding.md R91 to R96, and the decoding of 43_decoder_fsm.md R200. The machines are defined without
these; claims compare them. -/

namespace Sys2Proof.Machine

/-- A token by its true operands (30_encoding.md R91 to R93). -/
inductive Token where
  | literal (value : Byte)
  | backref (distance length : Nat)
  deriving DecidableEq, Repr

/-! ## The greedy parse (R174) -/

/-- `x[k - d + i]`, with `x[j] = 0` for `j < 0` (R174). -/
def historyByte (x : List Byte) (k d i : Nat) : Byte :=
  if k + i < d then 0 else x.getD (k + i - d) 0

/-- The greatest `l` at most `n` with `x[k - d + i] = x[k + i]` for `start ≤ i < start + l` (R174). -/
def runLength (x : List Byte) (k d : Nat) (start : Nat) : Nat → Nat
  | 0 => 0
  | n + 1 =>
    if historyByte x k d start = x.getD (k + start) 0 then runLength x k d (start + 1) n + 1 else 0

/-- The longest run over the distances 1, …, `n`, and the smallest distance that has it (R174). -/
def bestRun (x : List Byte) (k maxLen : Nat) : Nat → Nat × Nat
  | 0 => (0, 0)
  | n + 1 =>
    let shorter := bestRun x k maxLen n
    let here := runLength x k (n + 1) 0 maxLen
    if shorter.1 < here then (here, n + 1) else shorter

/-- The tokens from position `k` on (R174); each covers at least one byte, so `fuel` may be the number of bytes left. -/
def greedyFrom (b : Build) (x : List Byte) : Nat → Nat → List Token
  | 0, _ => []
  | fuel + 1, k =>
    if x.length ≤ k then []
    else
      let best := bestRun x k (min b.lookahead (x.length - k)) b.window
      if b.breakEven < best.1 then .backref best.2 best.1 :: greedyFrom b x fuel (k + best.1)
      else .literal (x.getD k 0) :: greedyFrom b x fuel (k + 1)

/-- The token sequence that the encoder emits for the input `x` (R174). -/
def greedyTokens (b : Build) (x : List Byte) : List Token :=
  greedyFrom b x x.length 0

/-- The bits of a token (R91, R93). -/
def tokenBits (b : Build) : Token → List Bool
  | .literal value => true :: byteBits value
  | .backref distance length =>
    brefBits b.windowBits b.lookaheadBits (fieldOfOperand distance) (fieldOfOperand length)

/-- The compressed stream of the input `x` (R174). -/
def compressed (b : Build) (x : List Byte) : List Byte :=
  packBits ((greedyTokens b x).flatMap (tokenBits b))

/-! ## The decoding (R200) -/

/-- Appends `n` bytes, each a copy of the byte `d` before it, 0 before the start (R200). -/
def appendCopies (d : Nat) : Nat → List Byte → List Byte
  | 0, y => y
  | n + 1, y => appendCopies d n (y ++ [if y.length < d then 0 else y.getD (y.length - d) 0])

/-- The loop of R200 over the bits left; every token takes at least one bit, so `fuel` may be their number. -/
def decodeFrom (b : Build) : Nat → List Bool → List Byte → List Byte
  | 0, _, y => y
  | _ + 1, [], y => y
  | fuel + 1, true :: rest, y =>
    match takeField 8 rest with
    | none => y
    | some (value, later) => decodeFrom b fuel later (y ++ [BitVec.ofNat 8 value])
  | fuel + 1, false :: rest, y =>
    match takeField b.windowBits rest with
    | none => y
    | some (index, afterIndex) =>
      match takeField b.lookaheadBits afterIndex with
      | none => y
      | some (count, later) =>
        decodeFrom b fuel later (appendCopies (operandOfField index) (operandOfField count) y)

/-- The output for the compressed stream `z` (R200). -/
def decompressed (b : Build) (z : List Byte) : List Byte :=
  decodeFrom b (streamBits z).length (streamBits z) []

end Sys2Proof.Machine
end

