-- ==== Sys2Proof/Safety.lean ====
section
/-! DEFINITION. What a safe run is: the block has "no fault that stops it" (60_exceptions.md), so a safe run never stops. -/

namespace Sys2Proof

open Machine

/-- From `s` the block runs any number of steps without a fault or a refusal. -/
def RunsOn (s : Machine.State) : Prop :=
  ∀ n, ∃ s' : Machine.State, Host.Core.run core n s = Host.Outcome.next s'

end Sys2Proof
end

