-- ==== Sys2Proof/Certificates/Slice0/Obligations.lean ====
section
/-! DEFINITION. The statements about the block, in the order of spec/: reset, encodings, accumulators, match finder,
encoder micro-steps, decoder micro-steps, tokens, commands, statuses, the whole machine, the whole stream. Each
docstring names the rule it formalises; "the model's choice" marks what rests on an entry of the assumption log. -/

open Sys2Proof Sys2Proof.Machine

/-! ## Reset (70_reset_and_hazards.md, 10_state.md R46) -/

/-- R271: the value of every register and of every memory cell after reset, in every build. The reset `state` registers
hold code 0. -/
def Obligations.ResetStateValues : Prop :=
  ∀ b : Build,
    let s := State.created b
    (s.enc.state = .notFull ∧ s.enc.state.code = 0 ∧ s.enc.inputSize = 0 ∧ s.enc.matchScanIndex = 0 ∧
      s.enc.matchLength = 0 ∧ s.enc.matchPos = 0 ∧ s.enc.outgoingBits = 0 ∧ s.enc.outgoingBitsCount = 0 ∧
      s.enc.flags = 0 ∧ s.enc.currentByte = 0 ∧ s.enc.bitIndex = 0 ∧
      (∀ a, s.enc.buffer.read a = 0) ∧ ∀ a, s.enc.index.read a = none) ∧
    (s.dec.state = .tagBit ∧ s.dec.state.code = 0 ∧ s.dec.inputSize = 0 ∧ s.dec.inputIndex = 0 ∧
      s.dec.currentByte = 0 ∧ s.dec.bitIndex = 0 ∧ s.dec.headIndex = 0 ∧ s.dec.outputIndex = 0 ∧
      s.dec.outputCount = 0 ∧ (∀ a, s.dec.window.read a = 0) ∧ ∀ a, s.dec.staging.read a = 0) ∧
    s.build = b

/-- R31, R41 and R172 hold of a block just created, in every legal build, and so of the shipped block. -/
def Obligations.CreatedMeetsInvariant : Prop :=
  (∀ b : Build, b.legal = true → StateInv (State.created b)) ∧ StateInv State.reset

/-- R217, R223, R272: `ENC.RESET` and `DEC.RESET` complete in every state of their unit and leave it as its creation did; they
return nothing; the other unit, the parameters and everything else are untouched. -/
def Obligations.ResetCommandsRestore : Prop :=
  ∀ s : Machine.State,
    (s.encOut = none → ∃ t, exec .encReset s = .next t ∧ t.enc = (State.created s.build).enc ∧
      replyTo .encReset t = none ∧ t = { s with enc := t.enc, encReply := t.encReply }) ∧
    (s.decOut = none → ∃ t, exec .decReset s = .next t ∧ t.dec = (State.created s.build).dec ∧
      replyTo .decReset t = none ∧ t = { s with dec := t.dec, decReply := t.decReply })

/-! ## Encodings (30_encoding.md) -/

/-- Words written out from R91, R93, R99, R104, R105 and R103: a literal, backreferences of the narrowest, the shipped and
the widest format, the eight command codes, state codes that are used and that are not, the status codes. -/
def Obligations.DecodingOfSpecWords : Prop :=
  decode 8 4 (.stream [true, false, true, true, false, false, false, false, true]) = .ok (.lit 0x61, []) ∧
  decode 8 4 (.stream [false, false, false, false, true, false, true, false, true, true, true, true, true]) =
    .ok (.bref 0x15 0xF, []) ∧
  decode 4 3 (.stream [false, true, false, false, true, false, true, true]) = .ok (.bref4_3 9 3, []) ∧
  decode 15 8 (.stream ([false, true, false, false, false, false, false, false, false] ++
    [false, false, false, false, false, false, true] ++ [true, false, false, false, false, false, true, false])) =
    .ok (.bref15_8 0x4001 0x82, []) ∧
  (∀ slice cap,
    decode 8 4 (.command ⟨0#3, slice, cap⟩) = .ok (.encSink slice, []) ∧
    decode 8 4 (.command ⟨1#3, slice, cap⟩) = .ok (.encPoll cap, []) ∧
    decode 8 4 (.command ⟨2#3, slice, cap⟩) = .ok (.encFinish, []) ∧
    decode 8 4 (.command ⟨3#3, slice, cap⟩) = .ok (.encReset, []) ∧
    decode 8 4 (.command ⟨4#3, slice, cap⟩) = .ok (.decSink slice, []) ∧
    decode 8 4 (.command ⟨5#3, slice, cap⟩) = .ok (.decPoll cap, []) ∧
    decode 8 4 (.command ⟨6#3, slice, cap⟩) = .ok (.decFinish, []) ∧
    decode 8 4 (.command ⟨7#3, slice, cap⟩) = .ok (.decReset, [])) ∧
  decode 8 4 (.encoderState 3#4) = .ok (.encStepYieldTagBit, []) ∧
  decode 8 4 (.encoderState 9#4) = .ok (.encStepDone, []) ∧
  decode 8 4 (.encoderState 10#4) = .error .unusedEncoderCode ∧
  decode 8 4 (.decoderState 5#3) = .ok (.decStepYieldBackref, []) ∧
  decode 8 4 (.decoderState 6#3) = .error .unusedDecoderCode ∧
  [Status.ok, .full, .empty, .more, .done, .misuse].map Status.code = [0#3, 1#3, 2#3, 3#3, 4#3, 7#3]

/-- Every instruction that a build has decodes from its own encoding, with every operand at every value; a token does so
at the front of any stream, and what follows it is left (R91, R93, R95, R99, R104, R105). -/
def Obligations.DecodeEncodeAgree : Prop :=
  ∀ (b : Build) (i : Instr), WellFormed b i = true →
    decode b.windowBits b.lookaheadBits (encode i) = .ok (i, []) ∧
    ∀ bits later, encode i = .stream bits →
      decode b.windowBits b.lookaheadBits (.stream (bits ++ later)) = .ok (i, later)

/-- R95, R97: every bit string begins with one token of the build, whose length the first bit alone decides, or it is cut
short inside one; there is no illegal and no reserved encoding. -/
def Obligations.EveryStreamParses : Prop :=
  ∀ (b : Build) (bits : List Bool), b.legal = true →
    let width := if bits.head? = some true then 9 else 1 + b.windowBits + b.lookaheadBits
    (bits.length < width → decodeToken b.windowBits b.lookaheadBits bits = .error .incompleteToken) ∧
    (width ≤ bits.length → ∃ i,
      decodeToken b.windowBits b.lookaheadBits bits = .ok (i, bits.drop width) ∧
      encode i = .stream (bits.take width) ∧ WellFormed b i = true)

/-- The step of the block runs the instruction that decodes from what selects it: the state code of a running poll (R160,
R190), the bits of the stream at token grain (R91), the command word of the host (R99); and it adds to it only the
return of a finished poll (R215, R221) or, at a finer grain, the opening of a poll. With nothing to run it holds the
state (R259). What is fetched first, the grains and the refusal of an illegal build are the model's choice (log 2,
log 3, log 6, log 8, log 17). -/
def Obligations.StepRunsDecodedInstruction : Prop :=
  ∀ s : Machine.State,
    let W := s.build.windowBits
    let L := s.build.lookaheadBits
    (s.build.legal = false → step s = .refused .illegalBuild) ∧
    (s.build.legal = true →
      (∀ k, s.encOut = some k → ∃ i, decode W L (.encoderState s.enc.state.code) = .ok (i, []) ∧
        step s = onNext (exec i s) (State.encAfter s.enc.state)) ∧
      (∀ k, s.encOut = none → s.decOut = some k → (s.grain ≠ .token ∨ nextToken s.build s.dec k = none) →
        ∃ i, decode W L (.decoderState s.dec.state.code) = .ok (i, []) ∧
          step s = onNext (exec i s) (State.decAfter s.dec.state)) ∧
      (∀ k i later d, s.encOut = none → s.decOut = some k → s.grain = .token → s.dec.state = .tagBit →
        decode W L (.stream (unreadBits s.dec)) = .ok (i, later) → (i.bref? = none → k.produced < k.cap) →
        skipBits s.build ((unreadBits s.dec).length - later.length) s.dec = .ok d →
        step s = onNext (exec i { s with dec := d }) (State.decAfter .yieldBackref)) ∧
      (∀ w later, s.encOut = none → s.decOut = none → s.pending = w :: later →
        decode W L (.command w) = .ok (decodeCommand w, []) ∧
        ((s.grain = .command ∨ ∀ cap, 0 < cap → decodeCommand w ≠ .encPoll cap ∧ decodeCommand w ≠ .decPoll cap) →
          step s = exec (decodeCommand w) { s with pending := later }) ∧
        (∀ cap, s.grain ≠ .command → 0 < cap → decodeCommand w = .encPoll cap →
          step s = .next { s with pending := later, encOut := some { cap := cap, out := [] } }) ∧
        (∀ cap, s.grain ≠ .command → 0 < cap → decodeCommand w = .decPoll cap →
          step s = .next { s with pending := later, decOut := some { cap := cap, out := [] } })) ∧
      (s.encOut = none → s.decOut = none → s.pending = [] → step s = .next s))

/-! ## The bit accumulators (40_bit_accumulator.md) -/

/-- R122: the registers and the byte that `push_bits` writes, over the naturals, and its effect on the stream: exactly the
`count` bits are appended, at most one byte comes out, nothing else changes, and the unfilled positions stay 0. -/
def Obligations.PushBitsAppends : Prop :=
  ∀ (b : Build) (count : Nat) (bits : Byte) (e : Enc) (k : OutSink),
    1 ≤ count → count ≤ 8 → bits.toNat < 2 ^ count → accumulatorOk e →
    let free := 8 - e.bitIndex
    let r := count - free
    let p := pushBits b count bits e k
    (if free < count ∨ (free = count ∧ b.emitOnExactFill = true) then
      ∃ v w : Byte, v.toNat = e.currentByte.toNat ||| (bits.toNat >>> r) ∧
        w.toNat = (bits.toNat % 2 ^ r) <<< (8 - r) ∧
        p = ({ e with currentByte := w, bitIndex := r }, { k with out := k.out ++ [v] })
     else
      ∃ w : Byte, w.toNat = e.currentByte.toNat ||| (bits.toNat <<< (free - count)) ∧
        p = ({ e with currentByte := w, bitIndex := e.bitIndex + count }, k)) ∧
    Appends e k p.1 p.2 (fieldBits count bits.toNat) ∧
    (b.emitOnExactFill = true → e.bitIndex ≤ 7 → p.1.bitIndex ≤ 7)

/-- R124: `push_outgoing_bits` appends the top bits of the pending field, up to 8 of them, lowers the count by as many,
returns that number, and leaves `enc.outgoing_bits` as it is; with nothing pending it writes nothing and returns 0. -/
def Obligations.PushOutgoingBitsDrains : Prop :=
  ∀ (b : Build) (e : Enc) (k : OutSink), e.outgoingBitsCount ≤ 16 → accumulatorOk e →
    let p := pushOutgoingBits b e k
    p.2.2 = min e.outgoingBitsCount 8 ∧
    (∃ w n, p.1 = { e with
      currentByte := w, bitIndex := n, outgoingBitsCount := e.outgoingBitsCount - min e.outgoingBitsCount 8 }) ∧
    Appends e k p.1 p.2.1 ((fieldBits e.outgoingBitsCount e.outgoingBits.toNat).take 8) ∧
    (e.outgoingBitsCount = 0 → p = (e, k, 0))

/-- R130, R131: `bits_available` counts the unread bits. `get_bits` returns nothing and writes nothing when fewer than
`count` bits are available; else it takes the next `count` bits, and fetches a byte only when a bit of it is needed. -/
def Obligations.GetBitsTakesTheFront : Prop :=
  ∀ (b : Build) (count : Nat) (d : Dec), 1 ≤ count → count ≤ 8 → stagingOk b d →
    bitsAvailable d = d.bitIndex + 8 * (d.inputSize - d.inputIndex) ∧
    bitsAvailable d = (unreadBits d).length ∧
    (bitsAvailable d < count → getBits b count d = .ok none) ∧
    (count ≤ bitsAvailable d → ∃ v d', getBits b count d = .ok (some (v, d')) ∧ Took b d count v d' ∧
      (count ≤ d.bitIndex → d' = { d with bitIndex := d.bitIndex - count }))

/-! ## The match finder (41_match_finder.md) -/

/-- R141: `mlen` is the greatest `k` up to `max_len` for which the two runs agree. -/
def Obligations.CommonRunIsLongest : Prop :=
  ∀ (m : Memory) (pos fin maxLen k : Nat),
    mlen m pos fin maxLen = k ↔
      k ≤ maxLen ∧ (∀ i, i < k → m.read (pos + i) = m.read (fin + i)) ∧
        (k < maxLen → m.read (pos + k) ≠ m.read (fin + k))

/-- R140, R142, R144: the finder reports no match exactly when no candidate is longer than `BREAK_EVEN`; else it reports the
longest common run, and of equal ones the nearest; the result depends on `enc.buffer[start .. end + max_len)` alone. -/
def Obligations.FinderIsLongestAndNearest : Prop :=
  (∀ b : Build, b.breakEven = (1 + b.windowBits + b.lookaheadBits) / 8) ∧ Build.shipped.breakEven = 1 ∧
  ∀ (b : Build) (m : Memory) (start fin maxLen : Nat), start < fin → 1 ≤ maxLen →
    (findLongestMatch b.breakEven m start fin maxLen = none ↔
      ∀ pos, start ≤ pos → pos < fin → mlen m pos fin maxLen ≤ b.breakEven) ∧
    (∀ r, findLongestMatch b.breakEven m start fin maxLen = some r →
      1 ≤ r.distance ∧ r.distance ≤ fin - start ∧ b.breakEven + 1 ≤ r.length ∧ r.length ≤ maxLen ∧
      mlen m (fin - r.distance) fin maxLen = r.length ∧
      ∀ pos, start ≤ pos → pos < fin →
        mlen m pos fin maxLen ≤ r.length ∧
        (mlen m pos fin maxLen = r.length → pos ≤ fin - r.distance)) ∧
    (∀ m' : Memory, (∀ a, start ≤ a → a < fin + maxLen → m'.read a = m.read a) →
      findLongestMatch b.breakEven m' start fin maxLen = findLongestMatch b.breakEven m start fin maxLen)

/-- R145, R150: the backward scan with its two pre-checks and its early stop returns exactly the result of R142. -/
def Obligations.BruteForceFindsTheMatch : Prop :=
  ∀ (breakEven : Nat) (m : Memory) (start fin maxLen : Nat), start < fin → 1 ≤ maxLen →
    bruteForce breakEven m start fin maxLen = findLongestMatch breakEven m start fin maxLen

/-- R146: after `do_indexing` every entry below the limit is the greatest earlier position of the same byte, or `NONE`;
entries at or above it are not written; the index stays in canonical form. -/
def Obligations.IndexBuildIsCorrect : Prop :=
  ∀ (m : Memory) (limit : Nat) (index : IndexMemory), index.wf = true →
    (doIndexing m limit index).wf = true ∧
    (∀ i, i < limit → indexEntryCorrect m (doIndexing m limit index) i) ∧
    ∀ i, limit ≤ i → (doIndexing m limit index).read i = index.read i

/-- R147, R150: over a correct index the walk along the chain returns exactly the result of R142. -/
def Obligations.IndexedSearchFindsTheMatch : Prop :=
  ∀ (breakEven : Nat) (m : Memory) (index : IndexMemory) (start fin maxLen : Nat), start < fin → 1 ≤ maxLen →
    (∀ i, i ≤ fin → indexEntryCorrect m index i) →
    indexedSearch breakEven m index start fin maxLen = findLongestMatch breakEven m start fin maxLen

/-! ## The encoder micro-steps (42_encoder_fsm.md) -/

/-- R161: `ENC.STEP.NotFull` completes and has no effect; `ENC.POLL` in `NotFull` returns `Empty` at once; the state is left
only by an `ENC.SINK` that fills the input half and by `ENC.FINISH`. -/
def Obligations.NotFullWaits : Prop :=
  ∀ s : Machine.State, s.enc.state = .notFull →
    (∀ k, s.encOut = some k → exec .encStepNotFull s = .next s) ∧
    (s.encOut = none → ∀ cap, 0 < cap →
      exec (.encPoll cap) s = .next { s with encReply := some (.polled .empty []) }) ∧
    (s.encOut = none → ∃ t, exec .encFinish s = .next t ∧ t.enc.state = .filled) ∧
    ∀ i t, exec i s = .next t → t.enc.state ≠ .notFull →
      t.enc.state = .filled ∧
        (i = .encFinish ∨ ∃ input, i = .encSink input ∧ s.build.window ≤ s.enc.inputSize + input.length)

/-- R162: `ENC.STEP.Filled` builds the index if the build has one, goes to `Search`, and writes nothing else. -/
def Obligations.FilledStep : Prop :=
  ∀ (s : Machine.State) (k : OutSink), s.encOut = some k → s.enc.state = .filled →
    s.enc.inputSize ≤ s.build.window →
    exec .encStepFilled s = .next { s with enc := { s.enc with
      index := if s.build.indexed = true
               then doIndexing s.enc.buffer (s.build.window + s.enc.inputSize) s.enc.index else s.enc.index
      state := .search } }

/-- R163: `ENC.STEP.Search` leaves for `SaveBacklog` or `FlushBits` when too little lookahead remains; else it asks for the
longest match of R142 at the scan position, whichever strategy the build has, and records it. Over an index that
describes the buffer (R149). -/
def Obligations.SearchStep : Prop :=
  ∀ (s : Machine.State) (k : OutSink), s.encOut = some k → s.enc.state = .search →
    s.enc.inputSize ≤ s.build.window →
    (s.build.indexed = true →
      ∀ i, i < s.build.window + s.enc.inputSize → indexEntryCorrect s.enc.buffer s.enc.index i) →
    let e := s.enc
    let need := if e.flags.getLsbD 0 then 1 else s.build.lookahead
    (e.inputSize < e.matchScanIndex + need →
      exec .encStepSearch s = .next { s with enc := { e with
        state := if e.flags.getLsbD 0 then .flushBits else .saveBacklog } }) ∧
    (e.matchScanIndex + need ≤ e.inputSize →
      (findLongestMatch s.build.breakEven e.buffer e.matchScanIndex (s.build.window + e.matchScanIndex)
          (min s.build.lookahead (e.inputSize - e.matchScanIndex)) = none →
        exec .encStepSearch s = .next { s with enc := { e with
          matchScanIndex := e.matchScanIndex + 1, matchLength := 0, state := .yieldTagBit } }) ∧
      ∀ r, findLongestMatch s.build.breakEven e.buffer e.matchScanIndex (s.build.window + e.matchScanIndex)
          (min s.build.lookahead (e.inputSize - e.matchScanIndex)) = some r →
        exec .encStepSearch s = .next { s with enc := { e with
          matchPos := r.distance, matchLength := r.length, state := .yieldTagBit } })

/-- R164: `ENC.STEP.YieldTagBit` waits for room (decision D22, log 16); then it appends the bit 1 for a literal, or the bit 0
and loads the distance field. Only the registers named change. -/
def Obligations.YieldTagBitStep : Prop :=
  ∀ (s : Machine.State) (k : OutSink), s.encOut = some k → s.enc.state = .yieldTagBit → accumulatorOk s.enc →
    (k.cap ≤ k.produced → exec .encStepYieldTagBit s = .next s) ∧
    (k.produced < k.cap → s.enc.matchLength = 0 → ∃ w n k',
      let e' := { s.enc with currentByte := w, bitIndex := n, state := .yieldLiteral }
      exec .encStepYieldTagBit s = .next { s with enc := e', encOut := some k' } ∧ Appends s.enc k e' k' [true]) ∧
    (k.produced < k.cap → s.enc.matchLength ≠ 0 → ∃ w n k',
      let e' := { s.enc with
        currentByte := w, bitIndex := n, outgoingBits := BitVec.ofNat 16 (s.enc.matchPos - 1)
        outgoingBitsCount := s.build.windowBits, state := .yieldBrIndex }
      exec .encStepYieldTagBit s = .next { s with enc := e', encOut := some k' } ∧ Appends s.enc k e' k' [false])

/-- R165: `ENC.STEP.YieldLiteral` waits for room; then it appends the 8 bits of the byte at N + `enc.match_scan_index` - 1,
one byte comes out, and it returns to `Search`. An accumulator of a build that holds back a full byte has at least
the tag bit in it. -/
def Obligations.EncYieldLiteralStep : Prop :=
  ∀ (s : Machine.State) (k : OutSink), s.encOut = some k → s.enc.state = .yieldLiteral → accumulatorOk s.enc →
    1 ≤ s.enc.matchScanIndex → s.enc.matchScanIndex ≤ s.build.window →
    (k.cap ≤ k.produced → exec .encStepYieldLiteral s = .next s) ∧
    (k.produced < k.cap → ∃ w n k',
      let e' := { s.enc with currentByte := w, bitIndex := n, state := .search }
      exec .encStepYieldLiteral s = .next { s with enc := e', encOut := some k' } ∧
      Appends s.enc k e' k' (byteBits (s.enc.buffer.read (s.build.window + s.enc.matchScanIndex - 1))) ∧
      (s.build.emitOnExactFill = true ∨ 1 ≤ s.enc.bitIndex → k'.produced = k.produced + 1))

/-- R166: `ENC.STEP.YieldBrIndex` waits for room (decision D22, log 16); while distance bits are pending it appends up to 8
of them; then it loads the length field. -/
def Obligations.YieldBrIndexStep : Prop :=
  ∀ (s : Machine.State) (k : OutSink), s.encOut = some k → s.enc.state = .yieldBrIndex → accumulatorOk s.enc →
    s.enc.outgoingBitsCount ≤ 16 →
    let c := s.enc.outgoingBitsCount
    (k.cap ≤ k.produced → exec .encStepYieldBrIndex s = .next s) ∧
    (k.produced < k.cap → 0 < c → ∃ w n k',
      let e' := { s.enc with currentByte := w, bitIndex := n, outgoingBitsCount := c - min c 8 }
      exec .encStepYieldBrIndex s = .next { s with enc := e', encOut := some k' } ∧
      Appends s.enc k e' k' ((fieldBits c s.enc.outgoingBits.toNat).take 8)) ∧
    (k.produced < k.cap → c = 0 → exec .encStepYieldBrIndex s = .next { s with enc := { s.enc with
      outgoingBits := BitVec.ofNat 16 (s.enc.matchLength - 1), outgoingBitsCount := s.build.lookaheadBits
      state := .yieldBrLength } })

/-- R167: `ENC.STEP.YieldBrLength` waits for room (decision D22, log 16); while length bits are pending it appends up to 8 of
them; then the scan position moves past the match and it returns to `Search`. -/
def Obligations.YieldBrLengthStep : Prop :=
  ∀ (s : Machine.State) (k : OutSink), s.encOut = some k → s.enc.state = .yieldBrLength → accumulatorOk s.enc →
    s.enc.outgoingBitsCount ≤ 16 →
    let c := s.enc.outgoingBitsCount
    (k.cap ≤ k.produced → exec .encStepYieldBrLength s = .next s) ∧
    (k.produced < k.cap → 0 < c → ∃ w n k',
      let e' := { s.enc with currentByte := w, bitIndex := n, outgoingBitsCount := c - min c 8 }
      exec .encStepYieldBrLength s = .next { s with enc := e', encOut := some k' } ∧
      Appends s.enc k e' k' ((fieldBits c s.enc.outgoingBits.toNat).take 8)) ∧
    (k.produced < k.cap → c = 0 → exec .encStepYieldBrLength s = .next { s with enc := { s.enc with
      matchScanIndex := s.enc.matchScanIndex + s.enc.matchLength, matchLength := 0, state := .search } })

/-- R168, R67: `ENC.STEP.SaveBacklog` moves every byte of the buffer down by the scan position (the topmost keep their old
contents), takes what was shifted out off `enc.input_size`, and returns to `NotFull`. -/
def Obligations.SaveBacklogStep : Prop :=
  ∀ (s : Machine.State) (k : OutSink), s.encOut = some k → s.enc.state = .saveBacklog → s.enc.buffer.wf = true →
    ∃ m : Memory, m.wf = true ∧
      (∀ a, m.read a = if a < 2 * s.build.window - s.enc.matchScanIndex
        then s.enc.buffer.read (a + s.enc.matchScanIndex) else s.enc.buffer.read a) ∧
      exec .encStepSaveBacklog s = .next { s with enc := { s.enc with
        buffer := m, inputSize := s.enc.inputSize - s.enc.matchScanIndex, matchScanIndex := 0
        state := .notFull } }

/-- R169, R125: `ENC.STEP.FlushBits` emits the partial byte if there is one and there is room, and goes to `Done`; the
accumulator is left as it is. -/
def Obligations.FlushBitsStep : Prop :=
  ∀ (s : Machine.State) (k : OutSink), s.encOut = some k → s.enc.state = .flushBits →
    (s.enc.bitIndex = 0 → exec .encStepFlushBits s = .next { s with enc := { s.enc with state := .done } }) ∧
    (s.enc.bitIndex ≠ 0 → k.produced < k.cap → exec .encStepFlushBits s = .next { s with
      enc := { s.enc with state := .done }, encOut := some { k with out := k.out ++ [s.enc.currentByte] } }) ∧
    (s.enc.bitIndex ≠ 0 → k.cap ≤ k.produced → exec .encStepFlushBits s = .next s)

/-- R170: in `Done` the finishing flag is set, the micro-step has no effect, `ENC.POLL` returns `Empty` with nothing, `ENC.FINISH` returns `Done`,
`ENC.SINK` returns `Misuse`, and only `ENC.RESET` leaves the state. -/
def Obligations.DoneIsTerminal : Prop :=
  ∀ s : Machine.State, s.enc.state = .done →
    (EncInv s.build s.enc → s.enc.flags.getLsbD 0 = true) ∧
    (∀ k, s.encOut = some k → exec .encStepDone s = .next s) ∧
    (s.encOut = none →
      (∀ cap, 0 < cap → exec (.encPoll cap) s = .next { s with encReply := some (.polled .empty []) }) ∧
      (exec .encFinish s = .next { s with
        enc := { s.enc with flags := s.enc.flags ||| 1 }, encReply := some (.finished .done) }) ∧
      ∀ input, exec (.encSink input) s = .next { s with encReply := some (.sunk .misuse 0) }) ∧
    ∀ i t, exec i s = .next t → i ≠ .encReset → t.enc.state = .done

/-- R171: every transition of the encoder. A micro-step runs only inside a poll, only in its own state, and goes where the
table says; `ENC.SINK`, `ENC.FINISH` and `ENC.RESET` do too; nothing else changes `enc.state`, but for `ENC.POLL`, which
is a run of micro-steps. -/
def Obligations.EncTransitions : Prop :=
  (∀ (q : EncState) (s t : Machine.State), exec q.microStep s = .next t →
    s.enc.state = q ∧ ∃ k, s.encOut = some k ∧ t.enc.state = encTarget s k) ∧
  (∀ input (s t : Machine.State), s.enc.inputSize ≤ s.build.window → exec (.encSink input) s = .next t →
    t.enc.state = if s.enc.state = .notFull ∧ s.enc.flags.getLsbD 0 = false ∧ t.enc.inputSize = s.build.window
      then .filled else s.enc.state) ∧
  (∀ s t : Machine.State, exec .encFinish s = .next t →
    t.enc.state = if s.enc.state = .notFull then .filled else s.enc.state) ∧
  (∀ s t : Machine.State, exec .encReset s = .next t → t.enc.state = .notFull) ∧
  (∀ (i : Instr) (s t : Machine.State), ofEncoder i = false → exec i s = .next t → t.enc.state = s.enc.state) ∧
  (∀ cap (s t : Machine.State), exec (.encPoll cap) s = .next t → ∃ n u,
    encMicroSteps n { s with encOut := some { cap := cap, out := [] } } = .next u ∧ u.enc = t.enc)

/-- A micro-step of the encoder is that of the state named by `enc.state`; its result depends on the encoder, the parameters
and the pair (`cap`, `produced`) alone (R160). Where it keeps the state with the output full it writes nothing at all;
the four emitting states and `FlushBits` with a partial byte do so (R164 to R169). That `YieldTagBit`, `YieldBrIndex`
and `YieldBrLength` wait even where their bits would fit is decision D22, which R164 marks as the spec's own (log 16):
R160's sentence leaves it open. -/
def Obligations.EncStepIsLocal : Prop :=
  ∀ (q : EncState) (s t : Machine.State) (k : OutSink), s.encOut = some k → exec q.microStep s = .next t →
    s.enc.state = q ∧
    (∃ e new, t = { s with enc := e, encOut := some { k with out := k.out ++ new } } ∧
      ∀ (s' : Machine.State) (k' : OutSink), s'.build = s.build → s'.enc = s.enc → s'.encOut = some k' →
        k'.cap = k.cap → k'.produced = k.produced →
        exec q.microStep s' = .next { s' with enc := e, encOut := some { k' with out := k'.out ++ new } }) ∧
    (k.cap ≤ k.produced → t.enc.state = q → t = s) ∧
    (k.cap ≤ k.produced →
      q = .yieldTagBit ∨ q = .yieldLiteral ∨ q = .yieldBrIndex ∨ q = .yieldBrLength ∨
        (q = .flushBits ∧ s.enc.bitIndex ≠ 0) → t = s)

/-! ## The decoder micro-steps (43_decoder_fsm.md) -/

/-- R191: `DEC.STEP.TagBit` takes one bit and goes to `YieldLiteral`, or clears `dec.output_index` and goes to the index state
that W selects; without a bit it writes nothing. It needs no output space. -/
def Obligations.TagBitStep : Prop :=
  ∀ (s : Machine.State) (k : OutSink), s.decOut = some k → s.dec.state = .tagBit → stagingOk s.build s.dec →
    (bitsAvailable s.dec < 1 → exec .decStepTagBit s = .next s) ∧
    (1 ≤ bitsAvailable s.dec → ∃ v d', Took s.build s.dec 1 v d' ∧
      (v ≠ 0 → exec .decStepTagBit s = .next { s with dec := { d' with state := .yieldLiteral } }) ∧
      (v = 0 → exec .decStepTagBit s = .next { s with dec := { d' with
        outputIndex := 0
        state := if 8 < s.build.windowBits then .backrefIndexMsb else .backrefIndexLsb } }))

/-- R192: `DEC.STEP.YieldLiteral` takes eight bits, stores the byte at `dec.head_index` mod N, advances the head and emits it;
without room or without eight bits it writes nothing. -/
def Obligations.DecYieldLiteralStep : Prop :=
  ∀ (s : Machine.State) (k : OutSink), s.decOut = some k → s.dec.state = .yieldLiteral → stagingOk s.build s.dec →
    s.dec.window.wf = true →
    (k.cap ≤ k.produced ∨ bitsAvailable s.dec < 8 → exec .decStepYieldLiteral s = .next s) ∧
    (k.produced < k.cap → 8 ≤ bitsAvailable s.dec → ∃ v d' w, Took s.build s.dec 8 v d' ∧
      Memory.wf w = true ∧
      (∀ a, Memory.read w a =
        if a = s.dec.headIndex % s.build.window then BitVec.ofNat 8 v else s.dec.window.read a) ∧
      exec .decStepYieldLiteral s = .next { s with
        dec := { d' with window := w, headIndex := s.dec.headIndex + 1, state := .tagBit }
        decOut := some { k with out := k.out ++ [BitVec.ofNat 8 v] } })

/-- R193: `DEC.STEP.BackrefIndexMsb` takes the high W - 8 bits of the index field, in a build that has the state. -/
def Obligations.BackrefIndexMsbStep : Prop :=
  ∀ (s : Machine.State) (k : OutSink), s.decOut = some k → s.dec.state = .backrefIndexMsb → stagingOk s.build s.dec →
    8 < s.build.windowBits → s.build.windowBits ≤ 15 →
    (bitsAvailable s.dec < s.build.windowBits - 8 → exec .decStepBackrefIndexMsb s = .next s) ∧
    (s.build.windowBits - 8 ≤ bitsAvailable s.dec → ∃ v d', Took s.build s.dec (s.build.windowBits - 8) v d' ∧
      exec .decStepBackrefIndexMsb s = .next { s with dec := { d' with
        outputIndex := v * 2 ^ 8, state := .backrefIndexLsb } })

/-- R194: `DEC.STEP.BackrefIndexLsb` takes the low min(W, 8) bits of the index field and adds one: from a high part that is a
multiple of 2^min(W, 8), the distance is the assembled field plus one. -/
def Obligations.BackrefIndexLsbStep : Prop :=
  ∀ (s : Machine.State) (k : OutSink), s.decOut = some k → s.dec.state = .backrefIndexLsb → stagingOk s.build s.dec →
    1 ≤ s.build.windowBits → s.dec.outputIndex % 2 ^ min s.build.windowBits 8 = 0 →
    (bitsAvailable s.dec < min s.build.windowBits 8 → exec .decStepBackrefIndexLsb s = .next s) ∧
    (min s.build.windowBits 8 ≤ bitsAvailable s.dec → ∃ v d', Took s.build s.dec (min s.build.windowBits 8) v d' ∧
      exec .decStepBackrefIndexLsb s = .next { s with dec := { d' with
        outputIndex := s.dec.outputIndex + v + 1, outputCount := 0, state := .backrefCountLsb } })

/-- R195: `DEC.STEP.BackrefCountLsb` takes the L bits of the count field and adds one. -/
def Obligations.BackrefCountLsbStep : Prop :=
  ∀ (s : Machine.State) (k : OutSink), s.decOut = some k → s.dec.state = .backrefCountLsb → stagingOk s.build s.dec →
    1 ≤ s.build.lookaheadBits → s.build.lookaheadBits ≤ 8 →
    (bitsAvailable s.dec < s.build.lookaheadBits → exec .decStepBackrefCountLsb s = .next s) ∧
    (s.build.lookaheadBits ≤ bitsAvailable s.dec → ∃ v d', Took s.build s.dec s.build.lookaheadBits v d' ∧
      exec .decStepBackrefCountLsb s = .next { s with dec := { d' with
        outputCount := v + 1, state := .yieldBackref } } ∧ 1 ≤ v + 1 ∧ v + 1 ≤ s.build.lookahead)

/-- R196, R70: `DEC.STEP.YieldBackref` copies byte by byte as many bytes as it owes and the output takes; a source before the
start of the output is 0, and a copy may read what it has just written. Without room it writes nothing. -/
def Obligations.YieldBackrefStep : Prop :=
  ∀ (s : Machine.State) (k : OutSink), s.decOut = some k → s.dec.state = .yieldBackref → s.dec.window.wf = true →
    1 ≤ s.dec.outputIndex → s.dec.outputIndex ≤ s.build.window →
    1 ≤ s.dec.outputCount → s.dec.outputCount ≤ s.build.window →
    (k.cap ≤ k.produced → exec .decStepYieldBackref s = .next s) ∧
    ∃ new d' k', exec .decStepYieldBackref s = .next { s with dec := d', decOut := some k' } ∧
      Copied s.build s.dec k new d' k'

/-- R197: every transition of the decoder. A micro-step runs only inside a poll, only in its own state, and goes where the
table says; `DEC.RESET` goes to `TagBit`; `DEC.SINK`, `DEC.FINISH` and the encoder's instructions change nothing; `DEC.POLL`
is a run of micro-steps; and the decoder can rest in any of its six states. -/
def Obligations.DecTransitions : Prop :=
  (∀ (q : DecState) (s t : Machine.State), s.build.legal = true → DecInv s.build s.dec →
    exec q.microStep s = .next t →
    s.dec.state = q ∧ ∃ k, s.decOut = some k ∧ t.dec.state = decTarget s k) ∧
  (∀ s t : Machine.State, exec .decReset s = .next t → t.dec.state = .tagBit) ∧
  (∀ (i : Instr) (s t : Machine.State), (∃ input, i = .decSink input) ∨ i = .decFinish ∨ ofEncoder i = true →
    exec i s = .next t → t.dec.state = s.dec.state) ∧
  (∀ cap (s t : Machine.State), exec (.decPoll cap) s = .next t → ∃ n u,
    decMicroSteps n { s with decOut := some { cap := cap, out := [] } } = .next u ∧ u.dec = t.dec) ∧
  ∀ q : DecState, ∃ b input cap t u, Build.legal b = true ∧
    exec (.decSink input) (State.created b) = .next t ∧ exec (.decPoll cap) t = .next u ∧ u.dec.state = q

/-- R190: a micro-step of the decoder is that of the state named by `dec.state`; its result depends on the decoder, the
parameters and the pair (`cap`, `produced`) alone; and where the bits it wants are not there, or the room it wants, it
writes no register, no memory and no output. -/
def Obligations.DecStepIsLocal : Prop :=
  ∀ (q : DecState) (s t : Machine.State) (k : OutSink), s.decOut = some k → exec q.microStep s = .next t →
    s.dec.state = q ∧
    (∃ d new, t = { s with dec := d, decOut := some { k with out := k.out ++ new } } ∧
      ∀ (s' : Machine.State) (k' : OutSink), s'.build = s.build → s'.dec = s.dec → s'.decOut = some k' →
        k'.cap = k.cap → k'.produced = k.produced →
        exec q.microStep s' = .next { s' with dec := d, decOut := some { k' with out := k'.out ++ new } }) ∧
    (bitsAvailable s.dec < wantedBits s.build q → t = s) ∧
    (k.cap ≤ k.produced → q = .yieldLiteral ∨ q = .yieldBackref → t = s)

/-- R39: the window always holds, for each cell, the byte last produced whose ordinal falls on it, or 0: every instruction
keeps this, with the bytes it delivers added to those produced before; `DEC.RESET` starts again with none. -/
def Obligations.WindowHoldsProducedBytes : Prop :=
  (∀ b : Build, windowDescribes b [] (State.created b).dec) ∧
  ∀ (i : Instr) (s t : Machine.State) (y : List Byte), s.dec.window.wf = true → windowDescribes s.build y s.dec →
    exec i s = .next t →
    t.dec.window.wf = true ∧
    ((i = .decReset ∧ windowDescribes t.build [] t.dec) ∨
      ∃ new, Delivered i s t new ∧ windowDescribes t.build (y ++ new) t.dec)

/-! ## The tokens (30_encoding.md R92, R93) -/

/-- R92, R192: `LIT` produces its byte: stored in the window, the head advanced, and emitted. Without room it produces
nothing; a step does not take it then (the model's choice, log 8). -/
def Obligations.LiteralToken : Prop :=
  ∀ (s : Machine.State) (k : OutSink) (value : Byte), s.decOut = some k → s.dec.state = .tagBit →
    s.dec.window.wf = true →
    (k.cap ≤ k.produced → exec (.lit value) s = .next s) ∧
    (k.produced < k.cap → ∃ w : Memory, w.wf = true ∧
      (∀ a, w.read a = if a = s.dec.headIndex % s.build.window then value else s.dec.window.read a) ∧
      exec (.lit value) s = .next { s with
        dec := { s.dec with window := w, headIndex := s.dec.headIndex + 1 }
        decOut := some { k with out := k.out ++ [value] } })

/-- R93, R194, R195, R196: each of the 57 backreference tokens, in a build of its format, loads distance = index + 1 and
length = count + 1 and produces bytes as R196 says, as many as there is room for. They are `bref` (the shipped format,
8 and 4) and `bref4_3`, `bref5_3`, `bref5_4`, `bref6_3` to `bref6_5`, `bref7_3` to `bref7_6`, `bref8_3`, `bref8_5` to
`bref8_7`, `bref9_3` to `bref9_8`, `bref10_3` to `bref10_8`, `bref11_3` to `bref11_8`, `bref12_3` to `bref12_8`,
`bref13_3` to `bref13_8`, `bref14_3` to `bref14_8`, `bref15_3` to `bref15_8`: the instructions that have a `bref?`. -/
def Obligations.BackrefTokens : Prop :=
  ∀ (i : Instr) (index count : Nat) (s : Machine.State) (k : OutSink),
    i.bref? = some (s.build.windowBits, s.build.lookaheadBits, index, count) →
    s.decOut = some k → s.dec.state = .tagBit → s.dec.window.wf = true →
    index < s.build.window ∧ count < s.build.lookahead ∧
    ∃ new d' k', exec i s = .next { s with dec := d', decOut := some k' } ∧
      Copied s.build
        { s.dec with outputIndex := index + 1, outputCount := count + 1, state := .yieldBackref } k new d' k'

/-- A token is what its micro-steps do: taking the bits of the next whole token of the stream and executing it gives the
same state as the two to five micro-steps that fetch and execute it (R190 to R196; 43_decoder_fsm.md: "the six
micro-steps are the phases of fetching and executing one token"). -/
def Obligations.TokenIsItsMicroSteps : Prop :=
  ∀ (s : Machine.State) (k : OutSink) (i : Instr) (width : Nat), s.build.legal = true → DecInv s.build s.dec →
    sinkInv k → s.decOut = some k → nextToken s.build s.dec k = some (i, width) →
    ∃ d t n, skipBits s.build width s.dec = .ok d ∧ exec i { s with dec := d } = .next t ∧ n ≤ 5 ∧
      decMicroSteps n s = .next t

/-! ## The commands (44_streaming_protocol.md) -/

/-- R214, R64: `ENC.SINK` in `NotFull`, not finishing, copies what fits: the bytes stand at N + `enc.input_size` and on, every
other byte of the buffer is as before, and the state becomes `Filled` exactly when the input half is full. -/
def Obligations.EncSinkAccepts : Prop :=
  ∀ (s : Machine.State) (input : List Byte), s.encOut = none → s.enc.state = .notFull →
    s.enc.flags.getLsbD 0 = false → s.enc.inputSize ≤ s.build.window → s.enc.buffer.wf = true →
    let n := min (s.build.window - s.enc.inputSize) input.length
    ∃ m : Memory, m.wf = true ∧
      (∀ a, m.read a =
        if s.build.window + s.enc.inputSize ≤ a ∧ a < s.build.window + s.enc.inputSize + n
        then input.getD (a - (s.build.window + s.enc.inputSize)) 0 else s.enc.buffer.read a) ∧
      exec (.encSink input) s = .next { s with
        enc := { s.enc with
          buffer := m
          inputSize := s.enc.inputSize + n
          state := if s.enc.inputSize + n = s.build.window then .filled else .notFull }
        encReply := some (.sunk .ok n) }

/-- R214, R249: the refusals of `ENC.SINK`, in their order: `Misuse` when finishing, `Misuse` in a mid-emission state, and in
`Filled` the status that the build names; the unit is unchanged. -/
def Obligations.EncSinkRefuses : Prop :=
  ∀ (s : Machine.State) (input : List Byte), s.encOut = none →
    (s.enc.flags.getLsbD 0 = true →
      exec (.encSink input) s = .next { s with encReply := some (.sunk .misuse 0) }) ∧
    (s.enc.flags.getLsbD 0 = false → s.enc.state ≠ .notFull → s.enc.state ≠ .filled →
      exec (.encSink input) s = .next { s with encReply := some (.sunk .misuse 0) }) ∧
    (s.enc.flags.getLsbD 0 = false → s.enc.state = .filled → s.build.sinkFilledStatus = .full →
      exec (.encSink input) s = .next { s with encReply := some (.sunk .full 0) }) ∧
    (s.enc.flags.getLsbD 0 = false → s.enc.state = .filled → s.build.sinkFilledStatus = .misuse →
      exec (.encSink input) s = .next { s with encReply := some (.sunk .misuse 0) })

/-- R215, R224, R243: `ENC.POLL` completes from every state that meets the invariant. With no room it is `Misuse` and changes
nothing. Else it returns `Empty` in `NotFull` or `Done`, or `More` with the output full in an emitting state. The flags
are unchanged; the buffer is unchanged but for the one shift of a `SaveBacklog`, by what left `enc.input_size`; the
index is unchanged but for the build that `Filled` does; the decoder is untouched. -/
def Obligations.EncPollResult : Prop :=
  ∀ (s : Machine.State) (cap : Nat), s.encOut = none → s.build.legal = true → EncInv s.build s.enc →
    indexFresh s.build s.enc →
    (cap = 0 → exec (.encPoll cap) s = .next { s with encReply := some (.polled .misuse []) }) ∧
    (0 < cap → ∃ e' status out,
      exec (.encPoll cap) s = .next { s with enc := e', encReply := some (.polled status out) } ∧
      out.length ≤ cap ∧
      ((status = .empty ∧ (e'.state = .notFull ∨ e'.state = .done)) ∨
        (status = .more ∧ out.length = cap ∧
          (e'.state = .yieldTagBit ∨ e'.state = .yieldLiteral ∨ e'.state = .yieldBrIndex ∨
            e'.state = .yieldBrLength ∨ e'.state = .flushBits))) ∧
      e'.flags = s.enc.flags ∧
      (∀ a, e'.buffer.read a =
        if a < 2 * s.build.window - (s.enc.inputSize - e'.inputSize)
        then s.enc.buffer.read (a + (s.enc.inputSize - e'.inputSize)) else s.enc.buffer.read a) ∧
      e'.index = if s.build.indexed = true ∧ s.enc.state = .filled
        then doIndexing s.enc.buffer (s.build.window + s.enc.inputSize) s.enc.index else s.enc.index)

/-- R216: `ENC.FINISH` sets the finishing flag, forces `NotFull` to `Filled`, writes nothing else, is never refused, and
returns `Done` exactly in `Done`; the first one of a stream returns `More`. -/
def Obligations.EncFinishResult : Prop :=
  ∀ s : Machine.State, s.encOut = none →
    exec .encFinish s = .next { s with
      enc := { s.enc with
        flags := s.enc.flags ||| 1
        state := if s.enc.state = .notFull then .filled else s.enc.state }
      encReply := some (.finished (if s.enc.state = .done then .done else .more)) } ∧
    (EncInv s.build s.enc → s.enc.flags.getLsbD 0 = false → s.enc.state ≠ .done)

/-- R220, R71: `DEC.SINK` is `Full` and changes nothing when the staging buffer has no room at its end; else it copies what
fits to `dec.staging` from `dec.input_size` on, and every other byte is as before. -/
def Obligations.DecSinkResult : Prop :=
  ∀ (s : Machine.State) (input : List Byte), s.decOut = none → s.dec.staging.wf = true →
    let n := min (s.build.stagingSize - s.dec.inputSize) input.length
    (s.build.stagingSize ≤ s.dec.inputSize →
      exec (.decSink input) s = .next { s with decReply := some (.sunk .full 0) }) ∧
    (s.dec.inputSize < s.build.stagingSize → ∃ m : Memory, m.wf = true ∧
      (∀ a, m.read a = if s.dec.inputSize ≤ a ∧ a < s.dec.inputSize + n
        then input.getD (a - s.dec.inputSize) 0 else s.dec.staging.read a) ∧
      exec (.decSink input) s = .next { s with
        dec := { s.dec with staging := m, inputSize := s.dec.inputSize + n }
        decReply := some (.sunk .ok n) })

/-- R221, R224, R243: `DEC.POLL` completes from every state that meets the invariant. With no room it is `Misuse` and changes
nothing. Else it returns `Empty` with room to spare and nothing left staged, or `More` with the output full. It only
takes bits from the front of the stream, never writes the staging buffer, and writes of the window only the cells of
the bytes it produces; the encoder is untouched. -/
def Obligations.DecPollResult : Prop :=
  ∀ (s : Machine.State) (cap : Nat), s.decOut = none → s.build.legal = true → DecInv s.build s.dec →
    (cap = 0 → exec (.decPoll cap) s = .next { s with decReply := some (.polled .misuse []) }) ∧
    (0 < cap → ∃ d' status out taken,
      exec (.decPoll cap) s = .next { s with dec := d', decReply := some (.polled status out) } ∧
      ((status = .empty ∧ out.length < cap ∧ d'.inputSize = 0 ∧
          bitsAvailable d' < wantedBits s.build d'.state) ∨ (status = .more ∧ out.length = cap)) ∧
      unreadBits s.dec = taken ++ unreadBits d' ∧
      d'.staging = s.dec.staging ∧ d'.headIndex = s.dec.headIndex + out.length ∧
      ∀ a, (∀ j, j < out.length → a ≠ (s.dec.headIndex + j) % s.build.window) →
        d'.window.read a = s.dec.window.read a)

/-- R222: `DEC.FINISH` writes nothing in the unit, is never refused, and returns `Done` exactly when nothing is staged. -/
def Obligations.DecFinishResult : Prop :=
  ∀ s : Machine.State, s.decOut = none →
    exec .decFinish s = .next { s with
      decReply := some (.finished (if s.dec.inputSize = 0 then .done else .more)) }

/-! ## Statuses (60_exceptions.md) -/

/-- R250: a command that answers `Misuse` or `Full` changes no register and no memory of the block, writes no output byte and
consumes no input byte; and every poll that goes on stops between two micro-steps, or before the first: its result is
that of some number of whole micro-steps. -/
def Obligations.RefusalsWriteNothing : Prop :=
  (∀ (i : Instr) (s t : Machine.State) (r : Reply), exec i s = .next t → replyTo i t = some r →
    r.status = .misuse ∨ r.status = .full → t.enc = s.enc ∧ t.dec = s.dec ∧ r.count = 0) ∧
  (∀ (cap : Nat) (s t : Machine.State), 0 < cap → exec (.encPoll cap) s = .next t →
    ∃ n u k status, encMicroSteps n { s with encOut := some { cap := cap, out := [] } } = .next u ∧
      u.encOut = some k ∧ t = { u with encOut := none, encReply := some (.polled status k.out) }) ∧
  (∀ (cap : Nat) (s t : Machine.State), 0 < cap → exec (.decPoll cap) s = .next t →
    ∃ n u k status, decMicroSteps n { s with decOut := some { cap := cap, out := [] } } = .next u ∧
      u.decOut = some k ∧ t = { u with decOut := none, decReply := some (.polled status k.out) })

/-- R244, R245, R246: when a command answers `Misuse`, `Done` and `More`: all the causes of `Misuse`, with count 0; `Done` from
`finish` alone; `More` from a poll with the output full, and from a `finish` before the unit has drained. -/
def Obligations.StatusCauses : Prop :=
  ∀ (i : Instr) (s t : Machine.State), exec i s = .next t →
    let status := (replyTo i t).map Reply.status
    (status = some .misuse ↔
      (∃ input, i = .encSink input ∧
        (s.enc.flags.getLsbD 0 = true ∨ (s.enc.state ≠ .notFull ∧ s.enc.state ≠ .filled) ∨
          (s.enc.state = .filled ∧ s.build.sinkFilledStatus = .misuse))) ∨
      i = .encPoll 0 ∨ i = .decPoll 0) ∧
    (status = some .misuse → (replyTo i t).map Reply.count = some 0) ∧
    (status = some .done ↔
      (i = .encFinish ∧ s.enc.state = .done) ∨ (i = .decFinish ∧ s.dec.inputSize = 0)) ∧
    (i = .encFinish → s.enc.state ≠ .done → status = some .more) ∧
    (i = .decFinish → s.dec.inputSize ≠ 0 → status = some .more) ∧
    (status = some .more → i = .encFinish ∨ i = .decFinish ∨
      ∃ cap out, (i = .encPoll cap ∨ i = .decPoll cap) ∧ replyTo i t = some (.polled .more out) ∧ out.length = cap)

/-! ## The whole machine -/

/-- No instruction and no step changes a parameter (R8, R271). The rest is about the model's own fields: neither changes the
grain (DESIGN CHOICE, log 6); no instruction touches the host's queue `pending`, and a step takes at most its oldest
command (DESIGN CHOICE, log 3). R8 and R271 say nothing of the grain and the queue. -/
def Obligations.ParametersNeverChange : Prop :=
  (∀ (i : Instr) (s t : Machine.State), exec i s = .next t →
    t.build = s.build ∧ t.grain = s.grain ∧ t.pending = s.pending) ∧
  ∀ s t : Machine.State, step s = .next t →
    t.build = s.build ∧ t.grain = s.grain ∧ (t.pending = s.pending ∨ ∃ w, s.pending = w :: t.pending)

/-- R3, R79, R258: the two units share nothing. An instruction of one writes nothing of the other and does not depend on it,
and two instructions of different units may change places. -/
def Obligations.UnitsAreIndependent : Prop :=
  (∀ (i : Instr) (s t : Machine.State), exec i s = .next t →
    (ofEncoder i = true → t = { s with enc := t.enc, encOut := t.encOut, encReply := t.encReply } ∧
      ∀ s' : Machine.State, s'.build = s.build → s'.enc = s.enc → s'.encOut = s.encOut → s'.encReply = s.encReply →
        exec i s' = .next { s' with enc := t.enc, encOut := t.encOut, encReply := t.encReply }) ∧
    (ofEncoder i = false → t = { s with dec := t.dec, decOut := t.decOut, decReply := t.decReply } ∧
      ∀ s' : Machine.State, s'.build = s.build → s'.dec = s.dec → s'.decOut = s.decOut → s'.decReply = s.decReply →
        exec i s' = .next { s' with dec := t.dec, decOut := t.decOut, decReply := t.decReply })) ∧
  ∀ (i j : Instr) (s u t : Machine.State), ofEncoder i ≠ ofEncoder j → exec i s = .next u → exec j u = .next t →
    ∃ v, exec j s = .next v ∧ exec i v = .next t

/-- R27: the flags byte is written by `ENC.FINISH`, which sets bit 0, and by `ENC.RESET`, which clears it, and by nothing else;
bits 7 to 1 stay 0. -/
def Obligations.FlagsWrittenByFinishAndReset : Prop :=
  ∀ (i : Instr) (s t : Machine.State), exec i s = .next t →
    (t.enc.flags = if i = .encFinish then s.enc.flags ||| 1 else if i = .encReset then 0 else s.enc.flags) ∧
    (s.enc.flags &&& 0xFE = 0 → t.enc.flags &&& 0xFE = 0)

/-- R173, R202: a micro-step that changes nothing is blocked: in the encoder the output is full, or it waits in `NotFull` or
`Done`; in the decoder the output is full, or the bits it wants are not there. One that keeps the state and changes
something has drained pending bits, or has copied bytes. -/
def Obligations.EveryMicroStepProgresses : Prop :=
  (∀ (q : EncState) (s t : Machine.State) (k : OutSink), s.encOut = some k → exec q.microStep s = .next t →
    (t = s → k.cap ≤ k.produced ∨ q = .notFull ∨ q = .done) ∧
    (t ≠ s → t.enc.state ≠ q ∨ t.enc.outgoingBitsCount < s.enc.outgoingBitsCount)) ∧
  (∀ (q : DecState) (s t : Machine.State) (k : OutSink), s.build.legal = true → DecInv s.build s.dec →
    s.decOut = some k → exec q.microStep s = .next t →
    (t = s → k.cap ≤ k.produced ∨ bitsAvailable s.dec < wantedBits s.build q) ∧
    (t ≠ s → t.dec.state ≠ q ∨ s.dec.headIndex < t.dec.headIndex))

/-- What is not the block's to do stops under a name of its own (the model's choice, log 2, log 7, log 8, log 13, log 18): a
micro-step or a token outside a poll, a micro-step that the state does not select, the state that a narrow build does
not have, a token inside another token or of another format, a command to a unit whose poll still runs. -/
def Obligations.StopsByName : Prop :=
  ∀ s : Machine.State,
    (∀ q : EncState, s.encOut = none → exec q.microStep s = .refused .noPollRunning) ∧
    (∀ q : DecState, s.decOut = none → exec q.microStep s = .refused .noPollRunning) ∧
    (∀ (q : EncState) k, s.encOut = some k → s.enc.state ≠ q →
      exec q.microStep s = .refused .microStepNotSelected) ∧
    (∀ (q : DecState) k, s.decOut = some k → s.dec.state ≠ q →
      exec q.microStep s = .refused .microStepNotSelected) ∧
    (∀ k, s.decOut = some k → s.dec.state = .backrefIndexMsb → s.build.windowBits ≤ 8 →
      exec .decStepBackrefIndexMsb s = .fault .stateNotInBuild) ∧
    (∀ value, s.decOut = none → exec (.lit value) s = .refused .noPollRunning) ∧
    (∀ value k, s.decOut = some k → s.dec.state ≠ .tagBit → exec (.lit value) s = .refused .notAtTokenBoundary) ∧
    (∀ i W L index count, Instr.bref? i = some (W, L, index, count) →
      ((W, L) ≠ (s.build.windowBits, s.build.lookaheadBits) → exec i s = .refused .tokenOfOtherBuild) ∧
      ((W, L) = (s.build.windowBits, s.build.lookaheadBits) →
        (s.decOut = none → exec i s = .refused .noPollRunning) ∧
        (∀ k, s.decOut = some k → s.dec.state ≠ .tagBit → exec i s = .refused .notAtTokenBoundary))) ∧
    (∀ i k, s.encOut = some k → encCommands i → exec i s = .refused .unitBusy) ∧
    (∀ i k, s.decOut = some k → decCommands i → exec i s = .refused .unitBusy)

/-- R31, R41, R172 with R28, R30, R33, R39, R40, R149: every step keeps the invariant, from every state that meets it. -/
def Obligations.StepKeepsInvariant : Prop :=
  ∀ s t : Machine.State, StateInv s → step s = .next t → StateInv t

/-- R148, R173, R202, R210: from every state that meets the invariant the block runs on for ever: no access leaves its space,
every poll returns, nothing is refused, whatever the host has issued. What one step runs and the host's queue are the
model's choice (DESIGN CHOICE, log 6 and log 3). -/
def Obligations.InvariantRunsOn : Prop :=
  ∀ s : Machine.State, StateInv s → RunsOn s

/-- At every grain a command gives what the atomic command gives: stepping a poll by micro-steps or by tokens reaches, after
some number of steps, exactly the state that the whole command reaches in one. That a command is a transaction and a
poll a run of micro-steps is the spec's (R76, R210, R215, R221); the grain of a step and the host's queue `pending` are
the model's choice (DESIGN CHOICE, log 6 and log 3). -/
def Obligations.StepwiseIsAtomic : Prop :=
  ∀ (g : Grain) (s t : Machine.State), StateInv s → s.encOut = none → s.decOut = none → s.pending ≠ [] →
    step { s with grain := .command } = .next t →
    ∃ n, 0 < n ∧ Host.Core.run core n ({ s with grain := g } : Machine.State) =
      Host.Outcome.next ({ t with grain := g } : Machine.State)

/-! ## The whole stream -/

/-- R201: decoding the compressed stream of any input, in any legal build, gives the input and nothing more. -/
def Obligations.RoundTrip : Prop :=
  ∀ (b : Build) (x : List Byte), b.legal = true → decompressed b (compressed b x) = x

/-- R200, R232: whatever chunks the host sinks and whatever room it gives each poll, a complete decode delivers exactly the
decoding of the stream; and a complete decode exists. -/
def Obligations.DecoderComputesDecompressed : Prop :=
  ∀ (b : Build) (z y : List Byte), b.legal = true → (Decodes b z y ↔ y = decompressed b z)

/-- R174, R232, R9: whatever chunks the host sinks and whatever room it gives each poll, with either match finder and either
setting of the exact fill, a complete encode delivers exactly the greedy parse packed; and a complete encode exists. -/
def Obligations.EncoderComputesCompressed : Prop :=
  ∀ (b : Build) (x z : List Byte), b.legal = true → (Encodes b x z ↔ z = compressed b x)
end

