-- ==== Sys2Proof/Laws/Encoding.lean ====
section
/-! SUPPORT. The laws of bit strings and of the small encodings. -/

namespace Sys2Proof

@[simp] theorem fieldBits_length (k v : Nat) : (fieldBits k v).length = k := by
  induction k with
  | zero => rfl
  | succ k ih => simp [fieldBits, ih]

/-- One bit more at the end of a string doubles its value and adds the bit. -/
theorem bitsValue_append (bits : List Bool) (bit : Bool) :
    bitsValue (bits ++ [bit]) = 2 * bitsValue bits + bit.toNat := by
  simp [bitsValue, List.foldl_append]

theorem bitsValue_foldl (bits : List Bool) (acc : Nat) :
    bits.foldl (fun a bit => 2 * a + bit.toNat) acc = acc * 2 ^ bits.length + bitsValue bits := by
  induction bits generalizing acc with
  | nil => simp [bitsValue]
  | cons bit rest ih =>
    have h : bitsValue (bit :: rest) = bit.toNat * 2 ^ rest.length + bitsValue rest := by
      simpa [bitsValue] using ih bit.toNat
    simp only [List.foldl_cons, ih, h, List.length_cons, Nat.pow_succ]
    ring

/-- The first bit of a string has the highest weight. -/
theorem bitsValue_cons (bit : Bool) (rest : List Bool) :
    bitsValue (bit :: rest) = bit.toNat * 2 ^ rest.length + bitsValue rest := by
  simpa [bitsValue] using bitsValue_foldl rest bit.toNat

theorem bitsValue_lt (bits : List Bool) : bitsValue bits < 2 ^ bits.length := by
  induction bits with
  | nil => simp [bitsValue]
  | cons bit rest ih =>
    rw [bitsValue_cons, List.length_cons, Nat.pow_succ]
    cases bit <;> simp <;> omega

/-- The bits of a field give its value back. -/
theorem bitsValue_fieldBits (k v : Nat) : bitsValue (fieldBits k v) = v % 2 ^ k := by
  induction k with
  | zero => simp [fieldBits, bitsValue, Nat.mod_one]
  | succ k ih =>
    rw [fieldBits, bitsValue_cons, ih, fieldBits_length, Nat.pow_succ, Nat.mod_mul, Nat.testBit_eq_decide_div_mod_eq]
    rcases Nat.mod_two_eq_zero_or_one (v / 2 ^ k) with h | h <;> simp [h, Nat.add_comm]

@[simp] theorem streamBits_nil : streamBits [] = [] := rfl

@[simp] theorem streamBits_append (a b : List Byte) : streamBits (a ++ b) = streamBits a ++ streamBits b := by
  simp [streamBits]

@[simp] theorem byteBits_length (v : Byte) : (byteBits v).length = 8 := fieldBits_length 8 v.toNat

theorem streamBits_length (bytes : List Byte) : (streamBits bytes).length = 8 * bytes.length := by
  induction bytes with
  | nil => rfl
  | cons v rest ih =>
    rw [streamBits, List.flatMap_cons, List.length_append, byteBits_length, List.length_cons, ← streamBits, ih]
    omega

/-- A field is read exactly when enough bits remain. -/
theorem takeField_some {k : Nat} {bits rest : List Bool} {v : Nat} (h : takeField k bits = some (v, rest)) :
    k ≤ bits.length ∧ v = bitsValue (bits.take k) ∧ rest = bits.drop k := by
  unfold takeField at h
  split at h
  · cases h
  · cases h; exact ⟨by omega, rfl, rfl⟩

/-- A field that stands at the front is read back, and nothing after it is touched. -/
theorem takeField_fieldBits (k v : Nat) (rest : List Bool) :
    takeField k (fieldBits k v ++ rest) = some (v % 2 ^ k, rest) := by
  have h : ¬ (fieldBits k v ++ rest).length < k := by simp
  rw [takeField, if_neg h, List.take_left' (fieldBits_length k v), List.drop_left' (fieldBits_length k v),
    bitsValue_fieldBits]

theorem width_bref (W L index count : Nat) : (Encoded.stream (brefBits W L index count)).width = 1 + W + L := by
  simp [Encoded.width, brefBits]
  omega

/-- The state code selects the state's own micro-step (30_encoding.md R104). -/
theorem decodeEncState_code (q : EncState) : decodeEncState q.code = .ok q := by
  cases q <;> rfl

/-- The state code selects the state's own micro-step (30_encoding.md R105). -/
theorem decodeDecState_code (q : DecState) : decodeDecState q.code = .ok q := by
  cases q <;> rfl

/-- A micro-step is encoded by the code of its state. -/
theorem encode_encMicroStep (q : EncState) : encode q.microStep = .encoderState q.code := by
  cases q <;> rfl

theorem encode_decMicroStep (q : DecState) : encode q.microStep = .decoderState q.code := by
  cases q <;> rfl

end Sys2Proof
end

