-- ==== Sys2Proof/Laws/State.lean ====
section
/-! SUPPORT. The fields of a state after each shared update, one lemma each. -/

namespace Sys2Proof.Machine

@[simp] theorem State.encReturn_build (s : State) (e : Enc) (r : Option Reply) : (s.encReturn e r).build = s.build := rfl
@[simp] theorem State.encReturn_enc (s : State) (e : Enc) (r : Option Reply) : (s.encReturn e r).enc = e := rfl
@[simp] theorem State.encReturn_dec (s : State) (e : Enc) (r : Option Reply) : (s.encReturn e r).dec = s.dec := rfl
@[simp] theorem State.encReturn_encOut (s : State) (e : Enc) (r : Option Reply) : (s.encReturn e r).encOut = none := rfl
@[simp] theorem State.encReturn_decOut (s : State) (e : Enc) (r : Option Reply) : (s.encReturn e r).decOut = s.decOut := rfl
@[simp] theorem State.encReturn_encReply (s : State) (e : Enc) (r : Option Reply) : (s.encReturn e r).encReply = r := rfl
@[simp] theorem State.encReturn_decReply (s : State) (e : Enc) (r : Option Reply) : (s.encReturn e r).decReply = s.decReply := rfl
@[simp] theorem State.encReturn_pending (s : State) (e : Enc) (r : Option Reply) : (s.encReturn e r).pending = s.pending := rfl
@[simp] theorem State.encReturn_grain (s : State) (e : Enc) (r : Option Reply) : (s.encReturn e r).grain = s.grain := rfl

@[simp] theorem State.decReturn_build (s : State) (d : Dec) (r : Option Reply) : (s.decReturn d r).build = s.build := rfl
@[simp] theorem State.decReturn_enc (s : State) (d : Dec) (r : Option Reply) : (s.decReturn d r).enc = s.enc := rfl
@[simp] theorem State.decReturn_dec (s : State) (d : Dec) (r : Option Reply) : (s.decReturn d r).dec = d := rfl
@[simp] theorem State.decReturn_encOut (s : State) (d : Dec) (r : Option Reply) : (s.decReturn d r).encOut = s.encOut := rfl
@[simp] theorem State.decReturn_decOut (s : State) (d : Dec) (r : Option Reply) : (s.decReturn d r).decOut = none := rfl
@[simp] theorem State.decReturn_encReply (s : State) (d : Dec) (r : Option Reply) : (s.decReturn d r).encReply = s.encReply := rfl
@[simp] theorem State.decReturn_decReply (s : State) (d : Dec) (r : Option Reply) : (s.decReturn d r).decReply = r := rfl
@[simp] theorem State.decReturn_pending (s : State) (d : Dec) (r : Option Reply) : (s.decReturn d r).pending = s.pending := rfl
@[simp] theorem State.decReturn_grain (s : State) (d : Dec) (r : Option Reply) : (s.decReturn d r).grain = s.grain := rfl

@[simp] theorem State.encRun_build (s : State) (e : Enc) (k : OutSink) : (s.encRun e k).build = s.build := rfl
@[simp] theorem State.encRun_enc (s : State) (e : Enc) (k : OutSink) : (s.encRun e k).enc = e := rfl
@[simp] theorem State.encRun_dec (s : State) (e : Enc) (k : OutSink) : (s.encRun e k).dec = s.dec := rfl
@[simp] theorem State.encRun_encOut (s : State) (e : Enc) (k : OutSink) : (s.encRun e k).encOut = some k := rfl
@[simp] theorem State.encRun_decOut (s : State) (e : Enc) (k : OutSink) : (s.encRun e k).decOut = s.decOut := rfl
@[simp] theorem State.encRun_encReply (s : State) (e : Enc) (k : OutSink) : (s.encRun e k).encReply = s.encReply := rfl
@[simp] theorem State.encRun_decReply (s : State) (e : Enc) (k : OutSink) : (s.encRun e k).decReply = s.decReply := rfl
@[simp] theorem State.encRun_pending (s : State) (e : Enc) (k : OutSink) : (s.encRun e k).pending = s.pending := rfl
@[simp] theorem State.encRun_grain (s : State) (e : Enc) (k : OutSink) : (s.encRun e k).grain = s.grain := rfl

@[simp] theorem State.decRun_build (s : State) (d : Dec) (k : OutSink) : (s.decRun d k).build = s.build := rfl
@[simp] theorem State.decRun_enc (s : State) (d : Dec) (k : OutSink) : (s.decRun d k).enc = s.enc := rfl
@[simp] theorem State.decRun_dec (s : State) (d : Dec) (k : OutSink) : (s.decRun d k).dec = d := rfl
@[simp] theorem State.decRun_encOut (s : State) (d : Dec) (k : OutSink) : (s.decRun d k).encOut = s.encOut := rfl
@[simp] theorem State.decRun_decOut (s : State) (d : Dec) (k : OutSink) : (s.decRun d k).decOut = some k := rfl
@[simp] theorem State.decRun_encReply (s : State) (d : Dec) (k : OutSink) : (s.decRun d k).encReply = s.encReply := rfl
@[simp] theorem State.decRun_decReply (s : State) (d : Dec) (k : OutSink) : (s.decRun d k).decReply = s.decReply := rfl
@[simp] theorem State.decRun_pending (s : State) (d : Dec) (k : OutSink) : (s.decRun d k).pending = s.pending := rfl
@[simp] theorem State.decRun_grain (s : State) (d : Dec) (k : OutSink) : (s.decRun d k).grain = s.grain := rfl

@[simp] theorem State.created_build (b : Build) : (State.created b).build = b := rfl
@[simp] theorem State.created_enc (b : Build) : (State.created b).enc = Enc.reset := rfl
@[simp] theorem State.created_dec (b : Build) : (State.created b).dec = Dec.reset := rfl
@[simp] theorem State.created_encOut (b : Build) : (State.created b).encOut = none := rfl
@[simp] theorem State.created_decOut (b : Build) : (State.created b).decOut = none := rfl
@[simp] theorem State.created_encReply (b : Build) : (State.created b).encReply = none := rfl
@[simp] theorem State.created_decReply (b : Build) : (State.created b).decReply = none := rfl
@[simp] theorem State.created_pending (b : Build) : (State.created b).pending = [] := rfl
@[simp] theorem State.created_grain (b : Build) : (State.created b).grain = .command := rfl

/-! ## The output sink -/

@[simp] theorem OutSink.start_cap (cap : Nat) : (OutSink.start cap).cap = cap := rfl
@[simp] theorem OutSink.start_out (cap : Nat) : (OutSink.start cap).out = [] := rfl
@[simp] theorem OutSink.emit_cap (k : OutSink) (v : Byte) : (k.emit v).cap = k.cap := rfl
@[simp] theorem OutSink.emit_out (k : OutSink) (v : Byte) : (k.emit v).out = k.out ++ [v] := rfl
@[simp] theorem OutSink.emit_produced (k : OutSink) (v : Byte) : (k.emit v).produced = k.produced + 1 := by
  simp [OutSink.produced]

theorem OutSink.canTakeByte_iff (k : OutSink) : k.canTakeByte = true ↔ k.produced < k.cap := by
  simp [OutSink.canTakeByte]

theorem OutSink.isFull_iff (k : OutSink) : k.isFull = true ↔ k.produced = k.cap := by
  simp [OutSink.isFull]

/-! ## The finishing flag (10_state.md R27) -/

@[simp] theorem Enc.setFinishing_finishing (e : Enc) : e.setFinishing.finishing = true := by
  simp [Enc.setFinishing, Enc.finishing]
@[simp] theorem Enc.setFinishing_state (e : Enc) : e.setFinishing.state = e.state := rfl
@[simp] theorem Enc.setFinishing_inputSize (e : Enc) : e.setFinishing.inputSize = e.inputSize := rfl
@[simp] theorem Enc.setFinishing_matchScanIndex (e : Enc) : e.setFinishing.matchScanIndex = e.matchScanIndex := rfl
@[simp] theorem Enc.setFinishing_matchLength (e : Enc) : e.setFinishing.matchLength = e.matchLength := rfl
@[simp] theorem Enc.setFinishing_matchPos (e : Enc) : e.setFinishing.matchPos = e.matchPos := rfl
@[simp] theorem Enc.setFinishing_outgoingBits (e : Enc) : e.setFinishing.outgoingBits = e.outgoingBits := rfl
@[simp] theorem Enc.setFinishing_outgoingBitsCount (e : Enc) : e.setFinishing.outgoingBitsCount = e.outgoingBitsCount := rfl
@[simp] theorem Enc.setFinishing_currentByte (e : Enc) : e.setFinishing.currentByte = e.currentByte := rfl
@[simp] theorem Enc.setFinishing_bitIndex (e : Enc) : e.setFinishing.bitIndex = e.bitIndex := rfl
@[simp] theorem Enc.setFinishing_buffer (e : Enc) : e.setFinishing.buffer = e.buffer := rfl
@[simp] theorem Enc.setFinishing_index (e : Enc) : e.setFinishing.index = e.index := rfl

end Sys2Proof.Machine
end

