-- ==== Sys2Proof/Laws/Accumulator.lean ====
section
/-! SUPPORT. What the accumulators' operations can do, each said once. -/

namespace Sys2Proof.Machine

/-! ## Packing -/

/-- `push_bits` emits one byte and carries `count - free` bits, or merges and emits nothing (40_bit_accumulator.md
R122). -/
theorem pushBits_cases (b : Build) (count : Nat) (bits : Byte) (e : Enc) (k : OutSink) :
    (∃ v w, pushBits b count bits e k =
        ({ e with currentByte := w, bitIndex := count - (8 - e.bitIndex) }, k.emit v)) ∨
    (∃ w, pushBits b count bits e k = ({ e with currentByte := w, bitIndex := e.bitIndex + count }, k) ∧
        ¬ 8 - e.bitIndex < count) := by
  unfold pushBits
  by_cases h : 8 - e.bitIndex < count ∨ (8 - e.bitIndex = count ∧ b.emitOnExactFill = true)
  · exact .inl ⟨_, _, if_pos h⟩
  · exact .inr ⟨_, if_neg h, fun hlt => h (.inl hlt)⟩

/-- `push_bits` writes the accumulator and nothing else of the encoder (R122). -/
theorem pushBits_frame (b : Build) (count : Nat) (bits : Byte) (e : Enc) (k : OutSink) :
    ∃ w n, (pushBits b count bits e k).1 = { e with currentByte := w, bitIndex := n } := by
  rcases pushBits_cases b count bits e k with ⟨v, w, h⟩ | ⟨w, h, -⟩
  · exact ⟨_, _, by rw [h]⟩
  · exact ⟨_, _, by rw [h]⟩

/-- `push_bits` "never emits more than one" byte (R122). -/
theorem pushBits_sink (b : Build) (count : Nat) (bits : Byte) (e : Enc) (k : OutSink) :
    (pushBits b count bits e k).2 = k ∨ ∃ v, (pushBits b count bits e k).2 = k.emit v := by
  rcases pushBits_cases b count bits e k with ⟨v, w, h⟩ | ⟨w, h, -⟩
  · exact .inr ⟨v, by rw [h]⟩
  · exact .inl (by rw [h])

/-- With nothing pending `push_outgoing_bits` does nothing and returns 0 (R124). -/
theorem pushOutgoingBits_none (b : Build) (e : Enc) (k : OutSink) (h : e.outgoingBitsCount = 0) :
    pushOutgoingBits b e k = (e, k, 0) := by
  simp [pushOutgoingBits, outgoingPiece, h]

/-- It returns how many bits it pushed: up to 8 of the pending ones (R124). -/
theorem pushOutgoingBits_count (b : Build) (e : Enc) (k : OutSink) :
    (pushOutgoingBits b e k).2.2 = min e.outgoingBitsCount 8 := by
  unfold pushOutgoingBits outgoingPiece
  by_cases h : 8 < e.outgoingBitsCount <;> by_cases h0 : 0 < e.outgoingBitsCount <;> simp [h, h0] <;> omega

/-- `push_outgoing_bits` writes the accumulator and the count of pending bits, and nothing else of the encoder (R124). -/
theorem pushOutgoingBits_frame (b : Build) (e : Enc) (k : OutSink) :
    ∃ w n, (pushOutgoingBits b e k).1 =
      { e with currentByte := w, bitIndex := n,
               outgoingBitsCount := e.outgoingBitsCount - min e.outgoingBitsCount 8 } := by
  by_cases h : e.outgoingBitsCount = 0
  · refine ⟨e.currentByte, e.bitIndex, ?_⟩
    have h' : e.outgoingBitsCount - min e.outgoingBitsCount 8 = e.outgoingBitsCount := by omega
    rw [pushOutgoingBits_none b e k h, h']
  · have hp : outgoingPiece e = min e.outgoingBitsCount 8 := by
      unfold outgoingPiece; split <;> omega
    have hpos : 0 < outgoingPiece e := by omega
    obtain ⟨w, n, hw⟩ := pushBits_frame b (outgoingPiece e)
      (BitVec.ofNat 8 (bitField e.outgoingBits.toNat (e.outgoingBitsCount - outgoingPiece e) (outgoingPiece e))) e k
    refine ⟨w, n, ?_⟩
    unfold pushOutgoingBits
    rw [if_pos hpos]
    dsimp only
    rw [hw, hp]

theorem pushOutgoingBits_sink (b : Build) (e : Enc) (k : OutSink) :
    (pushOutgoingBits b e k).2.1 = k ∨ ∃ v, (pushOutgoingBits b e k).2.1 = k.emit v := by
  unfold pushOutgoingBits
  dsimp only
  split
  · exact pushBits_sink b _ _ e k
  · exact .inl rfl

/-! ## Unpacking -/

/-- A staging fetch loads the next staged byte and recycles the buffer when it was the last (20_memory.md R72). -/
theorem stagingFetch_ok {b : Build} {d d' : Dec} (h : stagingFetch b d = .ok d') :
    d.inputIndex < b.stagingSize ∧
    d' = { d with
      currentByte := d.staging.read d.inputIndex
      inputIndex := if d.inputIndex + 1 = d.inputSize then 0 else d.inputIndex + 1
      inputSize := if d.inputIndex + 1 = d.inputSize then 0 else d.inputSize
      bitIndex := 8 } := by
  unfold stagingFetch at h
  split at h
  · cases h
  · next hc =>
    have hle : d.inputIndex + 1 ≤ b.spaceSize .decStg := by
      by_contra hlt
      rw [checkSpace, if_neg hlt] at hc
      cases hc
    cases h
    exact ⟨hle, rfl⟩

/-- A fetch takes no bit of the stream. -/
theorem stagingFetch_available {b : Build} {d d' : Dec} (h : stagingFetch b d = .ok d') (h0 : d.bitIndex = 0)
    (hi : d.inputIndex < d.inputSize) : bitsAvailable d' = bitsAvailable d := by
  obtain ⟨-, rfl⟩ := stagingFetch_ok h
  simp only [bitsAvailable, h0]
  split <;> omega

/-- `get_bits` and its loop write the accumulator and the staging indices, and nothing else of the decoder (40_bit_accumulator.md
R131). -/
theorem takeBits_frame {b : Build} {n acc v : Nat} {d d' : Dec} (h : takeBits b n acc d = .ok (v, d')) :
    ∃ c i is ix, d' = { d with currentByte := c, bitIndex := i, inputSize := is, inputIndex := ix } := by
  induction n generalizing acc d with
  | zero => cases h; exact ⟨d'.currentByte, d'.bitIndex, d'.inputSize, d'.inputIndex, rfl⟩
  | succ n ih =>
    simp only [takeBits] at h
    split at h
    · cases h
    · next loaded hl =>
      obtain ⟨c, i, is, ix, rfl⟩ := ih h
      split at hl
      · obtain ⟨-, rfl⟩ := stagingFetch_ok hl
        exact ⟨_, _, _, _, rfl⟩
      · cases hl
        exact ⟨_, _, _, _, rfl⟩

/-- `get_bits` suspends, takes the bits, or runs out of the staging space (R131, R132). -/
theorem getBits_cases (b : Build) (count : Nat) (d : Dec) :
    (bitsAvailable d < count ∧ getBits b count d = .ok none) ∨
    (count ≤ bitsAvailable d ∧ ∃ v d', takeBits b count 0 d = .ok (v, d') ∧ getBits b count d = .ok (some (v, d'))) ∨
    (count ≤ bitsAvailable d ∧ ∃ f, takeBits b count 0 d = .error f ∧ getBits b count d = .error f) := by
  unfold getBits
  by_cases h : bitsAvailable d < count
  · exact .inl ⟨h, if_pos h⟩
  · rw [if_neg h]
    cases ht : takeBits b count 0 d with
    | error f => exact .inr (.inr ⟨by omega, f, rfl, rfl⟩)
    | ok r => exact .inr (.inl ⟨by omega, r.1, r.2, rfl, rfl⟩)

theorem getBits_frame {b : Build} {n v : Nat} {d d' : Dec} (h : getBits b n d = .ok (some (v, d'))) :
    ∃ c i is ix, d' = { d with currentByte := c, bitIndex := i, inputSize := is, inputIndex := ix } := by
  rcases getBits_cases b n d with ⟨-, h'⟩ | ⟨-, w, e, ht, h'⟩ | ⟨-, f, -, h'⟩
  · rw [h'] at h; cases h
  · rw [h'] at h; cases h; exact takeBits_frame ht
  · rw [h'] at h; cases h

end Sys2Proof.Machine
end

