-- ==== Sys2Proof/Laws/Memory.lean ====
section
/-! SUPPORT. The laws of memories: a read after a write, the canonical form, and what the two multi-cell writes do. -/

namespace Sys2Proof.Machine

/-! ## One cell -/

theorem Cells.read_put {α : Type} [DecidableEq α] (d : α) (a : Nat) (v : α) (rest : Cells α) (c : Nat)
    (h : c = a → v = d → Cells.read d rest c = d) :
    Cells.read d (Cells.put d a v rest) c = if c = a then v else Cells.read d rest c := by
  unfold Cells.put
  by_cases hv : v = d
  · by_cases hc : c = a
    · rw [if_pos hv, if_pos hc, h hc hv, hv]
    · rw [if_pos hv, if_neg hc]
  · rw [if_neg hv, Cells.read]

/-- Below its lowest address a canonical memory lists nothing. -/
theorem Cells.read_of_lt {α : Type} [DecidableEq α] (d : α) (m : Cells α) (low c : Nat)
    (hm : Cells.wfFrom d low m = true) (hc : c < low) : Cells.read d m c = d := by
  induction m generalizing low with
  | nil => rfl
  | cons p rest ih =>
    obtain ⟨b, w⟩ := p
    simp only [Cells.wfFrom, Bool.and_eq_true, decide_eq_true_eq] at hm
    have hne : c ≠ b := by omega
    simp only [Cells.read, if_neg hne]
    exact ih (b + 1) hm.2 (by omega)

theorem Cells.wfFrom_mono {α : Type} [DecidableEq α] (d : α) (m : Cells α) (low low' : Nat)
    (hm : Cells.wfFrom d low m = true) (h : low' ≤ low) : Cells.wfFrom d low' m = true := by
  cases m with
  | nil => rfl
  | cons p rest =>
    simp only [Cells.wfFrom, Bool.and_eq_true, decide_eq_true_eq] at hm ⊢
    exact ⟨⟨by omega, hm.1.2⟩, hm.2⟩

theorem Cells.wfFrom_put {α : Type} [DecidableEq α] (d : α) (a : Nat) (v : α) (rest : Cells α) (low : Nat)
    (hlow : low ≤ a) (hr : Cells.wfFrom d (a + 1) rest = true) :
    Cells.wfFrom d low (Cells.put d a v rest) = true := by
  unfold Cells.put
  by_cases hv : v = d
  · simpa [hv] using Cells.wfFrom_mono d rest _ _ hr (by omega)
  · simp [hv, Cells.wfFrom, hlow, hr]

/-- A write keeps the canonical form. -/
theorem Cells.wfFrom_write {α : Type} [DecidableEq α] (d : α) (m : Cells α) (a : Nat) (v : α) (low : Nat)
    (hm : Cells.wfFrom d low m = true) (hlow : low ≤ a) : Cells.wfFrom d low (Cells.write d m a v) = true := by
  induction m generalizing low with
  | nil => exact Cells.wfFrom_put d a v [] low hlow rfl
  | cons p rest ih =>
    obtain ⟨b, w⟩ := p
    simp only [Cells.wfFrom, Bool.and_eq_true, decide_eq_true_eq] at hm
    unfold Cells.write
    split
    · exact Cells.wfFrom_put d a v _ low hlow (by simp [Cells.wfFrom, hm.1.2, hm.2]; omega)
    · split
      · next hab => exact Cells.wfFrom_put d a v _ low hlow (hab ▸ hm.2)
      · simp only [Cells.wfFrom, Bool.and_eq_true, decide_eq_true_eq]
        exact ⟨hm.1, ih (b + 1) hm.2 (by omega)⟩

/-- A read after a write, in a canonical memory: the value at the address written, every other cell as before. -/
theorem Cells.read_write {α : Type} [DecidableEq α] (d : α) (m : Cells α) (a : Nat) (v : α) (c low : Nat)
    (hm : Cells.wfFrom d low m = true) :
    Cells.read d (Cells.write d m a v) c = if c = a then v else Cells.read d m c := by
  induction m generalizing low with
  | nil => exact Cells.read_put d a v [] c (fun _ _ => rfl)
  | cons p rest ih =>
    obtain ⟨b, w⟩ := p
    have hm' := hm
    simp only [Cells.wfFrom, Bool.and_eq_true, decide_eq_true_eq] at hm
    unfold Cells.write
    split
    · next hab =>
      refine Cells.read_put d a v _ c fun hc _ => ?_
      have hcb : c ≠ b := by omega
      simp only [Cells.read, if_neg hcb]
      exact Cells.read_of_lt d rest (b + 1) c hm.2 (by omega)
    · split
      · next _ hab =>
        rw [Cells.read_put d a v _ c (fun hc _ => Cells.read_of_lt d rest (b + 1) c hm.2 (by omega))]
        by_cases hc : c = a
        · simp [hc]
        · have hcb : c ≠ b := by omega
          simp [hc, Cells.read, hcb]
      · next h1 h2 =>
        by_cases hcb : c = b
        · have hca : c ≠ a := by omega
          simp [Cells.read, hcb]
          omega
        · simp only [Cells.read, if_neg hcb]
          exact ih (b + 1) hm.2

theorem Cells.within_put {α : Type} [DecidableEq α] (d : α) (a size : Nat) (v : α) (rest : Cells α)
    (ha : a < size) (hr : Cells.within size rest = true) : Cells.within size (Cells.put d a v rest) = true := by
  unfold Cells.put
  split
  · exact hr
  · simpa [Cells.within, ha] using hr

/-- A write inside the space lists no cell outside it. -/
theorem Cells.within_write {α : Type} [DecidableEq α] (d : α) (m : Cells α) (a size : Nat) (v : α)
    (ha : a < size) (hm : Cells.within size m = true) : Cells.within size (Cells.write d m a v) = true := by
  induction m with
  | nil => exact Cells.within_put d a size v [] ha hm
  | cons p rest ih =>
    obtain ⟨b, w⟩ := p
    have hr : Cells.within size rest = true := by
      simp only [Cells.within, List.all_cons, Bool.and_eq_true] at hm ⊢
      exact hm.2
    unfold Cells.write
    split
    · exact Cells.within_put d a size v _ ha hm
    · split
      · exact Cells.within_put d a size v _ ha hr
      · have := ih hr
        simp only [Cells.within, List.all_cons, Bool.and_eq_true] at hm this ⊢
        exact ⟨hm.1, this⟩

/-- Canonical memories that read alike are equal. -/
theorem Cells.eq_of_read {α : Type} [DecidableEq α] (d : α) (m m' : Cells α) (low low' : Nat)
    (hm : Cells.wfFrom d low m = true) (hm' : Cells.wfFrom d low' m' = true)
    (h : ∀ c, Cells.read d m c = Cells.read d m' c) : m = m' := by
  induction m generalizing low low' m' with
  | nil =>
    cases m' with
    | nil => rfl
    | cons p rest =>
      obtain ⟨b, w⟩ := p
      simp only [Cells.wfFrom, Bool.and_eq_true, decide_eq_true_eq] at hm'
      have := h b
      simp [Cells.read] at this
      exact absurd this.symm hm'.1.2
  | cons p rest ih =>
    obtain ⟨b, w⟩ := p
    simp only [Cells.wfFrom, Bool.and_eq_true, decide_eq_true_eq] at hm
    cases m' with
    | nil =>
      have := h b
      simp [Cells.read] at this
      exact absurd this hm.1.2
    | cons p' rest' =>
      obtain ⟨b', w'⟩ := p'
      simp only [Cells.wfFrom, Bool.and_eq_true, decide_eq_true_eq] at hm'
      have hbb : b = b' := by
        rcases Nat.lt_trichotomy b b' with hlt | heq | hgt
        · have h1 := h b
          have hb : b ≠ b' := by omega
          simp only [Cells.read, if_true, if_neg hb] at h1
          rw [Cells.read_of_lt d rest' (b' + 1) b hm'.2 (by omega)] at h1
          exact absurd h1 hm.1.2
        · exact heq
        · have h1 := h b'
          have hb : b' ≠ b := by omega
          simp only [Cells.read, if_true, if_neg hb] at h1
          rw [Cells.read_of_lt d rest (b + 1) b' hm.2 (by omega)] at h1
          exact absurd h1.symm hm'.1.2
      subst hbb
      have hww : w = w' := by simpa [Cells.read] using h b
      subst hww
      have hrest : rest = rest' := by
        refine ih rest' (b + 1) (b + 1) hm.2 hm'.2 fun c => ?_
        by_cases hc : c = b
        · subst hc
          rw [Cells.read_of_lt d rest (c + 1) c hm.2 (by omega),
            Cells.read_of_lt d rest' (c + 1) c hm'.2 (by omega)]
        · simpa [Cells.read, hc] using h c
      rw [hrest]

/-! ## Byte memories and the index memory -/

theorem Memory.read_write (m : Memory) (a : Nat) (v : Byte) (c : Nat) (hm : m.wf = true) :
    (m.write a v).read c = if c = a then v else m.read c :=
  Cells.read_write 0 m a v c 0 hm

theorem Memory.wf_write (m : Memory) (a : Nat) (v : Byte) (hm : m.wf = true) : (m.write a v).wf = true :=
  Cells.wfFrom_write 0 m a v 0 hm (Nat.zero_le a)

theorem Memory.within_write (m : Memory) (a size : Nat) (v : Byte) (ha : a < size)
    (hm : Cells.within size m = true) : Cells.within size (m.write a v) = true :=
  Cells.within_write 0 m a size v ha hm

theorem IndexMemory.read_write (m : IndexMemory) (a : Nat) (p : Option Nat) (c : Nat) (hm : m.wf = true) :
    (m.write a p).read c = if c = a then p else m.read c :=
  Cells.read_write none m a p c 0 hm

theorem IndexMemory.wf_write (m : IndexMemory) (a : Nat) (p : Option Nat) (hm : m.wf = true) :
    (m.write a p).wf = true :=
  Cells.wfFrom_write none m a p 0 hm (Nat.zero_le a)

@[simp] theorem Memory.read_nil (a : Nat) : Memory.read [] a = 0 := rfl

@[simp] theorem IndexMemory.read_nil (a : Nat) : IndexMemory.read [] a = none := rfl

/-! ## Appending and moving down -/

theorem Memory.wf_append (m : Memory) (a : Nat) (bytes : List Byte) (hm : m.wf = true) :
    (m.append a bytes).wf = true := by
  induction bytes generalizing m a with
  | nil => exact hm
  | cons v rest ih => exact ih (m.write a v) (a + 1) (Memory.wf_write m a v hm)

theorem Memory.within_append (m : Memory) (a size : Nat) (bytes : List Byte) (ha : a + bytes.length ≤ size)
    (hm : Cells.within size m = true) : Cells.within size (m.append a bytes) = true := by
  induction bytes generalizing m a with
  | nil => exact hm
  | cons v rest ih =>
    simp only [List.length_cons] at ha
    exact ih (m.write a v) (a + 1) (by omega) (Memory.within_write m a size v (by omega) hm)

/-- An append stores the bytes in order from `a` on and leaves every other cell (20_memory.md R64, R71). -/
theorem Memory.read_append (m : Memory) (a : Nat) (bytes : List Byte) (c : Nat) (hm : m.wf = true) :
    (m.append a bytes).read c =
      if a ≤ c ∧ c < a + bytes.length then bytes.getD (c - a) 0 else m.read c := by
  induction bytes generalizing m a with
  | nil =>
    have : ¬ (a ≤ c ∧ c < a + ([] : List Byte).length) := by simp
    rw [if_neg this, Memory.append]
  | cons v rest ih =>
    simp only [Memory.append, ih (m.write a v) (a + 1) (Memory.wf_write m a v hm),
      Memory.read_write m a v c hm, List.length_cons]
    by_cases h1 : a + 1 ≤ c ∧ c < a + 1 + rest.length
    · have h2 : a ≤ c ∧ c < a + (rest.length + 1) := by omega
      have h3 : c - a = (c - (a + 1)) + 1 := by omega
      rw [if_pos h1, if_pos h2, h3, List.getD_cons_succ]
    · rw [if_neg h1]
      by_cases h4 : c = a
      · have h2 : a ≤ c ∧ c < a + (rest.length + 1) := by omega
        rw [if_pos h4, if_pos h2, h4, Nat.sub_self, List.getD_cons_zero]
      · have h2 : ¬ (a ≤ c ∧ c < a + (rest.length + 1)) := by omega
        rw [if_neg h4, if_neg h2]

theorem Memory.wf_moveDown (b : Memory) (m start n : Nat) (hb : b.wf = true) : (b.moveDown m start n).wf = true := by
  induction n generalizing b start with
  | zero => exact hb
  | succ n ih => exact ih (b.write start (b.read (start + m))) (start + 1) (Memory.wf_write b _ _ hb)

theorem Memory.within_moveDown (b : Memory) (m start n size : Nat) (hs : start + n ≤ size)
    (hb : Cells.within size b = true) : Cells.within size (b.moveDown m start n) = true := by
  induction n generalizing b start with
  | zero => exact hb
  | succ n ih =>
    exact ih (b.write start (b.read (start + m))) (start + 1) (by omega)
      (Memory.within_write b start size _ (by omega) hb)

/-- Moving down in ascending order equals a move through a temporary copy (20_memory.md R67). -/
theorem Memory.read_moveDown (b : Memory) (m start n c : Nat) (hb : b.wf = true) :
    (b.moveDown m start n).read c = if start ≤ c ∧ c < start + n then b.read (c + m) else b.read c := by
  induction n generalizing b start with
  | zero =>
    have : ¬ (start ≤ c ∧ c < start + 0) := by omega
    rw [if_neg this, Memory.moveDown]
  | succ n ih =>
    simp only [Memory.moveDown, ih _ (start + 1) (Memory.wf_write b _ _ hb), Memory.read_write b _ _ _ hb]
    by_cases h1 : start + 1 ≤ c ∧ c < start + 1 + n
    · have h2 : start ≤ c ∧ c < start + (n + 1) := by omega
      have h3 : c + m ≠ start := by omega
      rw [if_pos h1, if_pos h2, if_neg h3]
    · rw [if_neg h1]
      by_cases h4 : c = start
      · have h2 : start ≤ c ∧ c < start + (n + 1) := by omega
        rw [if_pos h4, if_pos h2, h4]
      · have h2 : ¬ (start ≤ c ∧ c < start + (n + 1)) := by omega
        rw [if_neg h4, if_neg h2]

/-! ## The space check -/

theorem checkSpace_ok {space : Space} {limit size : Nat} (h : limit ≤ size) :
    checkSpace space limit size = .ok () := if_pos h

theorem checkSpace_error {space : Space} {limit size : Nat} {f : Fault}
    (h : checkSpace space limit size = .error f) : f = .outsideSpace space ∧ size < limit := by
  unfold checkSpace at h
  split at h
  · cases h
  · cases h; exact ⟨rfl, by omega⟩

end Sys2Proof.Machine
end

