-- ==== Sys2Proof/Laws/Finder.lean ====
section
/-! SUPPORT. That the operations which write memory cell by cell keep the canonical form, and that the reset memories
have it. -/

namespace Sys2Proof.Machine

/-- The memories of a block just created are in canonical form (10_state.md R46). -/
theorem created_memories_wf (b : Build) :
    (State.created b).enc.buffer.wf = true ∧ (State.created b).enc.index.wf = true ∧
      (State.created b).dec.window.wf = true ∧ (State.created b).dec.staging.wf = true :=
  ⟨rfl, rfl, rfl, rfl⟩

/-- The index build keeps the canonical form (41_match_finder.md R146). -/
theorem IndexMemory.wf_indexFrom (m : Memory) (i n : Nat) (index last : IndexMemory) (h : index.wf = true) :
    (indexFrom m i n index last).wf = true := by
  induction n generalizing i index last with
  | zero => exact h
  | succ n ih => exact ih _ _ _ (IndexMemory.wf_write _ _ _ h)

theorem IndexMemory.wf_doIndexing (m : Memory) (limit : Nat) (index : IndexMemory) (h : index.wf = true) :
    (doIndexing m limit index).wf = true :=
  IndexMemory.wf_indexFrom m 0 limit index [] h

/-- Producing a byte keeps the canonical form of the window (20_memory.md R68). -/
theorem produceByte_window_wf (b : Build) (c : Byte) (d : Dec) (k : OutSink) (h : d.window.wf = true) :
    (produceByte b c d k).1.window.wf = true :=
  Memory.wf_write _ _ _ h

/-- Copying keeps the canonical form of the window (43_decoder_fsm.md R196). -/
theorem copyBytes_window_wf (b : Build) (n : Nat) (d : Dec) (k : OutSink) (h : d.window.wf = true) :
    (copyBytes b n d k).1.window.wf = true := by
  induction n generalizing d k with
  | zero => exact h
  | succ n ih => exact ih _ _ (produceByte_window_wf b (copySource b d) d k h)

/-- The backlog shift keeps the canonical form of the buffer (20_memory.md R67): `Memory.wf_moveDown`, at the whole buffer. -/
theorem moveDown_whole_wf (m : Memory) (shift size : Nat) (h : m.wf = true) : (m.moveDown shift 0 (size - shift)).wf = true :=
  Memory.wf_moveDown m shift 0 (size - shift) h

end Sys2Proof.Machine
end

