-- ==== Sys2Proof/Laws/PerInstr.lean ====
section
/-! SUPPORT. What holds of every instruction, one lemma for each constructor. -/

namespace Sys2Proof.Laws.EncodedWidth

/-- The width that the row of spec/opcode_table.json gives (30_encoding.md R91, R99, R104, R105). -/
def tableWidth (i : Instr) : Nat :=
  match i.format? with
  | some (W, L) => 1 + W + L
  | none =>
    match i with
    | .lit _ => 9
    | .encStepNotFull | .encStepFilled | .encStepSearch | .encStepYieldTagBit | .encStepYieldLiteral
    | .encStepYieldBrIndex | .encStepYieldBrLength | .encStepSaveBacklog | .encStepFlushBits
    | .encStepDone => 4
    | _ => 3

/-- An instruction is encoded in as many bits as its row of the table has. -/
def Statement (i : Instr) : Prop :=
  (encode i).width = tableWidth i

theorem lit (byte : Byte) : Statement (.lit byte) := by
  simp [Statement, encode, Encoded.width, byteBits, tableWidth, Instr.format?]
theorem bref (index : BitVec 8) (count : BitVec 4) : Statement (.bref index count) := width_bref _ _ _ _
theorem bref4_3 (index : BitVec 4) (count : BitVec 3) : Statement (.bref4_3 index count) := width_bref _ _ _ _
theorem bref5_3 (index : BitVec 5) (count : BitVec 3) : Statement (.bref5_3 index count) := width_bref _ _ _ _
theorem bref5_4 (index : BitVec 5) (count : BitVec 4) : Statement (.bref5_4 index count) := width_bref _ _ _ _
theorem bref6_3 (index : BitVec 6) (count : BitVec 3) : Statement (.bref6_3 index count) := width_bref _ _ _ _
theorem bref6_4 (index : BitVec 6) (count : BitVec 4) : Statement (.bref6_4 index count) := width_bref _ _ _ _
theorem bref6_5 (index : BitVec 6) (count : BitVec 5) : Statement (.bref6_5 index count) := width_bref _ _ _ _
theorem bref7_3 (index : BitVec 7) (count : BitVec 3) : Statement (.bref7_3 index count) := width_bref _ _ _ _
theorem bref7_4 (index : BitVec 7) (count : BitVec 4) : Statement (.bref7_4 index count) := width_bref _ _ _ _
theorem bref7_5 (index : BitVec 7) (count : BitVec 5) : Statement (.bref7_5 index count) := width_bref _ _ _ _
theorem bref7_6 (index : BitVec 7) (count : BitVec 6) : Statement (.bref7_6 index count) := width_bref _ _ _ _
theorem bref8_3 (index : BitVec 8) (count : BitVec 3) : Statement (.bref8_3 index count) := width_bref _ _ _ _
theorem bref8_5 (index : BitVec 8) (count : BitVec 5) : Statement (.bref8_5 index count) := width_bref _ _ _ _
theorem bref8_6 (index : BitVec 8) (count : BitVec 6) : Statement (.bref8_6 index count) := width_bref _ _ _ _
theorem bref8_7 (index : BitVec 8) (count : BitVec 7) : Statement (.bref8_7 index count) := width_bref _ _ _ _
theorem bref9_3 (index : BitVec 9) (count : BitVec 3) : Statement (.bref9_3 index count) := width_bref _ _ _ _
theorem bref9_4 (index : BitVec 9) (count : BitVec 4) : Statement (.bref9_4 index count) := width_bref _ _ _ _
theorem bref9_5 (index : BitVec 9) (count : BitVec 5) : Statement (.bref9_5 index count) := width_bref _ _ _ _
theorem bref9_6 (index : BitVec 9) (count : BitVec 6) : Statement (.bref9_6 index count) := width_bref _ _ _ _
theorem bref9_7 (index : BitVec 9) (count : BitVec 7) : Statement (.bref9_7 index count) := width_bref _ _ _ _
theorem bref9_8 (index : BitVec 9) (count : BitVec 8) : Statement (.bref9_8 index count) := width_bref _ _ _ _
theorem bref10_3 (index : BitVec 10) (count : BitVec 3) : Statement (.bref10_3 index count) := width_bref _ _ _ _
theorem bref10_4 (index : BitVec 10) (count : BitVec 4) : Statement (.bref10_4 index count) := width_bref _ _ _ _
theorem bref10_5 (index : BitVec 10) (count : BitVec 5) : Statement (.bref10_5 index count) := width_bref _ _ _ _
theorem bref10_6 (index : BitVec 10) (count : BitVec 6) : Statement (.bref10_6 index count) := width_bref _ _ _ _
theorem bref10_7 (index : BitVec 10) (count : BitVec 7) : Statement (.bref10_7 index count) := width_bref _ _ _ _
theorem bref10_8 (index : BitVec 10) (count : BitVec 8) : Statement (.bref10_8 index count) := width_bref _ _ _ _
theorem bref11_3 (index : BitVec 11) (count : BitVec 3) : Statement (.bref11_3 index count) := width_bref _ _ _ _
theorem bref11_4 (index : BitVec 11) (count : BitVec 4) : Statement (.bref11_4 index count) := width_bref _ _ _ _
theorem bref11_5 (index : BitVec 11) (count : BitVec 5) : Statement (.bref11_5 index count) := width_bref _ _ _ _
theorem bref11_6 (index : BitVec 11) (count : BitVec 6) : Statement (.bref11_6 index count) := width_bref _ _ _ _
theorem bref11_7 (index : BitVec 11) (count : BitVec 7) : Statement (.bref11_7 index count) := width_bref _ _ _ _
theorem bref11_8 (index : BitVec 11) (count : BitVec 8) : Statement (.bref11_8 index count) := width_bref _ _ _ _
theorem bref12_3 (index : BitVec 12) (count : BitVec 3) : Statement (.bref12_3 index count) := width_bref _ _ _ _
theorem bref12_4 (index : BitVec 12) (count : BitVec 4) : Statement (.bref12_4 index count) := width_bref _ _ _ _
theorem bref12_5 (index : BitVec 12) (count : BitVec 5) : Statement (.bref12_5 index count) := width_bref _ _ _ _
theorem bref12_6 (index : BitVec 12) (count : BitVec 6) : Statement (.bref12_6 index count) := width_bref _ _ _ _
theorem bref12_7 (index : BitVec 12) (count : BitVec 7) : Statement (.bref12_7 index count) := width_bref _ _ _ _
theorem bref12_8 (index : BitVec 12) (count : BitVec 8) : Statement (.bref12_8 index count) := width_bref _ _ _ _
theorem bref13_3 (index : BitVec 13) (count : BitVec 3) : Statement (.bref13_3 index count) := width_bref _ _ _ _
theorem bref13_4 (index : BitVec 13) (count : BitVec 4) : Statement (.bref13_4 index count) := width_bref _ _ _ _
theorem bref13_5 (index : BitVec 13) (count : BitVec 5) : Statement (.bref13_5 index count) := width_bref _ _ _ _
theorem bref13_6 (index : BitVec 13) (count : BitVec 6) : Statement (.bref13_6 index count) := width_bref _ _ _ _
theorem bref13_7 (index : BitVec 13) (count : BitVec 7) : Statement (.bref13_7 index count) := width_bref _ _ _ _
theorem bref13_8 (index : BitVec 13) (count : BitVec 8) : Statement (.bref13_8 index count) := width_bref _ _ _ _
theorem bref14_3 (index : BitVec 14) (count : BitVec 3) : Statement (.bref14_3 index count) := width_bref _ _ _ _
theorem bref14_4 (index : BitVec 14) (count : BitVec 4) : Statement (.bref14_4 index count) := width_bref _ _ _ _
theorem bref14_5 (index : BitVec 14) (count : BitVec 5) : Statement (.bref14_5 index count) := width_bref _ _ _ _
theorem bref14_6 (index : BitVec 14) (count : BitVec 6) : Statement (.bref14_6 index count) := width_bref _ _ _ _
theorem bref14_7 (index : BitVec 14) (count : BitVec 7) : Statement (.bref14_7 index count) := width_bref _ _ _ _
theorem bref14_8 (index : BitVec 14) (count : BitVec 8) : Statement (.bref14_8 index count) := width_bref _ _ _ _
theorem bref15_3 (index : BitVec 15) (count : BitVec 3) : Statement (.bref15_3 index count) := width_bref _ _ _ _
theorem bref15_4 (index : BitVec 15) (count : BitVec 4) : Statement (.bref15_4 index count) := width_bref _ _ _ _
theorem bref15_5 (index : BitVec 15) (count : BitVec 5) : Statement (.bref15_5 index count) := width_bref _ _ _ _
theorem bref15_6 (index : BitVec 15) (count : BitVec 6) : Statement (.bref15_6 index count) := width_bref _ _ _ _
theorem bref15_7 (index : BitVec 15) (count : BitVec 7) : Statement (.bref15_7 index count) := width_bref _ _ _ _
theorem bref15_8 (index : BitVec 15) (count : BitVec 8) : Statement (.bref15_8 index count) := width_bref _ _ _ _
theorem encSink (input : List Byte) : Statement (.encSink input) := rfl
theorem encPoll (cap : Nat) : Statement (.encPoll cap) := rfl
theorem encFinish : Statement (.encFinish) := rfl
theorem encReset : Statement (.encReset) := rfl
theorem decSink (input : List Byte) : Statement (.decSink input) := rfl
theorem decPoll (cap : Nat) : Statement (.decPoll cap) := rfl
theorem decFinish : Statement (.decFinish) := rfl
theorem decReset : Statement (.decReset) := rfl
theorem encStepNotFull : Statement .encStepNotFull := rfl
theorem encStepFilled : Statement .encStepFilled := rfl
theorem encStepSearch : Statement .encStepSearch := rfl
theorem encStepYieldTagBit : Statement .encStepYieldTagBit := rfl
theorem encStepYieldLiteral : Statement .encStepYieldLiteral := rfl
theorem encStepYieldBrIndex : Statement .encStepYieldBrIndex := rfl
theorem encStepYieldBrLength : Statement .encStepYieldBrLength := rfl
theorem encStepSaveBacklog : Statement .encStepSaveBacklog := rfl
theorem encStepFlushBits : Statement .encStepFlushBits := rfl
theorem encStepDone : Statement .encStepDone := rfl
theorem decStepTagBit : Statement .decStepTagBit := rfl
theorem decStepYieldLiteral : Statement .decStepYieldLiteral := rfl
theorem decStepBackrefIndexMsb : Statement .decStepBackrefIndexMsb := rfl
theorem decStepBackrefIndexLsb : Statement .decStepBackrefIndexLsb := rfl
theorem decStepBackrefCountLsb : Statement .decStepBackrefCountLsb := rfl
theorem decStepYieldBackref : Statement .decStepYieldBackref := rfl

end Sys2Proof.Laws.EncodedWidth
end

