-- ==== Sys2Proof/Laws/Units.lean ====
section
/-! SUPPORT. When the shared forms of an instruction answer a next state, and which: the commands, the micro-steps and the
tokens each have one such form. -/

namespace Sys2Proof.Machine

/-! ## Commands -/

/-- A command to an encoder whose poll does not run. -/
theorem encCommand_next {s s' : State} {r : Except Fault (Enc × Option Reply)} :
    encCommand s r = .next s' ↔ s.encOut = none ∧ ∃ e reply, r = .ok (e, reply) ∧ s' = s.encReturn e reply := by
  unfold encCommand
  cases hk : s.encOut with
  | some k => simp
  | none =>
    cases r with
    | error f => simp
    | ok p =>
      obtain ⟨e, reply⟩ := p
      constructor
      · rintro ⟨⟩; exact ⟨rfl, e, reply, rfl, rfl⟩
      · rintro ⟨-, _, _, h, rfl⟩; cases h; rfl

/-- A command to a decoder whose poll does not run. -/
theorem decCommand_next {s s' : State} {r : Except Fault (Dec × Option Reply)} :
    decCommand s r = .next s' ↔ s.decOut = none ∧ ∃ d reply, r = .ok (d, reply) ∧ s' = s.decReturn d reply := by
  unfold decCommand
  cases hk : s.decOut with
  | some k => simp
  | none =>
    cases r with
    | error f => simp
    | ok p =>
      obtain ⟨d, reply⟩ := p
      constructor
      · rintro ⟨⟩; exact ⟨rfl, d, reply, rfl, rfl⟩
      · rintro ⟨-, _, _, h, rfl⟩; cases h; rfl

/-! ## Micro-steps -/

/-- An encoder micro-step runs inside a poll, in its own state, and writes the encoder and the output sink. -/
theorem encMicroStep_next {q : EncState} {t : EncTransition} {s s' : State} :
    encMicroStep q t s = .next s' ↔
      ∃ k e k', s.encOut = some k ∧ s.enc.state = q ∧ t s.build s.enc k = .ok (e, k') ∧ s' = s.encRun e k' := by
  unfold encMicroStep
  cases hk : s.encOut with
  | none => simp
  | some k =>
    by_cases hq : s.enc.state = q
    · simp only [if_pos hq]
      cases ht : t s.build s.enc k with
      | error f => constructor
                   · rintro ⟨⟩
                   · rintro ⟨k₀, e, k', hk₀, -, h, -⟩; cases hk₀; rw [ht] at h; cases h
      | ok p =>
        obtain ⟨e, k'⟩ := p
        constructor
        · rintro ⟨⟩; exact ⟨k, e, k', rfl, hq, ht, rfl⟩
        · rintro ⟨k₀, e₀, k₁, hk₀, -, h, rfl⟩; cases hk₀; rw [ht] at h; cases h; rfl
    · simp [hq]

/-- A decoder micro-step runs inside a poll, in its own state, and writes the decoder and the output sink. -/
theorem decMicroStep_next {q : DecState} {t : DecTransition} {s s' : State} :
    decMicroStep q t s = .next s' ↔
      ∃ k d k', s.decOut = some k ∧ s.dec.state = q ∧ t s.build s.dec k = .ok (d, k') ∧ s' = s.decRun d k' := by
  unfold decMicroStep
  cases hk : s.decOut with
  | none => simp
  | some k =>
    by_cases hq : s.dec.state = q
    · simp only [if_pos hq]
      cases ht : t s.build s.dec k with
      | error f => constructor
                   · rintro ⟨⟩
                   · rintro ⟨k₀, d, k', hk₀, -, h, -⟩; cases hk₀; rw [ht] at h; cases h
      | ok p =>
        obtain ⟨d, k'⟩ := p
        constructor
        · rintro ⟨⟩; exact ⟨k, d, k', rfl, hq, ht, rfl⟩
        · rintro ⟨k₀, d₀, k₁, hk₀, -, h, rfl⟩; cases hk₀; rw [ht] at h; cases h; rfl
    · simp [hq]

/-! ## Tokens -/

/-- A token runs inside a poll, between two tokens, and writes the decoder and the output sink. -/
theorem tokenStep_next {t : Dec → OutSink → Dec × OutSink} {s s' : State} :
    tokenStep t s = .next s' ↔
      ∃ k, s.decOut = some k ∧ s.dec.state = .tagBit ∧ s' = s.decRun (t s.dec k).1 (t s.dec k).2 := by
  unfold tokenStep
  cases hk : s.decOut with
  | none => simp
  | some k =>
    by_cases hq : s.dec.state = .tagBit
    · simp [hq, eq_comm]
    · simp [hq]

/-- A backreference runs in a build of its format. -/
theorem execBackref_next {W L index count : Nat} {s s' : State} :
    execBackref W L index count s = .next s' ↔
      (W = s.build.windowBits ∧ L = s.build.lookaheadBits) ∧ tokenStep (runBackref s.build index count) s = .next s' := by
  unfold execBackref
  split <;> simp_all

/-! ## Producing bytes (43_decoder_fsm.md R196, 20_memory.md R68) -/

/-- Copying writes the window, the head, the count and the output sink, and nothing else of the decoder. -/
theorem copyBytes_frame (b : Build) (n : Nat) (d : Dec) (k : OutSink) :
    ∃ w, (copyBytes b n d k).1 =
        { d with window := w, headIndex := d.headIndex + n, outputCount := d.outputCount - n } := by
  induction n generalizing d k with
  | zero => exact ⟨d.window, rfl⟩
  | succ n ih =>
    obtain ⟨w, hw⟩ := ih { (produceByte b (copySource b d) d k).1 with outputCount := d.outputCount - 1 }
      (produceByte b (copySource b d) d k).2
    refine ⟨w, ?_⟩
    have hs : copyBytes b (n + 1) d k =
        copyBytes b n { (produceByte b (copySource b d) d k).1 with outputCount := d.outputCount - 1 }
          (produceByte b (copySource b d) d k).2 := rfl
    rw [hs, hw]
    simp only [produceByte, Dec.mk.injEq, true_and, and_true]
    omega

/-- Copying `n` bytes emits `n` bytes after those already there. -/
theorem copyBytes_out (b : Build) (n : Nat) (d : Dec) (k : OutSink) :
    ∃ bytes, bytes.length = n ∧ (copyBytes b n d k).2 = { k with out := k.out ++ bytes } := by
  induction n generalizing d k with
  | zero => exact ⟨[], rfl, by simp [copyBytes]⟩
  | succ n ih =>
    obtain ⟨bytes, hl, hb⟩ := ih { (produceByte b (copySource b d) d k).1 with outputCount := d.outputCount - 1 }
      (produceByte b (copySource b d) d k).2
    refine ⟨copySource b d :: bytes, by simp [hl], ?_⟩
    have hs : copyBytes b (n + 1) d k =
        copyBytes b n { (produceByte b (copySource b d) d k).1 with outputCount := d.outputCount - 1 }
          (produceByte b (copySource b d) d k).2 := rfl
    rw [hs, hb]
    simp [produceByte, OutSink.emit]

end Sys2Proof.Machine
end

