-- ==== Sys2Proof/Laws/Step.lean ====
section
/-! SUPPORT. What one step can do: the one inversion lemma of `step`, and the meaning of the micro-step that a state
register selects. -/

namespace Sys2Proof.Machine

/-! ## The micro-step that is selected -/

/-- The micro-step of a state is one transition of the encoder's state machine (42_encoder_fsm.md R160). -/
theorem exec_encMicroStep (q : EncState) (s : State) : exec q.microStep s = encMicroStep q encStep s := by
  cases q <;>
    · simp only [EncState.microStep, exec, execEncStepNotFull, execEncStepFilled, execEncStepSearch,
        execEncStepYieldTagBit, execEncStepYieldLiteral, execEncStepYieldBrIndex, execEncStepYieldBrLength,
        execEncStepSaveBacklog, execEncStepFlushBits, execEncStepDone, encMicroStep]
      cases s.encOut with
      | none => rfl
      | some k =>
        dsimp only
        split
        · next hq => simp only [encStep, hq]
        · rfl

/-- The micro-step of a state is one transition of the decoder's state machine (43_decoder_fsm.md R190). -/
theorem exec_decMicroStep (q : DecState) (s : State) : exec q.microStep s = decMicroStep q decStep s := by
  cases q <;>
    · simp only [DecState.microStep, exec, execDecStepTagBit, execDecStepYieldLiteral, execDecStepBackrefIndexMsb,
        execDecStepBackrefIndexLsb, execDecStepBackrefCountLsb, execDecStepYieldBackref, decMicroStep]
      cases s.decOut with
      | none => rfl
      | some k =>
        dsimp only
        split
        · next hq => simp only [decStep, hq]
        · rfl

/-! ## What a fetch can find -/

/-- A running poll of the encoder goes on; else one of the decoder; else the host's oldest command; else nothing. -/
theorem fetch_cases (s : State) :
    (∃ k, s.encOut = some k ∧ s.fetch = .encMicro s.enc.state.microStep) ∨
    (∃ k, s.encOut = none ∧ s.decOut = some k ∧
      ((∃ i width, s.grain = .token ∧ nextToken s.build s.dec k = some (i, width) ∧ s.fetch = .token i width) ∨
        s.fetch = .decMicro s.dec.state.microStep)) ∨
    (∃ w later, s.encOut = none ∧ s.decOut = none ∧ s.pending = w :: later ∧
      s.fetch = .command (decodeCommand w) later) ∨
    (s.encOut = none ∧ s.decOut = none ∧ s.pending = [] ∧ s.fetch = .idle) := by
  unfold State.fetch
  cases he : s.encOut with
  | some k => exact .inl ⟨k, rfl, rfl⟩
  | none =>
    cases hd : s.decOut with
    | some k =>
      refine .inr (.inl ⟨k, rfl, rfl, ?_⟩)
      by_cases hg : s.grain = .token
      · cases hn : nextToken s.build s.dec k with
        | none => exact .inr (by simp [hg, hn])
        | some p => exact .inl ⟨p.1, p.2, hg, rfl, by simp [hg, hn]⟩
      · exact .inr (by simp [hg])
    | none =>
      cases hp : s.pending with
      | nil => exact .inr (.inr (.inr ⟨rfl, rfl, rfl, rfl⟩))
      | cons w later => exact .inr (.inr (.inl ⟨w, later, rfl, rfl, rfl, rfl⟩))

/-! ## What a step can do -/

theorem onNext_next {r : Result} {f : State → State} {t : State} :
    onNext r f = .next t ↔ ∃ s', r = .next s' ∧ t = f s' := by
  cases r <;> simp [onNext, eq_comm]

/-- A poll that a step opens instead of running it whole: it has room, and the grain is finer than a command (log 6). -/
theorem opened_some {s s' : State} {i : Instr} (h : s.opened i = some s') :
    s.grain ≠ .command ∧ ∃ cap, 0 < cap ∧
      ((i = .encPoll cap ∧ s' = { s with encOut := some (.start cap) }) ∨
        (i = .decPoll cap ∧ s' = { s with decOut := some (.start cap) })) := by
  unfold State.opened at h
  split at h
  · cases h
  · next hg =>
    refine ⟨fun hc => hg hc, ?_⟩
    split at h
    · next cap =>
      split at h
      · cases h
      · cases h; exact ⟨cap, by omega, .inl ⟨rfl, rfl⟩⟩
    · next cap =>
      split at h
      · cases h
      · cases h; exact ⟨cap, by omega, .inr ⟨rfl, rfl⟩⟩
    · cases h

/-- Everything a step that answers next can do: nothing, a micro-step of a running poll, a token of it, a poll opened, a
command whole. -/
theorem step_cases {s t : State} (h : step s = .next t) :
    s.build.legal = true ∧
    ((s.encOut = none ∧ s.decOut = none ∧ s.pending = [] ∧ t = s) ∨
     (∃ k e k', s.encOut = some k ∧ encStep s.build s.enc k = .ok (e, k') ∧
        t = (s.encRun e k').encAfter s.enc.state) ∨
     (∃ k d k', s.encOut = none ∧ s.decOut = some k ∧ decStep s.build s.dec k = .ok (d, k') ∧
        t = (s.decRun d k').decAfter s.dec.state) ∨
     (∃ k i width d s', s.encOut = none ∧ s.decOut = some k ∧ s.grain = .token ∧
        nextToken s.build s.dec k = some (i, width) ∧ skipBits s.build width s.dec = .ok d ∧
        exec i { s with dec := d } = .next s' ∧ t = s'.decAfter .yieldBackref) ∨
     (∃ w later, s.encOut = none ∧ s.decOut = none ∧ s.pending = w :: later ∧
        (({ s with pending := later } : State).opened (decodeCommand w) = some t ∨
          (({ s with pending := later } : State).opened (decodeCommand w) = none ∧
            exec (decodeCommand w) { s with pending := later } = .next t)))) := by
  unfold step at h
  split at h
  case isFalse => cases h
  case isTrue hl =>
    refine ⟨hl, ?_⟩
    unfold stepLegal at h
    rcases fetch_cases s with ⟨k, he, hf⟩ | ⟨k, he, hd, ⟨i, width, hg, hn, hf⟩ | hf⟩ | ⟨w, later, he, hd, hp, hf⟩ |
      ⟨he, hd, hp, hf⟩
    · rw [hf] at h
      obtain ⟨s', hs', rfl⟩ := onNext_next.mp h
      rw [exec_encMicroStep, encMicroStep_next] at hs'
      obtain ⟨k₀, e, k', hk, -, ht, rfl⟩ := hs'
      exact .inr (.inl ⟨k₀, e, k', hk, ht, rfl⟩)
    · rw [hf] at h
      dsimp only at h
      split at h
      · cases h
      · next d hs =>
        obtain ⟨s', hs', rfl⟩ := onNext_next.mp h
        exact .inr (.inr (.inr (.inl ⟨k, i, width, d, s', he, hd, hg, hn, hs, hs', rfl⟩)))
    · rw [hf] at h
      obtain ⟨s', hs', rfl⟩ := onNext_next.mp h
      rw [exec_decMicroStep, decMicroStep_next] at hs'
      obtain ⟨k₀, d, k', hk, -, ht, rfl⟩ := hs'
      exact .inr (.inr (.inl ⟨k₀, d, k', he, hk, ht, rfl⟩))
    · rw [hf] at h
      dsimp only at h
      refine .inr (.inr (.inr (.inr ⟨w, later, he, hd, hp, ?_⟩)))
      split at h
      · next s' ho => cases h; exact .inl ho
      · next ho => exact .inr ⟨ho, h⟩
    · rw [hf] at h
      cases h
      exact .inl ⟨he, hd, hp, rfl⟩

end Sys2Proof.Machine
end

