-- ==== Sys2Proof/Tests/Slice0.lean ====
section
/-! SUPPORT. The model's own tests: ill-formed instructions that the check refuses; for every instruction a word written
out from 30_encoding.md; the worked examples of spec/, one step each; and for every statement with hypotheses a state
and operands that meet them all. -/

namespace Sys2Proof.Tests

open Sys2Proof.Machine

/-! ## Ill-formed terms that the check refuses (00_scope.md R8) -/

/-- The narrowest build of R8, with a small staging buffer. -/
def tiny : Build :=
  { windowBits := 4, lookaheadBits := 3, stagingSize := 5, indexed := false, emitOnExactFill := true,
    sinkFilledStatus := .full }

theorem test_legal_tiny : tiny.legal = true := by decide
theorem test_legal_shipped : Build.shipped.legal = true := by decide
theorem test_legal_widest : Build.legal { tiny with windowBits := 15, lookaheadBits := 8 } = true := by decide
theorem test_illegal_window_narrow : Build.legal { tiny with windowBits := 3 } = false := by decide
theorem test_illegal_window_wide : Build.legal { tiny with windowBits := 16 } = false := by decide
theorem test_illegal_lookahead_narrow : Build.legal { tiny with lookaheadBits := 2 } = false := by decide
theorem test_illegal_lookahead_wide : Build.legal { tiny with windowBits := 15, lookaheadBits := 9 } = false := by decide
theorem test_illegal_lookahead_not_below_window : Build.legal { tiny with lookaheadBits := 4 } = false := by decide
theorem test_illegal_no_staging : Build.legal { tiny with stagingSize := 0 } = false := by decide
theorem test_wellFormed_own_token : WellFormed tiny (.bref4_3 0 0) = true := by decide
theorem test_illFormed_foreign_token : WellFormed tiny (.bref 0 0) = false := by decide
theorem test_illFormed_build : WellFormed { tiny with stagingSize := 0 } .encFinish = false := by decide
theorem test_illFormed_state_not_in_build : WellFormed tiny .decStepBackrefIndexMsb = false := by decide
theorem test_wellFormed_state_in_build :
    WellFormed { tiny with windowBits := 9 } .decStepBackrefIndexMsb = true := by decide

/-! ## Words written out from the encodings (R91, R93, R99, R104, R105): tag, index, count -/

/-- `n` bits written as a number, the first bit the most significant (R108). -/
def word (n v : Nat) : Encoded :=
  .stream ((List.range n).map fun i => decide (v / 2 ^ (n - 1 - i) % 2 = 1))

theorem test_decode_lit : decode? 8 4 (word 9 0b1_01100001) = some (.lit 0x61) := by decide
theorem test_decode_bref : decode? 8 4 (word 13 0b0_00010101_1111) = some (.bref 0x15 0xF) := by decide
theorem test_decode_bref4 :
    decode? 4 3 (word 8 0b0_1001_110) = some (.bref4_3 9 6) := by decide
theorem test_decode_bref5 :
    decode? 5 3 (word 9 0b0_10001_110) = some (.bref5_3 17 6) ∧
    decode? 5 4 (word 10 0b0_10001_1010) = some (.bref5_4 17 10) := by decide
theorem test_decode_bref6 :
    decode? 6 3 (word 10 0b0_100001_110) = some (.bref6_3 33 6) ∧
    decode? 6 4 (word 11 0b0_100001_1010) = some (.bref6_4 33 10) ∧
    decode? 6 5 (word 12 0b0_100001_10010) = some (.bref6_5 33 18) := by decide
theorem test_decode_bref7 :
    decode? 7 3 (word 11 0b0_1000001_110) = some (.bref7_3 65 6) ∧
    decode? 7 4 (word 12 0b0_1000001_1010) = some (.bref7_4 65 10) ∧
    decode? 7 5 (word 13 0b0_1000001_10010) = some (.bref7_5 65 18) ∧
    decode? 7 6 (word 14 0b0_1000001_100010) = some (.bref7_6 65 34) := by decide
theorem test_decode_bref8 :
    decode? 8 3 (word 12 0b0_10000001_110) = some (.bref8_3 129 6) ∧
    decode? 8 5 (word 14 0b0_10000001_10010) = some (.bref8_5 129 18) ∧
    decode? 8 6 (word 15 0b0_10000001_100010) = some (.bref8_6 129 34) ∧
    decode? 8 7 (word 16 0b0_10000001_1000010) = some (.bref8_7 129 66) := by decide
theorem test_decode_bref9 :
    decode? 9 3 (word 13 0b0_100000001_110) = some (.bref9_3 257 6) ∧
    decode? 9 4 (word 14 0b0_100000001_1010) = some (.bref9_4 257 10) ∧
    decode? 9 5 (word 15 0b0_100000001_10010) = some (.bref9_5 257 18) ∧
    decode? 9 6 (word 16 0b0_100000001_100010) = some (.bref9_6 257 34) ∧
    decode? 9 7 (word 17 0b0_100000001_1000010) = some (.bref9_7 257 66) ∧
    decode? 9 8 (word 18 0b0_100000001_10000010) = some (.bref9_8 257 130) := by decide
theorem test_decode_bref10 :
    decode? 10 3 (word 14 0b0_1000000001_110) = some (.bref10_3 513 6) ∧
    decode? 10 4 (word 15 0b0_1000000001_1010) = some (.bref10_4 513 10) ∧
    decode? 10 5 (word 16 0b0_1000000001_10010) = some (.bref10_5 513 18) ∧
    decode? 10 6 (word 17 0b0_1000000001_100010) = some (.bref10_6 513 34) ∧
    decode? 10 7 (word 18 0b0_1000000001_1000010) = some (.bref10_7 513 66) ∧
    decode? 10 8 (word 19 0b0_1000000001_10000010) = some (.bref10_8 513 130) := by decide
theorem test_decode_bref11 :
    decode? 11 3 (word 15 0b0_10000000001_110) = some (.bref11_3 1025 6) ∧
    decode? 11 4 (word 16 0b0_10000000001_1010) = some (.bref11_4 1025 10) ∧
    decode? 11 5 (word 17 0b0_10000000001_10010) = some (.bref11_5 1025 18) ∧
    decode? 11 6 (word 18 0b0_10000000001_100010) = some (.bref11_6 1025 34) ∧
    decode? 11 7 (word 19 0b0_10000000001_1000010) = some (.bref11_7 1025 66) ∧
    decode? 11 8 (word 20 0b0_10000000001_10000010) = some (.bref11_8 1025 130) := by decide
theorem test_decode_bref12 :
    decode? 12 3 (word 16 0b0_100000000001_110) = some (.bref12_3 2049 6) ∧
    decode? 12 4 (word 17 0b0_100000000001_1010) = some (.bref12_4 2049 10) ∧
    decode? 12 5 (word 18 0b0_100000000001_10010) = some (.bref12_5 2049 18) ∧
    decode? 12 6 (word 19 0b0_100000000001_100010) = some (.bref12_6 2049 34) ∧
    decode? 12 7 (word 20 0b0_100000000001_1000010) = some (.bref12_7 2049 66) ∧
    decode? 12 8 (word 21 0b0_100000000001_10000010) = some (.bref12_8 2049 130) := by decide
theorem test_decode_bref13 :
    decode? 13 3 (word 17 0b0_1000000000001_110) = some (.bref13_3 4097 6) ∧
    decode? 13 4 (word 18 0b0_1000000000001_1010) = some (.bref13_4 4097 10) ∧
    decode? 13 5 (word 19 0b0_1000000000001_10010) = some (.bref13_5 4097 18) ∧
    decode? 13 6 (word 20 0b0_1000000000001_100010) = some (.bref13_6 4097 34) ∧
    decode? 13 7 (word 21 0b0_1000000000001_1000010) = some (.bref13_7 4097 66) ∧
    decode? 13 8 (word 22 0b0_1000000000001_10000010) = some (.bref13_8 4097 130) := by decide
theorem test_decode_bref14 :
    decode? 14 3 (word 18 0b0_10000000000001_110) = some (.bref14_3 8193 6) ∧
    decode? 14 4 (word 19 0b0_10000000000001_1010) = some (.bref14_4 8193 10) ∧
    decode? 14 5 (word 20 0b0_10000000000001_10010) = some (.bref14_5 8193 18) ∧
    decode? 14 6 (word 21 0b0_10000000000001_100010) = some (.bref14_6 8193 34) ∧
    decode? 14 7 (word 22 0b0_10000000000001_1000010) = some (.bref14_7 8193 66) ∧
    decode? 14 8 (word 23 0b0_10000000000001_10000010) = some (.bref14_8 8193 130) := by decide
theorem test_decode_bref15 :
    decode? 15 3 (word 19 0b0_100000000000001_110) = some (.bref15_3 16385 6) ∧
    decode? 15 4 (word 20 0b0_100000000000001_1010) = some (.bref15_4 16385 10) ∧
    decode? 15 5 (word 21 0b0_100000000000001_10010) = some (.bref15_5 16385 18) ∧
    decode? 15 6 (word 22 0b0_100000000000001_100010) = some (.bref15_6 16385 34) ∧
    decode? 15 7 (word 23 0b0_100000000000001_1000010) = some (.bref15_7 16385 66) ∧
    decode? 15 8 (word 24 0b0_100000000000001_10000010) = some (.bref15_8 16385 130) := by decide

theorem test_decode_commands :
    decode? 8 4 (.command ⟨0b000, [7], 9⟩) = some (.encSink [7]) ∧
    decode? 8 4 (.command ⟨0b001, [7], 9⟩) = some (.encPoll 9) ∧
    decode? 8 4 (.command ⟨0b010, [7], 9⟩) = some .encFinish ∧
    decode? 8 4 (.command ⟨0b011, [7], 9⟩) = some .encReset ∧
    decode? 8 4 (.command ⟨0b100, [7], 9⟩) = some (.decSink [7]) ∧
    decode? 8 4 (.command ⟨0b101, [7], 9⟩) = some (.decPoll 9) ∧
    decode? 8 4 (.command ⟨0b110, [7], 9⟩) = some .decFinish ∧
    decode? 8 4 (.command ⟨0b111, [7], 9⟩) = some .decReset := by decide
theorem test_decode_encoder_micro_steps :
    [0, 1, 2, 3, 4, 5, 6, 7, 8, 9].map (fun c => decode? 8 4 (.encoderState c)) =
      [some .encStepNotFull, some .encStepFilled, some .encStepSearch, some .encStepYieldTagBit,
        some .encStepYieldLiteral, some .encStepYieldBrIndex, some .encStepYieldBrLength,
        some .encStepSaveBacklog, some .encStepFlushBits, some .encStepDone] := by decide
theorem test_decode_decoder_micro_steps :
    [0, 1, 2, 3, 4, 5].map (fun c => decode? 8 4 (.decoderState c)) =
      [some .decStepTagBit, some .decStepYieldLiteral, some .decStepBackrefIndexMsb, some .decStepBackrefIndexLsb,
        some .decStepBackrefCountLsb, some .decStepYieldBackref] := by decide
theorem test_decode_unused_codes :
    decode 8 4 (.encoderState 10) = .error .unusedEncoderCode ∧ decode 8 4 (.encoderState 15) = .error .unusedEncoderCode ∧
    decode 8 4 (.decoderState 6) = .error .unusedDecoderCode ∧ decode 8 4 (.decoderState 7) = .error .unusedDecoderCode := by
  decide
theorem test_decode_cut_short :
    decode 8 4 (word 8 0b1_0110000) = .error .incompleteToken ∧ decode 8 4 (word 12 0b0_00010101_111) = .error .incompleteToken ∧
    decode 8 4 (.stream []) = .error .incompleteToken := by decide
theorem test_decode_leaves_the_rest :
    decode 4 3 (word 10 0b0_1001_011_10) = .ok (.bref4_3 9 3, [true, false]) := by decide
/-- "`1 01100001` for `LIT 0x61` and `0 00000000 0011` for `BREF d=1 l=4`" (R106). -/
theorem test_encode_listing : encode (.lit 0x61) = word 9 0b1_01100001 ∧ encode (.bref 0 3) = word 13 0b0_00000000_0011 := by
  decide
/-- The stream of 95_test_vectors.md program P1 as bytes: `B0 80 0C`. -/
theorem test_packBits : packBits (byteBits 0b10110000 ++ byteBits 0b10000000 ++ [false, false, false, false, true, true]) =
    [0xB0, 0x80, 0x0C] := by decide
theorem test_table_word_first_bit_most_significant :
    decodeTableWord 9 0b101100001 = some (.lit 0x61) ∧ decodeTableWord 13 0b0000101011111 = some (.bref 0x15 0xF) ∧
    decodeTableWord 16 0b0000000000101 = some (.bref 0 5) ∧ decodeTableWord 3 0b110 = some .decFinish ∧
    decodeTableWord 4 0b1001 = some .encStepDone := by decide
theorem test_encoded_width_bref15_8 : Laws.EncodedWidth.Statement (.bref15_8 0 0) := Laws.EncodedWidth.bref15_8 0 0

/-! ## The worked examples of spec/, one step each -/

/-- One part of the next state, if there is a next state. -/
def after {α : Type} (r : Result) (part : Machine.State → α) : Option α :=
  match r with
  | .next s => some (part s)
  | _ => none

/-- The shipped block with the given encoder under a running poll. -/
def encoding (e : Enc) (k : OutSink) : Machine.State := { Machine.State.reset with enc := e, encOut := some k }

/-- The shipped block with the given decoder under a running poll. -/
def decoding (d : Dec) (k : OutSink) : Machine.State := { Machine.State.reset with dec := d, decOut := some k }

/-- An output sink with room. -/
def room : OutSink := { cap := 64, out := [] }

/-- An output sink without room. -/
def noRoom : OutSink := { cap := 1, out := [0x55] }

/-- 40_bit_accumulator.md R122: "accumulator holds 3 bits `101` … `push_bits(8, 0x61)` … emits … 0xAC". -/
theorem test_pushBits_example :
    pushBits .shipped 8 0x61 { Enc.reset with currentByte := 0xA0, bitIndex := 3 } room =
      ({ Enc.reset with currentByte := 0x20, bitIndex := 3 }, { room with out := [0xAC] }) := by decide
/-- R122 corner case b: the full byte is emitted and `bits` becomes the new full byte. -/
theorem test_pushBits_held_byte :
    pushBits { tiny with emitOnExactFill := false } 8 0x61 { Enc.reset with currentByte := 0xA5, bitIndex := 8 } room =
      ({ Enc.reset with currentByte := 0x61, bitIndex := 8 }, { room with out := [0xA5] }) := by decide
/-- R124: "`enc.outgoing_bits = 0x0ABC` … first call pushes `bits = 0xAB` (8 bits), count becomes 4". -/
theorem test_pushOutgoingBits_example :
    pushOutgoingBits .shipped { Enc.reset with outgoingBits := 0x0ABC, outgoingBitsCount := 12 } room =
      ({ Enc.reset with outgoingBits := 0x0ABC, outgoingBitsCount := 4 }, { room with out := [0xAB] }, 8) := by decide
/-- R131: "`get_bits(8)` … result `0b00110110 = 0x36`, `dec.current_byte = 0xD8`, `dec.bit_index = 2`". -/
theorem test_getBits_example :
    getBits .shipped 8 { Dec.reset with currentByte := 0xB0, bitIndex := 2, staging := [(0, 0xD8)], inputSize := 1 } =
      .ok (some (0x36, { Dec.reset with currentByte := 0xD8, bitIndex := 2, staging := [(0, 0xD8)] })) := by decide
/-- 41_match_finder.md R142: "`… 61 62 63 | 61 62 63 61 …` … result (distance 3, length 4)". -/
theorem test_finder_example :
    let m : Memory := [(13, 0x61), (14, 0x62), (15, 0x63), (16, 0x61), (17, 0x62), (18, 0x63), (19, 0x61)]
    findLongestMatch 1 m 0 16 4 = some ⟨3, 4⟩ ∧ bruteForce 1 m 0 16 4 = some ⟨3, 4⟩ ∧
      indexedSearch 1 m (doIndexing m 20 []) 0 16 4 = some ⟨3, 4⟩ := by decide

/-- The encoder of 95_test_vectors.md program P1: five bytes `61`, all sunk, finishing. -/
def p1 : Enc :=
  { Enc.reset with
    flags := 1, inputSize := 5
    buffer := [(256, 0x61), (257, 0x61), (258, 0x61), (259, 0x61), (260, 0x61)] }

theorem test_notFull_no_effect : after (exec .encStepNotFull (encoding Enc.reset room)) id =
    some (encoding Enc.reset room) := by decide
theorem test_filled_builds_index :
    after (exec .encStepFilled { State.created { tiny with indexed := true } with
      enc := { Enc.reset with state := .filled, inputSize := 2, buffer := [(16, 5), (17, 5)] }, encOut := some room })
      (fun t => (t.enc.state, t.enc.index.read 1, t.enc.index.read 16, t.enc.index.read 17)) =
    some (.search, some 0, none, some 16) := by decide
/-- 42_encoder_fsm.md R163: "result `enc.match_pos = 1`, `enc.match_length = 4`, state `YieldTagBit`". -/
theorem test_search_match : after (exec .encStepSearch (encoding { p1 with state := .search, matchScanIndex := 1 } room))
    (fun t => (t.enc.state, t.enc.matchPos, t.enc.matchLength, t.enc.matchScanIndex)) = some (.yieldTagBit, 1, 4, 1) := by
  decide
theorem test_search_flush : after (exec .encStepSearch (encoding { p1 with state := .search, matchScanIndex := 5 } room))
    (fun t => t.enc.state) = some .flushBits := by decide
/-- R164: "pushes bit 0 (`enc.bit_index = 2`, byte unchanged), `enc.outgoing_bits = 0`, … count = 8". -/
theorem test_yieldTagBit_match :
    after (exec .encStepYieldTagBit (encoding
      { p1 with state := .yieldTagBit, matchScanIndex := 1, matchPos := 1, matchLength := 4, currentByte := 0x80, bitIndex := 1 }
      room)) (fun t => (t.enc.state, t.enc.currentByte, t.enc.bitIndex, t.enc.outgoingBits, t.enc.outgoingBitsCount)) =
    some (.yieldBrIndex, 0x80, 2, 0, 8) := by decide
theorem test_yieldTagBit_full :
    after (exec .encStepYieldTagBit (encoding { p1 with state := .yieldTagBit, matchScanIndex := 1 } noRoom)) id =
    some (encoding { p1 with state := .yieldTagBit, matchScanIndex := 1 } noRoom) := by decide
/-- R165: "emits `0x80 OR (0x61 >> 1) = 0xB0`, accumulator becomes `0x80`, 1 bit". -/
theorem test_yieldLiteral_example :
    after (exec .encStepYieldLiteral (encoding
      { p1 with state := .yieldLiteral, matchScanIndex := 1, currentByte := 0x80, bitIndex := 1 } room))
      (fun t => (t.enc.state, t.enc.currentByte, t.enc.bitIndex, t.encOut)) =
    some (.search, 0x80, 1, some { room with out := [0xB0] }) := by decide
/-- R166: "first entry pushes 8 zero bits, emits `0x80`, accumulator 2 bits `00`, count 0". -/
theorem test_yieldBrIndex_pushes :
    after (exec .encStepYieldBrIndex (encoding
      { p1 with state := .yieldBrIndex, matchLength := 4, outgoingBitsCount := 8, currentByte := 0x80, bitIndex := 2 } room))
      (fun t => (t.enc.state, t.enc.currentByte, t.enc.bitIndex, t.enc.outgoingBitsCount, t.encOut)) =
    some (.yieldBrIndex, 0, 2, 0, some { room with out := [0x80] }) := by decide
/-- R166: "second entry pushes nothing, loads `enc.outgoing_bits = 3` …, count 4, state `YieldBrLength`". -/
theorem test_yieldBrIndex_loads_length :
    after (exec .encStepYieldBrIndex (encoding { p1 with state := .yieldBrIndex, matchLength := 4, bitIndex := 2 } room))
      (fun t => (t.enc.state, t.enc.outgoingBits, t.enc.outgoingBitsCount, t.encOut)) =
    some (.yieldBrLength, 3, 4, some room) := by decide
/-- R167: "first entry pushes `0011`: … nothing is emitted, accumulator 6 bits `000011` (`0x0C`)". -/
theorem test_yieldBrLength_pushes :
    after (exec .encStepYieldBrLength (encoding
      { p1 with state := .yieldBrLength, matchLength := 4, outgoingBits := 3, outgoingBitsCount := 4, bitIndex := 2 } room))
      (fun t => (t.enc.state, t.enc.currentByte, t.enc.bitIndex, t.enc.outgoingBitsCount, t.encOut)) =
    some (.yieldBrLength, 0x0C, 6, 0, some room) := by decide
/-- R167: "second entry: `enc.match_scan_index` 1 → 5, state `Search`". -/
theorem test_yieldBrLength_advances :
    after (exec .encStepYieldBrLength (encoding
      { p1 with state := .yieldBrLength, matchScanIndex := 1, matchLength := 4, bitIndex := 6 } room))
      (fun t => (t.enc.state, t.enc.matchScanIndex, t.enc.matchLength)) = some (.search, 5, 0) := by decide
/-- R168: "the 32-byte buffer moves down by 9, `enc.input_size = 7`, `enc.match_scan_index = 0`". -/
theorem test_saveBacklog_example :
    after (exec .encStepSaveBacklog { State.created tiny with
      enc := { Enc.reset with state := .saveBacklog, inputSize := 16, matchScanIndex := 9, buffer := [(25, 0xAA), (31, 0xBB)] }
      encOut := some room }) (fun t => (t.enc.state, t.enc.inputSize, t.enc.matchScanIndex, t.enc.buffer)) =
    some (.notFull, 7, 0, [(16, 0xAA), (22, 0xBB), (25, 0xAA), (31, 0xBB)]) := by decide
/-- R169: "accumulator 6 bits `000011` (`0x0C`): emits `0x0C`, state `Done`". -/
theorem test_flushBits_example :
    after (exec .encStepFlushBits (encoding { p1 with state := .flushBits, currentByte := 0x0C, bitIndex := 6 } room))
      (fun t => (t.enc.state, t.encOut)) = some (.done, some { room with out := [0x0C] }) := by decide
theorem test_done_no_effect : after (exec .encStepDone (encoding { p1 with state := .done } room)) id =
    some (encoding { p1 with state := .done } room) := by decide

/-- A decoder with staged bytes. -/
def staged (q : DecState) (bytes : List Byte) : Dec :=
  { Dec.reset with state := q, inputSize := bytes.length, staging := Memory.append [] 0 bytes }

/-- 43_decoder_fsm.md R191: "unread stream `1 01100001 …`: `b = 1`, state `YieldLiteral`, one bit consumed". -/
theorem test_tagBit_literal :
    after (exec .decStepTagBit (decoding (staged .tagBit [0b10110000, 0b10000000]) room))
      (fun t => (t.dec.state, t.dec.bitIndex, t.dec.inputIndex, t.dec.inputSize)) = some (.yieldLiteral, 7, 1, 2) := by decide
theorem test_tagBit_backref_narrow :
    after (exec .decStepTagBit (decoding { staged .tagBit [0b01110000] with outputIndex := 9 } room))
      (fun t => (t.dec.state, t.dec.outputIndex, t.dec.inputSize)) = some (.backrefIndexLsb, 0, 0) := by decide
/-- R192: "`dec.window[0] = 0x61`, `dec.head_index = 1`, output byte `0x61`, state `TagBit`". -/
theorem test_decYieldLiteral_example :
    after (exec .decStepYieldLiteral (decoding (staged .yieldLiteral [0b01100001]) room))
      (fun t => (t.dec.state, t.dec.window, t.dec.headIndex, t.decOut)) =
    some (.tagBit, [(0, 0x61)], 1, some { room with out := [0x61] }) := by decide
theorem test_decYieldLiteral_no_room :
    after (exec .decStepYieldLiteral (decoding (staged .yieldLiteral [0b01100001]) noRoom)) id =
    some (decoding (staged .yieldLiteral [0b01100001]) noRoom) := by decide
/-- R193: W = 11, "unread stream `101 00000011 …`: … `dec.output_index = 0x500`, state `BackrefIndexLsb`". -/
theorem test_backrefIndexMsb_example :
    after (exec .decStepBackrefIndexMsb { State.created { tiny with windowBits := 11 } with
      dec := staged .backrefIndexMsb [0b10100000, 0b01100000], decOut := some room })
      (fun t => (t.dec.state, t.dec.outputIndex, t.dec.bitIndex)) = some (.backrefIndexLsb, 0x500, 5) := by decide
/-- R194: "W = 8: unread stream `00010101 …`: `dec.output_index = 0x15 + 1 = 22`". -/
theorem test_backrefIndexLsb_example :
    after (exec .decStepBackrefIndexLsb (decoding (staged .backrefIndexLsb [0b00010101]) room))
      (fun t => (t.dec.state, t.dec.outputIndex)) = some (.backrefCountLsb, 22) := by decide
/-- R194: "W = 11, continuing: `b = 0x03`, `dec.output_index = (0x500 OR 0x03) + 1 = 0x504`". -/
theorem test_backrefIndexLsb_wide :
    after (exec .decStepBackrefIndexLsb { State.created { tiny with windowBits := 11 } with
      dec := { staged .backrefIndexLsb [0b00000011] with outputIndex := 0x500 }, decOut := some room })
      (fun t => t.dec.outputIndex) = some 0x504 := by decide
/-- R195: "L = 4: unread stream `1111 …`: `dec.output_count = 16`". -/
theorem test_backrefCountLsb_example :
    after (exec .decStepBackrefCountLsb (decoding (staged .backrefCountLsb [0b11110000]) room))
      (fun t => (t.dec.state, t.dec.outputCount)) = some (.yieldBackref, 16) := by decide
/-- R196, overlap: "output `61 61 61 61`, `dec.head_index = 5`, state `TagBit`". -/
theorem test_yieldBackref_overlap :
    after (exec .decStepYieldBackref (decoding
      { Dec.reset with state := .yieldBackref, window := [(0, 0x61)], headIndex := 1, outputIndex := 1, outputCount := 4 } room))
      (fun t => (t.dec.state, t.dec.headIndex, t.decOut)) =
    some (.tagBit, 5, some { room with out := [0x61, 0x61, 0x61, 0x61] }) := by decide
/-- R196, zero substitution: "so sixteen `00` bytes are produced, `dec.head_index = 22`". -/
theorem test_yieldBackref_zeros :
    after (exec .decStepYieldBackref (decoding
      { Dec.reset with state := .yieldBackref, window := [(0, 1), (5, 9)], headIndex := 6, outputIndex := 22, outputCount := 16 }
      room)) (fun t => (t.dec.headIndex, t.decOut)) = some (22, some { room with out := List.replicate 16 0 }) := by decide

theorem test_token_lit : after (exec (.lit 0x61) (decoding Dec.reset room))
    (fun t => (t.dec.window, t.dec.headIndex, t.decOut)) = some ([(0, 0x61)], 1, some { room with out := [0x61] }) := by decide
/-- "`BREF d=1 l=4`" after one byte `61` (R106, R196). -/
theorem test_token_bref : after (exec (.bref 0 3) (decoding { Dec.reset with window := [(0, 0x61)], headIndex := 1 } room))
    (fun t => (t.dec.state, t.decOut)) = some (.tagBit, some { room with out := [0x61, 0x61, 0x61, 0x61] }) := by decide
theorem test_token_bref15_8 :
    after (exec (.bref15_8 2 4) { State.created { tiny with windowBits := 15, lookaheadBits := 8 } with
      dec := { Dec.reset with window := [(0, 7), (1, 8)], headIndex := 2 }, decOut := some room })
      (fun t => t.decOut) = some (some { room with out := [0, 7, 8, 0, 7] }) := by decide
theorem test_token_other_build : exec (.bref4_3 0 0) (decoding Dec.reset room) = .refused .tokenOfOtherBuild := rfl

/-- 44_streaming_protocol.md R214: "`ENC.SINK [00 01 … 13]` (20 bytes) `-> (Ok, 16)`, state `Filled`". -/
theorem test_encSink_fills :
    after (exec (.encSink ((List.range 20).map fun i => BitVec.ofNat 8 i)) (State.created tiny))
      (fun t => (t.enc.state, t.enc.inputSize, t.enc.buffer.read 16, t.enc.buffer.read 31, t.encReply)) =
    some (.filled, 16, 0, 15, some (.sunk .ok 16)) := by decide
/-- R214: "`ENC.SINK [7A 7A] -> (Full, 0)`". -/
theorem test_encSink_full :
    after (exec (.encSink [0x7A, 0x7A]) { State.created tiny with enc := { Enc.reset with state := .filled, inputSize := 16 } })
      (fun t => t.encReply) = some (some (.sunk .full 0)) := by decide

/-- The encoder of the worked example of R215: `61 62 63` sunk, finished. -/
def abc : Enc :=
  { Enc.reset with state := .filled, flags := 1, inputSize := 3, buffer := [(256, 0x61), (257, 0x62), (258, 0x63)] }

/-- R215: "`ENC.POLL cap=1 -> (More, [B0])` leaving state `YieldTagBit`, `enc.match_scan_index = 2`, accumulator `0x80` 1 bit". -/
theorem test_encPoll_more : after (exec (.encPoll 1) { Machine.State.reset with enc := abc })
    (fun t => (t.encReply, t.enc.state, t.enc.matchScanIndex, t.enc.currentByte, t.enc.bitIndex)) =
    some (some (.polled .more [0xB0]), .yieldTagBit, 2, 0x80, 1) := by decide +kernel
/-- R106: "`ENC.POLL cap=4 -> (Empty, [B0 D8 AC 60])`". -/
theorem test_encPoll_whole : after (exec (.encPoll 4) { Machine.State.reset with enc := abc })
    (fun t => (t.encReply, t.enc.state)) = some (some (.polled .empty [0xB0, 0xD8, 0xAC, 0x60]), .done) := by decide +kernel
/-- R216: "`ENC.FINISH -> Done`" after the last poll. -/
theorem test_encFinish_done : after (exec .encFinish { Machine.State.reset with enc := { abc with state := .done } })
    (fun t => t.encReply) = some (some (.finished .done)) := by decide
theorem test_encFinish_forces_filled : after (exec .encFinish Machine.State.reset)
    (fun t => (t.encReply, t.enc.state, t.enc.flags)) = some (some (.finished .more), .filled, 1) := by decide
theorem test_encReset : after (exec .encReset { Machine.State.reset with enc := abc, encReply := some (.finished .more) }) id =
    some Machine.State.reset := by decide
/-- R220: "`DEC.SINK` of 40 bytes `-> (Ok, 32)`; `DEC.SINK` of the remaining 8 `-> (Full, 0)`". -/
theorem test_decSink_fills : after (exec (.decSink (List.replicate 40 1)) Machine.State.reset)
    (fun t => (t.decReply, t.dec.inputSize, t.dec.staging.read 31, t.dec.staging.read 32)) =
    some (some (.sunk .ok 32), 32, 1, 0) := by decide
theorem test_decSink_full :
    after (exec (.decSink [1]) { Machine.State.reset with dec := { Dec.reset with inputSize := 32, inputIndex := 31 } })
      (fun t => t.decReply) = some (some (.sunk .full 0)) := by decide
/-- R221: "`DEC.POLL cap=2 -> (More, [61 61])` leaving state `YieldBackref`, `dec.output_count = 3`, `dec.head_index = 2`". -/
theorem test_decPoll_more :
    after (exec (.decPoll 2) { Machine.State.reset with dec := staged .tagBit [0xB0, 0x80, 0x0C] })
      (fun t => (t.decReply, t.dec.state, t.dec.outputCount, t.dec.headIndex)) =
    some (some (.polled .more [0x61, 0x61]), .yieldBackref, 3, 2) := by decide +kernel
/-- R221: with room for all, "(Empty, …)" leaving `BackrefIndexLsb`, `dec.bit_index = 1`, `dec.input_size = 0`. -/
theorem test_decPoll_empty :
    after (exec (.decPoll 16) { Machine.State.reset with dec := staged .tagBit [0xB0, 0x80, 0x0C] })
      (fun t => (t.decReply, t.dec.state, t.dec.bitIndex, t.dec.inputSize)) =
    some (some (.polled .empty [0x61, 0x61, 0x61, 0x61, 0x61]), .backrefIndexLsb, 1, 0) := by decide +kernel
theorem test_decFinish : after (exec .decFinish { Machine.State.reset with dec := staged .tagBit [0xB0] })
      (fun t => t.decReply) = some (some (.finished .more)) ∧
    after (exec .decFinish { Machine.State.reset with dec := { Dec.reset with state := .yieldBackref, outputCount := 3 } })
      (fun t => t.decReply) = some (some (.finished .done)) := by decide
theorem test_decReset : after (exec .decReset { Machine.State.reset with dec := staged .tagBit [0xB0] }) id =
    some Machine.State.reset := by decide
theorem test_polls_without_room :
    after (exec (.encPoll 0) { Machine.State.reset with enc := abc }) (fun t => (t.enc, t.encReply)) =
      some (abc, some (.polled .misuse [])) ∧
    after (exec (.decPoll 0) Machine.State.reset) (fun t => (t.dec, t.decReply)) = some (Dec.reset, some (.polled .misuse [])) := by
  decide

/-! ## Steps -/

theorem test_step_idle : after (step Machine.State.reset) id = some Machine.State.reset := by decide
theorem test_step_command :
    after (step { Machine.State.reset with pending := [.plain 2, .plain 3] }) (fun t => (t.encReply, t.pending)) =
    some (some (.finished .more), [.plain 3]) := by decide
theorem test_step_token :
    after (step { decoding (staged .tagBit [0xB0, 0x80, 0x0C]) room with grain := .token })
      (fun t => (t.dec.headIndex, t.dec.bitIndex, t.dec.inputIndex, t.decOut)) =
    some (1, 7, 2, some { room with out := [0x61] }) := by decide
theorem test_step_placed_word :
    after (step (Machine.State.reset.withFetchWord 13 0b0000000000011)) (fun t => (t.dec.headIndex, t.dec.outputIndex)) =
    some (4, 1) := by decide

/-! ## Witnesses: for every statement with hypotheses, a state and operands that meet them, clause by clause -/

/-- A tiny block that rests in the middle of both streams: the encoder filled and finishing, the decoder with a staged
byte and a copy under way. -/
def midEnc : Enc := { Enc.reset with state := .filled, flags := 1, inputSize := 3, buffer := [(16, 0x61), (17, 0x61), (18, 0x61)] }
def midDec : Dec :=
  { Dec.reset with
    state := .yieldBackref, outputIndex := 2, outputCount := 3, headIndex := 1, window := [(0, 0x61)]
    inputSize := 1, staging := [(0, 0x80)], currentByte := 0x0C, bitIndex := 2 }
def mid : Machine.State := { State.created tiny with enc := midEnc, dec := midDec }

theorem midEnc_inv : EncInv tiny midEnc := by
  constructor <;> decide
theorem midEnc_fresh (b : Build) : indexFresh b midEnc := fun _ _ h => absurd rfl h
theorem midDec_inv : DecInv tiny midDec := by
  constructor
  case window_unwritten =>
    intro a h1 h2
    have h : a ≠ 0 := by have : midDec.headIndex = 1 := rfl; omega
    simp [midDec, Memory.read, Cells.read, h]
  all_goals decide
theorem mid_inv : StateInv mid :=
  ⟨by decide, midEnc_inv, midDec_inv, midEnc_fresh _, (fun _ h => nomatch h), (fun _ h => nomatch h), fun _ => by decide⟩

/-- The tiny block with one encoder or decoder state under a running poll. -/
def encIn (e : Enc) (k : OutSink) : Machine.State := { mid with enc := e, encOut := some k }
def decIn (d : Dec) (k : OutSink) : Machine.State := { mid with dec := d, decOut := some k }

theorem witness_CreatedMeetsInvariant : tiny.legal = true := by decide
theorem witness_ResetCommandsRestore : mid.encOut = none ∧ mid.decOut = none := by decide
theorem witness_DecodeEncodeAgree : WellFormed tiny (.bref4_3 9 3) = true ∧
    encode (.bref4_3 9 3) = .stream [false, true, false, false, true, false, true, true] := by decide
/-- At the boundary of each clause: 7 and 8 bits behind a tag 0 (width 8), 8 and 9 behind a tag 1. -/
theorem witness_EveryStreamParses : tiny.legal = true ∧
    (List.replicate 7 false).length < 1 + 4 + 3 ∧ 1 + 4 + 3 ≤ (List.replicate 8 false).length ∧
    (List.replicate 8 true).length < 9 ∧ 9 ≤ (List.replicate 9 true).length := by decide
theorem witness_StepRunsDecodedInstruction_illegal : Build.legal { tiny with stagingSize := 0 } = false := by decide
theorem witness_StepRunsDecodedInstruction_polls :
    mid.build.legal = true ∧ (encIn midEnc room).encOut = some room ∧
    (decIn midDec room).encOut = none ∧ (decIn midDec room).decOut = some room ∧ (decIn midDec room).grain ≠ .token := by
  decide
theorem witness_StepRunsDecodedInstruction_token :
    let s := { decIn (staged .tagBit [0b01001011]) room with grain := .token }
    s.encOut = none ∧ s.decOut = some room ∧ s.dec.state = .tagBit ∧
    decode 4 3 (.stream (unreadBits s.dec)) = .ok (.bref4_3 9 3, []) ∧
    (Instr.bref? (.bref4_3 9 3) = none → room.produced < room.cap) ∧
    skipBits s.build 8 s.dec = .ok { s.dec with currentByte := 0b01001011, inputSize := 0 } := by decide
theorem witness_StepRunsDecodedInstruction_command :
    let s := { mid with pending := [.plain 2] }
    s.encOut = none ∧ s.decOut = none ∧ s.pending = [.plain 2] ∧ s.grain = .command ∧
    ({ mid with grain := .token } : Machine.State).grain ≠ .command ∧
    decodeCommand ⟨1, [], 4⟩ = .encPoll 4 ∧ decodeCommand ⟨5, [], 4⟩ = .decPoll 4 ∧ mid.pending = [] := by decide
/-- Each branch: fewer free positions than bits, exactly as many, more. -/
theorem witness_PushBitsAppends :
    (0x61#8).toNat < 2 ^ 8 ∧ (1#8).toNat < 2 ^ 1 ∧
    accumulatorOk { Enc.reset with currentByte := 0xA0, bitIndex := 3 } ∧ 8 - 3 < 8 ∧
    accumulatorOk { Enc.reset with currentByte := 0xA6, bitIndex := 7 } ∧ 8 - 7 = 1 ∧ tiny.emitOnExactFill = true ∧
    ¬ 8 - 3 < 1 ∧ accumulatorOk { Enc.reset with currentByte := 0xA5, bitIndex := 8 } := by unfold accumulatorOk; decide
theorem witness_PushOutgoingBitsDrains :
    accumulatorOk midEnc ∧ midEnc.outgoingBitsCount = 0 ∧ accumulatorOk { midEnc with outgoingBits := 0xABC, outgoingBitsCount := 12 } ∧
    ({ midEnc with outgoingBits := 0xABC, outgoingBitsCount := 12 } : Enc).outgoingBitsCount ≤ 16 := by
  unfold accumulatorOk; decide
/-- Ten bits are there (two in the accumulator): one wanted, two, eight; and, with nothing staged, three of two. -/
theorem witness_GetBitsTakesTheFront :
    stagingOk tiny midDec ∧ 8 ≤ bitsAvailable midDec ∧ 2 ≤ midDec.bitIndex ∧
    stagingOk tiny { midDec with inputSize := 0 } ∧ bitsAvailable { midDec with inputSize := 0 } < 3 := by
  unfold stagingOk; decide
theorem witness_FinderIsLongestAndNearest :
    let m : Memory := [(13, 0x61), (14, 0x62), (15, 0x63), (16, 0x61), (17, 0x62), (18, 0x63), (19, 0x61)]
    findLongestMatch tiny.breakEven m 0 16 4 = some ⟨3, 4⟩ ∧ findLongestMatch tiny.breakEven m 0 17 1 = none ∧
    ∀ a, 0 ≤ a → a < 16 + 4 → Memory.read m a = Memory.read (m.write 20 1) a := by
  refine ⟨by decide, by decide, ?_⟩
  have h : ∀ a < 20, Memory.read [(13, 0x61), (14, 0x62), (15, 0x63), (16, 0x61), (17, 0x62), (18, 0x63), (19, 0x61)] a =
    Memory.read (Memory.write [(13, 0x61), (14, 0x62), (15, 0x63), (16, 0x61), (17, 0x62), (18, 0x63), (19, 0x61)] 20 1) a := by
    decide
  exact fun a _ => h a
theorem witness_BruteForceFindsTheMatch : (0 : Nat) < 16 ∧ 1 ≤ 4 := by decide
theorem witness_IndexBuildIsCorrect : IndexMemory.wf [(1, some 0), (5, some 3)] = true := by decide
theorem witness_IndexedSearchFindsTheMatch : ∀ i, i ≤ 1 → indexEntryCorrect [(0, 7), (1, 7)] [(1, some 0)] i := by
  intro i h
  have h' : i = 0 ∨ i = 1 := by omega
  rcases h' with rfl | rfl
  · intro j hj; omega
  · exact ⟨by decide, by decide, fun j h1 h2 => by omega⟩
theorem witness_NotFullWaits :
    Enc.reset.state = .notFull ∧ (encIn Enc.reset room).encOut = some room ∧ (State.created tiny).encOut = none ∧
    after (exec (.encSink (List.replicate 16 1)) (State.created tiny)) (fun t => decide (t.enc.state ≠ .notFull)) = some true ∧
    after (exec .encFinish (State.created tiny)) (fun t => decide (t.enc.state ≠ .notFull)) = some true := by decide
theorem witness_FilledStep : (encIn midEnc room).encOut = some room ∧ midEnc.state = .filled ∧
    midEnc.inputSize ≤ tiny.window := by decide
/-- The boundaries of both clauses, finishing (one byte wanted) and not (eight wanted), and a match. -/
theorem witness_SearchStep :
    let e := { midEnc with state := EncState.search }
    e.inputSize ≤ tiny.window ∧ (tiny.indexed = true → ∀ i, i < tiny.window + e.inputSize → indexEntryCorrect e.buffer e.index i) ∧
    e.flags.getLsbD 0 = true ∧ 3 < 3 + 1 ∧ 2 + 1 ≤ e.inputSize ∧ 16 < 9 + tiny.lookahead ∧ 8 + tiny.lookahead ≤ 16 ∧
    findLongestMatch tiny.breakEven e.buffer 1 (tiny.window + 1) (min tiny.lookahead (e.inputSize - 1)) = some ⟨1, 2⟩ ∧
    findLongestMatch tiny.breakEven e.buffer 2 (tiny.window + 2) (min tiny.lookahead (e.inputSize - 2)) = none := by
  refine ⟨by decide, (fun h => nomatch h), ?_⟩
  decide
theorem witness_YieldTagBitStep :
    accumulatorOk { midEnc with state := .yieldTagBit } ∧ noRoom.cap ≤ noRoom.produced ∧ room.produced < room.cap ∧
    midEnc.matchLength = 0 ∧ ({ midEnc with state := .yieldTagBit, matchLength := 2 } : Enc).matchLength ≠ 0 := by
  unfold accumulatorOk; decide
theorem witness_EncYieldLiteralStep :
    accumulatorOk { midEnc with state := .yieldLiteral, matchScanIndex := 16, currentByte := 0x80, bitIndex := 1 } ∧
    1 ≤ 16 ∧ 16 ≤ tiny.window ∧ noRoom.cap ≤ noRoom.produced ∧ room.produced < room.cap := by unfold accumulatorOk; decide
theorem witness_YieldBrIndexStep :
    accumulatorOk { midEnc with state := .yieldBrIndex, outgoingBits := 9, outgoingBitsCount := 4 } ∧ 0 < 4 ∧ 4 ≤ 16 ∧
    midEnc.outgoingBitsCount = 0 ∧ noRoom.cap ≤ noRoom.produced ∧ room.produced < room.cap := by unfold accumulatorOk; decide
theorem witness_YieldBrLengthStep :
    accumulatorOk { midEnc with state := .yieldBrLength, outgoingBits := 3, outgoingBitsCount := 3 } ∧ 0 < 3 ∧ 3 ≤ 16 ∧
    midEnc.outgoingBitsCount = 0 ∧ noRoom.cap ≤ noRoom.produced ∧ room.produced < room.cap := by unfold accumulatorOk; decide
theorem witness_SaveBacklogStep :
    (encIn { midEnc with state := .saveBacklog } room).enc.state = .saveBacklog ∧ midEnc.buffer.wf = true := by decide
theorem witness_FlushBitsStep :
    (encIn { midEnc with state := .flushBits } room).enc.bitIndex = 0 ∧
    ({ midEnc with state := .flushBits, bitIndex := 3, currentByte := 0x60 } : Enc).bitIndex ≠ 0 ∧
    noRoom.cap ≤ noRoom.produced ∧ room.produced < room.cap := by decide
theorem witness_DoneIsTerminal :
    let s := { mid with enc := { midEnc with state := .done } }
    s.enc.state = .done ∧ s.encOut = none ∧ (encIn s.enc room).encOut = some room ∧
    after (exec .encFinish s) (fun _ => true) = some true := by decide
theorem witness_DoneIsTerminal_flag : EncInv tiny { midEnc with state := .done, matchScanIndex := 3 } := by
  constructor <;> decide
theorem witness_EncTransitions :
    after (exec EncState.filled.microStep (encIn midEnc room)) (fun _ => true) = some true ∧
    after (exec (.encSink [1]) (State.created tiny)) (fun _ => true) = some true ∧ Enc.reset.inputSize ≤ tiny.window ∧
    after (exec .encFinish mid) (fun _ => true) = some true ∧ after (exec .encReset mid) (fun _ => true) = some true ∧
    ofEncoder .decFinish = false ∧ after (exec .decFinish mid) (fun _ => true) = some true ∧
    after (exec (.encPoll 1) mid) (fun _ => true) = some true := by decide +kernel
theorem witness_EncStepIsLocal :
    let e := { midEnc with state := EncState.yieldTagBit }
    after (exec EncState.yieldTagBit.microStep (encIn e noRoom)) (fun t => t.enc.state) = some .yieldTagBit ∧
    noRoom.cap ≤ noRoom.produced ∧ (OutSink.mk 1 [0x66]).cap = noRoom.cap ∧ (OutSink.mk 1 [0x66]).produced = noRoom.produced ∧
    ({ encIn e noRoom with dec := Dec.reset } : Machine.State).enc = e := by decide
/-- No bit at all, and one. -/
theorem witness_TagBitStep :
    stagingOk tiny Dec.reset ∧ bitsAvailable Dec.reset < 1 ∧ Dec.reset.state = .tagBit ∧
    stagingOk tiny { Dec.reset with bitIndex := 1 } ∧ 1 ≤ bitsAvailable { Dec.reset with bitIndex := 1 } := by
  unfold stagingOk; decide
/-- Seven bits, and eight; room, and none. -/
theorem witness_DecYieldLiteralStep :
    let d := { Dec.reset with state := DecState.yieldLiteral, bitIndex := 7 }
    stagingOk tiny d ∧ bitsAvailable d < 8 ∧ d.window.wf = true ∧ stagingOk tiny (staged .yieldLiteral [0x61]) ∧
    8 ≤ bitsAvailable (staged .yieldLiteral [0x61]) ∧ noRoom.cap ≤ noRoom.produced ∧ room.produced < room.cap := by
  unfold stagingOk; decide
theorem witness_BackrefIndexMsbStep :
    let d := { Dec.reset with state := DecState.backrefIndexMsb, bitIndex := 2 }
    stagingOk tiny d ∧ 8 < 11 ∧ 11 ≤ 15 ∧ bitsAvailable d < 11 - 8 ∧ 10 - 8 ≤ bitsAvailable d := by unfold stagingOk; decide
theorem witness_BackrefIndexLsbStep :
    let d := { Dec.reset with state := DecState.backrefIndexLsb, bitIndex := 4 }
    stagingOk tiny d ∧ d.outputIndex % 2 ^ min 4 8 = 0 ∧ 0x500 % 2 ^ min 11 8 = 0 ∧ bitsAvailable d < min 5 8 ∧
    min tiny.windowBits 8 ≤ bitsAvailable d := by unfold stagingOk; decide
theorem witness_BackrefCountLsbStep :
    let d := { Dec.reset with state := DecState.backrefCountLsb, bitIndex := 3 }
    stagingOk tiny d ∧ 1 ≤ tiny.lookaheadBits ∧ tiny.lookaheadBits ≤ 8 ∧ bitsAvailable d < 4 ∧
    tiny.lookaheadBits ≤ bitsAvailable d := by unfold stagingOk; decide
theorem witness_YieldBackrefStep :
    midDec.state = .yieldBackref ∧ midDec.window.wf = true ∧ 1 ≤ midDec.outputIndex ∧ midDec.outputIndex ≤ tiny.window ∧
    1 ≤ midDec.outputCount ∧ midDec.outputCount ≤ tiny.window ∧ noRoom.cap ≤ noRoom.produced := by decide
theorem witness_DecTransitions :
    tiny.legal = true ∧ DecInv tiny midDec ∧
    after (exec DecState.yieldBackref.microStep (decIn midDec room)) (fun _ => true) = some true ∧
    after (exec .decReset mid) (fun _ => true) = some true ∧ after (exec .decFinish mid) (fun _ => true) = some true ∧
    after (exec (.decPoll 1) mid) (fun _ => true) = some true := by
  exact ⟨by decide, midDec_inv, by decide, by decide, by decide, by decide +kernel⟩
theorem witness_DecStepIsLocal :
    after (exec DecState.yieldBackref.microStep (decIn midDec noRoom)) (fun _ => true) = some true ∧
    noRoom.cap ≤ noRoom.produced ∧
    bitsAvailable { Dec.reset with state := .yieldLiteral, bitIndex := 7 } < wantedBits tiny .yieldLiteral ∧
    (OutSink.mk 1 [0x66]).produced = noRoom.produced := by decide
theorem witness_WindowHoldsProducedBytes : midDec.window.wf = true ∧ windowDescribes tiny [0x61] midDec ∧
    after (exec (.decPoll 1) mid) (fun _ => true) = some true := by
  refine ⟨by decide, ⟨rfl, ?_, ?_⟩, by decide +kernel⟩
  · intro k hk _
    have h : k = 0 := by simpa using hk
    subst h; decide
  · intro a h
    have h0 : a ≠ 0 := fun ha => h 0 (by decide) (by subst ha; decide)
    simp [midDec, Memory.read, Cells.read, h0]
theorem witness_LiteralToken :
    let s := decIn Dec.reset room
    s.decOut = some room ∧ s.dec.state = .tagBit ∧ s.dec.window.wf = true ∧ noRoom.cap ≤ noRoom.produced ∧
    room.produced < room.cap := by decide
theorem witness_BackrefTokens :
    let s := decIn Dec.reset room
    Instr.bref? (.bref4_3 15 7) = some (s.build.windowBits, s.build.lookaheadBits, 15, 7) ∧ s.decOut = some room ∧
    s.dec.state = .tagBit ∧ s.dec.window.wf = true := by decide
theorem witness_TokenIsItsMicroSteps :
    let s := decIn (staged .tagBit [0b01001011]) room
    s.build.legal = true ∧ DecInv s.build s.dec ∧ sinkInv room ∧ s.decOut = some room ∧
    nextToken s.build s.dec room = some (.bref4_3 9 3, 8) := by
  refine ⟨by decide, ?_, by unfold sinkInv; decide, by decide⟩
  constructor
  case window_unwritten => exact fun _ _ _ => rfl
  all_goals decide
theorem witness_EncSinkAccepts :
    let s := State.created tiny
    s.encOut = none ∧ s.enc.state = .notFull ∧ s.enc.flags.getLsbD 0 = false ∧ s.enc.inputSize ≤ s.build.window ∧
    s.enc.buffer.wf = true := by decide
theorem witness_EncSinkRefuses :
    mid.encOut = none ∧ midEnc.flags.getLsbD 0 = true ∧
    Enc.reset.flags.getLsbD 0 = false ∧ EncState.yieldTagBit ≠ .notFull ∧ EncState.yieldTagBit ≠ .filled ∧
    ({ Enc.reset with state := .filled, inputSize := 16 } : Enc).state = .filled ∧
    tiny.sinkFilledStatus = .full ∧ ({ tiny with sinkFilledStatus := .misuse } : Build).sinkFilledStatus = .misuse := by decide
theorem witness_EncPollResult : mid.encOut = none ∧ mid.build.legal = true ∧ EncInv mid.build mid.enc ∧
    indexFresh mid.build mid.enc ∧ 0 < 1 := ⟨rfl, by decide, midEnc_inv, midEnc_fresh _, by decide⟩
theorem witness_EncFinishResult : mid.encOut = none ∧ EncInv tiny { midEnc with flags := 0, inputSize := 16 } ∧
    ({ midEnc with flags := 0, inputSize := 16 } : Enc).flags.getLsbD 0 = false := by
  refine ⟨rfl, ?_, by decide⟩
  constructor <;> decide
theorem witness_DecSinkResult : mid.decOut = none ∧ midDec.staging.wf = true ∧ midDec.inputSize < tiny.stagingSize ∧
    tiny.stagingSize ≤ ({ midDec with inputSize := 5 } : Dec).inputSize := by decide
theorem witness_DecPollResult : mid.decOut = none ∧ mid.build.legal = true ∧ DecInv mid.build mid.dec ∧ 0 < 1 :=
  ⟨rfl, by decide, midDec_inv, by decide⟩
theorem witness_DecFinishResult : mid.decOut = none := rfl
theorem witness_RefusalsWriteNothing :
    after (exec (.encSink [1]) mid) (fun t => (replyTo (.encSink [1]) t).map Reply.status) = some (some .misuse) ∧
    after (exec (.decSink [1]) { mid with dec := { midDec with inputSize := 5 } })
      (fun t => (replyTo (.decSink [1]) t).map Reply.status) = some (some .full) ∧
    after (exec (.encPoll 1) mid) (fun _ => true) = some true ∧
    after (exec (.decPoll 1) mid) (fun _ => true) = some true := by decide +kernel
theorem witness_StatusCauses :
    after (exec .encFinish mid) (fun t => (replyTo .encFinish t).map Reply.status) = some (some .more) ∧
    after (exec .decFinish mid) (fun t => (replyTo .decFinish t).map Reply.status) = some (some .more) ∧
    after (exec (.decPoll 1) mid) (fun t => (replyTo (.decPoll 1) t).map Reply.status) = some (some .more) ∧
    after (exec (.encPoll 0) mid) (fun t => (replyTo (.encPoll 0) t).map Reply.status) = some (some .misuse) := by
  decide +kernel
theorem witness_ParametersNeverChange : after (exec .decReset mid) (fun _ => true) = some true ∧
    after (step { mid with pending := [.plain 6] }) (fun _ => true) = some true := by decide
theorem witness_UnitsAreIndependent :
    ofEncoder .encFinish ≠ ofEncoder (.decSink [1]) ∧ after (exec .encFinish mid) (fun _ => true) = some true ∧
    (after (exec .encFinish mid) id).bind (fun u => after (exec (.decSink [1]) u) (fun _ => true)) = some true ∧
    ({ mid with dec := Dec.reset } : Machine.State).enc = mid.enc ∧ ({ mid with enc := Enc.reset } : Machine.State).dec = mid.dec := by
  decide
theorem witness_FlagsWrittenByFinishAndReset : after (exec .encFinish mid) (fun _ => true) = some true ∧
    mid.enc.flags &&& 0xFE = 0 := by decide
theorem witness_EveryMicroStepProgresses :
    after (exec EncState.filled.microStep (encIn midEnc room)) (fun t => decide (t ≠ encIn midEnc room)) = some true ∧
    after (exec EncState.notFull.microStep (encIn Enc.reset room)) (fun t => decide (t = encIn Enc.reset room)) = some true ∧
    after (exec DecState.yieldBackref.microStep (decIn midDec noRoom)) (fun t => decide (t = decIn midDec noRoom)) = some true ∧
    after (exec DecState.yieldBackref.microStep (decIn midDec room)) (fun t => decide (t ≠ decIn midDec room)) = some true := by
  decide
theorem witness_EveryMicroStepProgresses_invariant : tiny.legal = true ∧ DecInv tiny midDec := ⟨by decide, midDec_inv⟩
theorem witness_StopsByName :
    mid.encOut = none ∧ mid.decOut = none ∧ (encIn midEnc room).enc.state ≠ .search ∧ (decIn midDec room).dec.state ≠ .tagBit ∧
    (decIn { Dec.reset with state := .backrefIndexMsb } room).dec.state = .backrefIndexMsb ∧ tiny.windowBits ≤ 8 ∧
    Instr.bref? (.bref 1 2) = some (8, 4, 1, 2) ∧ (8, 4) ≠ (tiny.windowBits, tiny.lookaheadBits) ∧
    Instr.bref? (.bref4_3 1 2) = some (4, 3, 1, 2) ∧ (4, 3) = (tiny.windowBits, tiny.lookaheadBits) := by decide
theorem witness_StopsByName_commands : encCommands (.encPoll 1) ∧ decCommands .decFinish :=
  ⟨.inr (.inl ⟨1, rfl⟩), .inr (.inr (.inl rfl))⟩
theorem witness_StepKeepsInvariant : StateInv mid ∧ after (step mid) (fun _ => true) = some true := ⟨mid_inv, by decide⟩
theorem witness_InvariantRunsOn : StateInv mid := mid_inv
theorem witness_StepwiseIsAtomic :
    StateInv { mid with pending := [⟨5, [], 2⟩] } ∧ mid.encOut = none ∧ mid.decOut = none ∧
    after (step { mid with pending := [⟨5, [], 2⟩] }) (fun t => t.decReply) = some (some (.polled .more [0, 0x61])) := by
  refine ⟨⟨by decide, midEnc_inv, midDec_inv, midEnc_fresh _, (fun _ h => nomatch h), (fun _ h => nomatch h),
    fun _ => by decide⟩, rfl, rfl, by decide +kernel⟩
theorem witness_RoundTrip : tiny.legal = true := by decide
theorem witness_DecoderComputesDecompressed : tiny.legal = true ∧ decompressed tiny [0b10110000, 0b10000000] = [0x61] := by decide +kernel
theorem witness_EncoderComputesCompressed :
    Build.shipped.legal = true ∧ compressed { tiny with windowBits := 5, lookaheadBits := 4 } [0x61] = [0xB0, 0x80] := by decide +kernel

end Sys2Proof.Tests
end

section
/-! SUPPORT. The two units share nothing (20_memory.md R79): an instruction reads and writes the registers of its own
unit and the build parameters alone. -/

namespace Sys2Proof.Machine

/-! ## The kinds of instructions -/

/-- Every instruction is a micro-step of one of the units, a command to one of them, a literal or a backreference. -/
theorem instr_cases (i : Instr) :
    (∃ q : EncState, i = q.microStep) ∨ (∃ q : DecState, i = q.microStep) ∨ encCommands i ∨ decCommands i ∨
      (∃ value, i = .lit value) ∨ ∃ W L index count, i.bref? = some (W, L, index, count) := by
  cases i with
  | encStepNotFull => exact .inl ⟨.notFull, rfl⟩
  | encStepFilled => exact .inl ⟨.filled, rfl⟩
  | encStepSearch => exact .inl ⟨.search, rfl⟩
  | encStepYieldTagBit => exact .inl ⟨.yieldTagBit, rfl⟩
  | encStepYieldLiteral => exact .inl ⟨.yieldLiteral, rfl⟩
  | encStepYieldBrIndex => exact .inl ⟨.yieldBrIndex, rfl⟩
  | encStepYieldBrLength => exact .inl ⟨.yieldBrLength, rfl⟩
  | encStepSaveBacklog => exact .inl ⟨.saveBacklog, rfl⟩
  | encStepFlushBits => exact .inl ⟨.flushBits, rfl⟩
  | encStepDone => exact .inl ⟨.done, rfl⟩
  | decStepTagBit => exact .inr (.inl ⟨.tagBit, rfl⟩)
  | decStepYieldLiteral => exact .inr (.inl ⟨.yieldLiteral, rfl⟩)
  | decStepBackrefIndexMsb => exact .inr (.inl ⟨.backrefIndexMsb, rfl⟩)
  | decStepBackrefIndexLsb => exact .inr (.inl ⟨.backrefIndexLsb, rfl⟩)
  | decStepBackrefCountLsb => exact .inr (.inl ⟨.backrefCountLsb, rfl⟩)
  | decStepYieldBackref => exact .inr (.inl ⟨.yieldBackref, rfl⟩)
  | encSink input => exact .inr (.inr (.inl (.inl ⟨input, rfl⟩)))
  | encPoll cap => exact .inr (.inr (.inl (.inr (.inl ⟨cap, rfl⟩))))
  | encFinish => exact .inr (.inr (.inl (.inr (.inr (.inl rfl)))))
  | encReset => exact .inr (.inr (.inl (.inr (.inr (.inr rfl)))))
  | decSink input => exact .inr (.inr (.inr (.inl (.inl ⟨input, rfl⟩))))
  | decPoll cap => exact .inr (.inr (.inr (.inl (.inr (.inl ⟨cap, rfl⟩)))))
  | decFinish => exact .inr (.inr (.inr (.inl (.inr (.inr (.inl rfl))))))
  | decReset => exact .inr (.inr (.inr (.inl (.inr (.inr (.inr rfl))))))
  | lit value => exact .inr (.inr (.inr (.inr (.inl ⟨value, rfl⟩))))
  | _ => exact .inr (.inr (.inr (.inr (.inr ⟨_, _, _, _, rfl⟩))))

/-- A backreference token runs as its format and field values say (30_encoding.md R93). -/
theorem exec_of_bref {i : Instr} {W L index count : Nat} (h : i.bref? = some (W, L, index, count)) (s : State) :
    exec i s = execBackref W L index count s := by
  cases i <;> cases h <;> rfl

/-- A backreference token is no instruction of the encoder. -/
theorem ofEncoder_of_bref {i : Instr} {W L index count : Nat} (h : i.bref? = some (W, L, index, count)) :
    ofEncoder i = false := by
  cases i <;> cases h <;> rfl

/-! ## Locality -/

/-- `f` writes nothing but the encoder, its output sink and its reply, and depends on those and the build alone. -/
def EncLocal (f : State → Result) : Prop :=
  ∀ s t : State, f s = .next t →
    t = { s with enc := t.enc, encOut := t.encOut, encReply := t.encReply } ∧
    ∀ s' : State, s'.build = s.build → s'.enc = s.enc → s'.encOut = s.encOut → s'.encReply = s.encReply →
      f s' = .next { s' with enc := t.enc, encOut := t.encOut, encReply := t.encReply }

/-- `f` writes nothing but the decoder, its output sink and its reply, and depends on those and the build alone. -/
def DecLocal (f : State → Result) : Prop :=
  ∀ s t : State, f s = .next t →
    t = { s with dec := t.dec, decOut := t.decOut, decReply := t.decReply } ∧
    ∀ s' : State, s'.build = s.build → s'.dec = s.dec → s'.decOut = s.decOut → s'.decReply = s.decReply →
      f s' = .next { s' with dec := t.dec, decOut := t.decOut, decReply := t.decReply }

theorem encCommand_local (r : Build → Enc → Except Fault (Enc × Option Reply)) :
    EncLocal fun s => encCommand s (r s.build s.enc) := by
  intro s t h
  obtain ⟨hk, e, reply, hr, rfl⟩ := encCommand_next.mp h
  refine ⟨rfl, fun s' hb he hk' _ => encCommand_next.mpr ⟨hk'.trans hk, e, reply, ?_, rfl⟩⟩
  rw [hb, he, hr]

theorem decCommand_local (r : Build → Dec → Except Fault (Dec × Option Reply)) :
    DecLocal fun s => decCommand s (r s.build s.dec) := by
  intro s t h
  obtain ⟨hk, d, reply, hr, rfl⟩ := decCommand_next.mp h
  refine ⟨rfl, fun s' hb hd hk' _ => decCommand_next.mpr ⟨hk'.trans hk, d, reply, ?_, rfl⟩⟩
  rw [hb, hd, hr]

theorem encMicroStep_local (q : EncState) (f : EncTransition) : EncLocal (encMicroStep q f) := by
  intro s t h
  obtain ⟨k, e, k', hk, hq, hf, rfl⟩ := encMicroStep_next.mp h
  refine ⟨rfl, fun s' hb he hk' hr => encMicroStep_next.mpr ⟨k, e, k', hk'.trans hk, he ▸ hq, ?_, ?_⟩⟩
  · rw [hb, he, hf]
  · simp [State.encRun, hr]

theorem decMicroStep_local (q : DecState) (f : DecTransition) : DecLocal (decMicroStep q f) := by
  intro s t h
  obtain ⟨k, d, k', hk, hq, hf, rfl⟩ := decMicroStep_next.mp h
  refine ⟨rfl, fun s' hb hd hk' hr => decMicroStep_next.mpr ⟨k, d, k', hk'.trans hk, hd ▸ hq, ?_, ?_⟩⟩
  · rw [hb, hd, hf]
  · simp [State.decRun, hr]

theorem tokenStep_local (f : Build → Dec → OutSink → Dec × OutSink) : DecLocal fun s => tokenStep (f s.build) s := by
  intro s t h
  obtain ⟨k, hk, hq, rfl⟩ := tokenStep_next.mp h
  refine ⟨rfl, fun s' hb hd hk' hr => tokenStep_next.mpr ⟨k, hk'.trans hk, hd ▸ hq, ?_⟩⟩
  simp [State.decRun, hb, hd, hr]

theorem execBackref_local (W L index count : Nat) : DecLocal (execBackref W L index count) := by
  intro s t h
  obtain ⟨hf, ht⟩ := execBackref_next.mp h
  obtain ⟨hw, hl⟩ := tokenStep_local (fun b => runBackref b index count) s t ht
  exact ⟨hw, fun s' hb hd hk hr => execBackref_next.mpr ⟨hb ▸ hf, hl s' hb hd hk hr⟩⟩

/-- The instructions of the encoder act on the encoder alone (R79). -/
theorem exec_encLocal {i : Instr} (hi : ofEncoder i = true) : EncLocal (exec i) := by
  rcases instr_cases i with ⟨q, rfl⟩ | ⟨q, rfl⟩ | (⟨input, rfl⟩ | ⟨cap, rfl⟩ | rfl | rfl) |
    (⟨input, rfl⟩ | ⟨cap, rfl⟩ | rfl | rfl) | ⟨value, rfl⟩ | ⟨W, L, index, count, hb⟩
  case inl => rw [funext (exec_encMicroStep q)]; exact encMicroStep_local q encStep
  case inr.inl => cases q <;> cases hi
  case inr.inr.inl.inl => exact encCommand_local fun b e => .ok (withReply (encSink b input e))
  case inr.inr.inl.inr.inl => exact encCommand_local fun b e => (encPoll b cap e).map withReply
  case inr.inr.inl.inr.inr.inl => exact encCommand_local fun _ e => .ok (withReply (encFinish e))
  case inr.inr.inl.inr.inr.inr => exact encCommand_local fun _ _ => .ok (.reset, none)
  case inr.inr.inr.inr.inr => rw [ofEncoder_of_bref hb] at hi; cases hi
  all_goals cases hi

/-- The instructions of the decoder act on the decoder alone (R79). -/
theorem exec_decLocal {i : Instr} (hi : ofEncoder i = false) : DecLocal (exec i) := by
  rcases instr_cases i with ⟨q, rfl⟩ | ⟨q, rfl⟩ | (⟨input, rfl⟩ | ⟨cap, rfl⟩ | rfl | rfl) |
    (⟨input, rfl⟩ | ⟨cap, rfl⟩ | rfl | rfl) | ⟨value, rfl⟩ | ⟨W, L, index, count, hb⟩
  case inl => cases q <;> cases hi
  case inr.inl => rw [funext (exec_decMicroStep q)]; exact decMicroStep_local q decStep
  case inr.inr.inr.inl.inl => exact decCommand_local fun b d => .ok (withReply (decSink b input d))
  case inr.inr.inr.inl.inr.inl => exact decCommand_local fun b d => (decPoll b cap d).map withReply
  case inr.inr.inr.inl.inr.inr.inl => exact decCommand_local fun _ d => .ok (withReply (d, decFinish d))
  case inr.inr.inr.inl.inr.inr.inr => exact decCommand_local fun _ _ => .ok (.reset, none)
  case inr.inr.inr.inr.inl => exact tokenStep_local fun b => runLiteral b value
  case inr.inr.inr.inr.inr => rw [funext (exec_of_bref hb)]; exact execBackref_local W L index count
  all_goals cases hi

/-- An action on the encoder and one on the decoder may change places. -/
theorem EncLocal.comm_dec {f g : State → Result} (hf : EncLocal f) (hg : DecLocal g) {s u t : State}
    (h₁ : f s = .next u) (h₂ : g u = .next t) : ∃ v, g s = .next v ∧ f v = .next t := by
  obtain ⟨hu, hfl⟩ := hf s u h₁
  obtain ⟨ht, hgl⟩ := hg u t h₂
  refine ⟨{ s with dec := t.dec, decOut := t.decOut, decReply := t.decReply }, ?_, ?_⟩
  · exact hgl s (by rw [hu]) (by rw [hu]) (by rw [hu]) (by rw [hu])
  · rw [ht, hu]; exact hfl _ rfl rfl rfl rfl

/-- An action on the decoder and one on the encoder may change places. -/
theorem DecLocal.comm_enc {f g : State → Result} (hf : DecLocal f) (hg : EncLocal g) {s u t : State}
    (h₁ : f s = .next u) (h₂ : g u = .next t) : ∃ v, g s = .next v ∧ f v = .next t := by
  obtain ⟨hu, hfl⟩ := hf s u h₁
  obtain ⟨ht, hgl⟩ := hg u t h₂
  refine ⟨{ s with enc := t.enc, encOut := t.encOut, encReply := t.encReply }, ?_, ?_⟩
  · exact hgl s (by rw [hu]) (by rw [hu]) (by rw [hu]) (by rw [hu])
  · rw [ht, hu]; exact hfl _ rfl rfl rfl rfl

/-! ## What stands beside the units -/

/-- No instruction writes the build, the grain or the host's queue (log 1, log 3, log 6). -/
theorem exec_frame {i : Instr} {s t : State} (h : exec i s = .next t) :
    t.build = s.build ∧ t.grain = s.grain ∧ t.pending = s.pending := by
  cases hi : ofEncoder i with
  | true => rw [(exec_encLocal hi s t h).1]; exact ⟨rfl, rfl, rfl⟩
  | false => rw [(exec_decLocal hi s t h).1]; exact ⟨rfl, rfl, rfl⟩

/-- The return of a finished poll writes the encoder's port alone. -/
theorem encAfter_frame (q : EncState) (s : State) :
    (s.encAfter q).build = s.build ∧ (s.encAfter q).grain = s.grain ∧ (s.encAfter q).pending = s.pending := by
  unfold State.encAfter
  split
  · exact ⟨rfl, rfl, rfl⟩
  · split <;> exact ⟨rfl, rfl, rfl⟩

/-- The return of a finished poll writes the decoder's port alone. -/
theorem decAfter_frame (q : DecState) (s : State) :
    (s.decAfter q).build = s.build ∧ (s.decAfter q).grain = s.grain ∧ (s.decAfter q).pending = s.pending := by
  unfold State.decAfter
  split
  · exact ⟨rfl, rfl, rfl⟩
  · split <;> exact ⟨rfl, rfl, rfl⟩

/-- A step keeps the build and the grain, and takes at most the oldest command off the queue. -/
theorem step_frame {s t : State} (h : step s = .next t) :
    t.build = s.build ∧ t.grain = s.grain ∧ (t.pending = s.pending ∨ ∃ w, s.pending = w :: t.pending) := by
  obtain ⟨-, ⟨-, -, -, rfl⟩ | ⟨k, e, k', -, -, rfl⟩ | ⟨k, d, k', -, -, -, rfl⟩ | ⟨k, i, width, d, s', -, -, -, -, -, hi, rfl⟩ |
    ⟨w, later, -, -, hp, ho | ⟨-, hx⟩⟩⟩ := step_cases h
  · exact ⟨rfl, rfl, .inl rfl⟩
  · obtain ⟨hb, hg, hq⟩ := encAfter_frame s.enc.state (s.encRun e k')
    exact ⟨hb, hg, .inl hq⟩
  · obtain ⟨hb, hg, hq⟩ := decAfter_frame s.dec.state (s.decRun d k')
    exact ⟨hb, hg, .inl hq⟩
  · obtain ⟨hb, hg, hq⟩ := exec_frame hi
    obtain ⟨hb', hg', hq'⟩ := decAfter_frame .yieldBackref s'
    exact ⟨hb'.trans hb, hg'.trans hg, .inl (hq'.trans hq)⟩
  · obtain ⟨-, cap, -, ⟨-, rfl⟩ | ⟨-, rfl⟩⟩ := opened_some ho
    all_goals exact ⟨rfl, rfl, .inr ⟨w, hp⟩⟩
  · obtain ⟨hb, hg, hq⟩ := exec_frame hx
    exact ⟨hb, hg, .inr ⟨w, by rw [hp, hq]⟩⟩

end Sys2Proof.Machine

namespace Sys2Proof.Proofs

open Sys2Proof.Machine

/-- Settles O49: an instruction writes its own unit alone, and a step adds to it the return of a poll, the opening of one
or the taking of the oldest command. -/
theorem parametersNeverChange : Obligations.ParametersNeverChange :=
  ⟨fun _ _ _ h => exec_frame h, fun _ _ h => step_frame h⟩

/-- Settles O50: every instruction is local to its unit, and local actions of different units commute. -/
theorem unitsAreIndependent : Obligations.UnitsAreIndependent := by
  refine ⟨fun i s t h => ⟨fun hi => exec_encLocal hi s t h, fun hi => exec_decLocal hi s t h⟩, ?_⟩
  intro i j s u t hne h₁ h₂
  cases hi : ofEncoder i with
  | true =>
    have hj : ofEncoder j = false := Bool.eq_false_iff.mpr fun h => hne (hi.trans h.symm)
    exact (exec_encLocal hi).comm_dec (exec_decLocal hj) h₁ h₂
  | false =>
    have hj : ofEncoder j = true := (Bool.not_eq_false _).mp fun h => hne (hi.trans h.symm)
    exact (exec_decLocal hi).comm_enc (exec_encLocal hj) h₁ h₂

end Sys2Proof.Proofs
end

section
/-! SUPPORT. Bit fields as lists of bits, the packing of a bit stream into bytes (20_memory.md R74, 30_encoding.md R96), and
what the encoder's accumulator appends to the stream (40_bit_accumulator.md R122, R124). -/

namespace Sys2Proof

/-! ## Bit fields -/

/-- A field depends on its own bits alone. -/
theorem fieldBits_congr {k v w : Nat} (h : ∀ i, i < k → v.testBit i = w.testBit i) : fieldBits k v = fieldBits k w := by
  induction k with
  | zero => rfl
  | succ k ih => rw [fieldBits, fieldBits, h k (by omega), ih fun i hi => h i (by omega)]

/-- A field is its high part followed by its low part. -/
theorem fieldBits_add (a b v : Nat) : fieldBits (a + b) v = fieldBits a (v >>> b) ++ fieldBits b v := by
  induction a with
  | zero => simp [fieldBits]
  | succ a ih => rw [Nat.succ_add, fieldBits, fieldBits, ih, Nat.testBit_shiftRight, Nat.add_comm a b]; rfl

/-- Bits above a field do not matter. -/
theorem fieldBits_mod {k j : Nat} (v : Nat) (h : k ≤ j) : fieldBits k (v % 2 ^ j) = fieldBits k v :=
  fieldBits_congr fun i hi => by simp [Nat.testBit_mod_two_pow, show i < j by omega]

theorem mod_two_pow_eq_zero_iff {n k : Nat} : n % 2 ^ k = 0 ↔ ∀ i, i < k → n.testBit i = false := by
  constructor
  · intro h i hi
    have := Nat.testBit_mod_two_pow n k i
    simpa [h, hi] using this.symm
  · intro h
    refine Nat.eq_of_testBit_eq fun i => ?_
    by_cases hi : i < k <;> simp [Nat.testBit_mod_two_pow, hi, h]

/-- Merging a low field into a number whose low bits are free puts the one after the other. -/
theorem fieldBits_or {a b high low : Nat} (hh : high % 2 ^ b = 0) (hl : low < 2 ^ b) :
    fieldBits (a + b) (high ||| low) = fieldBits a (high >>> b) ++ fieldBits b low := by
  rw [fieldBits_add]
  congr 1
  · refine fieldBits_congr fun i _ => ?_
    have : low.testBit (b + i) = false :=
      Nat.testBit_lt_two_pow (lt_of_lt_of_le hl (Nat.pow_le_pow_right (by omega) (by omega)))
    simp [Nat.testBit_shiftRight, Nat.testBit_or, this]
  · exact fieldBits_congr fun i hi => by simp [Nat.testBit_or, mod_two_pow_eq_zero_iff.mp hh i hi]

/-! ## Packing into bytes -/

/-- The eight bits of a byte pack to the byte. -/
theorem packBits_byteBits_append (v : Byte) (bits : List Bool) : packBits (byteBits v ++ bits) = v :: packBits bits := by
  have hv : bitsValue (byteBits v) = v.toNat := by
    rw [byteBits, bitsValue_fieldBits, Nat.mod_eq_of_lt v.isLt]
  have hp : packBits (byteBits v ++ bits) = BitVec.ofNat 8 (bitsValue (byteBits v)) :: packBits bits := rfl
  rw [hp, hv, BitVec.ofNat_toNat, BitVec.setWidth_eq]

/-- Whole bytes in front of a stream come out as they are. -/
theorem packBits_streamBits_append (bytes : List Byte) (bits : List Bool) :
    packBits (streamBits bytes ++ bits) = bytes ++ packBits bits := by
  induction bytes with
  | nil => rfl
  | cons v rest ih =>
    rw [streamBits, List.flatMap_cons, List.append_assoc, packBits_byteBits_append, ← streamBits, ih, List.cons_append]

/-- Fewer than eight bits, but at least one, make one byte, filled up with zeros (30_encoding.md R96). -/
theorem packBits_short (bits : List Bool) (h0 : bits ≠ []) (h8 : bits.length < 8) :
    packBits bits = [BitVec.ofNat 8 (bitsValue bits * 2 ^ (8 - bits.length))] := by
  unfold packBits
  split
  · exact absurd rfl h0
  · simp at h8; omega
  · rfl

end Sys2Proof

namespace Sys2Proof.Machine

/-! ## The encoder's accumulator -/

/-- The filled positions of `enc.current_byte`, as bits of the stream (40_bit_accumulator.md R120). -/
def accBits (e : Enc) : List Bool :=
  fieldBits e.bitIndex (e.currentByte.toNat >>> (8 - e.bitIndex))

theorem packedBits_eq (e : Enc) (k : OutSink) : packedBits e k = streamBits k.out ++ accBits e := rfl

/-- A full or partial accumulator packs to `enc.current_byte` (R125). -/
theorem packBits_accBits {e : Enc} (h : accumulatorOk e) (h0 : e.bitIndex ≠ 0) : packBits (accBits e) = [e.currentByte] := by
  obtain ⟨h8, hz⟩ := h
  by_cases hb : e.bitIndex = 8
  · have hacc : accBits e = byteBits e.currentByte ++ [] := by simp [accBits, hb, byteBits]
    rw [hacc, packBits_byteBits_append]; rfl
  · have hlen : (accBits e).length = e.bitIndex := fieldBits_length _ _
    rw [packBits_short _ (List.ne_nil_of_length_pos (by omega)) (by omega), hlen, accBits, bitsValue_fieldBits]
    have hlt : e.currentByte.toNat >>> (8 - e.bitIndex) < 2 ^ e.bitIndex := by
      rw [Nat.shiftRight_eq_div_pow]
      refine Nat.div_lt_of_lt_mul ?_
      rw [← Nat.pow_add, Nat.sub_add_cancel h8]
      exact e.currentByte.isLt
    rw [Nat.mod_eq_of_lt hlt, Nat.shiftRight_eq_div_pow, Nat.div_mul_cancel (Nat.dvd_of_mod_eq_zero hz),
      BitVec.ofNat_toNat, BitVec.setWidth_eq]

/-- `push_bits` when it emits: the byte is the accumulator with the top of the field, the rest of the field stays, left
aligned (R122). -/
theorem pushBits_emits {b : Build} {count : Nat} {bits : Byte} {e : Enc} {k : OutSink}
    (h : 8 - e.bitIndex < count ∨ (8 - e.bitIndex = count ∧ b.emitOnExactFill = true)) :
    pushBits b count bits e k =
      ({ e with
          currentByte := if count - (8 - e.bitIndex) = 0 then 0 else bits <<< (8 - (count - (8 - e.bitIndex)))
          bitIndex := count - (8 - e.bitIndex) },
        k.emit (e.currentByte ||| (bits >>> (count - (8 - e.bitIndex))))) := if_pos h

/-- `push_bits` when it only merges the field into the accumulator (R122). -/
theorem pushBits_merges {b : Build} {count : Nat} {bits : Byte} {e : Enc} {k : OutSink}
    (h : ¬ (8 - e.bitIndex < count ∨ (8 - e.bitIndex = count ∧ b.emitOnExactFill = true))) :
    pushBits b count bits e k =
      ({ e with currentByte := e.currentByte ||| (bits <<< (8 - e.bitIndex - count)), bitIndex := e.bitIndex + count }, k) :=
  if_neg h

/-- Left aligned in a byte, the low `r` bits of a field are its top bits, and the other positions are 0. -/
theorem fieldBits_leftAligned (bits : Byte) {r : Nat} (hr : r ≤ 8) :
    fieldBits r ((bits <<< (8 - r)).toNat >>> (8 - r)) = fieldBits r bits.toNat ∧
      (bits <<< (8 - r)).toNat % 2 ^ (8 - r) = 0 := by
  rw [BitVec.toNat_shiftLeft]
  refine ⟨fieldBits_congr fun i hi => ?_, mod_two_pow_eq_zero_iff.mpr fun i hi => ?_⟩
  · rw [Nat.testBit_shiftRight, Nat.testBit_mod_two_pow, Nat.testBit_shiftLeft]
    simp [show 8 - r + i < 8 by omega]
  · rw [Nat.testBit_mod_two_pow, Nat.testBit_shiftLeft]
    simp [show ¬ 8 - r ≤ i by omega]

/-- When `push_bits` emits, the byte and what stays in the accumulator are the old bits and the field (R122). -/
theorem pushBits_emits_appends {b : Build} {count : Nat} {bits : Byte} {e : Enc} (k : OutSink) (hc : count ≤ 8)
    (hb : bits.toNat < 2 ^ count) (hacc : accumulatorOk e)
    (h : 8 - e.bitIndex < count ∨ (8 - e.bitIndex = count ∧ b.emitOnExactFill = true)) :
    Appends e k (pushBits b count bits e k).1 (pushBits b count bits e k).2 (fieldBits count bits.toNat) := by
  obtain ⟨h8, hz⟩ := hacc
  rw [pushBits_emits h]
  generalize hr : count - (8 - e.bitIndex) = r
  have hcount : count = 8 - e.bitIndex + r := by omega
  obtain ⟨haligned, hzero⟩ := fieldBits_leftAligned bits (show r ≤ 8 by omega)
  have hshift : bits.toNat >>> r < 2 ^ (8 - e.bitIndex) := by
    rw [Nat.shiftRight_eq_div_pow]
    exact Nat.div_lt_of_lt_mul (by rwa [← Nat.pow_add, Nat.add_comm r, ← hcount])
  have hbyte : byteBits (e.currentByte ||| bits >>> r) = accBits e ++ fieldBits (8 - e.bitIndex) (bits.toNat >>> r) := by
    rw [accBits, byteBits, BitVec.toNat_or, BitVec.toNat_ushiftRight, ← fieldBits_or hz hshift, Nat.add_sub_cancel' h8]
  refine ⟨?_, ⟨by dsimp only; omega, ?_⟩, rfl, .inr ⟨_, rfl⟩⟩
  · have hrest : fieldBits r ((if r = 0 then (0 : Byte) else bits <<< (8 - r)).toNat >>> (8 - r)) =
        fieldBits r bits.toNat := by
      by_cases hr0 : r = 0
      · rw [hr0]; rfl
      · rw [if_neg hr0, haligned]
    rw [hcount, fieldBits_add, packedBits_eq, packedBits_eq, accBits, hrest]
    simp [hbyte, streamBits]
  · by_cases hr0 : r = 0
    · simp [hr0]
    · simp only [if_neg hr0, hzero]

/-- When `push_bits` only merges, the accumulator holds the old bits and the field (R122). -/
theorem pushBits_merges_appends {b : Build} {count : Nat} {bits : Byte} {e : Enc} (k : OutSink)
    (hb : bits.toNat < 2 ^ count) (hacc : accumulatorOk e)
    (h : ¬ (8 - e.bitIndex < count ∨ (8 - e.bitIndex = count ∧ b.emitOnExactFill = true))) :
    Appends e k (pushBits b count bits e k).1 (pushBits b count bits e k).2 (fieldBits count bits.toNat) := by
  obtain ⟨h8, hz⟩ := hacc
  rw [pushBits_merges h]
  have hfree : 8 - e.bitIndex = count + (8 - e.bitIndex - count) := by omega
  generalize hs : 8 - e.bitIndex - count = s at *
  have hs' : 8 - (e.bitIndex + count) = s := by omega
  have hlt : bits.toNat <<< s < 2 ^ 8 := by
    rw [Nat.shiftLeft_eq]
    calc bits.toNat * 2 ^ s < 2 ^ count * 2 ^ s := Nat.mul_lt_mul_of_pos_right hb (Nat.two_pow_pos s)
      _ = 2 ^ (count + s) := (Nat.pow_add ..).symm
      _ ≤ 2 ^ 8 := Nat.pow_le_pow_right (by omega) (by omega)
  have htoNat : (e.currentByte ||| bits <<< s).toNat = e.currentByte.toNat ||| bits.toNat <<< s := by
    rw [BitVec.toNat_or, BitVec.toNat_shiftLeft, Nat.mod_eq_of_lt hlt]
  have hlow := mod_two_pow_eq_zero_iff.mp hz
  refine ⟨?_, ⟨by dsimp only; omega, ?_⟩, rfl, .inl rfl⟩
  · have hmerge : (e.currentByte.toNat ||| bits.toNat <<< s) >>> s = e.currentByte.toNat >>> s ||| bits.toNat := by
      rw [Nat.shiftRight_or_distrib, Nat.shiftLeft_shiftRight]
    have hhigh : e.currentByte.toNat >>> s % 2 ^ count = 0 :=
      mod_two_pow_eq_zero_iff.mpr fun i hi => by rw [Nat.testBit_shiftRight]; exact hlow _ (by omega)
    rw [packedBits_eq, packedBits_eq, accBits, accBits]
    simp only [hs', htoNat, hmerge, fieldBits_or hhigh hb, ← Nat.shiftRight_add, List.append_assoc]
    rw [Nat.add_comm s, ← hfree]
  · dsimp only
    rw [hs', htoNat]
    refine mod_two_pow_eq_zero_iff.mpr fun i hi => ?_
    simp [Nat.testBit_or, Nat.testBit_shiftLeft, hlow i (by omega), show ¬ s ≤ i by omega]

/-- `push_bits` appends exactly the field to the stream (R122). -/
theorem pushBits_appends (b : Build) {count : Nat} {bits : Byte} {e : Enc} (k : OutSink) (hc : count ≤ 8)
    (hb : bits.toNat < 2 ^ count) (hacc : accumulatorOk e) :
    Appends e k (pushBits b count bits e k).1 (pushBits b count bits e k).2 (fieldBits count bits.toNat) := by
  by_cases h : 8 - e.bitIndex < count ∨ (8 - e.bitIndex = count ∧ b.emitOnExactFill = true)
  · exact pushBits_emits_appends k hc hb hacc h
  · exact pushBits_merges_appends k hb hacc h

/-- With the default setting `push_bits` leaves no full byte in the accumulator (10_state.md R28). -/
theorem pushBits_partial {b : Build} {count : Nat} (bits : Byte) {e : Enc} (k : OutSink) (hc : count ≤ 8)
    (hx : b.emitOnExactFill = true) (hp : e.bitIndex ≤ 7) : (pushBits b count bits e k).1.bitIndex ≤ 7 := by
  by_cases h : 8 - e.bitIndex < count ∨ (8 - e.bitIndex = count ∧ b.emitOnExactFill = true)
  · rw [pushBits_emits h]
    dsimp only
    omega
  · rw [pushBits_merges h]
    have hne : 8 - e.bitIndex ≠ count := fun heq => h (.inr ⟨heq, hx⟩)
    have hge : ¬ 8 - e.bitIndex < count := fun hlt => h (.inl hlt)
    dsimp only
    omega

/-- The bits `bits` go into the stream, the accumulator being left with the byte `w`, filled up to `i`, and the output sink
with what `k'` holds (R120, R122). -/
structure Packs (b : Build) (e : Enc) (k : OutSink) (w : Byte) (i : Nat) (k' : OutSink) (bits : List Bool) : Prop where
  appends : Appends e k { e with currentByte := w, bitIndex := i } k' bits
  stays_partial : b.emitOnExactFill = true → e.bitIndex ≤ 7 → i ≤ 7

/-- `push_bits` writes the accumulator and the output sink, and packs the field (R122). -/
theorem pushBits_packs (b : Build) {count : Nat} {bits : Byte} {e : Enc} (k : OutSink) (hc : count ≤ 8)
    (hb : bits.toNat < 2 ^ count) (hacc : accumulatorOk e) :
    ∃ w i k', pushBits b count bits e k = ({ e with currentByte := w, bitIndex := i }, k') ∧
      Packs b e k w i k' (fieldBits count bits.toNat) := by
  have happ := pushBits_appends b k hc hb hacc
  have hpart := pushBits_partial (b := b) bits k hc (e := e)
  obtain ⟨w, i, hframe⟩ := pushBits_frame b count bits e k
  rw [hframe] at happ hpart
  exact ⟨w, i, _, Prod.ext hframe rfl, happ, hpart⟩

/-- The bits that the encoder still has to drain: the low `enc.outgoing_bits_count` bits of `enc.outgoing_bits`
(10_state.md R26). -/
def outgoing (e : Enc) : List Bool :=
  fieldBits e.outgoingBitsCount e.outgoingBits.toNat

/-- `push_outgoing_bits` with bits pending packs the first of them, up to 8; the others stay pending (R124). -/
theorem pushOutgoingBits_packs (b : Build) {e : Enc} (k : OutSink) (hacc : accumulatorOk e) (h : 0 < e.outgoingBitsCount) :
    ∃ w i k' bits, pushOutgoingBits b e k =
        ({ e with currentByte := w, bitIndex := i, outgoingBitsCount := e.outgoingBitsCount - min e.outgoingBitsCount 8 },
          k', min e.outgoingBitsCount 8) ∧
      Packs b e k w i k' bits ∧
      bits ++ fieldBits (e.outgoingBitsCount - min e.outgoingBitsCount 8) e.outgoingBits.toNat = outgoing e := by
  have hp : outgoingPiece e = min e.outgoingBitsCount 8 := by unfold outgoingPiece; split <;> omega
  have hpos : 0 < outgoingPiece e := by omega
  rw [pushOutgoingBits, if_pos hpos, hp]
  generalize hn : min e.outgoingBitsCount 8 = n
  generalize hm : e.outgoingBitsCount - n = m
  have hbits : (BitVec.ofNat 8 (bitField e.outgoingBits.toNat m n)).toNat = (e.outgoingBits.toNat >>> m) % 2 ^ n := by
    rw [BitVec.toNat_ofNat, bitField]
    exact Nat.mod_eq_of_lt (lt_of_lt_of_le (Nat.mod_lt _ (Nat.two_pow_pos n)) (Nat.pow_le_pow_right (by omega) (by omega)))
  obtain ⟨w, i, k', hpush, hpacks⟩ := pushBits_packs b (bits := BitVec.ofNat 8 (bitField e.outgoingBits.toNat m n)) k
    (show n ≤ 8 by omega) (by rw [hbits]; exact Nat.mod_lt _ (Nat.two_pow_pos n)) hacc
  dsimp only
  rw [hpush]
  refine ⟨w, i, k', _, rfl, hpacks, ?_⟩
  rw [hbits, fieldBits_mod _ (Nat.le_refl n), ← fieldBits_add, outgoing]
  congr 1
  omega

end Sys2Proof.Machine
end

section
/-! SUPPORT. The match finder (41_match_finder.md): both strategies and the greedy parse look for the longest run and, among
equals, the nearest; that determines the answer (R142, R150). -/

namespace Sys2Proof.Machine

/-! ## The common run (R141) -/

theorem mlen_le (m : Memory) (pos fin n : Nat) : mlen m pos fin n ≤ n := by
  induction n generalizing pos fin with
  | zero => exact Nat.le_refl 0
  | succ n ih =>
    rw [mlen]
    split
    · exact Nat.succ_le_succ (ih _ _)
    · omega

/-- The common run ends where the bytes differ. -/
theorem mlen_le_of_ne {m : Memory} {pos fin : Nat} (n : Nat) {i : Nat} (h : m.read (pos + i) ≠ m.read (fin + i)) :
    mlen m pos fin n ≤ i := by
  induction n generalizing pos fin i with
  | zero => exact Nat.zero_le i
  | succ n ih =>
    rw [mlen]
    cases i with
    | zero => exact Nat.le_of_eq (if_neg h)
    | succ i =>
      split
      · refine Nat.succ_le_succ (ih ?_)
        rwa [Nat.add_right_comm pos, Nat.add_right_comm fin]
      · omega

/-! ## The longest, and among equals the nearest -/

/-- Of the candidates at the distances 1, …, `n`, whose runs have the lengths `f`, the longest run has the length `len`, and
if there is one at all, `d` is the least distance that has it (R142). -/
structure LongestNearest (f : Nat → Nat) (n len d : Nat) : Prop where
  longest : ∀ c, 1 ≤ c → c ≤ n → f c ≤ len
  attained : 0 < len → 1 ≤ d ∧ d ≤ n ∧ f d = len
  nearest : 0 < len → ∀ c, 1 ≤ c → c < d → f c < len

/-- The answer to a search: a match if the longest run is above the break-even (R140, R144). -/
def acceptRun (breakEven len d : Nat) : Option Match :=
  if breakEven < len then some { distance := d, length := len } else none

theorem Best.accept_eq (c : Best) (breakEven fin : Nat) :
    c.accept breakEven fin = acceptRun breakEven c.length (fin - c.pos) := rfl

namespace LongestNearest

variable {f g : Nat → Nat} {n n' len len' d d' : Nat}

theorem zero (f : Nat → Nat) (d : Nat) : LongestNearest f 0 0 d :=
  ⟨fun _ _ _ => by omega, fun h => by omega, fun h => by omega⟩

theorem congr (h : LongestNearest f n len d) (hfg : ∀ c, 1 ≤ c → c ≤ n → f c = g c) : LongestNearest g n len d := by
  refine ⟨fun c h1 hn => hfg c h1 hn ▸ h.longest c h1 hn, fun h0 => ?_, fun h0 c h1 hc => ?_⟩
  · obtain ⟨hd, hdn, hf⟩ := h.attained h0
    exact ⟨hd, hdn, hfg d hd hdn ▸ hf⟩
  · obtain ⟨-, hdn, -⟩ := h.attained h0
    exact hfg c h1 (by omega) ▸ h.nearest h0 c h1 hc

/-- Further candidates that are no longer change nothing. -/
theorem extend (h : LongestNearest f n len d) (hn : n ≤ n') (hle : ∀ c, n < c → c ≤ n' → f c ≤ len) :
    LongestNearest f n' len d := by
  refine ⟨fun c h1 hc => ?_, fun h0 => ?_, h.nearest⟩
  · by_cases hcn : c ≤ n
    · exact h.longest c h1 hcn
    · exact hle c (by omega) hc
  · obtain ⟨hd, hdn, hf⟩ := h.attained h0
    exact ⟨hd, by omega, hf⟩

/-- The next candidate is longer than all before it: it is the new longest. -/
theorem replace (h : LongestNearest f n len d) (hlt : len < f (n + 1)) : LongestNearest f (n + 1) (f (n + 1)) (n + 1) := by
  refine ⟨fun c h1 hc => ?_, fun _ => ⟨by omega, Nat.le_refl _, rfl⟩, fun _ c h1 hc => ?_⟩
  · by_cases hcn : c = n + 1
    · rw [hcn]
    · exact Nat.le_of_lt (Nat.lt_of_le_of_lt (h.longest c h1 (by omega)) hlt)
  · exact Nat.lt_of_le_of_lt (h.longest c h1 (by omega)) hlt

/-- The answer to a search is determined. -/
theorem acceptRun_eq (h : LongestNearest f n len d) (h' : LongestNearest f n len' d') (breakEven : Nat) :
    acceptRun breakEven len d = acceptRun breakEven len' d' := by
  have hle {l l' e e' : Nat} (h : LongestNearest f n l e) (h' : LongestNearest f n l' e') : l ≤ l' := by
    rcases Nat.eq_zero_or_pos l with h0 | h0
    · omega
    · obtain ⟨hd, hdn, hf⟩ := h.attained h0
      exact hf ▸ h'.longest _ hd hdn
  obtain rfl : len = len' := Nat.le_antisymm (hle h h') (hle h' h)
  unfold acceptRun
  split
  · next hb =>
    obtain ⟨hd, -, hf⟩ := h.attained (by omega)
    obtain ⟨hd', -, hf'⟩ := h'.attained (by omega)
    have h1 : ¬ d < d' := fun hlt => by have := h'.nearest (by omega) d hd hlt; omega
    have h2 : ¬ d' < d := fun hlt => by have := h.nearest (by omega) d' hd' hlt; omega
    rw [show d = d' by omega]
  · rfl

end LongestNearest

/-! ## Visiting a candidate -/

/-- The candidate at `pos` is no longer than the best one so far, which stays. -/
theorem LongestNearest.keep {m : Memory} {fin maxLen n pos : Nat} {best : Best} (hn : n + 1 = fin - pos)
    (h : LongestNearest (fun c => mlen m (fin - c) fin maxLen) n best.length (fin - best.pos))
    (hle : mlen m pos fin maxLen ≤ best.length) :
    LongestNearest (fun c => mlen m (fin - c) fin maxLen) (fin - pos) best.length (fin - best.pos) :=
  h.extend (by omega) fun c h1 h2 => by rw [show fin - c = pos by omega]; exact hle

/-- The candidate at `pos` is longer than the best one so far, which it replaces. -/
theorem LongestNearest.take {m : Memory} {fin maxLen n pos : Nat} {best : Best} (hn : n + 1 = fin - pos)
    (h : LongestNearest (fun c => mlen m (fin - c) fin maxLen) n best.length (fin - best.pos))
    (hlt : best.length < mlen m pos fin maxLen) :
    LongestNearest (fun c => mlen m (fin - c) fin maxLen) (fin - pos) (mlen m pos fin maxLen) (fin - pos) := by
  have hback : fin - (n + 1) = pos := by omega
  have := h.replace (by rwa [hback])
  rwa [hback, hn] at this

/-! ## Brute force (R145) -/

/-- The backward scan keeps the longest and nearest candidate; its pre-checks skip only candidates that are no longer, and
it stops early only when nothing can be longer. -/
theorem bruteScan_longestNearest (m : Memory) {start fin : Nat} (maxLen : Nat) (hs : start ≤ fin) {n : Nat}
    (hn : n ≤ fin - start) {best : Best}
    (h : LongestNearest (fun c => mlen m (fin - c) fin maxLen) (fin - start - n) best.length (fin - best.pos)) :
    let r := bruteScan m start fin maxLen n best
    LongestNearest (fun c => mlen m (fin - c) fin maxLen) (fin - start) r.length (fin - r.pos) := by
  induction n generalizing best with
  | zero => exact h
  | succ n ih =>
    have hd : fin - (start + n) = fin - start - n := by omega
    have hskip := h.keep (pos := start + n) (by omega)
    have htake := h.take (pos := start + n) (by omega)
    rw [hd] at hskip
    rw (occs := .pos [1]) [hd] at htake
    simp only [bruteScan]
    split
    · split
      · next hlt =>
        split
        · next hmax => exact (htake hlt).extend (by omega) fun c _ _ => by rw [hmax]; exact mlen_le ..
        · exact ih (by omega) (htake hlt)
      · next hle => exact ih (by omega) (hskip (by omega))
    · next hpre =>
      refine ih (by omega) (hskip ?_)
      by_cases h0 : m.read (start + n) = m.read fin
      · exact mlen_le_of_ne maxLen fun hb => hpre ⟨hb, h0⟩
      · exact Nat.le_trans (mlen_le_of_ne (i := 0) maxLen h0) (Nat.zero_le _)

theorem bruteForce_eq (breakEven : Nat) (m : Memory) {start fin maxLen len d : Nat} (hs : start ≤ fin)
    (h : LongestNearest (fun c => mlen m (fin - c) fin maxLen) (fin - start) len d) :
    bruteForce breakEven m start fin maxLen = acceptRun breakEven len d := by
  rw [bruteForce, Best.accept_eq]
  refine (bruteScan_longestNearest m maxLen hs (Nat.le_refl _) ?_).acceptRun_eq h breakEven
  rw [Nat.sub_self]
  exact .zero _ _

/-! ## The occurrence index (R146) -/

/-- `p` is the greatest address below `hi` that holds the byte `v`, or nothing if there is none. -/
def PreviousWith (m : Memory) (v : Byte) (hi : Nat) : Option Nat → Prop
  | none => ∀ j, j < hi → m.read j ≠ v
  | some p => p < hi ∧ m.read p = v ∧ ∀ j, p < j → j < hi → m.read j ≠ v

theorem indexEntryCorrect_iff (m : Memory) (index : IndexMemory) (i : Nat) :
    indexEntryCorrect m index i ↔ PreviousWith m (m.read i) i (index.read i) := by
  unfold indexEntryCorrect
  cases index.read i <;> exact Iff.rfl

/-- Between the previous address and the bound no cell holds the byte. -/
theorem PreviousWith.ne_of_above {m : Memory} {v : Byte} {hi : Nat} {p : Option Nat} (h : PreviousWith m v hi p) {j : Nat}
    (hj : j < hi) (hp : ∀ a, p = some a → a < j) : m.read j ≠ v := by
  cases p with
  | none => exact h j hj
  | some a => exact h.2.2 j (hp a rfl) hj

/-- The scratch table of the most recent positions, moved on by one address. -/
theorem PreviousWith.next {m : Memory} {v : Byte} {i : Nat} {p : Option Nat} (h : PreviousWith m v i p) :
    PreviousWith m v (i + 1) (if v = m.read i then some i else p) := by
  split
  · next hv => exact ⟨by omega, hv.symm, fun j _ _ => by omega⟩
  · next hv =>
    cases p with
    | none => exact fun j hj => if hji : j = i then hji ▸ Ne.symm hv else h j (by omega)
    | some a =>
      obtain ⟨hai, hav, habove⟩ := h
      exact ⟨by omega, hav, fun j h1 h2 => if hji : j = i then hji ▸ Ne.symm hv else habove j h1 (by omega)⟩

/-- The loop of `do_indexing` writes the entries it runs over, each with the previous address of the same byte, and no
other. -/
theorem indexFrom_read (m : Memory) (n : Nat) {i : Nat} {index last : IndexMemory} (hi : index.wf = true)
    (hl : last.wf = true) (hlast : ∀ v : Byte, PreviousWith m v i (last.read v.toNat)) :
    (∀ a, a < i ∨ i + n ≤ a → (indexFrom m i n index last).read a = index.read a) ∧
    ∀ a, i ≤ a → a < i + n → PreviousWith m (m.read a) a ((indexFrom m i n index last).read a) := by
  induction n generalizing i index last with
  | zero => exact ⟨fun _ _ => rfl, fun a h1 h2 => by omega⟩
  | succ n ih =>
    have hlast' (v : Byte) : PreviousWith m v (i + 1) ((last.write (m.read i).toNat (some i)).read v.toNat) := by
      simp only [IndexMemory.read_write _ _ _ _ hl, ← BitVec.toNat_eq]
      exact (hlast v).next
    obtain ⟨hout, hin⟩ := ih (IndexMemory.wf_write index i (last.read (m.read i).toNat) hi)
      (IndexMemory.wf_write last (m.read i).toNat (some i) hl) hlast'
    simp only [indexFrom]
    refine ⟨fun a ha => ?_, fun a h1 h2 => ?_⟩
    · rw [hout a (by omega), IndexMemory.read_write _ _ _ _ hi, if_neg (by omega)]
    · by_cases hai : a = i
      · rw [hout a (by omega), IndexMemory.read_write _ _ _ _ hi, if_pos hai, hai]
        exact hlast (m.read i)
      · exact hin a (by omega) (by omega)

/-- After `do_indexing` every entry below the limit is correct (R146). -/
theorem doIndexing_correct (m : Memory) {limit i : Nat} {index : IndexMemory} (hw : index.wf = true) (hi : i < limit) :
    indexEntryCorrect m (doIndexing m limit index) i := by
  rw [indexEntryCorrect_iff]
  exact (indexFrom_read m limit hw rfl fun v j hj => by omega).2 i (Nat.zero_le i) (by omega)

/-! ## The walk along the chain (R147) -/

/-- The walk visits, from the nearest on, every candidate with the same first byte, and so keeps the longest and nearest
candidate. -/
theorem chainWalk_longestNearest {m : Memory} {index : IndexMemory} {start fin : Nat} (maxLen : Nat)
    (hindex : ∀ i, i < fin → PreviousWith m (m.read i) i (index.read i)) (fuel : Nat) {hi : Nat} {p : Option Nat} {best : Best}
    (hsh : start ≤ hi) (hhf : hi ≤ fin) (hfuel : hi ≤ start + fuel) (hp : PreviousWith m (m.read fin) hi p)
    (h : LongestNearest (fun c => mlen m (fin - c) fin maxLen) (fin - hi) best.length (fin - best.pos)) :
    let r := chainWalk m index start fin maxLen fuel p best
    LongestNearest (fun c => mlen m (fin - c) fin maxLen) (fin - start) r.length (fin - r.pos) := by
  induction fuel generalizing hi p best with
  | zero =>
    obtain rfl : hi = start := by omega
    cases p <;> exact h
  | succ fuel ih =>
    have hskip {n : Nat} (hn : fin - hi ≤ n) (hnf : n ≤ fin) (hall : ∀ a, p = some a → a < fin - n) :
        LongestNearest (fun c => mlen m (fin - c) fin maxLen) n best.length (fin - best.pos) := by
      refine h.extend hn fun c h1 h2 => ?_
      refine Nat.le_trans (mlen_le_of_ne (i := 0) maxLen ?_) (Nat.zero_le _)
      exact hp.ne_of_above (by omega) fun a ha => by have := hall a ha; omega
    cases p with
    | none => exact hskip (by omega) (by omega) (fun _ ha => nomatch ha)
    | some pos =>
      obtain ⟨hpos, hsame, -⟩ := hp
      simp only [chainWalk]
      split
      · next hlt => exact hskip (by omega) (by omega) fun a ha => by cases ha; omega
      · next hge =>
        have hbefore := hskip (n := fin - pos - 1) (by omega) (by omega) fun a ha => by cases ha; omega
        have hkeep := hbefore.keep (pos := pos) (by omega)
        have htake := hbefore.take (pos := pos) (by omega)
        have hnext : PreviousWith m (m.read fin) pos (index.read pos) := hsame ▸ hindex pos (by omega)
        split
        · split
          · next hlt =>
            split
            · next hmax => exact (htake hlt).extend (by omega) fun c _ _ => by rw [hmax]; exact mlen_le ..
            · exact ih (by omega) (by omega) (by omega) hnext (htake hlt)
          · next hle => exact ih (by omega) (by omega) (by omega) hnext (hkeep (by omega))
        · next hne => exact ih (by omega) (by omega) (by omega) hnext (hkeep (mlen_le_of_ne maxLen hne))

theorem indexedSearch_eq (breakEven : Nat) {m : Memory} {index : IndexMemory} {start fin maxLen len d : Nat}
    (hs : start ≤ fin) (hindex : ∀ i, i ≤ fin → indexEntryCorrect m index i)
    (h : LongestNearest (fun c => mlen m (fin - c) fin maxLen) (fin - start) len d) :
    indexedSearch breakEven m index start fin maxLen = acceptRun breakEven len d := by
  have hentry (i : Nat) (hi : i ≤ fin) := (indexEntryCorrect_iff m index i).mp (hindex i hi)
  rw [indexedSearch, Best.accept_eq]
  refine (chainWalk_longestNearest maxLen (fun i hi => hentry i (by omega)) (fin - start) hs (Nat.le_refl _) (by omega)
    (hentry fin (Nat.le_refl _)) ?_).acceptRun_eq h breakEven
  rw [Nat.sub_self]
  exact .zero _ _

/-- Whichever strategy the build has, the finder answers with the longest and nearest run (R150). -/
theorem searchMatch_eq {b : Build} {m : Memory} {index : IndexMemory} {start fin maxLen len d : Nat} (hs : start ≤ fin)
    (hindex : b.indexed = true → ∀ i, i ≤ fin → indexEntryCorrect m index i)
    (h : LongestNearest (fun c => mlen m (fin - c) fin maxLen) (fin - start) len d) :
    searchMatch b m index start fin maxLen = acceptRun b.breakEven len d := by
  unfold searchMatch
  split
  · next hi => exact indexedSearch_eq b.breakEven hs (hindex hi) h
  · exact bruteForce_eq b.breakEven m hs h

end Sys2Proof.Machine
end

section
/-! SUPPORT. What one micro-step of the encoder can do, said once (42_encoder_fsm.md R160 to R171). -/

namespace Sys2Proof

/-! ## The parameters of a legal build (00_scope.md R8) -/

theorem Build.legal_bounds {b : Build} (h : b.legal = true) :
    4 ≤ b.windowBits ∧ b.windowBits ≤ 15 ∧ 3 ≤ b.lookaheadBits ∧ b.lookaheadBits ≤ 8 ∧ b.lookaheadBits < b.windowBits ∧
      1 ≤ b.stagingSize := by
  simp only [Build.legal, Bool.and_eq_true, decide_eq_true_eq] at h
  omega

theorem Build.lookahead_lt_window {b : Build} (h : b.legal = true) : b.lookahead < b.window := by
  obtain ⟨-, -, -, -, hLW, -⟩ := Build.legal_bounds h
  exact Nat.pow_lt_pow_right (by omega) hLW

theorem Build.lookahead_pos (b : Build) : 0 < b.lookahead := Nat.two_pow_pos _

end Sys2Proof

namespace Sys2Proof.Machine

/-! ## The moves -/

/-- What the finder answers in `Search`: the window before the scan position is searched for the bytes after it (R163). -/
def searchResult (b : Build) (e : Enc) : Option Match :=
  searchMatch b e.buffer e.index e.matchScanIndex (b.window + e.matchScanIndex)
    (min b.lookahead (e.inputSize - e.matchScanIndex))

theorem afterSearch_state (e : Enc) (r : Option Match) : (afterSearch e r).state = .yieldTagBit := by
  cases r <;> rfl

theorem afterSearch_flags (e : Enc) (r : Option Match) : (afterSearch e r).flags = e.flags := by
  cases r <;> rfl

theorem packedBits_afterSearch (e : Enc) (r : Option Match) (k : OutSink) : packedBits (afterSearch e r) k = packedBits e k := by
  cases r <;> rfl

/-- The moves of the encoder inside a poll, each under the name of what it does, with the state it starts in. -/
inductive EncMove (b : Build) (e : Enc) (k : OutSink) : Enc → OutSink → Prop where
  /-- `NotFull` and `Done` have no effect (R161, R170). -/
  | rest (at_state : e.state = .notFull ∨ e.state = .done) : EncMove b e k e k
  /-- An emitting state waits for room (R164 to R167, R169). -/
  | blocked (full : k.cap ≤ k.produced)
      (at_state : e.state = .yieldTagBit ∨ e.state = .yieldLiteral ∨ e.state = .yieldBrIndex ∨ e.state = .yieldBrLength ∨
        e.state = .flushBits) : EncMove b e k e k
  /-- The index is built, if the build has one, and the pass begins (R162). -/
  | buildIndex (at_state : e.state = .filled) :
      EncMove b e k { e with
        index := if b.indexed = true then doIndexing e.buffer (b.window + e.inputSize) e.index else e.index
        state := .search } k
  /-- Too little lookahead is left for a search (R163). -/
  | leave (at_state : e.state = .search) (short : e.inputSize < e.matchScanIndex + neededLookahead b e) :
      EncMove b e k { e with state := if e.finishing then .flushBits else .saveBacklog } k
  /-- The finder is asked and its answer recorded (R163). -/
  | search (at_state : e.state = .search) (enough : e.matchScanIndex + neededLookahead b e ≤ e.inputSize) :
      EncMove b e k (afterSearch e (searchResult b e)) k
  /-- The tag bit of a literal goes out (R164). -/
  | literalTag {w : Byte} {i : Nat} {k' : OutSink} (at_state : e.state = .yieldTagBit) (room : k.produced < k.cap)
      (no_match : e.matchLength = 0) (packs : Packs b e k w i k' [true]) :
      EncMove b e k { e with currentByte := w, bitIndex := i, state := .yieldLiteral } k'
  /-- The tag bit of a backreference goes out, and the distance is loaded (R164). -/
  | backrefTag {w : Byte} {i : Nat} {k' : OutSink} (at_state : e.state = .yieldTagBit) (room : k.produced < k.cap)
      (found : e.matchLength ≠ 0) (packs : Packs b e k w i k' [false]) :
      EncMove b e k { e with
        currentByte := w, bitIndex := i, outgoingBits := BitVec.ofNat 16 (fieldOfOperand e.matchPos)
        outgoingBitsCount := b.windowBits, state := .yieldBrIndex } k'
  /-- The literal byte goes out (R165). -/
  | literal {w : Byte} {i : Nat} {k' : OutSink} (at_state : e.state = .yieldLiteral) (room : k.produced < k.cap)
      (packs : Packs b e k w i k' (byteBits (e.buffer.read (literalAddress b e)))) :
      EncMove b e k { e with currentByte := w, bitIndex := i, state := .search } k'
  /-- The first of the pending field bits go out (R166, R167). -/
  | drain {w : Byte} {i : Nat} {k' : OutSink} {bits : List Bool}
      (at_state : e.state = .yieldBrIndex ∨ e.state = .yieldBrLength) (room : k.produced < k.cap)
      (pending : 0 < e.outgoingBitsCount) (packs : Packs b e k w i k' bits)
      (split : bits ++ fieldBits (e.outgoingBitsCount - min e.outgoingBitsCount 8) e.outgoingBits.toNat = outgoing e) :
      EncMove b e k { e with
        currentByte := w, bitIndex := i, outgoingBitsCount := e.outgoingBitsCount - min e.outgoingBitsCount 8 } k'
  /-- The distance is out, and the length is loaded (R166). -/
  | loadLength (at_state : e.state = .yieldBrIndex) (drained : e.outgoingBitsCount = 0) :
      EncMove b e k { e with
        outgoingBits := BitVec.ofNat 16 (fieldOfOperand e.matchLength), outgoingBitsCount := b.lookaheadBits
        state := .yieldBrLength } k
  /-- The length is out, and the scan position moves past the match (R167). -/
  | passMatch (at_state : e.state = .yieldBrLength) (drained : e.outgoingBitsCount = 0) :
      EncMove b e k { e with matchScanIndex := e.matchScanIndex + e.matchLength, matchLength := 0, state := .search } k
  /-- The tail of the buffer is moved down, to make room for input (R168). -/
  | shift (at_state : e.state = .saveBacklog) : EncMove b e k { saveBacklog b e with state := .notFull } k
  /-- There is no partial byte to flush (R169). -/
  | flushNothing (at_state : e.state = .flushBits) (nothing : e.bitIndex = 0) : EncMove b e k { e with state := .done } k
  /-- The partial byte is flushed (R169). -/
  | flushByte (at_state : e.state = .flushBits) (some_bits : e.bitIndex ≠ 0) (room : k.produced < k.cap) :
      EncMove b e k { e with state := .done } (k.emit e.currentByte)

/-- `NotFull` and `Done` are left by no move (R161, R170). -/
theorem EncMove.from_rest {b : Build} {e e' : Enc} {k k' : OutSink} (hm : EncMove b e k e' k')
    (hq : e.state = .notFull ∨ e.state = .done) : e' = e ∧ k' = k := by
  cases hm with
  | rest | blocked => exact ⟨rfl, rfl⟩
  | drain h => rcases h with h | h <;> simp [h] at hq
  | buildIndex h | leave h | search h | literalTag h | backrefTag h | literal h => simp [h] at hq
  | loadLength h | passMatch h | shift h | flushNothing h | flushByte h => simp [h] at hq

theorem EncInv.accumulatorOk {b : Build} {e : Enc} (h : EncInv b e) : accumulatorOk e := ⟨h.filled_le, h.unfilled_zero⟩

theorem neededLookahead_pos (b : Build) (e : Enc) : 1 ≤ neededLookahead b e := by
  unfold neededLookahead
  split
  · exact Nat.le_refl 1
  · exact b.lookahead_pos

/-! ## Every micro-step completes with a move -/

section
variable {b : Build} {e : Enc}

/-- The transition `f` completes, and with a move. -/
def Moves (b : Build) (e : Enc) (k : OutSink) (f : EncTransition) : Prop :=
  ∃ e' k', f b e k = .ok (e', k') ∧ EncMove b e k e' k'

theorem filledStep_moves (hi : EncInv b e) (k : OutSink) (hq : e.state = .filled) : Moves b e k filledStep := by
  refine ⟨_, _, ?_, .buildIndex hq⟩
  by_cases hx : b.indexed = true
  · have hspace : b.window + e.inputSize ≤ b.spaceSize .encIdx := by
      have := hi.size_le_window
      simp only [Build.spaceSize, hx, if_true]
      omega
    simp only [filledStep, checkSpace_ok hspace, hx, if_true]
  · simp only [filledStep, if_neg hx]

theorem searchStep_moves (hi : EncInv b e) (k : OutSink) (hq : e.state = .search) : Moves b e k searchStep := by
  by_cases hs : e.inputSize < e.matchScanIndex + neededLookahead b e
  · exact ⟨_, _, if_pos hs, .leave hq hs⟩
  · refine ⟨_, _, ?_, .search hq (Nat.le_of_not_lt hs)⟩
    have hspace : b.window + e.matchScanIndex + min b.lookahead (e.inputSize - e.matchScanIndex) ≤ b.spaceSize .encBuf := by
      have := hi.size_le_window
      have := hi.scan_le_size
      simp only [Build.spaceSize]
      omega
    rw [searchStep, if_neg hs]
    simp only [checkSpace_ok hspace, Nat.add_sub_cancel_left]
    rfl

/-- The states that emit do nothing without room (R164 to R167, R169). -/
theorem emitting_blocked {k : OutSink} {f : EncTransition} (hk : ¬ k.produced < k.cap)
    (hq : e.state = .yieldTagBit ∨ e.state = .yieldLiteral ∨ e.state = .yieldBrIndex ∨ e.state = .yieldBrLength ∨
      e.state = .flushBits) (hf : f b e k = .ok (e, k)) : Moves b e k f :=
  ⟨e, k, hf, .blocked (Nat.le_of_not_lt hk) hq⟩

theorem canTakeByte_false {k : OutSink} (hk : ¬ k.produced < k.cap) : k.canTakeByte = false :=
  Bool.eq_false_iff.mpr fun h => hk (k.canTakeByte_iff.mp h)

theorem yieldTagBitStep_moves (hi : EncInv b e) (k : OutSink) (hq : e.state = .yieldTagBit) :
    Moves b e k yieldTagBitStep := by
  by_cases hk : k.produced < k.cap
  · by_cases hm : e.matchLength = 0
    · obtain ⟨w, i, k', hpush, hpacks⟩ := pushBits_packs b (count := 1) (bits := 1) k (by omega) (by decide) hi.accumulatorOk
      refine ⟨_, _, ?_, .literalTag hq hk hm hpacks⟩
      simp only [yieldTagBitStep, k.canTakeByte_iff.mpr hk, hm, hpush, if_true]
    · obtain ⟨w, i, k', hpush, hpacks⟩ := pushBits_packs b (count := 1) (bits := 0) k (by omega) (by decide) hi.accumulatorOk
      refine ⟨_, _, ?_, .backrefTag hq hk hm hpacks⟩
      simp only [yieldTagBitStep, k.canTakeByte_iff.mpr hk, if_neg hm, hpush, if_true]
  · exact emitting_blocked hk (.inl hq) (by simp [yieldTagBitStep, canTakeByte_false hk])

theorem yieldLiteralStep_moves (hi : EncInv b e) (k : OutSink) (hq : e.state = .yieldLiteral) :
    Moves b e k yieldLiteralStep := by
  by_cases hk : k.produced < k.cap
  · obtain ⟨w, i, k', hpush, hpacks⟩ := pushBits_packs b (count := 8) (bits := e.buffer.read (literalAddress b e)) k
      (Nat.le_refl 8) (BitVec.isLt _) hi.accumulatorOk
    have hspace : literalAddress b e + 1 ≤ b.spaceSize .encBuf := by
      have := hi.size_le_window
      have := hi.scan_le_size
      have := (hi.literal_behind_scan hq).1
      simp only [literalAddress, Build.spaceSize]
      omega
    refine ⟨_, _, ?_, .literal hq hk hpacks⟩
    simp [yieldLiteralStep, k.canTakeByte_iff.mpr hk, checkSpace_ok hspace, hpush]
  · exact emitting_blocked hk (.inr (.inl hq)) (by simp [yieldLiteralStep, canTakeByte_false hk])

theorem yieldBrIndexStep_moves (hi : EncInv b e) (k : OutSink) (hq : e.state = .yieldBrIndex) :
    Moves b e k yieldBrIndexStep := by
  by_cases hk : k.produced < k.cap
  · rcases Nat.eq_zero_or_pos e.outgoingBitsCount with h0 | hpos
    · refine ⟨_, _, ?_, .loadLength hq h0⟩
      simp [yieldBrIndexStep, k.canTakeByte_iff.mpr hk, pushOutgoingBits_none b e k h0]
    · obtain ⟨w, i, k', bits, hpush, hpacks, hsplit⟩ := pushOutgoingBits_packs b k hi.accumulatorOk hpos
      refine ⟨_, _, ?_, .drain (.inl hq) hk hpos hpacks hsplit⟩
      simp [yieldBrIndexStep, k.canTakeByte_iff.mpr hk, hpush, hpos]
  · exact emitting_blocked hk (.inr (.inr (.inl hq))) (by simp [yieldBrIndexStep, canTakeByte_false hk])

theorem yieldBrLengthStep_moves (hi : EncInv b e) (k : OutSink) (hq : e.state = .yieldBrLength) :
    Moves b e k yieldBrLengthStep := by
  by_cases hk : k.produced < k.cap
  · rcases Nat.eq_zero_or_pos e.outgoingBitsCount with h0 | hpos
    · refine ⟨_, _, ?_, .passMatch hq h0⟩
      simp [yieldBrLengthStep, k.canTakeByte_iff.mpr hk, pushOutgoingBits_none b e k h0]
    · obtain ⟨w, i, k', bits, hpush, hpacks, hsplit⟩ := pushOutgoingBits_packs b k hi.accumulatorOk hpos
      refine ⟨_, _, ?_, .drain (.inr hq) hk hpos hpacks hsplit⟩
      simp [yieldBrLengthStep, k.canTakeByte_iff.mpr hk, hpush, hpos]
  · exact emitting_blocked hk (.inr (.inr (.inr (.inl hq)))) (by simp [yieldBrLengthStep, canTakeByte_false hk])

theorem flushBitsStep_moves (k : OutSink) (hq : e.state = .flushBits) : Moves b e k flushBitsStep := by
  by_cases h0 : e.bitIndex = 0
  · exact ⟨_, _, if_pos h0, .flushNothing hq h0⟩
  · by_cases hk : k.produced < k.cap
    · refine ⟨_, _, ?_, .flushByte hq h0 hk⟩
      simp [flushBitsStep, h0, k.canTakeByte_iff.mpr hk]
    · exact emitting_blocked hk (.inr (.inr (.inr (.inr hq)))) (by simp [flushBitsStep, h0, canTakeByte_false hk])

/-- From every state that meets the invariant the micro-step completes, and it is one of the moves (R160). -/
theorem encStep_moves (hi : EncInv b e) (k : OutSink) : Moves b e k encStep := by
  have hmove {f : EncTransition} (hf : encStep b e k = f b e k) (h : Moves b e k f) : Moves b e k encStep := by
    obtain ⟨e', k', hok, hm⟩ := h
    exact ⟨e', k', hf.trans hok, hm⟩
  cases hq : e.state with
  | notFull => exact ⟨e, k, by rw [encStep, hq]; rfl, .rest (.inl hq)⟩
  | filled => exact hmove (by rw [encStep, hq]) (filledStep_moves hi k hq)
  | search => exact hmove (by rw [encStep, hq]) (searchStep_moves hi k hq)
  | yieldTagBit => exact hmove (by rw [encStep, hq]) (yieldTagBitStep_moves hi k hq)
  | yieldLiteral => exact hmove (by rw [encStep, hq]) (yieldLiteralStep_moves hi k hq)
  | yieldBrIndex => exact hmove (by rw [encStep, hq]) (yieldBrIndexStep_moves hi k hq)
  | yieldBrLength => exact hmove (by rw [encStep, hq]) (yieldBrLengthStep_moves hi k hq)
  | saveBacklog => exact ⟨_, _, by rw [encStep, hq]; rfl, .shift hq⟩
  | flushBits => exact hmove (by rw [encStep, hq]) (flushBitsStep_moves k hq)
  | done => exact ⟨e, k, by rw [encStep, hq]; rfl, .rest (.inr hq)⟩

end

end Sys2Proof.Machine
end

section
/-! SUPPORT. Every move of the encoder keeps the invariant (10_state.md R31, 42_encoder_fsm.md R172) and the freshness of the
index (41_match_finder.md R149). -/

namespace Sys2Proof.Machine

/-! ## The index memory (10_state.md R30) -/

theorem Cells.mem_write {α : Type} [DecidableEq α] {d : α} {m : Cells α} {a : Nat} {v : α} {c : Nat × α}
    (h : c ∈ Cells.write d m a v) : c = (a, v) ∨ c ∈ m := by
  have hput {rest : Cells α} (h : c ∈ Cells.put d a v rest) : c = (a, v) ∨ c ∈ rest := by
    unfold Cells.put at h
    split at h
    · exact .inr h
    · exact List.mem_cons.mp h
  induction m with
  | nil => exact hput h
  | cons p rest ih =>
    obtain ⟨b, w⟩ := p
    unfold Cells.write at h
    split at h
    · exact hput h
    · split at h
      · exact (hput h).imp_right (List.mem_cons_of_mem _)
      · rcases List.mem_cons.mp h with h | h
        · exact .inr (h ▸ List.mem_cons_self)
        · exact (ih h).imp_right (List.mem_cons_of_mem _)

/-- The index build writes entries of addresses inside the space only. -/
theorem indexFrom_within (m : Memory) (n : Nat) {i size : Nat} {index last : IndexMemory} (hn : i + n ≤ size)
    (h : Cells.within size index = true) : Cells.within size (indexFrom m i n index last) = true := by
  induction n generalizing i index last with
  | zero => exact h
  | succ n ih => exact ih (by omega) (Cells.within_write none index i size _ (by omega) h)

/-- The index build writes positions below their own address only. -/
theorem indexFrom_below (m : Memory) (n : Nat) {i : Nat} {index last : IndexMemory} (hl : last.wf = true)
    (hlast : ∀ v p, last.read v = some p → p < i) (h : ∀ c ∈ index, ∀ p, c.2 = some p → p < c.1) :
    ∀ c ∈ indexFrom m i n index last, ∀ p, c.2 = some p → p < c.1 := by
  induction n generalizing i index last with
  | zero => exact h
  | succ n ih =>
    refine ih (IndexMemory.wf_write _ _ _ hl) (fun v p hp => ?_) (fun c hc p hp => ?_)
    · rw [IndexMemory.read_write _ _ _ _ hl] at hp
      split at hp
      · cases hp; omega
      · exact Nat.lt_succ_of_lt (hlast v p hp)
    · rcases Cells.mem_write hc with rfl | hc
      · exact hlast _ p hp
      · exact h c hc p hp

/-! ## What a match in a fresh index is -/

/-- A match that the finder reports is longer than the break-even, inside the bytes it may use and inside the window
(41_match_finder.md R142). -/
theorem searchMatch_bounds {b : Build} {m : Memory} {index : IndexMemory} {start fin maxLen : Nat} {r : Match}
    (hs : start ≤ fin) (hindex : b.indexed = true → ∀ i, i ≤ fin → indexEntryCorrect m index i)
    (h : searchMatch b m index start fin maxLen = some r) :
    b.breakEven < r.length ∧ r.length ≤ maxLen ∧ 1 ≤ r.distance ∧ r.distance ≤ fin - start := by
  have hlong := bruteScan_longestNearest m maxLen hs (Nat.le_refl _) (best := .none)
    (by rw [Nat.sub_self]; exact .zero _ _)
  rw [searchMatch_eq hs hindex hlong, acceptRun] at h
  split at h
  · next hb =>
    cases h
    obtain ⟨hd, hdn, hf⟩ := hlong.attained (by omega)
    exact ⟨hb, hf ▸ mlen_le .., hd, hdn⟩
  · cases h

section
variable {b : Build} {e e' : Enc} {k k' : OutSink} {w : Byte} {i : Nat} {bits : List Bool}

/-- In `Search` with lookahead the index describes all that the finder asks it about (R149). -/
theorem indexFresh.search (hf : indexFresh b e) (hq : e.state = .search)
    (enough : e.matchScanIndex + neededLookahead b e ≤ e.inputSize) :
    b.indexed = true → ∀ a, a ≤ b.window + e.matchScanIndex → indexEntryCorrect e.buffer e.index a := by
  intro hx a ha
  have := neededLookahead_pos b e
  exact hf hx (by rw [hq]; nofun) (by rw [hq]; nofun) a (by omega)

/-- A match that `Search` finds lies in the input and in the window (R163). -/
theorem searchResult_bounds (hfresh : indexFresh b e) (hq : e.state = .search)
    (enough : e.matchScanIndex + neededLookahead b e ≤ e.inputSize) {r : Match} (hr : searchResult b e = some r) :
    b.breakEven < r.length ∧ r.length ≤ min b.lookahead (e.inputSize - e.matchScanIndex) ∧ 1 ≤ r.distance ∧
      r.distance ≤ b.window := by
  have h := searchMatch_bounds (Nat.le_add_left _ _) (hfresh.search hq enough) hr
  rwa [Nat.add_sub_cancel] at h

/-! ## The invariant in two halves -/

/-- The part of the invariant that does not speak of `enc.state`: ranges, the accumulator and the memories. -/
structure EncDataInv (b : Build) (e : Enc) : Prop where
  scan_le_size : e.matchScanIndex ≤ e.inputSize
  size_le_window : e.inputSize ≤ b.window
  match_in_input : e.matchLength = 0 ∨
    (b.breakEven + 1 ≤ e.matchLength ∧ e.matchLength ≤ b.lookahead ∧
      e.matchScanIndex + e.matchLength ≤ e.inputSize ∧ 1 ≤ e.matchPos ∧ e.matchPos ≤ b.window)
  unfilled_zero : e.currentByte.toNat % 2 ^ (8 - e.bitIndex) = 0
  filled_le : e.bitIndex ≤ 8
  filled_partial : b.emitOnExactFill = true → e.bitIndex ≤ 7
  outgoing_le : e.outgoingBitsCount ≤ b.windowBits
  flags_reserved : e.flags &&& 0xFE = 0
  buffer_wf : e.buffer.wf = true
  buffer_within : e.buffer.within (2 * b.window) = true
  index_wf : e.index.wf = true
  index_within : e.index.within (b.spaceSize .encIdx) = true
  index_below : ∀ c ∈ e.index, ∀ p, c.2 = some p → p < c.1

/-- The part of the invariant that says what `enc.state` promises; a fact about another state than the present one needs no
proof of its own. -/
structure EncStateInv (b : Build) (e : Enc) : Prop where
  notFull_has_room : e.state = .notFull → e.inputSize < b.window := by nofun
  literal_behind_scan : e.state = .yieldLiteral → 1 ≤ e.matchScanIndex ∧ e.matchLength = 0 := by nofun
  tag_behind_scan : e.state = .yieldTagBit → e.matchLength = 0 → 1 ≤ e.matchScanIndex := by nofun
  fields_have_match : e.state = .yieldBrIndex ∨ e.state = .yieldBrLength → e.matchLength ≠ 0 := by nofun
  pass_is_full : e.finishing = false → e.state ≠ .notFull → e.inputSize = b.window
  backlog_small : e.state = .saveBacklog → e.finishing = false ∧ e.inputSize < e.matchScanIndex + b.lookahead := by nofun
  notFull_not_finishing : e.state = .notFull → e.finishing = false := by nofun
  flush_at_end : e.state = .flushBits ∨ e.state = .done → e.finishing = true ∧ e.matchScanIndex = e.inputSize := by nofun

theorem EncInv.data (hi : EncInv b e) : EncDataInv b e := { hi with }

theorem EncInv.of_halves (hd : EncDataInv b e) (hs : EncStateInv b e) : EncInv b e := { hd, hs with }

/-- In a pass, that is, out of `NotFull`, the input half is full unless the encoder is finishing (R172). -/
theorem EncInv.full (hi : EncInv b e) {q : EncState} (hq : e.state = q) (hne : q ≠ .notFull) :
    e.finishing = false → e.inputSize = b.window :=
  fun hf => hi.pass_is_full hf (hq ▸ hne)

/-! ## The moves -/

theorem EncInv.repack (hi : EncInv b e) (hp : Packs b e k w i k' bits) :
    EncInv b { e with currentByte := w, bitIndex := i } := by
  obtain ⟨-, ⟨h8, hz⟩, -⟩ := hp.appends
  exact { hi with
    unfilled_zero := hz
    filled_le := h8
    filled_partial := fun hx => hp.stays_partial hx (hi.filled_partial hx) }

theorem EncInv.enterSearch (hi : EncInv b e) (hfull : e.finishing = false → e.inputSize = b.window) :
    EncInv b { e with state := .search } :=
  .of_halves { hi.data with } { pass_is_full := fun hf _ => hfull hf }

theorem EncInv.buildIndex (hi : EncInv b e) (hq : e.state = .filled) :
    EncInv b { e with
      index := if b.indexed = true then doIndexing e.buffer (b.window + e.inputSize) e.index else e.index
      state := .search } := by
  have hbuilt : EncInv b { e with
      index := if b.indexed = true then doIndexing e.buffer (b.window + e.inputSize) e.index else e.index } := by
    by_cases hx : b.indexed = true
    · simp only [if_pos hx]
      have hspace : 0 + (b.window + e.inputSize) ≤ b.spaceSize .encIdx := by
        have := hi.size_le_window
        simp only [Build.spaceSize, hx, if_true]
        omega
      exact { hi with
        index_wf := IndexMemory.wf_doIndexing _ _ _ hi.index_wf
        index_within := indexFrom_within _ _ hspace hi.index_within
        index_below := indexFrom_below _ _ rfl nofun hi.index_below }
    · simp only [if_neg hx]
      exact hi
  exact hbuilt.enterSearch (hi.full hq nofun)

theorem EncInv.leave (hi : EncInv b e) (hq : e.state = .search) (hs : e.inputSize < e.matchScanIndex + neededLookahead b e) :
    EncInv b { e with state := if e.finishing then .flushBits else .saveBacklog } := by
  have hscan := hi.scan_le_size
  unfold neededLookahead at hs
  cases hf : e.finishing with
  | true =>
    rw [hf, if_pos rfl] at hs
    exact .of_halves { hi.data with }
      { pass_is_full := fun h _ => hi.full hq nofun h
        flush_at_end := fun _ => ⟨hf, by dsimp only; omega⟩ }
  | false =>
    exact .of_halves { hi.data with }
      { pass_is_full := fun h _ => hi.full hq nofun h
        backlog_small := fun _ => ⟨hf, by rwa [hf] at hs⟩ }

theorem EncInv.search (hi : EncInv b e) (hfresh : indexFresh b e) (hq : e.state = .search)
    (enough : e.matchScanIndex + neededLookahead b e ≤ e.inputSize) :
    EncInv b (afterSearch e (searchResult b e)) := by
  have hneed := neededLookahead_pos b e
  cases hr : searchResult b e with
  | none =>
    exact .of_halves
      { hi.data with
        scan_le_size := by dsimp only [afterSearch]; omega
        match_in_input := .inl rfl }
      { pass_is_full := fun hf _ => hi.full hq nofun hf
        tag_behind_scan := fun _ _ => Nat.le_add_left 1 _ }
  | some r =>
    obtain ⟨hlong, hlen, hd, hdw⟩ := searchResult_bounds hfresh hq enough hr
    exact .of_halves
      { hi.data with match_in_input := .inr (by dsimp only [afterSearch]; omega) }
      { pass_is_full := fun hf _ => hi.full hq nofun hf
        tag_behind_scan := fun _ h0 => by dsimp only [afterSearch] at h0; omega }

theorem EncInv.literalTag (hi : EncInv b e) (hq : e.state = .yieldTagBit) (h0 : e.matchLength = 0) :
    EncInv b { e with state := .yieldLiteral } :=
  .of_halves { hi.data with }
    { pass_is_full := fun hf _ => hi.full hq nofun hf
      literal_behind_scan := fun _ => ⟨hi.tag_behind_scan hq h0, h0⟩ }

/-- A field of at most `W` bits is loaded to be drained. -/
theorem EncInv.loadField (hi : EncInv b e) (hfull : e.finishing = false → e.inputSize = b.window) (hm : e.matchLength ≠ 0)
    (bits : BitVec 16) {c : Nat} (hc : c ≤ b.windowBits) {q : EncState} (hq : q = .yieldBrIndex ∨ q = .yieldBrLength) :
    EncInv b { e with outgoingBits := bits, outgoingBitsCount := c, state := q } := by
  have hdata : EncDataInv b { e with outgoingBits := bits, outgoingBitsCount := c, state := q } :=
    { hi.data with outgoing_le := hc }
  rcases hq with rfl | rfl
  all_goals
    exact .of_halves hdata
      { pass_is_full := fun hf _ => hfull hf
        fields_have_match := fun _ => hm }

theorem EncInv.passMatch (hi : EncInv b e) (hq : e.state = .yieldBrLength) :
    EncInv b { e with matchScanIndex := e.matchScanIndex + e.matchLength, matchLength := 0, state := .search } := by
  have hm := hi.match_in_input
  have hs := hi.scan_le_size
  exact .of_halves
    { hi.data with
      scan_le_size := by dsimp only; omega
      match_in_input := .inl rfl }
    { pass_is_full := fun hf _ => hi.full hq nofun hf }

theorem EncInv.shift (hl : b.legal = true) (hi : EncInv b e) (hq : e.state = .saveBacklog) :
    EncInv b { saveBacklog b e with state := .notFull } := by
  obtain ⟨hf, hsmall⟩ := hi.backlog_small hq
  have hfull := hi.full hq nofun hf
  have hla := Build.lookahead_lt_window hl
  have hs := hi.scan_le_size
  have hm := hi.match_in_input
  exact .of_halves
    { hi.data with
      scan_le_size := Nat.zero_le _
      size_le_window := by dsimp only [saveBacklog]; omega
      match_in_input := by dsimp only [saveBacklog]; omega
      buffer_wf := moveDown_whole_wf _ _ _ hi.buffer_wf
      buffer_within := Memory.within_moveDown _ _ _ _ _ (by omega) hi.buffer_within }
    { pass_is_full := fun _ h => absurd rfl h
      notFull_has_room := fun _ => by dsimp only [saveBacklog]; omega
      notFull_not_finishing := fun _ => hf }

theorem EncInv.flush (hi : EncInv b e) (hq : e.state = .flushBits) : EncInv b { e with state := .done } :=
  .of_halves { hi.data with }
    { pass_is_full := fun hf _ => hi.full hq nofun hf
      flush_at_end := fun _ => hi.flush_at_end (.inl hq) }

/-- Every move keeps the invariant of the encoder (R31, R172). -/
theorem EncMove.keeps_inv (hl : b.legal = true) (hi : EncInv b e) (hfresh : indexFresh b e) (hm : EncMove b e k e' k') :
    EncInv b e' := by
  obtain ⟨hW, -, -, -, hLW, -⟩ := Build.legal_bounds hl
  cases hm with
  | rest | blocked => exact hi
  | buildIndex hq => exact hi.buildIndex hq
  | leave hq short => exact hi.leave hq short
  | search hq enough => exact hi.search hfresh hq enough
  | literalTag hq room h0 packs => exact (hi.repack packs).literalTag hq h0
  | backrefTag hq room found packs =>
    exact (hi.repack packs).loadField (hi.full hq nofun) found _ (Nat.le_refl _) (.inl rfl)
  | literal hq room packs => exact (hi.repack packs).enterSearch (hi.full hq nofun)
  | drain hq room pending packs split =>
    exact { hi.repack packs with outgoing_le := Nat.le_trans (Nat.sub_le _ _) hi.outgoing_le }
  | loadLength hq drained =>
    exact hi.loadField (hi.full hq nofun) (hi.fields_have_match (.inl hq)) _ (Nat.le_of_lt hLW) (.inr rfl)
  | passMatch hq drained => exact hi.passMatch hq
  | shift hq => exact hi.shift hl hq
  | flushNothing hq | flushByte hq => exact hi.flush hq

/-! ## The freshness of the index -/

/-- Every move keeps the index fresh: it is built on leaving `Filled`, and no move but the shift to `NotFull` writes the
buffer (R149). -/
theorem EncMove.keeps_fresh (hi : EncInv b e) (hfresh : indexFresh b e) (hm : EncMove b e k e' k') : indexFresh b e' := by
  cases hm with
  | rest | blocked => exact hfresh
  | buildIndex hq =>
    intro hx _ _ a ha
    simp only [hx, if_true]
    exact doIndexing_correct e.buffer hi.index_wf ha
  | shift hq => exact fun _ h => absurd rfl h
  | search hq enough =>
    have hkeep (r : Option Match) : indexFresh b (afterSearch e r) := by
      cases r <;> exact fun hx _ _ => hfresh hx (by rw [hq]; nofun) (by rw [hq]; nofun)
    exact hkeep _
  | drain hq room pending packs split => exact hfresh
  | leave hq | literalTag hq | backrefTag hq | literal hq | loadLength hq | passMatch hq | flushNothing hq | flushByte hq =>
    exact fun hx _ _ => hfresh hx (by rw [hq]; nofun) (by rw [hq]; nofun)

end

end Sys2Proof.Machine
end

section
/-! SUPPORT. What the encoder still owes to the host: the bytes that the accumulator and the rest of the greedy parse
(42_encoder_fsm.md R174) will make. Every move keeps what is delivered and owed together. -/

namespace Sys2Proof.Machine

/-! ## The greedy parse, one token at a time (R174) -/

/-- The parse looks for the longest and nearest run too. -/
theorem bestRun_longestNearest (x : List Byte) (k maxLen n : Nat) :
    LongestNearest (fun d => runLength x k d 0 maxLen) n (bestRun x k maxLen n).1 (bestRun x k maxLen n).2 := by
  induction n with
  | zero => exact .zero _ _
  | succ n ih =>
    simp only [bestRun]
    split
    · next hlt => exact ih.replace hlt
    · next hle => exact ih.extend (Nat.le_succ n) fun c h1 h2 => by rw [show c = n + 1 by omega]; omega

theorem greedyFrom_succ (b : Build) {x : List Byte} (fuel : Nat) {k : Nat} (h : ¬ x.length ≤ k) :
    greedyFrom b x (fuel + 1) k =
      let best := bestRun x k (min b.lookahead (x.length - k)) b.window
      if b.breakEven < best.1 then .backref best.2 best.1 :: greedyFrom b x fuel (k + best.1)
      else .literal (x.getD k 0) :: greedyFrom b x fuel (k + 1) := if_neg h

theorem greedyFrom_end (b : Build) {x : List Byte} (fuel : Nat) {k : Nat} (h : x.length ≤ k) :
    greedyFrom b x fuel k = [] := by
  cases fuel with
  | zero => rfl
  | succ fuel => exact if_pos h

/-- With at least as many tokens to take as bytes are left, one more does not matter. -/
theorem greedyFrom_more (b : Build) {x : List Byte} {fuel k : Nat} (h : x.length - k ≤ fuel) :
    greedyFrom b x (fuel + 1) k = greedyFrom b x fuel k := by
  induction fuel generalizing k with
  | zero => exact (greedyFrom_end b _ (by omega)).trans (greedyFrom_end b _ (by omega)).symm
  | succ fuel ih =>
    by_cases hk : x.length ≤ k
    · rw [greedyFrom_end b _ hk, greedyFrom_end b _ hk]
    · rw [greedyFrom_succ b _ hk, greedyFrom_succ b _ hk]
      dsimp only
      split
      · rw [ih (by omega)]
      · rw [ih (by omega)]

/-- The number of tokens that the parse may still take does not matter once it is enough. -/
theorem greedyFrom_fuel (b : Build) {x : List Byte} {fuel k : Nat} (h : x.length - k ≤ fuel) :
    greedyFrom b x fuel k = greedyFrom b x (x.length - k) k := by
  induction fuel with
  | zero => rw [show x.length - k = 0 by omega]
  | succ fuel ih =>
    by_cases hk : x.length - k ≤ fuel
    · rw [greedyFrom_more b hk, ih hk]
    · rw [show x.length - k = fuel + 1 by omega]

/-- The bits of the tokens of the greedy parse from position `k` on. -/
def restBits (b : Build) (x : List Byte) (k : Nat) : List Bool :=
  (greedyFrom b x (x.length - k) k).flatMap (tokenBits b)

theorem restBits_end (b : Build) {x : List Byte} {k : Nat} (h : x.length ≤ k) : restBits b x k = [] := by
  rw [restBits, show x.length - k = 0 by omega]
  rfl

/-- The tokens from position `k` on are the one that the search for the longest and nearest run gives, and then those from
the position after it on (R174). -/
theorem restBits_next (b : Build) {x : List Byte} {k : Nat} (h : k < x.length) :
    restBits b x k =
      let best := bestRun x k (min b.lookahead (x.length - k)) b.window
      match acceptRun b.breakEven best.1 best.2 with
      | none => tokenBits b (.literal (x.getD k 0)) ++ restBits b x (k + 1)
      | some r => tokenBits b (.backref r.distance r.length) ++ restBits b x (k + r.length) := by
  have hfuel {j : Nat} (hj : k < j) : greedyFrom b x (x.length - k - 1) j = greedyFrom b x (x.length - j) j :=
    greedyFrom_fuel b (by omega)
  rw [restBits, show x.length - k = (x.length - k - 1) + 1 by omega, greedyFrom_succ b _ (by omega)]
  simp only [show x.length - k - 1 + 1 = x.length - k by omega]
  generalize bestRun x k (min b.lookahead (x.length - k)) b.window = best
  by_cases hb : b.breakEven < best.1
  · rw [if_pos hb, acceptRun, if_pos hb, hfuel (by omega), List.flatMap_cons]; rfl
  · rw [if_neg hb, acceptRun, if_neg hb, hfuel (by omega), List.flatMap_cons]; rfl

/-! ## The buffer as a part of the input -/

/-- The encoder has accepted the first `n` bytes of the input `x`: its buffer shows the last of them, after the history, and
zeros before the start (10_state.md R29, R31 part h); it is finishing only when it has all of them. -/
structure Tracks (b : Build) (x : List Byte) (n : Nat) (e : Enc) : Prop where
  size_le : e.inputSize ≤ n
  accepted_le : n ≤ x.length
  all_accepted : e.finishing = true → n = x.length
  buffer : ∀ a, a < b.window + e.inputSize → e.buffer.read a = historyByte x (n - e.inputSize) b.window a

/-- The position in the input of the scan position. -/
def streamPos (n : Nat) (e : Enc) : Nat :=
  n - e.inputSize + e.matchScanIndex

/-- Where the buffer shows the input, a common run in it is a run of the input. -/
theorem mlen_eq_runLength {m : Memory} {x : List Byte} {k d start pos fin n : Nat}
    (hpos : ∀ i, i < n → m.read (pos + i) = historyByte x k d (start + i))
    (hfin : ∀ i, i < n → m.read (fin + i) = x.getD (k + (start + i)) 0) :
    mlen m pos fin n = runLength x k d start n := by
  induction n generalizing pos fin start with
  | zero => rfl
  | succ n ih =>
    have h0 := hpos 0 (by omega)
    have h1 := hfin 0 (by omega)
    simp only [Nat.add_zero] at h0 h1
    rw [mlen, runLength, h0, h1, ih (start := start + 1)]
    · intro i hi
      rw [Nat.add_right_comm, Nat.add_assoc pos, hpos (i + 1) (by omega), Nat.add_right_comm start, Nat.add_assoc start]
    · intro i hi
      rw [Nat.add_right_comm, Nat.add_assoc fin, hfin (i + 1) (by omega), Nat.add_right_comm start, Nat.add_assoc start]

section
variable {b : Build} {x : List Byte} {n : Nat} {e e' : Enc} {k k' : OutSink}

/-- A byte of the input half, or of the history before it. -/
theorem Tracks.read (ht : Tracks b x n e) {a : Nat} (ha : a < b.window + e.inputSize) :
    e.buffer.read a = if n - e.inputSize + a < b.window then 0 else x.getD (n - e.inputSize + a - b.window) 0 :=
  ht.buffer a ha

/-- The runs that the finder compares are those of the parse. -/
theorem Tracks.mlen_eq (ht : Tracks b x n e) (hi : EncInv b e) {d maxLen : Nat} (hd : 1 ≤ d) (hdw : d ≤ b.window)
    (hmax : maxLen ≤ e.inputSize - e.matchScanIndex) :
    mlen e.buffer (b.window + e.matchScanIndex - d) (b.window + e.matchScanIndex) maxLen =
      runLength x (streamPos n e) d 0 maxLen := by
  have hs := hi.scan_le_size
  refine mlen_eq_runLength (fun i hi' => ?_) (fun i hi' => ?_)
  · rw [ht.read (by omega), historyByte, streamPos, Nat.zero_add]
    have hiff : n - e.inputSize + (b.window + e.matchScanIndex - d + i) < b.window ↔
        n - e.inputSize + e.matchScanIndex + i < d := by omega
    simp only [hiff]
    congr 2
    omega
  · rw [ht.read (by omega), if_neg (by omega), streamPos]
    congr 1
    omega

/-- The lookahead that the finder may use is what the parse may use: all of it while more input may come. -/
theorem Tracks.maxLen_eq (ht : Tracks b x n e) (hi : EncInv b e)
    (enough : e.matchScanIndex + neededLookahead b e ≤ e.inputSize) :
    min b.lookahead (e.inputSize - e.matchScanIndex) = min b.lookahead (x.length - streamPos n e) := by
  have := ht.size_le
  have := ht.accepted_le
  have := hi.scan_le_size
  unfold neededLookahead at enough
  unfold streamPos
  cases hf : e.finishing with
  | true =>
    have := ht.all_accepted hf
    rw [show x.length - (n - e.inputSize + e.matchScanIndex) = e.inputSize - e.matchScanIndex by omega]
  | false =>
    simp only [hf, Bool.false_eq_true, if_false] at enough
    omega

/-- The finder finds the run of the parse. -/
theorem Tracks.searchResult_eq (ht : Tracks b x n e) (hi : EncInv b e) (hfresh : indexFresh b e) (hq : e.state = .search)
    (enough : e.matchScanIndex + neededLookahead b e ≤ e.inputSize) :
    searchResult b e =
      let best := bestRun x (streamPos n e) (min b.lookahead (x.length - streamPos n e)) b.window
      acceptRun b.breakEven best.1 best.2 := by
  refine searchMatch_eq (Nat.le_add_left _ _) (hfresh.search hq enough) ?_
  rw [Nat.add_sub_cancel, ht.maxLen_eq hi enough]
  refine (bestRun_longestNearest x (streamPos n e) _ b.window).congr fun d hd hdw => ?_
  exact (ht.mlen_eq hi hd hdw (by rw [← ht.maxLen_eq hi enough]; exact Nat.min_le_right _ _)).symm

/-- The literal byte is the one before the scan position (20_memory.md R65). -/
theorem Tracks.literal (ht : Tracks b x n e) (hi : EncInv b e) (h : 1 ≤ e.matchScanIndex) :
    e.buffer.read (literalAddress b e) = x.getD (streamPos n e - 1) 0 := by
  have hs := hi.scan_le_size
  rw [literalAddress, ht.read (by omega), if_neg (by omega), streamPos]
  congr 1
  omega

/-- Every move keeps the buffer a part of the input. -/
theorem EncMove.keeps_tracks (hi : EncInv b e) (ht : Tracks b x n e) (hm : EncMove b e k e' k') : Tracks b x n e' := by
  cases hm with
  | search hq enough =>
    have hkeep (r : Option Match) : Tracks b x n (afterSearch e r) := by
      cases r <;> exact { ht with }
    exact hkeep _
  | shift hq =>
    have hs := hi.scan_le_size
    have hw := hi.size_le_window
    have hn := ht.size_le
    exact { ht with
      size_le := Nat.le_trans (Nat.sub_le _ _) ht.size_le
      buffer := fun a ha => by
        dsimp only [saveBacklog] at ha ⊢
        rw [Memory.read_moveDown _ _ _ _ _ hi.buffer_wf, if_pos (by omega), ht.buffer _ (by omega), historyByte, historyByte,
          show n - e.inputSize + (a + e.matchScanIndex) = n - (e.inputSize - e.matchScanIndex) + a by omega] }
  | _ => exact { ht with }

/-! ## What is owed -/

/-- The bits that the encoder has not yet put into its accumulator: the rest of the token it is in, and the tokens after
it. -/
def owedBits (b : Build) (x : List Byte) (n : Nat) (e : Enc) : List Bool :=
  let pos := streamPos n e
  match e.state with
  | .yieldTagBit =>
    if e.matchLength = 0 then tokenBits b (.literal (x.getD (pos - 1) 0)) ++ restBits b x pos
    else tokenBits b (.backref e.matchPos e.matchLength) ++ restBits b x (pos + e.matchLength)
  | .yieldLiteral => byteBits (x.getD (pos - 1) 0) ++ restBits b x pos
  | .yieldBrIndex =>
    outgoing e ++ fieldBits b.lookaheadBits (fieldOfOperand e.matchLength) ++ restBits b x (pos + e.matchLength)
  | .yieldBrLength => outgoing e ++ restBits b x (pos + e.matchLength)
  | _ => restBits b x pos

/-- The bytes that the encoder has not yet delivered: none in `Done`, else what its accumulator and the bits it owes
make. -/
def owed (b : Build) (x : List Byte) (n : Nat) (e : Enc) : List Byte :=
  if e.state = .done then [] else packBits (accBits e ++ owedBits b x n e)

theorem owed_done (h : e.state = .done) : owed b x n e = [] := if_pos h

theorem owed_going (h : e.state ≠ .done) : owed b x n e = packBits (accBits e ++ owedBits b x n e) := if_neg h

/-- Delivered and owed, together, as long as there is more to come. -/
theorem out_append_owed (h : e.state ≠ .done) :
    k.out ++ owed b x n e = packBits (packedBits e k ++ owedBits b x n e) := by
  rw [owed_going h, packedBits_eq, List.append_assoc, packBits_streamBits_append]

theorem owedBits_between
    (h : e.state = .notFull ∨ e.state = .filled ∨ e.state = .search ∨ e.state = .saveBacklog ∨ e.state = .flushBits) :
    owedBits b x n e = restBits b x (streamPos n e) := by
  rcases h with h | h | h | h | h <;> rw [owedBits, h]

theorem owedBits_literalTag (h : e.state = .yieldTagBit) (h0 : e.matchLength = 0) :
    owedBits b x n e = true :: byteBits (x.getD (streamPos n e - 1) 0) ++ restBits b x (streamPos n e) := by
  rw [owedBits, h]
  exact if_pos h0

theorem owedBits_backrefTag (h : e.state = .yieldTagBit) (hm : e.matchLength ≠ 0) :
    owedBits b x n e =
      tokenBits b (.backref e.matchPos e.matchLength) ++ restBits b x (streamPos n e + e.matchLength) := by
  rw [owedBits, h]
  exact if_neg hm

theorem owedBits_literal (h : e.state = .yieldLiteral) :
    owedBits b x n e = byteBits (x.getD (streamPos n e - 1) 0) ++ restBits b x (streamPos n e) := by
  rw [owedBits, h]

theorem owedBits_brIndex (h : e.state = .yieldBrIndex) :
    owedBits b x n e = outgoing e ++ fieldBits b.lookaheadBits (fieldOfOperand e.matchLength) ++
      restBits b x (streamPos n e + e.matchLength) := by
  rw [owedBits, h]

theorem owedBits_brLength (h : e.state = .yieldBrLength) :
    owedBits b x n e = outgoing e ++ restBits b x (streamPos n e + e.matchLength) := by
  rw [owedBits, h]

/-- A field of a token in the outgoing register is the field of the token. -/
theorem outgoing_loaded {v c : Nat} (hv : e.outgoingBits = BitVec.ofNat 16 v) (hc : e.outgoingBitsCount = c) (h : c ≤ 16) :
    outgoing e = fieldBits c v := by
  rw [outgoing, hv, hc, BitVec.toNat_ofNat, fieldBits_mod v h]

theorem outgoing_drained (h : e.outgoingBitsCount = 0) : outgoing e = [] := by
  rw [outgoing, h]
  rfl

/-! ## The moves keep what is owed -/

/-- A move that packs the first of the bits owed. -/
theorem Packs.keeps_bits {w : Byte} {i : Nat} {bits : List Bool} (hp : Packs b e k w i k' bits) (hw : e'.currentByte = w)
    (hb : e'.bitIndex = i) (h : bits ++ owedBits b x n e' = owedBits b x n e) :
    packedBits e' k' ++ owedBits b x n e' = packedBits e k ++ owedBits b x n e := by
  have hpacked : packedBits e' k' = packedBits e k ++ bits := by
    rw [← hp.appends.1, packedBits, packedBits, hw, hb]
  rw [hpacked, List.append_assoc, h]

/-- A search decides what the bits owed begin with: the token that it finds is the next one of the parse. -/
theorem owedBits_search (hi : EncInv b e) (hfresh : indexFresh b e) (ht : Tracks b x n e) (hq : e.state = .search)
    (enough : e.matchScanIndex + neededLookahead b e ≤ e.inputSize) :
    owedBits b x n (afterSearch e (searchResult b e)) = owedBits b x n e := by
  have hlt : streamPos n e < x.length := by
    have := neededLookahead_pos b e
    have := ht.size_le
    have := ht.accepted_le
    unfold streamPos
    omega
  have hfind := ht.searchResult_eq hi hfresh hq enough
  rw [owedBits_between (.inr (.inr (.inl hq))), restBits_next b hlt]
  dsimp only at hfind ⊢
  rw [← hfind]
  cases hr : searchResult b e with
  | none => exact owedBits_literalTag rfl rfl
  | some r =>
    obtain ⟨hlong, -⟩ := searchResult_bounds hfresh hq enough hr
    exact owedBits_backrefTag rfl (Nat.ne_of_gt (Nat.lt_of_le_of_lt (Nat.zero_le _) hlong))

/-- Every move but the last one, out of `FlushBits`, keeps the bits delivered, filled and owed. -/
theorem EncMove.keeps_bits (hl : b.legal = true) (hi : EncInv b e) (hfresh : indexFresh b e) (ht : Tracks b x n e)
    (hm : EncMove b e k e' k') (hq' : e'.state ≠ .done) :
    packedBits e' k' ++ owedBits b x n e' = packedBits e k ++ owedBits b x n e := by
  obtain ⟨-, hW, -, hL, -, -⟩ := Build.legal_bounds hl
  cases hm with
  | rest | blocked => rfl
  | buildIndex hq =>
    rw [owedBits_between (.inr (.inl hq)), owedBits_between (.inr (.inr (.inl rfl)))]
    rfl
  | leave hq short =>
    rw [owedBits_between (.inr (.inr (.inl hq))), owedBits_between]
    · rfl
    · cases e.finishing <;> simp
  | search hq enough => rw [owedBits_search hi hfresh ht hq enough, packedBits_afterSearch]
  | literalTag hq room h0 packs =>
    refine packs.keeps_bits rfl rfl ?_
    rw [owedBits_literalTag hq h0, owedBits_literal rfl]
    rfl
  | backrefTag hq room found packs =>
    refine packs.keeps_bits rfl rfl ?_
    rw [owedBits_backrefTag hq found, owedBits_brIndex rfl,
      outgoing_loaded rfl rfl (show b.windowBits ≤ 16 by omega)]
    rfl
  | literal hq room packs =>
    refine packs.keeps_bits rfl rfl ?_
    rw [owedBits_literal hq, owedBits_between (.inr (.inr (.inl rfl))), ht.literal hi (hi.literal_behind_scan hq).1]
    rfl
  | drain hq room pending packs split =>
    refine packs.keeps_bits rfl rfl ?_
    rcases hq with hq | hq
    · rw [owedBits_brIndex hq, owedBits_brIndex (by exact hq), ← split]
      simp only [List.append_assoc]
      rfl
    · rw [owedBits_brLength hq, owedBits_brLength (by exact hq), ← split]
      simp only [List.append_assoc]
      rfl
  | loadLength hq drained =>
    rw [owedBits_brIndex hq, owedBits_brLength rfl, outgoing_drained drained,
      outgoing_loaded rfl rfl (show b.lookaheadBits ≤ 16 by omega)]
    rfl
  | passMatch hq drained =>
    rw [owedBits_brLength hq, owedBits_between (.inr (.inr (.inl rfl))), outgoing_drained drained]
    simp only [streamPos, Nat.add_assoc]
    rfl
  | shift hq =>
    have hpos : streamPos n { saveBacklog b e with state := .notFull } = streamPos n e := by
      have := hi.scan_le_size
      have := ht.size_le
      simp only [streamPos, saveBacklog]
      omega
    rw [owedBits_between (.inr (.inr (.inr (.inl hq)))), owedBits_between (.inl rfl), hpos]
    rfl
  | flushNothing | flushByte => exact absurd rfl hq'

/-- In `FlushBits` all that is owed is in the accumulator (R169). -/
theorem owedBits_flush (hi : EncInv b e) (ht : Tracks b x n e) (hq : e.state = .flushBits) : owedBits b x n e = [] := by
  obtain ⟨hf, hend⟩ := hi.flush_at_end (.inl hq)
  rw [owedBits_between (by simp [hq]), restBits_end]
  have := ht.all_accepted hf
  have := ht.size_le
  unfold streamPos
  omega

/-- `Done` is entered out of `FlushBits`, with the partial byte if there is one (R169). -/
theorem EncMove.to_done (hm : EncMove b e k e' k') (hq : e.state ≠ .done) (hq' : e'.state = .done) :
    e.state = .flushBits ∧ k'.out = k.out ++ if e.bitIndex = 0 then [] else [e.currentByte] := by
  cases hm with
  | rest | blocked => exact absurd hq' hq
  | leave => dsimp only at hq'; split at hq' <;> cases hq'
  | search => rw [afterSearch_state] at hq'; cases hq'
  | drain => exact absurd hq' hq
  | flushNothing hf h0 => exact ⟨hf, by simp [h0]⟩
  | flushByte hf h0 => exact ⟨hf, by simp [h0]⟩
  | _ => cases hq'

/-- Every move keeps what is delivered and owed together. -/
theorem EncMove.keeps_owed (hl : b.legal = true) (hi : EncInv b e) (hfresh : indexFresh b e) (ht : Tracks b x n e)
    (hm : EncMove b e k e' k') : k'.out ++ owed b x n e' = k.out ++ owed b x n e := by
  by_cases hq : e.state = .done
  · obtain ⟨rfl, rfl⟩ := hm.from_rest (.inr hq)
    rfl
  · by_cases hq' : e'.state = .done
    · obtain ⟨hf, hout⟩ := hm.to_done hq hq'
      rw [hout, owed_done hq', owed_going hq, owedBits_flush hi ht hf, List.append_nil, List.append_nil]
      by_cases h0 : e.bitIndex = 0
      · rw [if_pos h0, accBits, h0]; rfl
      · rw [if_neg h0, packBits_accBits hi.accumulatorOk h0]
    · rw [out_append_owed hq, out_append_owed hq', hm.keeps_bits hl hi hfresh ht hq']

end

end Sys2Proof.Machine
end

section
/-! SUPPORT. A poll of the encoder (44_streaming_protocol.md R215): it ends within its bound (42_encoder_fsm.md R173), it
rests where R172 says, and it keeps whatever every micro-step keeps. -/

namespace Sys2Proof.Machine

section
variable {b : Build} {e e' : Enc} {k k' : OutSink}

/-! ## What every move leaves alone -/

/-- No move writes the flags (10_state.md R27). -/
theorem EncMove.flags_eq (hm : EncMove b e k e' k') : e'.flags = e.flags := by
  cases hm with
  | search => exact afterSearch_flags _ _
  | _ => rfl

theorem Packs.produced_le {w : Byte} {i : Nat} {bits : List Bool} (hp : Packs b e k w i k' bits) (room : k.produced < k.cap) :
    k'.produced ≤ k'.cap := by
  obtain ⟨-, -, hcap, hout | ⟨v, hout⟩⟩ := hp.appends
  · rw [OutSink.produced, hcap, hout]
    exact Nat.le_of_lt room
  · rw [OutSink.produced, hcap, hout, List.length_append]
    exact room

theorem Packs.cap_eq {w : Byte} {i : Nat} {bits : List Bool} (hp : Packs b e k w i k' bits) : k'.cap = k.cap := by
  obtain ⟨-, -, hcap, -⟩ := hp.appends
  exact hcap

theorem EncMove.cap_eq (hm : EncMove b e k e' k') : k'.cap = k.cap := by
  cases hm with
  | literalTag _ _ _ packs | backrefTag _ _ _ packs | literal _ _ packs | drain _ _ _ packs => exact packs.cap_eq
  | _ => rfl

/-- No move produces more than there is room for (R212). -/
theorem EncMove.produced_le (hm : EncMove b e k e' k') (h : k.produced ≤ k.cap) : k'.produced ≤ k'.cap := by
  cases hm with
  | literalTag _ room _ packs | backrefTag _ room _ packs | literal _ room packs | drain _ room _ packs =>
    exact packs.produced_le room
  | flushByte _ _ room => rw [OutSink.emit_produced, OutSink.emit_cap]; exact room
  | _ => exact h

/-! ## Progress (R173) -/

/-- A bound on the moves left before the poll has to return: a constant number for each byte of input left, and those of
the token that the encoder is in. -/
def movesLeft (b : Build) (e : Enc) : Nat :=
  let perByte := b.windowBits + b.lookaheadBits + 8
  let left := e.inputSize - e.matchScanIndex
  match e.state with
  | .notFull | .done => 1
  | .saveBacklog | .flushBits => 2
  | .search => left * perByte + 3
  | .filled => left * perByte + 4
  | .yieldLiteral => left * perByte + 4
  | .yieldTagBit =>
    if e.matchLength = 0 then left * perByte + 5
    else (left - e.matchLength) * perByte + b.windowBits + b.lookaheadBits + 6
  | .yieldBrIndex => (left - e.matchLength) * perByte + b.lookaheadBits + e.outgoingBitsCount + 5
  | .yieldBrLength => (left - e.matchLength) * perByte + e.outgoingBitsCount + 4

theorem movesLeft_pos (b : Build) (e : Enc) : 0 < movesLeft b e := by
  unfold movesLeft
  cases e.state <;> dsimp only
  case yieldTagBit => split <;> omega
  all_goals omega

/-- The bound of a poll is enough for all moves left (log 12). -/
theorem movesLeft_le_bound (b : Build) (e : Enc) : movesLeft b e ≤ encPollBound b e := by
  have hmono : (e.inputSize - e.matchScanIndex - e.matchLength) * (b.windowBits + b.lookaheadBits + 8) ≤
      (e.inputSize - e.matchScanIndex) * (b.windowBits + b.lookaheadBits + 8) :=
    Nat.mul_le_mul_right _ (Nat.sub_le _ _)
  unfold movesLeft encPollBound
  rw [Nat.add_mul]
  cases e.state <;> dsimp only
  case yieldTagBit => split <;> omega
  all_goals omega

/-- A search takes at least one byte off the input left, whatever it finds. -/
theorem movesLeft_search (hfresh : indexFresh b e) (hq : e.state = .search)
    (enough : e.matchScanIndex + neededLookahead b e ≤ e.inputSize) :
    movesLeft b (afterSearch e (searchResult b e)) < movesLeft b e := by
  have hneed := neededLookahead_pos b e
  have hbyte {taken : Nat} (h1 : 1 ≤ taken) (h2 : taken ≤ e.inputSize - e.matchScanIndex) :
      (e.inputSize - e.matchScanIndex - taken) * (b.windowBits + b.lookaheadBits + 8) + (b.windowBits + b.lookaheadBits + 8) ≤
        (e.inputSize - e.matchScanIndex) * (b.windowBits + b.lookaheadBits + 8) := by
    rw [← Nat.succ_mul]
    exact Nat.mul_le_mul_right _ (by omega)
  have hbefore : movesLeft b e = (e.inputSize - e.matchScanIndex) * (b.windowBits + b.lookaheadBits + 8) + 3 := by
    rw [movesLeft, hq]
  rw [hbefore]
  cases hr : searchResult b e with
  | none =>
    have := hbyte (taken := 1) (Nat.le_refl 1) (by omega)
    simp only [afterSearch, movesLeft, if_true, Nat.sub_add_eq]
    omega
  | some r =>
    obtain ⟨hlong, hlen, -⟩ := searchResult_bounds hfresh hq enough hr
    have := hbyte (taken := r.length) (by omega) (by omega)
    have hafter : movesLeft b (afterSearch e (some r)) =
        (e.inputSize - e.matchScanIndex - r.length) * (b.windowBits + b.lookaheadBits + 8) + b.windowBits +
          b.lookaheadBits + 6 := if_neg (c := r.length = 0) (by omega)
    omega

/-- A move goes on with fewer moves left, or the encoder rests, or it changes nothing because the output is full. -/
theorem EncMove.progress (hfresh : indexFresh b e) (hm : EncMove b e k e' k') :
    movesLeft b e' < movesLeft b e ∨ (e.state = .notFull ∨ e.state = .done) ∨ (e' = e ∧ k' = k ∧ k.cap ≤ k.produced) := by
  cases hm with
  | rest hq => exact .inr (.inl hq)
  | blocked full => exact .inr (.inr ⟨rfl, rfl, full⟩)
  | search hq enough => exact .inl (movesLeft_search hfresh hq enough)
  | leave hq short => left; simp only [movesLeft, hq]; cases e.finishing <;> simp
  | literalTag hq room h0 packs => left; simp only [movesLeft, hq, h0, if_true]; omega
  | backrefTag hq room found packs => left; simp only [movesLeft, hq, if_neg found]; omega
  | drain hq room pending packs split =>
    left
    rcases hq with hq | hq
    all_goals simp only [movesLeft, hq]; omega
  | passMatch hq drained => left; simp only [movesLeft, hq, Nat.sub_add_eq]; omega
  | buildIndex hq | literal hq | loadLength hq | shift hq | flushNothing hq | flushByte hq =>
    left; simp only [movesLeft, hq]; omega

/-! ## The loop of a poll -/

theorem encPollStatus_resting {before after : EncState} (h : before = .notFull ∨ before = .done ∨ after = .done) (k : OutSink) :
    encPollStatus before after k = some .empty := if_pos h

theorem encPollStatus_some {before after : EncState} {status : Status} (h : encPollStatus before after k = some status) :
    (status = .empty ∧ (before = .notFull ∨ before = .done ∨ after = .done)) ∨ (status = .more ∧ k.produced = k.cap) := by
  unfold encPollStatus at h
  split at h
  · next hr => cases h; exact .inl ⟨rfl, hr⟩
  · split at h
    · next hf => cases h; exact .inr ⟨rfl, k.isFull_iff.mp hf.2⟩
    · cases h

/-- With the output full and the state kept a poll returns. -/
theorem encPollStatus_full {q : EncState} (h : k.produced = k.cap) : encPollStatus q q k ≠ none := by
  unfold encPollStatus
  rw [if_pos (c := q = q ∧ k.isFull = true) ⟨rfl, k.isFull_iff.mpr h⟩]
  split <;> nofun

/-- A poll from a state that meets the invariant returns (R173). -/
theorem encPollLoop_returns (hl : b.legal = true) {fuel : Nat} (hi : EncInv b e) (hfresh : indexFresh b e)
    (hk : k.produced ≤ k.cap) (hfuel : movesLeft b e ≤ fuel) : ∃ r, encPollLoop b fuel e k = .ok r := by
  induction fuel generalizing e k with
  | zero => have := movesLeft_pos b e; omega
  | succ fuel ih =>
    obtain ⟨e', k', hok, hm⟩ := encStep_moves hi k
    rw [encPollLoop, hok]
    dsimp only
    cases hs : encPollStatus e.state e'.state k' with
    | some status => exact ⟨_, rfl⟩
    | none =>
      refine ih (hm.keeps_inv hl hi hfresh) (hm.keeps_fresh hi hfresh) (hm.produced_le hk) ?_
      rcases hm.progress hfresh with hless | hrest | ⟨rfl, rfl, hfull⟩
      · omega
      · rw [encPollStatus_resting (hrest.imp_right .inl)] at hs; cases hs
      · exact absurd hs (encPollStatus_full (Nat.le_antisymm hk hfull))

/-- A poll keeps what every move keeps, and it returns `Empty` at rest, or `More` with the output full (R172, R215). -/
theorem encPollLoop_keeps {P : Enc → OutSink → Prop} (hinv : ∀ e k, P e k → EncInv b e)
    (hstep : ∀ e k e' k', P e k → EncMove b e k e' k' → P e' k') {fuel : Nat} {status : Status} (h : P e k)
    (hr : encPollLoop b fuel e k = .ok (e', k', status)) :
    P e' k' ∧ ((status = .empty ∧ (e'.state = .notFull ∨ e'.state = .done)) ∨ (status = .more ∧ k'.produced = k'.cap)) := by
  induction fuel generalizing e k with
  | zero => cases hr
  | succ fuel ih =>
    obtain ⟨e₁, k₁, hok, hm⟩ := encStep_moves (hinv e k h) k
    have h₁ := hstep e k e₁ k₁ h hm
    rw [encPollLoop, hok] at hr
    dsimp only at hr
    cases hs : encPollStatus e.state e₁.state k₁ with
    | none => rw [hs] at hr; exact ih h₁ hr
    | some st =>
      rw [hs] at hr
      cases hr
      refine ⟨h₁, (encPollStatus_some hs).imp_left fun ⟨hst, hrest⟩ => ⟨hst, ?_⟩⟩
      rcases hrest with hq | hq | hq
      · rw [(hm.from_rest (.inl hq)).1]; exact .inl hq
      · rw [(hm.from_rest (.inr hq)).1]; exact .inr hq
      · exact .inr hq

end

end Sys2Proof.Machine
end

section
/-! SUPPORT. A complete encode (44_streaming_protocol.md R230 to R232): every command of the host keeps what is delivered and
owed together, and from every state there is a way to go on. -/

namespace Sys2Proof.Machine

/-- The encoder is in the midst of the input `x`, of which it has accepted `n` bytes. -/
structure Encoding (b : Build) (x : List Byte) (n : Nat) (e : Enc) : Prop where
  inv : EncInv b e
  fresh : indexFresh b e
  tracks : Tracks b x n e

section
variable {b : Build} {x : List Byte} {n : Nat} {e e' : Enc}

theorem EncMove.keeps_encoding {k k' : OutSink} (hl : b.legal = true) (h : Encoding b x n e) (hm : EncMove b e k e' k') :
    Encoding b x n e' :=
  ⟨hm.keeps_inv hl h.inv h.fresh, hm.keeps_fresh h.inv h.fresh, hm.keeps_tracks h.inv h.tracks⟩

/-! ## ENC.POLL (R215) -/

theorem encPoll_ok {cap : Nat} (hc : 0 < cap) {status : Status} {out : List Byte} :
    encPoll b cap e = .ok (e', .polled status out) ↔
      ∃ k, encPollLoop b (encPollBound b e) e (.start cap) = .ok (e', k, status) ∧ k.out = out := by
  rw [encPoll, if_neg (Nat.ne_of_gt hc)]
  cases encPollLoop b (encPollBound b e) e (.start cap) with
  | error f => simp
  | ok r =>
    obtain ⟨e₁, k, st⟩ := r
    simp only [Except.ok.injEq, Prod.mk.injEq, Reply.polled.injEq]
    constructor
    · rintro ⟨rfl, rfl, rfl⟩; exact ⟨k, ⟨rfl, rfl, rfl⟩, rfl⟩
    · rintro ⟨k', ⟨rfl, rfl, rfl⟩, rfl⟩; exact ⟨rfl, rfl, rfl⟩

/-- Inside a poll that began in `e₀` with the capacity `cap`: the bytes delivered so far are the first of those owed. -/
structure Delivering (b : Build) (x : List Byte) (n : Nat) (e₀ : Enc) (cap : Nat) (e : Enc) (k : OutSink) : Prop where
  encoding : Encoding b x n e
  flags_eq : e.flags = e₀.flags
  cap_eq : k.cap = cap
  delivered : k.out ++ owed b x n e = owed b x n e₀

theorem EncMove.keeps_delivering {e₀ : Enc} {cap : Nat} {k k' : OutSink} (hl : b.legal = true)
    (h : Delivering b x n e₀ cap e k) (hm : EncMove b e k e' k') : Delivering b x n e₀ cap e' k' where
  encoding := hm.keeps_encoding hl h.encoding
  flags_eq := hm.flags_eq.trans h.flags_eq
  cap_eq := hm.cap_eq.trans h.cap_eq
  delivered := (hm.keeps_owed hl h.encoding.inv h.encoding.fresh h.encoding.tracks).trans h.delivered

/-- A poll delivers the first of the bytes owed: all that can be made, or as many as there is room for. -/
theorem encPoll_keeps (hl : b.legal = true) (h : Encoding b x n e) {cap : Nat} (hc : 0 < cap) {status : Status}
    {out : List Byte} (hp : encPoll b cap e = .ok (e', .polled status out)) :
    Encoding b x n e' ∧ e'.flags = e.flags ∧ out ++ owed b x n e' = owed b x n e ∧
      ((status = .empty ∧ (e'.state = .notFull ∨ e'.state = .done)) ∨ (status = .more ∧ out.length = cap)) := by
  obtain ⟨k, hloop, rfl⟩ := (encPoll_ok hc).mp hp
  have hstart : Delivering b x n e cap e (.start cap) := ⟨h, rfl, rfl, rfl⟩
  obtain ⟨hd, hst⟩ := encPollLoop_keeps (fun _ _ hd => hd.encoding.inv) (fun _ _ _ _ hd hm => hm.keeps_delivering hl hd)
    hstart hloop
  exact ⟨hd.encoding, hd.flags_eq, hd.delivered, hst.imp_right fun ⟨hm, hfull⟩ => ⟨hm, hfull.trans hd.cap_eq⟩⟩

theorem encPoll_returns (hl : b.legal = true) (h : Encoding b x n e) {cap : Nat} (hc : 0 < cap) :
    ∃ e' status out, encPoll b cap e = .ok (e', .polled status out) := by
  obtain ⟨⟨e', k, status⟩, hr⟩ := encPollLoop_returns hl h.inv h.fresh (k := .start cap) (Nat.zero_le _)
    (movesLeft_le_bound b e)
  exact ⟨e', status, k.out, (encPoll_ok hc).mpr ⟨k, hr, rfl⟩⟩

/-! ## ENC.DRAIN (R230) -/

/-- A drain delivers the first of the bytes owed and leaves the encoder at rest. -/
theorem encDrain_keeps (hl : b.legal = true) (h : Encoding b x n e) {out : List Byte} (hd : EncDrain b e out e') :
    Encoding b x n e' ∧ e'.flags = e.flags ∧ out ++ owed b x n e' = owed b x n e ∧
      (e'.state = .notFull ∨ e'.state = .done) := by
  induction hd with
  | last cap room poll =>
    obtain ⟨he, hf, hout, ⟨-, hrest⟩ | ⟨hm, -⟩⟩ := encPoll_keeps hl h room poll
    · exact ⟨he, hf, hout, hrest⟩
    · cases hm
  | more cap room poll rest ih =>
    obtain ⟨he₁, hf₁, hout₁, -⟩ := encPoll_keeps hl h room poll
    obtain ⟨he, hf, hout, hrest⟩ := ih he₁
    exact ⟨he, hf.trans hf₁, by rw [List.append_assoc, hout, hout₁], hrest⟩

/-- A drain is always possible: one poll with more room than bytes are owed. -/
theorem encDrain_exists (hl : b.legal = true) (h : Encoding b x n e) : ∃ out e', EncDrain b e out e' := by
  obtain ⟨e', status, out, hp⟩ := encPoll_returns hl h (Nat.succ_pos (owed b x n e).length)
  obtain ⟨-, -, hout, ⟨rfl, -⟩ | ⟨-, hfull⟩⟩ := encPoll_keeps hl h (Nat.succ_pos _) hp
  · exact ⟨out, e', .last _ (Nat.succ_pos _) hp⟩
  · have hlen := congrArg List.length hout
    rw [List.length_append] at hlen
    omega

/-! ## ENC.SINK (R214) -/

/-- A sink answers `Ok` only in `NotFull`, not finishing, and then it takes what fits. -/
theorem encSink_ok {input : List Byte} {k : Nat} (h : encSink b input e = (e', .sunk .ok k)) :
    e.finishing = false ∧ e.state = .notFull ∧ e' = encAccept b input e ∧ k = min (encRoom b e) input.length := by
  unfold encSink at h
  split at h
  · cases h
  · next hf =>
    split at h
    · next hq => cases h; exact ⟨Bool.eq_false_iff.mpr hf, hq, rfl, rfl⟩
    · split at h
      · cases hs : b.sinkFilledStatus <;> rw [hs] at h <;> cases h
      · cases h

/-- In `NotFull`, not finishing, a sink takes what fits. -/
theorem encSink_accepts (b : Build) (input : List Byte) (hf : e.finishing = false) (hq : e.state = .notFull) :
    encSink b input e = (encAccept b input e, .sunk .ok (min (encRoom b e) input.length)) := by
  rw [encSink, hf, if_neg Bool.false_ne_true, if_pos hq]

/-- More input in the input half, which is full now, or still has room. -/
theorem EncInv.append (hi : EncInv b e) (hf : e.finishing = false) {m : Memory} {c : Nat} {q : EncState} (hm : m.wf = true)
    (hmw : m.within (2 * b.window) = true)
    (hq : (q = .notFull ∧ e.inputSize + c < b.window) ∨ (q = .filled ∧ e.inputSize + c = b.window)) :
    EncInv b { e with buffer := m, inputSize := e.inputSize + c, state := q } := by
  have hs := hi.scan_le_size
  have hml := hi.match_in_input
  have hle : e.inputSize + c ≤ b.window := by omega
  have hdata : EncDataInv b { e with buffer := m, inputSize := e.inputSize + c, state := q } :=
    { hi.data with
      scan_le_size := Nat.le_add_right_of_le hs
      size_le_window := hle
      match_in_input := by dsimp only; omega
      buffer_wf := hm
      buffer_within := hmw }
  rcases hq with ⟨rfl, hc⟩ | ⟨rfl, hc⟩
  · exact .of_halves hdata
      { pass_is_full := fun _ h => absurd rfl h
        notFull_has_room := fun _ => hc
        notFull_not_finishing := fun _ => hf }
  · exact .of_halves hdata { pass_is_full := fun _ _ => hc }

/-- An accepting sink keeps the invariant: the state is `Filled` exactly when the input half is full (R214). -/
theorem EncInv.accept (hi : EncInv b e) (hf : e.finishing = false) (hq : e.state = .notFull) (input : List Byte) :
    EncInv b (encAccept b input e) := by
  have hroom := hi.notFull_has_room hq
  have hlen : (input.take (min (encRoom b e) input.length)).length = min (encRoom b e) input.length :=
    List.length_take_of_le (Nat.min_le_right _ _)
  have hle : min (encRoom b e) input.length ≤ encRoom b e := Nat.min_le_left _ _
  refine hi.append hf (Memory.wf_append _ _ _ hi.buffer_wf) (Memory.within_append _ _ _ _ ?_ hi.buffer_within) ?_
  · rw [hlen]
    unfold encRoom at *
    omega
  · unfold encRoom at *
    split
    · next hfull => exact .inr ⟨rfl, by omega⟩
    · exact .inl ⟨hq, by omega⟩

/-- An accepting sink takes the next bytes of the input (R214, 20_memory.md R64). -/
theorem Encoding.accept (h : Encoding b x n e) (hf : e.finishing = false) (hq : e.state = .notFull) (m : Nat) :
    Encoding b x (n + min (encRoom b e) ((x.drop n).take m).length) (encAccept b ((x.drop n).take m) e) := by
  have hsize := h.tracks.size_le
  have hn := h.tracks.accepted_le
  generalize hc : min (encRoom b e) ((x.drop n).take m).length = c
  have hcm : c ≤ ((x.drop n).take m).length := by omega
  have hcx : c ≤ x.length - n := by rw [List.length_take, List.length_drop] at hcm; omega
  refine ⟨h.inv.accept hf hq _, fun _ h1 h2 => ?_, ?_⟩
  · simp only [encAccept] at h1 h2
    split at h1
    · next hfull => exact absurd (if_pos hfull) h2
    · exact absurd hq h1
  · constructor
    case size_le => simp only [encAccept, hc]; omega
    case accepted_le => omega
    case all_accepted => exact fun hfin => absurd (hf.symm.trans hfin) Bool.false_ne_true
    case buffer =>
      intro a ha
      simp only [encAccept, hc] at ha ⊢
      rw [Memory.read_append _ _ _ _ h.inv.buffer_wf, List.length_take_of_le hcm, historyByte,
        show n + c - (e.inputSize + c) = n - e.inputSize by omega]
      by_cases hold : a < b.window + e.inputSize
      · rw [if_neg (by omega)]
        exact h.tracks.read hold
      · have htaken : (((x.drop n).take m).take c).getD (a - (b.window + e.inputSize)) 0 =
            x.getD (n + (a - (b.window + e.inputSize))) 0 := by
          simp only [List.getD_eq_getElem?_getD, List.getElem?_take, List.getElem?_drop]
          rw [List.length_take, List.length_drop] at hcm
          rw [if_pos (by omega), if_pos (by omega)]
        rw [if_pos (by omega), if_neg (by omega), htaken]
        congr 1
        omega

/-- An accepting sink owes what was owed before it: more of the input is in the buffer, but none of it is encoded. -/
theorem owed_accept (h : Encoding b x n e) (hq : e.state = .notFull) (input : List Byte) :
    owed b x (n + min (encRoom b e) input.length) (encAccept b input e) = owed b x n e := by
  have hpos : streamPos (n + min (encRoom b e) input.length) (encAccept b input e) = streamPos n e := by
    have := h.tracks.size_le
    simp only [streamPos, encAccept]
    omega
  have hstate : (encAccept b input e).state = .notFull ∨ (encAccept b input e).state = .filled := by
    simp only [encAccept, hq]
    split
    · exact .inr rfl
    · exact .inl rfl
  have hbits : owedBits b x (n + min (encRoom b e) input.length) (encAccept b input e) = owedBits b x n e := by
    rw [owedBits_between (.inl hq), owedBits_between (hstate.imp_right .inl), hpos]
  rw [owed_going (e := e) (by rw [hq]; nofun), owed_going (by rcases hstate with h | h <;> rw [h] <;> nofun), hbits]
  rfl

/-- Nothing in a sink touches the flags. -/
theorem encAccept_flags (b : Build) (input : List Byte) (e : Enc) : (encAccept b input e).flags = e.flags := rfl

theorem finishing_eq (h : e'.flags = e.flags) : e'.finishing = e.finishing := by
  rw [Enc.finishing, Enc.finishing, h]

/-- The sink loop delivers the first of the bytes owed, and ends with all of the input accepted. -/
theorem encFeed_keeps (hl : b.legal = true) {y out : List Byte} (hd : EncFeed b e y out e') :
    ∀ {n : Nat}, Encoding b x n e → y = x.drop n → (e.state = .notFull ∨ e.state = .done) →
      Encoding b x x.length e' ∧ out ++ owed b x x.length e' = owed b x n e ∧ (e'.state = .notFull ∨ e'.state = .done) := by
  induction hd with
  | done e =>
    intro n h hy hrest
    have hlen : x.length ≤ n := List.drop_eq_nil_iff.mp hy.symm
    obtain rfl : n = x.length := Nat.le_antisymm h.tracks.accepted_le hlen
    exact ⟨h, rfl, hrest⟩
  | sink m k accepted drain rest ih =>
    intro n h hy hrest
    subst hy
    obtain ⟨hf, hq, rfl, rfl⟩ := encSink_ok accepted
    obtain ⟨h₂, -, hout₂, hrest₂⟩ := encDrain_keeps hl (h.accept hf hq m) drain
    obtain ⟨h', hout', hrest'⟩ := ih h₂ (by rw [List.drop_drop]) hrest₂
    exact ⟨h', by rw [List.append_assoc, hout', hout₂, owed_accept h hq], hrest'⟩

/-- The sink loop can always go on to its end, each time with all that is left. -/
theorem encFeed_exists (hl : b.legal = true) (x : List Byte) (left : Nat) :
    ∀ {n : Nat} {e : Enc}, Encoding b x n e → x.length - n ≤ left → e.state = .notFull →
      ∃ out e', EncFeed b e (x.drop n) out e' := by
  induction left with
  | zero =>
    intro n e h hleft _
    rw [List.drop_eq_nil_iff.mpr (by omega)]
    exact ⟨[], e, .done e⟩
  | succ left ih =>
    intro n e h hleft hq
    by_cases hend : x.length ≤ n
    · rw [List.drop_eq_nil_iff.mpr hend]
      exact ⟨[], e, .done e⟩
    · have hf := h.inv.notFull_not_finishing hq
      have h₁ := h.accept hf hq (x.drop n).length
      have hs := encSink_accepts b ((x.drop n).take (x.drop n).length) hf hq
      have htaken : 0 < min (encRoom b e) ((x.drop n).take (x.drop n).length).length := by
        have := h.inv.notFull_has_room hq
        simp only [List.length_take, List.length_drop, encRoom]
        omega
      obtain ⟨out₂, e₂, hd⟩ := encDrain_exists hl h₁
      obtain ⟨h₂, hflags, -, hrest⟩ := encDrain_keeps hl h₁ hd
      have hq₂ : e₂.state = .notFull := by
        refine hrest.resolve_right fun hdone => ?_
        have hfin := (h₂.inv.flush_at_end (.inr hdone)).1
        rw [finishing_eq hflags, finishing_eq (encAccept_flags b _ e), hf] at hfin
        cases hfin
      obtain ⟨later, e', hfeed⟩ := ih h₂ (by omega) hq₂
      exact ⟨out₂ ++ later, e', .sink _ _ hs hd (by rw [List.drop_drop]; exact hfeed)⟩

/-! ## ENC.FINISH and ENC.CLOSE (R216, R231) -/

theorem encFinish_eq (e : Enc) :
    encFinish e = ({ e.setFinishing with state := if e.state = .notFull then .filled else e.state },
      .finished (if e.state = .done then .done else .more)) := by
  have hdone : (if e.state = .notFull then EncState.filled else e.state) = .done ↔ e.state = .done := by
    split
    · next h => simp [h]
    · exact Iff.rfl
  simp only [encFinish, hdone]

/-- The flag set leaves the reserved bits as they are (10_state.md R27). -/
theorem flags_or_one (f : BitVec 8) : (f ||| 1) &&& 0xFE = f &&& 0xFE := by
  rw [BitVec.and_or_distrib_right]
  exact BitVec.or_zero

/-- A finish at rest keeps the invariant: it forces `NotFull` to `Filled` (R216). -/
theorem EncInv.finish (hi : EncInv b e) {q : EncState}
    (hq : (e.state = .notFull ∧ q = .filled) ∨ (e.state = .done ∧ q = .done)) :
    EncInv b { e.setFinishing with state := q } := by
  have hfin : e.setFinishing.finishing = true := e.setFinishing_finishing
  have hdata : EncDataInv b { e.setFinishing with state := q } :=
    { hi.data with flags_reserved := (flags_or_one e.flags).trans hi.flags_reserved }
  have hpass (h : e.setFinishing.finishing = false) : e.inputSize = b.window :=
    absurd (hfin.symm.trans h) Bool.noConfusion
  rcases hq with ⟨-, rfl⟩ | ⟨hq, rfl⟩
  · exact .of_halves hdata { pass_is_full := fun h _ => hpass h }
  · exact .of_halves hdata
      { pass_is_full := fun h _ => hpass h
        flush_at_end := fun _ => ⟨hfin, (hi.flush_at_end (.inr hq)).2⟩ }

/-- A finish in `NotFull`, with all of the input accepted, starts the last pass; what is owed stays. -/
theorem encFinish_notFull (h : Encoding b x x.length e) (hq : e.state = .notFull) :
    ∃ e₁, encFinish e = (e₁, .finished .more) ∧ Encoding b x x.length e₁ ∧ e₁.finishing = true ∧
      owed b x x.length e₁ = owed b x x.length e := by
  refine ⟨{ e.setFinishing with state := .filled }, by rw [encFinish_eq, hq]; rfl,
    ⟨h.inv.finish (.inl ⟨hq, rfl⟩), fun _ _ hne => absurd rfl hne, { h.tracks with all_accepted := fun _ => rfl }⟩,
    e.setFinishing_finishing, ?_⟩
  rw [owed_going (e := e) (by rw [hq]; nofun), owed_going (by nofun), owedBits_between (.inl hq),
    owedBits_between (.inr (.inl rfl))]
  rfl

theorem encFinish_done (hq : e.state = .done) : (encFinish e).2 = .finished .done := by
  rw [encFinish_eq, if_pos hq]

/-- A drain after a finish ends in `Done`. -/
theorem encDrain_done (hl : b.legal = true) (h : Encoding b x n e) (hf : e.finishing = true) {out : List Byte}
    (hd : EncDrain b e out e') : Encoding b x n e' ∧ out = owed b x n e ∧ e'.state = .done := by
  obtain ⟨h', hflags, hout, hrest⟩ := encDrain_keeps hl h hd
  have hq : e'.state = .done := by
    refine hrest.resolve_left fun hq => ?_
    have hnot := h'.inv.notFull_not_finishing hq
    rw [finishing_eq hflags, hf] at hnot
    cases hnot
  rw [owed_done hq, List.append_nil] at hout
  exact ⟨h', hout, hq⟩

/-- Closing delivers all the bytes owed. -/
theorem encClose_delivers (hl : b.legal = true) {out : List Byte} (hc : EncClose b e out e') (h : Encoding b x x.length e)
    (hrest : e.state = .notFull ∨ e.state = .done) : out = owed b x x.length e := by
  induction hc with
  | done finish =>
    rcases hrest with hq | hq
    · obtain ⟨e₁, hmore, -⟩ := encFinish_notFull h hq
      rw [hmore] at finish
      cases finish
    · exact (owed_done hq).symm
  | more finish drain rest ih =>
    rcases hrest with hq | hq
    · obtain ⟨e₁, hmore, h₁, hf, howed⟩ := encFinish_notFull h hq
      rw [hmore] at finish
      cases finish
      obtain ⟨h₂, hout, hq₂⟩ := encDrain_done hl h₁ hf drain
      rw [ih h₂ (.inr hq₂), owed_done hq₂, List.append_nil, hout, howed]
    · have := encFinish_done hq
      rw [finish] at this
      cases this

/-- Closing is always possible. -/
theorem encClose_exists (hl : b.legal = true) (h : Encoding b x x.length e) (hrest : e.state = .notFull ∨ e.state = .done) :
    ∃ out e', EncClose b e out e' := by
  rcases hrest with hq | hq
  · obtain ⟨e₁, hmore, h₁, hf, -⟩ := encFinish_notFull h hq
    obtain ⟨out, e₂, hd⟩ := encDrain_exists hl h₁
    obtain ⟨-, -, hq₂⟩ := encDrain_done hl h₁ hf hd
    exact ⟨out ++ [], _, .more hmore hd (.done (Prod.ext rfl (encFinish_done hq₂)))⟩
  · exact ⟨[], _, .done (Prod.ext rfl (encFinish_done hq))⟩

/-! ## From reset to the end -/

/-- The reset encoder meets the invariant (10_state.md R46). -/
theorem EncInv.reset (b : Build) : EncInv b .reset :=
  .of_halves
    { scan_le_size := Nat.le_refl 0
      size_le_window := Nat.zero_le _
      match_in_input := .inl rfl
      unfilled_zero := rfl
      filled_le := Nat.zero_le _
      filled_partial := fun _ => Nat.zero_le _
      outgoing_le := Nat.zero_le _
      flags_reserved := rfl
      buffer_wf := rfl
      buffer_within := rfl
      index_wf := rfl
      index_within := rfl
      index_below := nofun }
    { pass_is_full := fun _ h => absurd rfl h
      notFull_has_room := fun _ => Nat.two_pow_pos _
      notFull_not_finishing := fun _ => rfl }

/-- The reset encoder is at the start of any input, which it owes compressed. -/
theorem Encoding.reset (b : Build) (x : List Byte) : Encoding b x 0 .reset where
  inv := .reset b
  fresh := fun _ h => absurd rfl h
  tracks :=
    { size_le := Nat.le_refl 0
      accepted_le := Nat.zero_le _
      all_accepted := nofun
      buffer := fun a ha => (if_pos (by simpa [Enc.reset] using ha)).symm }

theorem owed_reset (b : Build) (x : List Byte) : owed b x 0 .reset = compressed b x := rfl

/-- A complete encode delivers the compressed stream. -/
theorem encodes_compressed (hl : b.legal = true) {z : List Byte} (h : Encodes b x z) : z = compressed b x := by
  obtain ⟨fed, closing, e, e', hfeed, hclose, rfl⟩ := h
  obtain ⟨he, hout, hrest⟩ := encFeed_keeps hl hfeed (.reset b x) rfl (.inl rfl)
  rw [encClose_delivers hl hclose he hrest, hout, owed_reset]

/-- A complete encode exists. -/
theorem encodes_exists (hl : b.legal = true) (x : List Byte) : ∃ z, Encodes b x z := by
  obtain ⟨fed, e, hfeed⟩ := encFeed_exists hl x x.length (.reset b x) (Nat.sub_le _ _) rfl
  obtain ⟨he, -, hrest⟩ := encFeed_keeps hl hfeed (.reset b x) rfl (.inl rfl)
  obtain ⟨closing, e', hclose⟩ := encClose_exists hl he hrest
  exact ⟨fed ++ closing, fed, closing, e, e', hfeed, hclose, rfl⟩

end

end Sys2Proof.Machine

namespace Sys2Proof.Proofs

open Sys2Proof.Machine

/-- Settles O59: what is delivered and owed together is kept by every move of the encoder and every command of the host,
from the compressed stream owed at reset to nothing owed at the end; and a complete encode exists, since every poll
returns. -/
theorem encoderComputesCompressed : Obligations.EncoderComputesCompressed := by
  intro b x z hl
  refine ⟨encodes_compressed hl, ?_⟩
  rintro rfl
  obtain ⟨z, hz⟩ := encodes_exists hl x
  rwa [← encodes_compressed hl hz]

end Sys2Proof.Proofs
end

section
/-! SUPPORT. The decoder's micro-steps, each under the name of what it does (43_decoder_fsm.md R190 to R196), without any
premise on the state: what a transition that completes has done. -/

namespace Sys2Proof.Machine

/-- The moves of the decoder inside a poll, each with the state it starts in. -/
inductive DecMove (b : Build) (d : Dec) (k : OutSink) : Dec → OutSink → Prop where
  /-- The bits that the state asks for are not there (R132). -/
  | starved (short : bitsAvailable d < wantedBits b d.state) : DecMove b d k d k
  /-- The literal waits for room (R192). -/
  | full (at_state : d.state = .yieldLiteral) (no_room : k.cap ≤ k.produced) : DecMove b d k d k
  /-- The tag bit announces a literal (R191). -/
  | literalTag {bit : Nat} {d₁ : Dec} (at_state : d.state = .tagBit) (took : getBits b 1 d = .ok (some (bit, d₁)))
      (one : bit ≠ 0) : DecMove b d k { d₁ with state := .yieldLiteral } k
  /-- The tag bit announces a backreference (R191). -/
  | backrefTag {d₁ : Dec} (at_state : d.state = .tagBit) (took : getBits b 1 d = .ok (some (0, d₁))) :
      DecMove b d k { d₁ with
        outputIndex := 0, state := if 8 < b.windowBits then .backrefIndexMsb else .backrefIndexLsb } k
  /-- A literal is produced (R192). -/
  | literal {c : Nat} {d₁ : Dec} (at_state : d.state = .yieldLiteral) (room : k.produced < k.cap)
      (took : getBits b 8 d = .ok (some (c, d₁))) :
      DecMove b d k { (produceByte b (BitVec.ofNat 8 c) d₁ k).1 with state := .tagBit }
        (produceByte b (BitVec.ofNat 8 c) d₁ k).2
  /-- The high piece of the distance is read (R193). -/
  | highPiece {v : Nat} {d₁ : Dec} (at_state : d.state = .backrefIndexMsb) (wide : 8 < b.windowBits)
      (took : getBits b (highIndexBits b) d = .ok (some (v, d₁))) :
      DecMove b d k { d₁ with outputIndex := v <<< 8, state := .backrefIndexLsb } k
  /-- The low piece of the distance is read, and the distance is complete (R194). -/
  | lowPiece {v : Nat} {d₁ : Dec} (at_state : d.state = .backrefIndexLsb)
      (took : getBits b (lowIndexBits b) d = .ok (some (v, d₁))) :
      DecMove b d k { d₁ with
        outputIndex := operandOfField (d.outputIndex ||| v), outputCount := 0, state := .backrefCountLsb } k
  /-- The length is read (R195). -/
  | length {v : Nat} {d₁ : Dec} (at_state : d.state = .backrefCountLsb)
      (took : getBits b b.lookaheadBits d = .ok (some (v, d₁))) :
      DecMove b d k { d₁ with outputCount := operandOfField v, state := .yieldBackref } k
  /-- Bytes of the pending backreference are copied, as many as there is room for (R196). -/
  | copy (at_state : d.state = .yieldBackref) : DecMove b d k (copyBackref b d k).1 (copyBackref b d k).2

section
variable {b : Build} {d d' : Dec} {k k' : OutSink}

/-- `get_bits` answers nothing only when the bits are not there (R131). -/
theorem getBits_none {n : Nat} (h : getBits b n d = .ok none) : bitsAvailable d < n := by
  rcases getBits_cases b n d with ⟨hlt, -⟩ | ⟨-, v, d₁, -, h'⟩ | ⟨-, f, -, h'⟩
  · exact hlt
  · rw [h'] at h; cases h
  · rw [h'] at h; cases h

theorem tagBitStep_moves (hq : d.state = .tagBit) (h : tagBitStep b d k = .ok (d', k')) : DecMove b d k d' k' := by
  unfold tagBitStep at h
  split at h
  · cases h
  · next hg => cases h; exact .starved (by rw [hq]; exact getBits_none hg)
  · next bit d₁ hg =>
    split at h
    · next h0 => cases h; exact .backrefTag hq (h0 ▸ hg)
    · next h0 => cases h; exact .literalTag hq hg h0

theorem decLiteralStep_moves (hq : d.state = .yieldLiteral) (h : decLiteralStep b d k = .ok (d', k')) :
    DecMove b d k d' k' := by
  unfold decLiteralStep at h
  split at h
  · next hk =>
    split at h
    · cases h
    · next hg => cases h; exact .starved (by rw [hq]; exact getBits_none hg)
    · next hg => cases h; exact .literal hq (k.canTakeByte_iff.mp hk) hg
  · next hk => cases h; exact .full hq (Nat.le_of_not_lt fun hlt => hk (k.canTakeByte_iff.mpr hlt))

theorem backrefIndexMsbStep_moves (hq : d.state = .backrefIndexMsb) (h : backrefIndexMsbStep b d k = .ok (d', k')) :
    DecMove b d k d' k' := by
  unfold backrefIndexMsbStep at h
  split at h
  · next hw =>
    split at h
    · cases h
    · next hg => cases h; exact .starved (by rw [hq]; exact getBits_none hg)
    · next hg => cases h; exact .highPiece hq hw hg
  · cases h

theorem backrefIndexLsbStep_moves (hq : d.state = .backrefIndexLsb) (h : backrefIndexLsbStep b d k = .ok (d', k')) :
    DecMove b d k d' k' := by
  unfold backrefIndexLsbStep at h
  split at h
  · cases h
  · next hg => cases h; exact .starved (by rw [hq]; exact getBits_none hg)
  · next hg => cases h; exact .lowPiece hq hg

theorem backrefCountLsbStep_moves (hq : d.state = .backrefCountLsb) (h : backrefCountLsbStep b d k = .ok (d', k')) :
    DecMove b d k d' k' := by
  unfold backrefCountLsbStep at h
  split at h
  · cases h
  · next hg => cases h; exact .starved (by rw [hq]; exact getBits_none hg)
  · next hg => cases h; exact .length hq hg

/-- A micro-step that completes is one of the moves (R190). -/
theorem decStep_moves (h : decStep b d k = .ok (d', k')) : DecMove b d k d' k' := by
  unfold decStep at h
  split at h
  · next hq => exact tagBitStep_moves hq h
  · next hq => exact decLiteralStep_moves hq h
  · next hq => exact backrefIndexMsbStep_moves hq h
  · next hq => exact backrefIndexLsbStep_moves hq h
  · next hq => exact backrefCountLsbStep_moves hq h
  · next hq => obtain ⟨rfl, rfl⟩ := Prod.ext_iff.mp (Except.ok.inj h); exact .copy hq

/-! ## The loop of a poll (44_streaming_protocol.md R221) -/

/-- A poll keeps what every move keeps. -/
theorem decPollLoop_keeps {P : Dec → OutSink → Prop} (hstep : ∀ d k d' k', P d k → DecMove b d k d' k' → P d' k')
    {fuel : Nat} {status : Status} (h : P d k) (hr : decPollLoop b fuel d k = .ok (d', k', status)) : P d' k' := by
  induction fuel generalizing d k with
  | zero => cases hr
  | succ fuel ih =>
    rw [decPollLoop] at hr
    split at hr
    · cases hr
    · next d₁ k₁ hok =>
      have h₁ := hstep d k d₁ k₁ h (decStep_moves hok)
      split at hr
      · cases hr; exact h₁
      · exact ih h₁ hr

/-- What `DEC.POLL` does to the decoder: nothing with no room asked for, else what its moves do. -/
theorem decPoll_keeps {P : Dec → OutSink → Prop} (hstep : ∀ d k d' k', P d k → DecMove b d k d' k' → P d' k')
    {cap : Nat} {r : Reply} (h : P d (.start cap)) (hp : decPoll b cap d = .ok (d', r)) :
    ∃ k' status, P d' k' ∧ r = .polled status k'.out := by
  unfold decPoll at hp
  split at hp
  · cases hp; exact ⟨.start cap, .misuse, h, rfl⟩
  · split at hp
    · cases hp
    · next hl => cases hp; exact ⟨_, _, decPollLoop_keeps hstep h hl, rfl⟩

end

end Sys2Proof.Machine
end

section
/-! SUPPORT. The moves of the decoder keep its invariant (10_state.md R41). -/

namespace Sys2Proof.Machine

section
variable {b : Build} {d d' : Dec} {k k' : OutSink}

/-! ## Taking bits (40_bit_accumulator.md R131) -/

/-- The value read is the bits before it followed by `n` new ones. -/
theorem takeBits_lt {n acc v : Nat} (h : takeBits b n acc d = .ok (v, d')) : v < (acc + 1) * 2 ^ n := by
  induction n generalizing acc d with
  | zero => cases h; simp
  | succ n ih =>
    simp only [takeBits] at h
    split at h
    · cases h
    · next loaded _ =>
      have hbit : (deliverBit loaded).1 < 2 := Bool.toNat_lt _
      calc v < (2 * acc + (deliverBit loaded).1 + 1) * 2 ^ n := ih h
        _ ≤ ((acc + 1) * 2) * 2 ^ n := Nat.mul_le_mul_right _ (by omega)
        _ = (acc + 1) * 2 ^ (n + 1) := by rw [Nat.pow_succ]; ring

theorem getBits_some {n v : Nat} (h : getBits b n d = .ok (some (v, d'))) :
    n ≤ bitsAvailable d ∧ takeBits b n 0 d = .ok (v, d') := by
  rcases getBits_cases b n d with ⟨-, h'⟩ | ⟨hle, w, d₁, ht, h'⟩ | ⟨-, f, -, h'⟩
  · rw [h'] at h; cases h
  · rw [h'] at h; cases h; exact ⟨hle, ht⟩
  · rw [h'] at h; cases h

theorem getBits_lt {n v : Nat} (h : getBits b n d = .ok (some (v, d'))) : v < 2 ^ n := by
  simpa using takeBits_lt (getBits_some h).2

/-- A staging fetch of a byte that is there keeps the staging indices as they must be (20_memory.md R72). -/
theorem stagingFetch_stagingOk (hok : stagingOk b d) (hi : d.inputIndex < d.inputSize) (h : stagingFetch b d = .ok d') :
    stagingOk b d' := by
  obtain ⟨-, rfl⟩ := stagingFetch_ok h
  obtain ⟨hs, -, -⟩ := hok
  unfold stagingOk
  dsimp only
  split <;> omega

/-- Bits that are there are taken with the staging indices and the accumulator kept as they must be (10_state.md R41). -/
theorem takeBits_stagingOk {n acc v : Nat} (hok : stagingOk b d) (hn : n ≤ bitsAvailable d)
    (h : takeBits b n acc d = .ok (v, d')) : stagingOk b d' := by
  induction n generalizing acc d with
  | zero => cases h; exact hok
  | succ n ih =>
    simp only [takeBits] at h
    split at h
    · cases h
    · next loaded hl =>
      have hloaded : stagingOk b loaded ∧ bitsAvailable loaded = bitsAvailable d ∧ 0 < loaded.bitIndex := by
        split at hl
        · next h0 =>
          have hi : d.inputIndex < d.inputSize := by unfold bitsAvailable at hn; omega
          refine ⟨stagingFetch_stagingOk hok hi hl, stagingFetch_available hl h0 hi, ?_⟩
          obtain ⟨-, rfl⟩ := stagingFetch_ok hl
          exact Nat.succ_pos 7
        · next h0 => cases hl; exact ⟨hok, rfl, Nat.pos_of_ne_zero h0⟩
      obtain ⟨⟨hs, hi, h8⟩, hav, hpos⟩ := hloaded
      refine ih (d := (deliverBit loaded).2) ⟨hs, hi, Nat.le_trans (Nat.sub_le _ _) h8⟩ ?_ h
      simp only [bitsAvailable, deliverBit] at hav hn ⊢
      omega


/-- The bits that the decoder has are those of the stream that it has not read (R129, R130). -/
theorem unreadBits_length (d : Dec) : (unreadBits d).length = bitsAvailable d := by
  simp [unreadBits, streamBits_length, stagedBytes, bitsAvailable]

/-! ## The invariant in two halves -/

/-- The part of the invariant that does not speak of `dec.state`: the staging indices, the accumulator and the memories. -/
structure DecDataInv (b : Build) (d : Dec) : Prop where
  staging_ok : stagingOk b d
  window_wf : d.window.wf = true
  window_within : d.window.within b.window = true
  staging_wf : d.staging.wf = true
  staging_within : d.staging.within b.stagingSize = true
  window_unwritten : ∀ a, d.headIndex ≤ a → a < b.window → d.window.read a = 0

/-- The part of the invariant that says what `dec.state` promises; a fact about another state than the present one needs no
proof of its own. -/
structure DecStateInv (b : Build) (d : Dec) : Prop where
  copy_in_range : d.state = .yieldBackref →
    1 ≤ d.outputIndex ∧ d.outputIndex ≤ b.window ∧ 1 ≤ d.outputCount ∧ d.outputCount ≤ b.lookahead := by nofun
  no_copy_no_count : d.state ≠ .yieldBackref → d.outputCount = 0
  msb_only_wide : d.state = .backrefIndexMsb → 8 < b.windowBits := by nofun
  high_field : d.state = .backrefIndexLsb →
    d.outputIndex < b.window ∧ d.outputIndex % 2 ^ lowIndexBits b = 0 := by nofun
  distance_in_range : d.state = .backrefCountLsb → 1 ≤ d.outputIndex ∧ d.outputIndex ≤ b.window := by nofun

theorem DecInv.data (hi : DecInv b d) : DecDataInv b d :=
  { hi with staging_ok := ⟨hi.staged_le, hi.index_lt_size, hi.undelivered_le⟩ }

theorem DecInv.of_halves (hd : DecDataInv b d) (hs : DecStateInv b d) : DecInv b d :=
  { hd, hs with
    staged_le := hd.staging_ok.1
    index_lt_size := hd.staging_ok.2.1
    undelivered_le := hd.staging_ok.2.2 }

/-- Outside a copy nothing is left to copy (R41 part d). -/
theorem DecInv.no_count (hi : DecInv b d) {q : DecState} (hq : d.state = q) (hne : q ≠ .yieldBackref) :
    d.outputCount = 0 :=
  hi.no_copy_no_count (hq ▸ hne)

/-! ## The operations of the moves -/

theorem DecDataInv.takeBits {n acc v : Nat} (hd : DecDataInv b d) (hn : n ≤ bitsAvailable d)
    (h : takeBits b n acc d = .ok (v, d')) : DecDataInv b d' := by
  have hok := takeBits_stagingOk hd.staging_ok hn h
  obtain ⟨c, i, size, index, rfl⟩ := takeBits_frame h
  exact { hd with staging_ok := hok }

theorem DecDataInv.getBits {n v : Nat} (hd : DecDataInv b d) (h : getBits b n d = .ok (some (v, d'))) :
    DecDataInv b d' :=
  hd.takeBits (getBits_some h).1 (getBits_some h).2

/-- Taking bits that are there keeps the invariant: it writes the accumulator and the staging indices alone. -/
theorem DecInv.takeBits {n acc v : Nat} (hi : DecInv b d) (hn : n ≤ bitsAvailable d)
    (h : takeBits b n acc d = .ok (v, d')) : DecInv b d' := by
  have hd := hi.data.takeBits hn h
  obtain ⟨c, i, size, index, rfl⟩ := takeBits_frame h
  exact .of_halves hd { hi with }

theorem produceByte_fst (b : Build) (c : Byte) (d : Dec) (k : OutSink) :
    (produceByte b c d k).1 =
      { d with window := d.window.write (d.headIndex % b.window) c, headIndex := d.headIndex + 1 } := rfl

/-- A byte is produced at the head: the cells at and above the new head are still unwritten (20_memory.md R68). -/
theorem DecDataInv.produceByte (hd : DecDataInv b d) (c : Byte) : DecDataInv b (produceByte b c d k).1 := by
  have hhead : d.headIndex % b.window < b.window := Nat.mod_lt _ (Nat.two_pow_pos _)
  exact { hd with
    staging_ok := hd.staging_ok
    window_wf := Memory.wf_write _ _ _ hd.window_wf
    window_within := Memory.within_write _ _ _ _ hhead hd.window_within
    window_unwritten := fun a ha haw => by
      have hle : d.headIndex + 1 ≤ a := ha
      have hne : a ≠ d.headIndex % b.window := by rw [Nat.mod_eq_of_lt (by omega)]; omega
      rw [produceByte_fst, Memory.read_write _ _ _ _ hd.window_wf, if_neg hne]
      exact hd.window_unwritten a (by omega) haw }

theorem DecDataInv.copyBytes (n : Nat) (hd : DecDataInv b d) : DecDataInv b (copyBytes b n d k).1 := by
  induction n generalizing d k with
  | zero => exact hd
  | succ n ih => exact ih { hd.produceByte (k := k) (copySource b d) with }

/-- A copy keeps the invariant: what is not copied yet stays in range (R196). -/
theorem DecInv.copyBackref (hi : DecInv b d) (hq : d.state = .yieldBackref) : DecInv b (copyBackref b d k).1 := by
  obtain ⟨hi1, hiN, -, hcL⟩ := hi.copy_in_range hq
  have hdata := hi.data.copyBytes (k := k) (copyCount d k)
  obtain ⟨w, hw⟩ := copyBytes_frame b (copyCount d k) d k
  unfold Machine.copyBackref
  split
  · exact hi
  · dsimp only
    rw [hw] at hdata ⊢
    split
    · next h0 => exact .of_halves { hdata with } { no_copy_no_count := fun _ => h0 }
    · next h0 =>
      rw [hw]
      refine .of_halves hdata { hi with copy_in_range := fun _ => ?_, no_copy_no_count := fun h => absurd hq h }
      dsimp only at h0 ⊢
      omega

/-- The two pieces of the distance field make a number of `W` bits (R194). -/
theorem distance_le_window {high v : Nat} (hh : high < b.window) (hv : v < 2 ^ lowIndexBits b) :
    operandOfField (high ||| v) ≤ b.window := by
  have hv' : v < b.window := Nat.lt_of_lt_of_le hv (Nat.pow_le_pow_right (by omega) (Nat.min_le_left _ _))
  exact Nat.or_lt_two_pow hh hv'

/-- The high piece, of `W - 8` bits, stands above the low one (R193). -/
theorem highPiece_field {v : Nat} (hw : 8 < b.windowBits) (hv : v < 2 ^ highIndexBits b) :
    v <<< 8 < b.window ∧ v <<< 8 % 2 ^ lowIndexBits b = 0 := by
  have hlow : lowIndexBits b = 8 := Nat.min_eq_right (by omega)
  rw [Nat.shiftLeft_eq, hlow]
  refine ⟨?_, Nat.mul_mod_left _ _⟩
  calc v * 2 ^ 8 < 2 ^ highIndexBits b * 2 ^ 8 := Nat.mul_lt_mul_of_pos_right hv (Nat.two_pow_pos 8)
    _ = b.window := by rw [← Nat.pow_add, highIndexBits, Nat.sub_add_cancel (by omega)]; rfl

/-- Every move keeps the invariant of the decoder (R41). -/
theorem DecMove.keeps_inv (hi : DecInv b d) (hm : DecMove b d k d' k') : DecInv b d' := by
  have hframe {n v : Nat} {d₁ : Dec} (took : getBits b n d = .ok (some (v, d₁))) :
      d₁.outputCount = d.outputCount ∧ d₁.outputIndex = d.outputIndex := by
    obtain ⟨c, i, size, index, rfl⟩ := getBits_frame took
    exact ⟨rfl, rfl⟩
  cases hm with
  | starved | full => exact hi
  | literalTag hq took =>
    exact .of_halves { hi.data.getBits took with }
      { no_copy_no_count := fun _ => (hframe took).1.trans (hi.no_count hq nofun) }
  | backrefTag hq took =>
    have hdata := hi.data.getBits took
    have hcount := (hframe took).1.trans (hi.no_count hq nofun)
    split
    · next hw => exact .of_halves { hdata with } { no_copy_no_count := fun _ => hcount, msb_only_wide := fun _ => hw }
    · exact .of_halves { hdata with }
        { no_copy_no_count := fun _ => hcount, high_field := fun _ => ⟨Nat.two_pow_pos _, Nat.zero_mod _⟩ }
  | literal hq room took =>
    exact .of_halves { (hi.data.getBits took).produceByte (k := k) _ with }
      { no_copy_no_count := fun _ => (hframe took).1.trans (hi.no_count hq nofun) }
  | highPiece hq hw took =>
    exact .of_halves { hi.data.getBits took with }
      { no_copy_no_count := fun _ => (hframe took).1.trans (hi.no_count hq nofun)
        high_field := fun _ => highPiece_field hw (getBits_lt took) }
  | lowPiece hq took =>
    exact .of_halves { hi.data.getBits took with }
      { no_copy_no_count := fun _ => rfl
        distance_in_range := fun _ =>
          ⟨Nat.le_add_left 1 _, distance_le_window (hi.high_field hq).1 (getBits_lt took)⟩ }
  | length hq took =>
    obtain ⟨h1, hN⟩ := hi.distance_in_range hq
    have hidx := (hframe took).2
    exact .of_halves { hi.data.getBits took with }
      { no_copy_no_count := fun h => absurd rfl h
        copy_in_range := fun _ => ⟨hidx ▸ h1, hidx ▸ hN, Nat.le_add_left 1 _, getBits_lt took⟩ }
  | copy hq => exact hi.copyBackref hq

/-! ## Room in the output (44_streaming_protocol.md R212) -/

/-- A copy produces no more than there is room for. -/
theorem copyBackref_produced_le (b : Build) (d : Dec) (h : k.produced ≤ k.cap) :
    (copyBackref b d k).2.cap = k.cap ∧ (copyBackref b d k).2.produced ≤ k.cap := by
  obtain ⟨bytes, hlen, hout⟩ := copyBytes_out b (copyCount d k) d k
  have hroom : copyCount d k ≤ k.cap - k.produced := Nat.min_le_right _ _
  have hcopied : (copyBytes b (copyCount d k) d k).2.produced ≤ k.cap := by
    rw [hout]
    simp only [OutSink.produced, List.length_append, hlen] at hroom h ⊢
    omega
  unfold copyBackref
  split
  · exact ⟨rfl, h⟩
  · dsimp only
    split <;> exact ⟨by rw [hout], hcopied⟩

theorem produceByte_sinkInv (b : Build) (c : Byte) (d : Dec) (hs : sinkInv k) (room : k.produced < k.cap) :
    sinkInv (produceByte b c d k).2 := by
  refine ⟨hs.1, ?_⟩
  change (k.emit c).produced ≤ k.cap
  rw [OutSink.emit_produced]
  exact room

theorem copyBackref_sinkInv (b : Build) (d : Dec) (hs : sinkInv k) : sinkInv (copyBackref b d k).2 := by
  obtain ⟨hcap, hle⟩ := copyBackref_produced_le b d hs.2
  exact ⟨hcap ▸ hs.1, hcap ▸ hle⟩

theorem DecMove.keeps_sinkInv (hs : sinkInv k) (hm : DecMove b d k d' k') : sinkInv k' := by
  cases hm with
  | literal _ room => exact produceByte_sinkInv b _ _ hs room
  | copy => exact copyBackref_sinkInv b d hs
  | _ => exact hs

/-! ## Commands and tokens -/

/-- The reset decoder meets the invariant (10_state.md R46). -/
theorem DecInv.reset (b : Build) : DecInv b .reset :=
  .of_halves
    { staging_ok := ⟨Nat.zero_le _, .inr ⟨rfl, rfl⟩, Nat.zero_le _⟩
      window_wf := rfl
      window_within := rfl
      staging_wf := rfl
      staging_within := rfl
      window_unwritten := fun _ _ _ => rfl }
    { no_copy_no_count := fun _ => rfl }

/-- A sink stages no more bytes than there is room for (R220). -/
theorem DecInv.sink (hi : DecInv b d) (input : List Byte) : DecInv b (decSink b input d).1 := by
  unfold decSink
  split
  · exact hi
  · next hroom =>
    obtain ⟨hsize, hindex, hbits⟩ := hi.data.staging_ok
    have hlen : (input.take (min (decRoom b d) input.length)).length = min (decRoom b d) input.length :=
      List.length_take_of_le (Nat.min_le_right _ _)
    have hfits : d.inputSize + min (decRoom b d) input.length ≤ b.stagingSize := by
      unfold decRoom at *
      omega
    exact .of_halves
      { hi.data with
        staging_ok := ⟨hfits, by dsimp only; omega, hbits⟩
        staging_wf := Memory.wf_append _ _ _ hi.staging_wf
        staging_within := Memory.within_append _ _ _ _ (by rw [hlen]; exact hfits) hi.staging_within }
      { hi with }

/-- A poll keeps the invariant, since every move does (R221). -/
theorem DecInv.poll (hi : DecInv b d) {cap : Nat} {r : Reply} (hp : decPoll b cap d = .ok (d', r)) : DecInv b d' := by
  obtain ⟨-, -, hd, -⟩ := decPoll_keeps (P := fun d _ => DecInv b d) (fun _ _ _ _ hd hm => hm.keeps_inv hd) hi hp
  exact hd

/-- A literal token keeps the invariant (R192). -/
theorem DecInv.literalToken (hi : DecInv b d) (value : Byte) : DecInv b (runLiteral b value d k).1 := by
  unfold runLiteral
  split
  · exact .of_halves (hi.data.produceByte value) { hi with }
  · exact hi

theorem runLiteral_sinkInv (b : Build) (value : Byte) (d : Dec) (hs : sinkInv k) :
    sinkInv (runLiteral b value d k).2 := by
  unfold runLiteral
  split
  · next hk => exact produceByte_sinkInv b value d hs (k.canTakeByte_iff.mp hk)
  · exact hs

/-- A backreference token keeps the invariant: its fields are those of the build (R194, R195). -/
theorem DecInv.backrefToken (hi : DecInv b d) {index count : Nat} (hI : index < b.window) (hC : count < b.lookahead) :
    DecInv b (runBackref b index count d k).1 := by
  have hloaded : DecInv b (loadBackref index count d) :=
    .of_halves { hi.data with }
      { copy_in_range := fun _ => ⟨Nat.le_add_left 1 _, hI, Nat.le_add_left 1 _, hC⟩
        no_copy_no_count := fun h => absurd rfl h }
  exact hloaded.copyBackref rfl

/-- The fields of a backreference token have the widths of its format (30_encoding.md R93). -/
theorem bref_fields_lt {i : Instr} {W L index count : Nat} (h : i.bref? = some (W, L, index, count)) :
    index < 2 ^ W ∧ count < 2 ^ L := by
  cases i <;> cases h <;> exact ⟨BitVec.isLt _, BitVec.isLt _⟩

end

end Sys2Proof.Machine
end

section
/-! SUPPORT. The meaning of each command as the shared form of its unit (44_streaming_protocol.md R214 to R223). -/

namespace Sys2Proof.Machine

section
variable (s : State) (input : List Byte) (cap : Nat)

theorem exec_encSink : exec (.encSink input) s = encCommand s (.ok (withReply (encSink s.build input s.enc))) := rfl
theorem exec_encPoll : exec (.encPoll cap) s = encCommand s ((encPoll s.build cap s.enc).map withReply) := rfl
theorem exec_encFinish : exec .encFinish s = encCommand s (.ok (withReply (encFinish s.enc))) := rfl
theorem exec_encReset : exec .encReset s = encCommand s (.ok (.reset, none)) := rfl
theorem exec_decSink : exec (.decSink input) s = decCommand s (.ok (withReply (decSink s.build input s.dec))) := rfl
theorem exec_decPoll : exec (.decPoll cap) s = decCommand s ((decPoll s.build cap s.dec).map withReply) := rfl
theorem exec_decFinish : exec .decFinish s = decCommand s (.ok (withReply (s.dec, decFinish s.dec))) := rfl
theorem exec_decReset : exec .decReset s = decCommand s (.ok (.reset, none)) := rfl

end

/-- A poll, as a command, returns when its loop does, and with its result. -/
theorem map_withReply_ok {α : Type} {x : Except Fault (α × Reply)} {a : α} {reply : Option Reply}
    (h : x.map withReply = .ok (a, reply)) : ∃ r, x = .ok (a, r) ∧ reply = some r := by
  cases x with
  | error f => cases h
  | ok p => cases h; exact ⟨p.2, rfl, rfl⟩

end Sys2Proof.Machine
end

section
/-! SUPPORT. The commands of the encoder from every state that the host may find it in: each keeps the invariant (10_state.md
R31) and leaves the encoder at rest (42_encoder_fsm.md R172). -/

namespace Sys2Proof.Machine

/-- The encoder between two commands: its invariant holds, its index is fresh, and it is not inside a pass that goes on by
itself (R31, R149, R172). -/
structure EncResting (b : Build) (e : Enc) : Prop where
  inv : EncInv b e
  fresh : indexFresh b e
  not_search : e.state ≠ .search
  not_backlog : e.state ≠ .saveBacklog

section
variable {b : Build} {e e' : Enc} {k k' : OutSink}

theorem EncResting.reset (b : Build) : EncResting b .reset where
  inv := .reset b
  fresh := fun _ h => absurd rfl h
  not_search := nofun
  not_backlog := nofun

/-! ## ENC.SINK and ENC.FINISH (R214, R216) -/

theorem EncResting.accept (h : EncResting b e) (hf : e.finishing = false) (hq : e.state = .notFull) (input : List Byte) :
    EncResting b (encAccept b input e) := by
  have hstate : (encAccept b input e).state = .notFull ∨ (encAccept b input e).state = .filled := by
    simp only [encAccept, hq]
    split
    · exact .inr rfl
    · exact .inl rfl
  refine ⟨h.inv.accept hf hq input, fun _ h1 h2 => ?_, ?_, ?_⟩
  · exact absurd hstate (not_or.mpr ⟨h1, h2⟩)
  all_goals rcases hstate with hs | hs <;> rw [hs] <;> nofun

theorem EncResting.sink (h : EncResting b e) (input : List Byte) : EncResting b (encSink b input e).1 := by
  unfold encSink
  split
  · exact h
  · next hf =>
    split
    · next hq => exact h.accept (Bool.eq_false_iff.mpr hf) hq input
    · split <;> exact h

/-- A finish outside a backlog shift keeps the invariant (R216). -/
theorem EncInv.setFinishing (hi : EncInv b e) (hn : e.state ≠ .notFull) (hb : e.state ≠ .saveBacklog) :
    EncInv b e.setFinishing := by
  have hfin : e.setFinishing.finishing = true := e.setFinishing_finishing
  exact .of_halves { hi.data with flags_reserved := (flags_or_one e.flags).trans hi.flags_reserved }
    { hi with
      pass_is_full := fun h => absurd (hfin.symm.trans h) Bool.noConfusion
      backlog_small := fun h => absurd h hb
      notFull_not_finishing := fun h => absurd h hn
      flush_at_end := fun h => ⟨hfin, (hi.flush_at_end h).2⟩ }

theorem EncResting.finish (h : EncResting b e) : EncResting b (encFinish e).1 := by
  rw [encFinish_eq]
  by_cases hq : e.state = .notFull
  · simp only [if_pos hq]
    exact ⟨h.inv.finish (.inl ⟨hq, rfl⟩), fun _ _ hne => absurd rfl hne, nofun, nofun⟩
  · simp only [if_neg hq]
    exact ⟨h.inv.setFinishing hq h.not_backlog, h.fresh, h.not_search, h.not_backlog⟩

/-! ## ENC.POLL (R215) -/

/-- `Search` and `SaveBacklog` are left by every move (R163, R168). -/
theorem EncMove.leaves (hm : EncMove b e k e' k') (hq : e.state = .search ∨ e.state = .saveBacklog) :
    e'.state ≠ e.state := by
  cases hm with
  | leave hs => rw [hs]; dsimp only; split <;> nofun
  | search hs => rw [hs, afterSearch_state]; nofun
  | shift hs => rw [hs]; nofun
  | rest h => rcases h with h | h <;> simp [h] at hq
  | blocked _ h => rcases h with h | h | h | h | h <;> simp [h] at hq
  | drain h => rcases h with h | h <;> simp [h] at hq
  | buildIndex h | literalTag h | backrefTag h | literal h | loadLength h | passMatch h | flushNothing h | flushByte h =>
    simp [h] at hq

/-- A poll returns only after a micro-step that rested, that ended in `Done`, or that kept the state (R215). -/
theorem encPollStatus_kept {before after : EncState} {status : Status} (h : encPollStatus before after k = some status) :
    before = .notFull ∨ before = .done ∨ after = .done ∨ after = before := by
  unfold encPollStatus at h
  split at h
  · next hr => rcases hr with hr | hr | hr <;> simp [hr]
  · split at h
    · next hf => simp [hf.1]
    · cases h

/-- After the last move of a poll the encoder rests (R172). -/
theorem EncMove.rests (hm : EncMove b e k e' k') {status : Status}
    (hs : encPollStatus e.state e'.state k' = some status) : e'.state ≠ .search ∧ e'.state ≠ .saveBacklog := by
  have hkept : e'.state = .done ∨ e'.state = e.state := by
    rcases encPollStatus_kept hs with h | h | h | h
    · exact .inr (by rw [(hm.from_rest (.inl h)).1])
    · exact .inr (by rw [(hm.from_rest (.inr h)).1])
    · exact .inl h
    · exact .inr h
  rcases hkept with h | h
  · rw [h]; exact ⟨nofun, nofun⟩
  · exact ⟨fun hq => hm.leaves (.inl (h ▸ hq)) h, fun hq => hm.leaves (.inr (h ▸ hq)) h⟩

/-- A poll leaves the encoder at rest (R172). -/
theorem encPollLoop_rests (hl : b.legal = true) {fuel : Nat} {status : Status} (hi : EncInv b e) (hfresh : indexFresh b e)
    (hr : encPollLoop b fuel e k = .ok (e', k', status)) : EncResting b e' := by
  induction fuel generalizing e k with
  | zero => cases hr
  | succ fuel ih =>
    obtain ⟨e₁, k₁, hok, hm⟩ := encStep_moves hi k
    have hi₁ := hm.keeps_inv hl hi hfresh
    have hfresh₁ := hm.keeps_fresh hi hfresh
    rw [encPollLoop, hok] at hr
    dsimp only at hr
    cases hs : encPollStatus e.state e₁.state k₁ with
    | none => rw [hs] at hr; exact ih hi₁ hfresh₁ hr
    | some st =>
      rw [hs] at hr
      cases hr
      exact ⟨hi₁, hfresh₁, (hm.rests hs).1, (hm.rests hs).2⟩

theorem EncResting.poll (hl : b.legal = true) (h : EncResting b e) {cap : Nat} {r : Reply}
    (hp : encPoll b cap e = .ok (e', r)) : EncResting b e' := by
  unfold encPoll at hp
  split at hp
  · cases hp; exact h
  · split at hp
    · cases hp
    · next hloop => cases hp; exact encPollLoop_rests hl h.inv h.fresh hloop

end

end Sys2Proof.Machine
end

section
/-! SUPPORT. Every instruction keeps the invariant of the block, and so does every step (10_state.md R31, R41,
42_encoder_fsm.md R172). -/

namespace Sys2Proof.Machine

/-- A block just created meets the invariant (10_state.md R46). -/
theorem StateInv.created {b : Build} (hl : b.legal = true) : StateInv (.created b) where
  build_legal := hl
  enc := .reset b
  dec := .reset b
  enc_fresh := (EncResting.reset b).fresh
  enc_sink := nofun
  dec_sink := nofun
  enc_resting := fun _ => ⟨nofun, nofun⟩

section
variable {s t : State}

/-! ## The four updates that the instructions share -/

theorem StateInv.resting (h : StateInv s) (hk : s.encOut = none) : EncResting s.build s.enc :=
  ⟨h.enc, h.enc_fresh, (h.enc_resting hk).1, (h.enc_resting hk).2⟩

theorem StateInv.encReturn (h : StateInv s) {e : Enc} (he : EncResting s.build e) (r : Option Reply) :
    StateInv (s.encReturn e r) :=
  { h with
    enc := he.inv
    enc_fresh := he.fresh
    enc_sink := nofun
    enc_resting := fun _ => ⟨he.not_search, he.not_backlog⟩ }

theorem StateInv.decReturn (h : StateInv s) {d : Dec} (hd : DecInv s.build d) (r : Option Reply) :
    StateInv (s.decReturn d r) :=
  { h with dec := hd, dec_sink := nofun }

theorem StateInv.encRun (h : StateInv s) {e : Enc} {k : OutSink} (hi : EncInv s.build e) (hf : indexFresh s.build e)
    (hk : sinkInv k) : StateInv (s.encRun e k) :=
  { h with
    enc := hi
    enc_fresh := hf
    enc_sink := fun _ hk' => by cases hk'; exact hk
    enc_resting := nofun }

theorem StateInv.decRun (h : StateInv s) {d : Dec} {k : OutSink} (hd : DecInv s.build d) (hk : sinkInv k) :
    StateInv (s.decRun d k) :=
  { h with dec := hd, dec_sink := fun _ hk' => by cases hk'; exact hk }

/-! ## Micro-steps -/

/-- A micro-step of the encoder is a move, and keeps the invariant. -/
theorem StateInv.encMove (h : StateInv s) {k k' : OutSink} {e : Enc} (hk : s.encOut = some k)
    (hm : EncMove s.build s.enc k e k') : StateInv (s.encRun e k') :=
  h.encRun (hm.keeps_inv h.build_legal h.enc h.enc_fresh) (hm.keeps_fresh h.enc h.enc_fresh)
    ⟨hm.cap_eq ▸ (h.enc_sink k hk).1, hm.produced_le (h.enc_sink k hk).2⟩

theorem StateInv.decMove (h : StateInv s) {k k' : OutSink} {d : Dec} (hk : s.decOut = some k)
    (hm : DecMove s.build s.dec k d k') : StateInv (s.decRun d k') :=
  h.decRun (hm.keeps_inv h.dec) (hm.keeps_sinkInv (h.dec_sink k hk))

theorem EncInv.move_of_encStep {b : Build} {e e' : Enc} {k k' : OutSink} (hi : EncInv b e)
    (h : encStep b e k = .ok (e', k')) : EncMove b e k e' k' := by
  obtain ⟨e₁, k₁, hok, hm⟩ := encStep_moves hi k
  rw [h] at hok
  cases hok
  exact hm

/-! ## Commands and tokens -/

/-- A command to the encoder whose result is at rest keeps the invariant. -/
theorem StateInv.encCommand (h : StateInv s) {r : Except Fault (Enc × Option Reply)} (ht : encCommand s r = .next t)
    (hr : EncResting s.build s.enc → ∀ e reply, r = .ok (e, reply) → EncResting s.build e) : StateInv t := by
  obtain ⟨hk, e, reply, hok, rfl⟩ := encCommand_next.mp ht
  exact h.encReturn (hr (h.resting hk) e reply hok) reply

/-- A command to the decoder whose result meets the decoder's invariant keeps the invariant. -/
theorem StateInv.decCommand (h : StateInv s) {r : Except Fault (Dec × Option Reply)} (ht : decCommand s r = .next t)
    (hr : ∀ d reply, r = .ok (d, reply) → DecInv s.build d) : StateInv t := by
  obtain ⟨-, d, reply, hok, rfl⟩ := decCommand_next.mp ht
  exact h.decReturn (hr d reply hok) reply

/-- A token keeps the invariant if its effect does. -/
theorem StateInv.tokenStep (h : StateInv s) {f : Dec → OutSink → Dec × OutSink} (ht : tokenStep f s = .next t)
    (hf : ∀ k, sinkInv k → DecInv s.build (f s.dec k).1 ∧ sinkInv (f s.dec k).2) : StateInv t := by
  obtain ⟨k, hk, -, rfl⟩ := tokenStep_next.mp ht
  obtain ⟨hd, hs⟩ := hf k (h.dec_sink k hk)
  exact h.decRun hd hs

/-- Every instruction that completes keeps the invariant of the block. -/
theorem exec_keeps_inv {i : Instr} (h : StateInv s) (ht : exec i s = .next t) : StateInv t := by
  rcases instr_cases i with ⟨q, rfl⟩ | ⟨q, rfl⟩ | (⟨input, rfl⟩ | ⟨cap, rfl⟩ | rfl | rfl) |
    (⟨input, rfl⟩ | ⟨cap, rfl⟩ | rfl | rfl) | ⟨value, rfl⟩ | ⟨W, L, index, count, hb⟩
  case inl =>
    rw [exec_encMicroStep, encMicroStep_next] at ht
    obtain ⟨k, e, k', hk, -, hok, rfl⟩ := ht
    exact h.encMove hk (h.enc.move_of_encStep hok)
  case inr.inl =>
    rw [exec_decMicroStep, decMicroStep_next] at ht
    obtain ⟨k, d, k', hk, -, hok, rfl⟩ := ht
    exact h.decMove hk (decStep_moves hok)
  case inr.inr.inl.inl =>
    rw [exec_encSink] at ht
    exact h.encCommand ht fun hr _ _ hok => by cases hok; exact hr.sink input
  case inr.inr.inl.inr.inl =>
    rw [exec_encPoll] at ht
    refine h.encCommand ht fun hr e reply hok => ?_
    obtain ⟨r, hp, -⟩ := map_withReply_ok hok
    exact hr.poll h.build_legal hp
  case inr.inr.inl.inr.inr.inl =>
    rw [exec_encFinish] at ht
    exact h.encCommand ht fun hr _ _ hok => by cases hok; exact hr.finish
  case inr.inr.inl.inr.inr.inr =>
    rw [exec_encReset] at ht
    exact h.encCommand ht fun _ _ _ hok => by cases hok; exact .reset _
  case inr.inr.inr.inl.inl =>
    rw [exec_decSink] at ht
    exact h.decCommand ht fun _ _ hok => by cases hok; exact h.dec.sink input
  case inr.inr.inr.inl.inr.inl =>
    rw [exec_decPoll] at ht
    refine h.decCommand ht fun d reply hok => ?_
    obtain ⟨r, hp, -⟩ := map_withReply_ok hok
    exact h.dec.poll hp
  case inr.inr.inr.inl.inr.inr.inl =>
    rw [exec_decFinish] at ht
    exact h.decCommand ht fun _ _ hok => by cases hok; exact h.dec
  case inr.inr.inr.inl.inr.inr.inr =>
    rw [exec_decReset] at ht
    exact h.decCommand ht fun _ _ hok => by cases hok; exact .reset _
  case inr.inr.inr.inr.inl =>
    exact h.tokenStep ht fun k hk => ⟨h.dec.literalToken value, runLiteral_sinkInv _ value _ hk⟩
  case inr.inr.inr.inr.inr =>
    rw [exec_of_bref hb] at ht
    obtain ⟨⟨rfl, rfl⟩, htoken⟩ := execBackref_next.mp ht
    obtain ⟨hI, hC⟩ := bref_fields_lt hb
    exact h.tokenStep htoken fun k hk => ⟨h.dec.backrefToken hI hC, copyBackref_sinkInv _ _ hk⟩

/-! ## What a step adds to its instruction -/

/-- A micro-step of the encoder after which the poll returns leaves the encoder at rest (R172, R215). -/
theorem StateInv.encAfter (h : StateInv s) {k k' : OutSink} {e : Enc} (hk : s.encOut = some k)
    (hm : EncMove s.build s.enc k e k') : StateInv ((s.encRun e k').encAfter s.enc.state) := by
  have hrun := h.encMove hk hm
  simp only [State.encAfter, State.encRun_encOut, State.encRun_enc]
  cases hs : encPollStatus s.enc.state e.state k' with
  | none => exact hrun
  | some status => exact hrun.encReturn ⟨hrun.enc, hrun.enc_fresh, (hm.rests hs).1, (hm.rests hs).2⟩ _

/-- The return of a poll of the decoder changes nothing of the unit (R221). -/
theorem StateInv.decAfter (h : StateInv s) (q : DecState) : StateInv (s.decAfter q) := by
  unfold State.decAfter
  split
  · exact h
  · split
    · exact h.decReturn h.dec _
    · exact h

/-- A poll that a step opens has room (R215, R221). -/
theorem StateInv.opened (h : StateInv s) {i : Instr} (ho : s.opened i = some t) : StateInv t := by
  obtain ⟨-, cap, hcap, ⟨-, rfl⟩ | ⟨-, rfl⟩⟩ := opened_some ho
  · exact { h with enc_sink := fun _ hk => by cases hk; exact ⟨hcap, Nat.zero_le _⟩, enc_resting := nofun }
  · exact { h with dec_sink := fun _ hk => by cases hk; exact ⟨hcap, Nat.zero_le _⟩ }

/-- The token that a step runs is no longer than the bits that the decoder has. -/
theorem nextToken_width_le {b : Build} {d : Dec} {k : OutSink} {i : Instr} {width : Nat}
    (h : nextToken b d k = some (i, width)) : width ≤ bitsAvailable d := by
  unfold nextToken at h
  split at h
  · split at h
    · cases h
    · split at h
      · cases h; rw [unreadBits_length]; exact Nat.sub_le _ _
      · cases h
  · cases h

/-- The bits of a token are taken before it runs (40_bit_accumulator.md R131). -/
theorem StateInv.skipBits (h : StateInv s) {n : Nat} {d : Dec} (hn : n ≤ bitsAvailable s.dec)
    (hd : skipBits s.build n s.dec = .ok d) : StateInv { s with dec := d } := by
  unfold Machine.skipBits at hd
  split at hd
  · cases hd
  · next ht => cases hd; exact { h with dec := h.dec.takeBits hn ht }

/-- Every step keeps the invariant of the block. -/
theorem step_keeps_inv (h : StateInv s) (ht : step s = .next t) : StateInv t := by
  obtain ⟨-, ⟨-, -, -, rfl⟩ | ⟨k, e, k', hk, hok, rfl⟩ | ⟨k, d, k', -, hk, hok, rfl⟩ |
    ⟨k, i, width, d, s', -, -, -, hn, hd, hx, rfl⟩ | ⟨w, later, -, -, -, ho | ⟨-, hx⟩⟩⟩ := step_cases ht
  · exact h
  · exact h.encAfter hk (h.enc.move_of_encStep hok)
  · exact (h.decMove hk (decStep_moves hok)).decAfter _
  · exact (exec_keeps_inv (h.skipBits (nextToken_width_le hn) hd) hx).decAfter _
  · exact StateInv.opened (s := { s with pending := later }) { h with } ho
  · exact exec_keeps_inv (s := { s with pending := later }) { h with } hx

end

end Sys2Proof.Machine

namespace Sys2Proof.Proofs

open Sys2Proof.Machine

/-- Settles O54: every instruction keeps the invariant, and a step adds to its instruction the bits of a token, the return of
a poll, the opening of one or the taking of the oldest command, which keep it too. -/
theorem stepKeepsInvariant : Obligations.StepKeepsInvariant :=
  fun _ _ h ht => step_keeps_inv h ht

/-- Settles O2: both units are reset, no poll runs, and `Search` and `SaveBacklog` are not the state at reset. -/
theorem createdMeetsInvariant : Obligations.CreatedMeetsInvariant :=
  ⟨fun _ hl => .created hl, .created rfl⟩

end Sys2Proof.Proofs
end

section
/-! SUPPORT. What writes the flags byte (10_state.md R27), in every state: no micro-step and no poll does. -/

namespace Sys2Proof.Machine

section
variable {b : Build} {e e' : Enc} {k k' : OutSink}

theorem pushBits_flags (b : Build) (count : Nat) (bits : Byte) (e : Enc) (k : OutSink) :
    (pushBits b count bits e k).1.flags = e.flags := by
  obtain ⟨w, n, h⟩ := pushBits_frame b count bits e k
  rw [h]

theorem pushOutgoingBits_flags (b : Build) (e : Enc) (k : OutSink) : (pushOutgoingBits b e k).1.flags = e.flags := by
  obtain ⟨w, n, h⟩ := pushOutgoingBits_frame b e k
  rw [h]

theorem filledStep_flags (h : filledStep b e k = .ok (e', k')) : e'.flags = e.flags := by
  unfold filledStep at h
  split at h
  · split at h <;> cases h
    rfl
  · cases h; rfl

theorem searchStep_flags (h : searchStep b e k = .ok (e', k')) : e'.flags = e.flags := by
  unfold searchStep at h
  split at h
  · cases h; rfl
  · dsimp only at h
    split at h <;> cases h
    exact afterSearch_flags _ _

theorem yieldTagBitStep_flags (h : yieldTagBitStep b e k = .ok (e', k')) : e'.flags = e.flags := by
  unfold yieldTagBitStep at h
  split at h
  · split at h <;> cases h <;> exact pushBits_flags ..
  · cases h; rfl

theorem yieldLiteralStep_flags (h : yieldLiteralStep b e k = .ok (e', k')) : e'.flags = e.flags := by
  unfold yieldLiteralStep at h
  split at h
  · split at h <;> cases h
    exact pushBits_flags ..
  · cases h; rfl

theorem yieldBrIndexStep_flags (h : yieldBrIndexStep b e k = .ok (e', k')) : e'.flags = e.flags := by
  unfold yieldBrIndexStep at h
  split at h
  · dsimp only at h
    split at h <;> cases h
    · exact pushOutgoingBits_flags ..
    · rfl
  · cases h; rfl

theorem yieldBrLengthStep_flags (h : yieldBrLengthStep b e k = .ok (e', k')) : e'.flags = e.flags := by
  unfold yieldBrLengthStep at h
  split at h
  · dsimp only at h
    split at h <;> cases h
    · exact pushOutgoingBits_flags ..
    · rfl
  · cases h; rfl

theorem flushBitsStep_flags (h : flushBitsStep b e k = .ok (e', k')) : e'.flags = e.flags := by
  unfold flushBitsStep at h
  split at h
  · cases h; rfl
  · split at h <;> cases h <;> rfl

/-- No micro-step writes the flags. -/
theorem encStep_flags (h : encStep b e k = .ok (e', k')) : e'.flags = e.flags := by
  unfold encStep at h
  split at h
  · cases h; rfl
  · exact filledStep_flags h
  · exact searchStep_flags h
  · exact yieldTagBitStep_flags h
  · exact yieldLiteralStep_flags h
  · exact yieldBrIndexStep_flags h
  · exact yieldBrLengthStep_flags h
  · cases h; rfl
  · exact flushBitsStep_flags h
  · cases h; rfl

theorem encPollLoop_flags {fuel : Nat} {status : Status} (h : encPollLoop b fuel e k = .ok (e', k', status)) :
    e'.flags = e.flags := by
  induction fuel generalizing e k with
  | zero => cases h
  | succ fuel ih =>
    rw [encPollLoop] at h
    split at h
    · cases h
    · next hok =>
      split at h
      · cases h; exact encStep_flags hok
      · exact (ih h).trans (encStep_flags hok)

theorem encPoll_flags {cap : Nat} {r : Reply} (h : encPoll b cap e = .ok (e', r)) : e'.flags = e.flags := by
  unfold encPoll at h
  split at h
  · cases h; rfl
  · split at h
    · cases h
    · next hloop => cases h; exact encPollLoop_flags hloop

theorem encSink_flags (b : Build) (input : List Byte) (e : Enc) : (encSink b input e).1.flags = e.flags := by
  unfold encSink
  split
  · rfl
  · split
    · exact encAccept_flags b input e
    · split <;> rfl

end

/-- What an instruction leaves in the flags byte. -/
def flagsAfter (i : Instr) (flags : BitVec 8) : BitVec 8 :=
  if i = .encFinish then flags ||| 1 else if i = .encReset then 0 else flags

/-- An instruction that is neither a finish nor a reset of the encoder leaves the flags. -/
theorem flagsAfter_eq {i : Instr} (hf : i ≠ .encFinish) (hr : i ≠ .encReset) (flags : BitVec 8) :
    flagsAfter i flags = flags := by
  rw [flagsAfter, if_neg hf, if_neg hr]

/-- `ENC.FINISH` sets bit 0, `ENC.RESET` clears the byte, and no other instruction writes it (R27). -/
theorem exec_flags {i : Instr} {s t : State} (h : exec i s = .next t) : t.enc.flags = flagsAfter i s.enc.flags := by
  cases hi : ofEncoder i with
  | false =>
    rw [(exec_decLocal hi s t h).1, flagsAfter_eq (by rintro rfl; cases hi) (by rintro rfl; cases hi)]
  | true =>
    rcases instr_cases i with ⟨q, rfl⟩ | ⟨q, rfl⟩ | (⟨input, rfl⟩ | ⟨cap, rfl⟩ | rfl | rfl) |
      (⟨input, rfl⟩ | ⟨cap, rfl⟩ | rfl | rfl) | ⟨value, rfl⟩ | ⟨W, L, index, count, hb⟩
    case inl =>
      rw [exec_encMicroStep, encMicroStep_next] at h
      obtain ⟨k, e, k', -, -, hok, rfl⟩ := h
      rw [flagsAfter_eq (by cases q <;> nofun) (by cases q <;> nofun)]
      exact encStep_flags hok
    case inr.inl => cases q <;> cases hi
    case inr.inr.inl.inl =>
      rw [exec_encSink, encCommand_next] at h
      obtain ⟨-, e, reply, hok, rfl⟩ := h
      cases hok
      exact encSink_flags ..
    case inr.inr.inl.inr.inl =>
      rw [exec_encPoll, encCommand_next] at h
      obtain ⟨-, e, reply, hok, rfl⟩ := h
      obtain ⟨r, hp, -⟩ := map_withReply_ok hok
      exact encPoll_flags hp
    case inr.inr.inl.inr.inr.inl =>
      rw [exec_encFinish, encCommand_next] at h
      obtain ⟨-, e, reply, hok, rfl⟩ := h
      cases hok
      rfl
    case inr.inr.inl.inr.inr.inr =>
      rw [exec_encReset, encCommand_next] at h
      obtain ⟨-, e, reply, hok, rfl⟩ := h
      cases hok
      rfl
    case inr.inr.inr.inr.inr => rw [ofEncoder_of_bref hb] at hi; cases hi
    all_goals cases hi

/-- The reserved bits stay 0 (R27, R31 part g). -/
theorem flagsAfter_reserved {flags : BitVec 8} (h : flags &&& 0xFE = 0) (i : Instr) : flagsAfter i flags &&& 0xFE = 0 := by
  unfold flagsAfter
  split
  · exact (flags_or_one flags).trans h
  · split
    · exact BitVec.zero_and
    · exact h

end Sys2Proof.Machine

namespace Sys2Proof.Proofs

open Sys2Proof.Machine

/-- Settles O51: no micro-step, poll or sink writes the flags, and setting or clearing bit 0 keeps the others 0. -/
theorem flagsWrittenByFinishAndReset : Obligations.FlagsWrittenByFinishAndReset :=
  fun i _ _ h => ⟨exec_flags h, fun h0 => exec_flags h ▸ flagsAfter_reserved h0 i⟩

end Sys2Proof.Proofs
end

section
/-! SUPPORT. When the shared forms of an instruction stop, and under which name: the counterpart of Laws/Units.lean. -/

namespace Sys2Proof.Machine

section
variable {s : State}

theorem encMicroStep_outside {q : EncState} {t : EncTransition} (h : s.encOut = none) :
    encMicroStep q t s = .refused .noPollRunning := by
  rw [encMicroStep, h]

theorem decMicroStep_outside {q : DecState} {t : DecTransition} (h : s.decOut = none) :
    decMicroStep q t s = .refused .noPollRunning := by
  rw [decMicroStep, h]

theorem encMicroStep_not_selected {q : EncState} {t : EncTransition} {k : OutSink} (h : s.encOut = some k)
    (hq : s.enc.state ≠ q) : encMicroStep q t s = .refused .microStepNotSelected := by
  simp only [encMicroStep, h, if_neg hq]

theorem decMicroStep_not_selected {q : DecState} {t : DecTransition} {k : OutSink} (h : s.decOut = some k)
    (hq : s.dec.state ≠ q) : decMicroStep q t s = .refused .microStepNotSelected := by
  simp only [decMicroStep, h, if_neg hq]

/-- A narrow build has no state `BackrefIndexMsb` (10_state.md R33, log 13). -/
theorem execDecStepBackrefIndexMsb_narrow {k : OutSink} (h : s.decOut = some k) (hq : s.dec.state = .backrefIndexMsb)
    (hw : s.build.windowBits ≤ 8) : execDecStepBackrefIndexMsb s = .fault .stateNotInBuild := by
  simp only [execDecStepBackrefIndexMsb, decMicroStep, backrefIndexMsbStep, h, if_pos hq, if_neg (Nat.not_lt.mpr hw)]

theorem tokenStep_outside {t : Dec → OutSink → Dec × OutSink} (h : s.decOut = none) :
    tokenStep t s = .refused .noPollRunning := by
  rw [tokenStep, h]

theorem tokenStep_inside {t : Dec → OutSink → Dec × OutSink} {k : OutSink} (h : s.decOut = some k)
    (hq : s.dec.state ≠ .tagBit) : tokenStep t s = .refused .notAtTokenBoundary := by
  simp only [tokenStep, h, if_neg hq]

theorem encCommand_busy {k : OutSink} (h : s.encOut = some k) (r : Except Fault (Enc × Option Reply)) :
    encCommand s r = .refused .unitBusy := by
  simp only [encCommand, h]

theorem decCommand_busy {k : OutSink} (h : s.decOut = some k) (r : Except Fault (Dec × Option Reply)) :
    decCommand s r = .refused .unitBusy := by
  simp only [decCommand, h]

/-- A backreference of another format is refused before anything else is looked at (30_encoding.md R97). -/
theorem execBackref_of_other_build {W L index count : Nat} (h : (W, L) ≠ (s.build.windowBits, s.build.lookaheadBits)) :
    execBackref W L index count s = .refused .tokenOfOtherBuild :=
  if_neg fun hf => h (Prod.ext hf.1 hf.2)

/-- A backreference of the build's format is a token. -/
theorem execBackref_of_build {W L index count : Nat} (h : (W, L) = (s.build.windowBits, s.build.lookaheadBits)) :
    execBackref W L index count s = tokenStep (runBackref s.build index count) s :=
  if_pos (Prod.ext_iff.mp h)

theorem exec_encCommands_busy {i : Instr} {k : OutSink} (h : s.encOut = some k) (hi : encCommands i) :
    exec i s = .refused .unitBusy := by
  rcases hi with ⟨input, rfl⟩ | ⟨cap, rfl⟩ | rfl | rfl
  · rw [exec_encSink, encCommand_busy h]
  · rw [exec_encPoll, encCommand_busy h]
  · rw [exec_encFinish, encCommand_busy h]
  · rw [exec_encReset, encCommand_busy h]

theorem exec_decCommands_busy {i : Instr} {k : OutSink} (h : s.decOut = some k) (hi : decCommands i) :
    exec i s = .refused .unitBusy := by
  rcases hi with ⟨input, rfl⟩ | ⟨cap, rfl⟩ | rfl | rfl
  · rw [exec_decSink, decCommand_busy h]
  · rw [exec_decPoll, decCommand_busy h]
  · rw [exec_decFinish, decCommand_busy h]
  · rw [exec_decReset, decCommand_busy h]

/-- Where a backreference token stops. -/
theorem exec_bref_stops {i : Instr} {W L index count : Nat} (hb : i.bref? = some (W, L, index, count)) :
    ((W, L) ≠ (s.build.windowBits, s.build.lookaheadBits) → exec i s = .refused .tokenOfOtherBuild) ∧
    ((W, L) = (s.build.windowBits, s.build.lookaheadBits) →
      (s.decOut = none → exec i s = .refused .noPollRunning) ∧
      ∀ k, s.decOut = some k → s.dec.state ≠ .tagBit → exec i s = .refused .notAtTokenBoundary) := by
  rw [exec_of_bref hb]
  refine ⟨execBackref_of_other_build, fun hf => ?_⟩
  rw [execBackref_of_build hf]
  exact ⟨tokenStep_outside, fun _ => tokenStep_inside⟩

end

end Sys2Proof.Machine

namespace Sys2Proof.Proofs

open Sys2Proof.Machine

/-- Settles O53: each shared form of an instruction looks at what it needs in turn and stops under the name of what is
missing. -/
theorem stopsByName : Obligations.StopsByName := by
  intro s
  refine ⟨fun q h => ?_, fun q h => ?_, fun q k h hq => ?_, fun q k h hq => ?_, fun k => execDecStepBackrefIndexMsb_narrow,
    fun _ => tokenStep_outside, fun _ _ => tokenStep_inside, fun _ _ _ _ _ => exec_bref_stops,
    fun _ _ => exec_encCommands_busy, fun _ _ => exec_decCommands_busy⟩
  · rw [exec_encMicroStep, encMicroStep_outside h]
  · rw [exec_decMicroStep, decMicroStep_outside h]
  · rw [exec_encMicroStep, encMicroStep_not_selected h hq]
  · rw [exec_decMicroStep, decMicroStep_not_selected h hq]

end Sys2Proof.Proofs
end

section
/-! SUPPORT. The window as a picture of the bytes produced (10_state.md R39): every operation of the decoder adds to it the
bytes that it emits, and no others. -/

namespace Sys2Proof.Machine

/-- From `d` and `k` to `d'` and `k'` the bytes `new` have been produced: they are emitted, the window stays in canonical
form, and it describes them after those that it described before (R39). -/
structure Produced (b : Build) (d : Dec) (k : OutSink) (new : List Byte) (d' : Dec) (k' : OutSink) : Prop where
  emitted : k' = { k with out := k.out ++ new }
  keeps_wf : d.window.wf = true → d'.window.wf = true
  describes : d.window.wf = true → ∀ y, windowDescribes b y d → windowDescribes b (y ++ new) d'

section
variable {b : Build} {d d' d'' : Dec} {k k' k'' : OutSink} {new later : List Byte}

/-- The window describes the same bytes as long as neither it nor the head is written. -/
theorem windowDescribes_congr (hw : d'.window = d.window) (hh : d'.headIndex = d.headIndex) {y : List Byte} :
    windowDescribes b y d' ↔ windowDescribes b y d := by
  rw [windowDescribes, windowDescribes, hw, hh]

theorem Produced.none (b : Build) (k : OutSink) (hw : d'.window = d.window) (hh : d'.headIndex = d.headIndex) :
    Produced b d k [] d' k where
  emitted := by rw [List.append_nil]
  keeps_wf := fun h => hw ▸ h
  describes := fun _ y h => by rw [List.append_nil]; exact (windowDescribes_congr hw hh).mpr h

theorem Produced.trans (h : Produced b d k new d' k') (h' : Produced b d' k' later d'' k'') :
    Produced b d k (new ++ later) d'' k'' where
  emitted := by rw [h'.emitted, h.emitted, List.append_assoc]
  keeps_wf := fun hw => h'.keeps_wf (h.keeps_wf hw)
  describes := fun hw y hy => by
    rw [← List.append_assoc]
    exact h'.describes (h.keeps_wf hw) _ (h.describes hw y hy)

/-- What is written besides the window and the head does not matter. -/
theorem Produced.congr (h : Produced b d k new d' k') (hw : d''.window = d'.window) (hh : d''.headIndex = d'.headIndex) :
    Produced b d k new d'' k' := by
  have := h.trans (.none b k' hw hh)
  rwa [List.append_nil] at this

/-- One more byte, stored at the cell that its ordinal falls on. -/
theorem windowDescribes_produceByte (c : Byte) (hw : d.window.wf = true) {y : List Byte} (h : windowDescribes b y d) :
    windowDescribes b (y ++ [c]) (produceByte b c d k).1 := by
  obtain ⟨hhead, hlast, hnone⟩ := h
  rw [produceByte_fst, hhead]
  have hlen : (y ++ [c]).length = y.length + 1 := by simp
  refine ⟨hlen.symm, fun j hj hnext => ?_, fun a ha => ?_⟩
  all_goals rw [Memory.read_write _ _ _ _ hw]
  · by_cases hjy : j = y.length
    · rw [if_pos (by rw [hjy]), hjy]
      simp
    · have hlt : j < y.length := by omega
      have hne : j % b.window ≠ y.length % b.window := (hnext y.length hlt (by omega)).symm
      rw [if_neg hne, hlast j hlt fun i h1 h2 => hnext i h1 (by omega)]
      simp [List.getD_eq_getElem?_getD, List.getElem?_append_left hlt]
  · rw [if_neg (ha y.length (by omega)).symm]
    exact hnone a fun j hj => ha j (by omega)

theorem produceByte_produced (b : Build) (c : Byte) (d : Dec) (k : OutSink) :
    Produced b d k [c] (produceByte b c d k).1 (produceByte b c d k).2 where
  emitted := rfl
  keeps_wf := produceByte_window_wf b c d k
  describes := fun hw _ h => windowDescribes_produceByte c hw h

theorem copyBytes_produced (b : Build) (n : Nat) (d : Dec) (k : OutSink) :
    ∃ new, Produced b d k new (copyBytes b n d k).1 (copyBytes b n d k).2 := by
  induction n generalizing d k with
  | zero => exact ⟨[], .none b k rfl rfl⟩
  | succ n ih =>
    obtain ⟨new, h⟩ := ih { (produceByte b (copySource b d) d k).1 with outputCount := d.outputCount - 1 }
      (produceByte b (copySource b d) d k).2
    refine ⟨_, .trans (.congr (produceByte_produced b (copySource b d) d k) ?_ ?_) h⟩ <;> rfl

theorem copyBackref_produced (b : Build) (d : Dec) (k : OutSink) :
    ∃ new, Produced b d k new (copyBackref b d k).1 (copyBackref b d k).2 := by
  obtain ⟨new, h⟩ := copyBytes_produced b (copyCount d k) d k
  unfold copyBackref
  split
  · exact ⟨[], .none b k rfl rfl⟩
  · dsimp only
    split
    · exact ⟨new, h.congr rfl rfl⟩
    · exact ⟨new, h⟩

theorem runLiteral_produced (b : Build) (value : Byte) (d : Dec) (k : OutSink) :
    ∃ new, Produced b d k new (runLiteral b value d k).1 (runLiteral b value d k).2 := by
  unfold runLiteral
  split
  · exact ⟨_, produceByte_produced b value d k⟩
  · exact ⟨[], .none b k rfl rfl⟩

theorem runBackref_produced (b : Build) (index count : Nat) (d : Dec) (k : OutSink) :
    ∃ new, Produced b d k new (runBackref b index count d k).1 (runBackref b index count d k).2 := by
  obtain ⟨new, h⟩ := copyBackref_produced b (loadBackref index count d) k
  refine ⟨_, .trans (.none b k ?_ ?_) h⟩ <;> rfl

/-- Taking bits writes neither the window nor the head (40_bit_accumulator.md R131). -/
theorem getBits_produced {n v : Nat} (h : getBits b n d = .ok (some (v, d'))) (k : OutSink) : Produced b d k [] d' k := by
  obtain ⟨c, i, size, index, rfl⟩ := getBits_frame h
  exact .none b k rfl rfl

/-- Every move produces the bytes that it emits. -/
theorem DecMove.produced (hm : DecMove b d k d' k') : ∃ new, Produced b d k new d' k' := by
  cases hm with
  | starved | full => exact ⟨[], .none b k rfl rfl⟩
  | literalTag _ took | backrefTag _ took | highPiece _ _ took | lowPiece _ took | length _ took =>
    exact ⟨[], (getBits_produced took k).congr rfl rfl⟩
  | literal _ _ took => exact ⟨_, (getBits_produced took k).trans ((produceByte_produced b _ _ k).congr rfl rfl)⟩
  | copy => exact copyBackref_produced b d k

/-- A poll produces the bytes that it delivers. -/
theorem decPoll_produced {cap : Nat} {r : Reply} (h : decPoll b cap d = .ok (d', r)) :
    ∃ status new, r = .polled status new ∧ Produced b d (.start cap) new d' { cap := cap, out := new } := by
  obtain ⟨k', status, ⟨new, hp⟩, rfl⟩ :=
    decPoll_keeps (P := fun d₁ k₁ => ∃ new, Produced b d (.start cap) new d₁ k₁)
      (fun _ _ _ _ ⟨_, h₁⟩ hm => hm.produced.imp' _ fun _ h₂ => h₁.trans h₂) ⟨[], .none b _ rfl rfl⟩ h
  obtain rfl : k' = { cap := cap, out := new } := hp.emitted
  exact ⟨status, new, rfl, hp⟩

/-- No bytes are staged in the window (R220). -/
theorem decSink_window (b : Build) (input : List Byte) (d : Dec) :
    (decSink b input d).1.window = d.window ∧ (decSink b input d).1.headIndex = d.headIndex := by
  unfold decSink
  split <;> exact ⟨rfl, rfl⟩

end

/-! ## Every instruction -/

/-- The window, in canonical form, describes the bytes `y` and those that the instruction has delivered after them. -/
def KeepsWindow (i : Instr) (s t : State) (y : List Byte) : Prop :=
  t.dec.window.wf = true ∧ ∃ new, Delivered i s t new ∧ windowDescribes s.build (y ++ new) t.dec

section
variable {s t : State} {y : List Byte}

/-- An instruction that writes neither the window nor the head delivers nothing. -/
theorem keepsWindow_silent (i : Instr) (hwin : t.dec.window = s.dec.window) (hhead : t.dec.headIndex = s.dec.headIndex)
    (hw : s.dec.window.wf = true) (hy : windowDescribes s.build y s.dec) : KeepsWindow i s t y :=
  ⟨hwin ▸ hw, [], .inr (.inr rfl), by rw [List.append_nil]; exact (windowDescribes_congr hwin hhead).mpr hy⟩

theorem Produced.keepsWindow {i : Instr} {k k' : OutSink} {new : List Byte}
    (h : Produced s.build s.dec k new t.dec k') (hw : s.dec.window.wf = true) (hy : windowDescribes s.build y s.dec)
    (hd : Delivered i s t new) : KeepsWindow i s t y :=
  ⟨h.keeps_wf hw, new, hd, h.describes hw y hy⟩

/-- A micro-step or a token that produces bytes emits them into the running poll's sink. -/
theorem keepsWindow_decRun (i : Instr) {d' : Dec} {k k' : OutSink} (hk : s.decOut = some k)
    (h : ∃ new, Produced s.build s.dec k new d' k') (hw : s.dec.window.wf = true) (hy : windowDescribes s.build y s.dec) :
    KeepsWindow i s (s.decRun d' k') y := by
  obtain ⟨new, hp⟩ := h
  exact hp.keepsWindow hw hy (.inr (.inl ⟨k, hk, by rw [State.decRun_decOut, hp.emitted]⟩))

/-- Every instruction but `DEC.RESET` keeps the window a picture of the bytes produced. -/
theorem exec_keepsWindow {i : Instr} (hi : i ≠ .decReset) (hw : s.dec.window.wf = true)
    (hy : windowDescribes s.build y s.dec) (h : exec i s = .next t) : KeepsWindow i s t y := by
  cases he : ofEncoder i with
  | true =>
    have hdec : t.dec = s.dec := by rw [(exec_encLocal he s t h).1]
    exact keepsWindow_silent i (by rw [hdec]) (by rw [hdec]) hw hy
  | false =>
    rcases instr_cases i with ⟨q, rfl⟩ | ⟨q, rfl⟩ | (⟨input, rfl⟩ | ⟨cap, rfl⟩ | rfl | rfl) |
      (⟨input, rfl⟩ | ⟨cap, rfl⟩ | rfl | rfl) | ⟨value, rfl⟩ | ⟨W, L, index, count, hb⟩
    case inl => cases q <;> cases he
    case inr.inl =>
      rw [exec_decMicroStep, decMicroStep_next] at h
      obtain ⟨k, d, k', hk, -, hok, rfl⟩ := h
      exact keepsWindow_decRun _ hk (decStep_moves hok).produced hw hy
    case inr.inr.inr.inl.inl =>
      rw [exec_decSink, decCommand_next] at h
      obtain ⟨-, d, reply, hok, rfl⟩ := h
      cases hok
      obtain ⟨hwin, hhead⟩ := decSink_window s.build input s.dec
      exact keepsWindow_silent _ hwin hhead hw hy
    case inr.inr.inr.inl.inr.inl =>
      rw [exec_decPoll, decCommand_next] at h
      obtain ⟨-, d, reply, hok, rfl⟩ := h
      obtain ⟨r, hp, rfl⟩ := map_withReply_ok hok
      obtain ⟨status, new, rfl, hprod⟩ := decPoll_produced hp
      exact hprod.keepsWindow hw hy (.inl ⟨cap, status, rfl, rfl⟩)
    case inr.inr.inr.inl.inr.inr.inl =>
      rw [exec_decFinish, decCommand_next] at h
      obtain ⟨-, d, reply, hok, rfl⟩ := h
      cases hok
      exact keepsWindow_silent _ rfl rfl hw hy
    case inr.inr.inr.inl.inr.inr.inr => exact absurd rfl hi
    case inr.inr.inr.inr.inl =>
      obtain ⟨k, hk, -, rfl⟩ := tokenStep_next.mp h
      exact keepsWindow_decRun _ hk (runLiteral_produced _ value _ k) hw hy
    case inr.inr.inr.inr.inr =>
      rw [exec_of_bref hb] at h
      obtain ⟨k, hk, -, rfl⟩ := tokenStep_next.mp (execBackref_next.mp h).2
      exact keepsWindow_decRun _ hk (runBackref_produced _ index count _ k) hw hy
    all_goals cases he

end

/-- The window of a reset decoder describes no bytes. -/
theorem windowDescribes_reset (b : Build) : windowDescribes b [] .reset :=
  ⟨rfl, fun _ hk => absurd hk (Nat.not_lt_zero _), fun _ _ => rfl⟩

end Sys2Proof.Machine

namespace Sys2Proof.Proofs

open Sys2Proof.Machine

/-- Settles O36: the bytes that an operation of the decoder emits are the bytes that it stores at the head. -/
theorem windowHoldsProducedBytes : Obligations.WindowHoldsProducedBytes := by
  refine ⟨windowDescribes_reset, fun i s t y hw hy h => ?_⟩
  by_cases hi : i = .decReset
  · subst hi
    rw [exec_decReset, decCommand_next] at h
    obtain ⟨-, d, reply, hok, rfl⟩ := h
    cases hok
    exact ⟨rfl, .inl ⟨rfl, windowDescribes_reset _⟩⟩
  · obtain ⟨hwf, new, hd, hnew⟩ := exec_keepsWindow hi hw hy h
    obtain ⟨hb, -⟩ := exec_frame h
    exact ⟨hwf, .inr ⟨new, hd, hb ▸ hnew⟩⟩

end Sys2Proof.Proofs
end

section
/-! SUPPORT. The instructions that move bytes in the memories (20_memory.md R64, R67, R71): both sinks store the front of what
the host offers, and the backlog shift moves the whole rest of the buffer. -/

namespace Sys2Proof.Machine

/-- An append of the first `n` bytes that are offered (R64, R71). -/
theorem Memory.read_append_take (m : Memory) (a : Nat) {input : List Byte} {n : Nat} (hn : n ≤ input.length) (c : Nat)
    (hm : m.wf = true) :
    (m.append a (input.take n)).read c = if a ≤ c ∧ c < a + n then input.getD (c - a) 0 else m.read c := by
  rw [Memory.read_append m a _ c hm, List.length_take_of_le hn]
  by_cases hc : a ≤ c ∧ c < a + n
  · have hlt : c - a < n := by omega
    rw [if_pos hc, if_pos hc, List.getD_eq_getElem?_getD, List.getD_eq_getElem?_getD, List.getElem?_take_of_lt hlt]
  · rw [if_neg hc, if_neg hc]

/-- The whole shift moves every byte that has one `shift` addresses above it, and the topmost stay (R67). -/
theorem Memory.read_moveDown_whole (m : Memory) (shift size a : Nat) (hm : m.wf = true) :
    (m.moveDown shift 0 (size - shift)).read a = if a < size - shift then m.read (a + shift) else m.read a := by
  simpa using Memory.read_moveDown m shift 0 (size - shift) a hm

/-- An accepting sink takes all of its room exactly when the input half is full after it (R214). -/
theorem encAccept_eq {b : Build} {e : Enc} (hq : e.state = .notFull) (hle : e.inputSize ≤ b.window) (input : List Byte) :
    encAccept b input e = { e with
      buffer := e.buffer.append (b.window + e.inputSize) (input.take (min (encRoom b e) input.length))
      inputSize := e.inputSize + min (encRoom b e) input.length
      state := if e.inputSize + min (encRoom b e) input.length = b.window then .filled else .notFull } := by
  have hfull : min (encRoom b e) input.length = encRoom b e ↔
      e.inputSize + min (encRoom b e) input.length = b.window := by
    unfold encRoom; omega
  simp only [encAccept, hfull, hq]

/-- A sink finds no room (R220). -/
theorem decSink_full {b : Build} {d : Dec} (input : List Byte) (h : b.stagingSize ≤ d.inputSize) :
    decSink b input d = (d, .sunk .full 0) :=
  if_pos (Nat.sub_eq_zero_of_le h)

/-- A sink copies what fits behind the staged bytes (R220). -/
theorem decSink_accepts {b : Build} {d : Dec} (input : List Byte) (h : d.inputSize < b.stagingSize) :
    decSink b input d =
      ({ d with
          staging := d.staging.append d.inputSize (input.take (min (decRoom b d) input.length))
          inputSize := d.inputSize + min (decRoom b d) input.length },
        .sunk .ok (min (decRoom b d) input.length)) :=
  if_neg (Nat.sub_ne_zero_of_lt h)

end Sys2Proof.Machine

namespace Sys2Proof.Proofs

open Sys2Proof.Machine

/-- Settles O23: the shift in ascending order reads no cell that it has written. -/
theorem saveBacklogStep : Obligations.SaveBacklogStep := by
  intro s k hk hq hwf
  refine ⟨s.enc.buffer.moveDown s.enc.matchScanIndex 0 (2 * s.build.window - s.enc.matchScanIndex),
    moveDown_whole_wf _ _ _ hwf, fun a => Memory.read_moveDown_whole _ _ _ a hwf, ?_⟩
  change encMicroStep .saveBacklog Machine.saveBacklogStep s = _
  exact encMicroStep_next.mpr ⟨k, _, k, hk, hq, rfl, by rw [State.encRun, ← hk]; rfl⟩

/-- Settles O40: the bytes are appended behind the input, and all of the room is taken exactly when the half is full. -/
theorem encSinkAccepts : Obligations.EncSinkAccepts := by
  intro s input hk hq hf hle hwf n
  refine ⟨s.enc.buffer.append (s.build.window + s.enc.inputSize) (input.take n), Memory.wf_append _ _ _ hwf,
    fun a => Memory.read_append_take _ _ (Nat.min_le_right _ _) a hwf, ?_⟩
  rw [exec_encSink, encSink_accepts s.build input hf hq, encAccept_eq hq hle]
  exact encCommand_next.mpr ⟨hk, _, _, rfl, by rw [State.encReturn, hk]; rfl⟩

/-- Settles O44: the bytes are appended behind those that are staged, as far as there is room at the end. -/
theorem decSinkResult : Obligations.DecSinkResult := by
  intro s input hk hwf n
  refine ⟨fun hfull => ?_, fun hroom => ?_⟩
  · rw [exec_decSink, decSink_full input hfull]
    exact decCommand_next.mpr ⟨hk, _, _, rfl, by rw [State.decReturn, hk]⟩
  · refine ⟨s.dec.staging.append s.dec.inputSize (input.take n), Memory.wf_append _ _ _ hwf,
      fun a => Memory.read_append_take _ _ (Nat.min_le_right _ _) a hwf, ?_⟩
    rw [exec_decSink, decSink_accepts input hroom]
    exact decCommand_next.mpr ⟨hk, _, _, rfl, by rw [State.decReturn, hk]; rfl⟩

end Sys2Proof.Proofs
end

section
/-! SUPPORT. Reading the front of the compressed stream (40_bit_accumulator.md R129 to R131): the bits that `get_bits`
delivers are the first of those not yet read. -/

namespace Sys2Proof

/-- The value of a string of bits is that of its first part, moved up, and that of the rest. -/
theorem bitsValue_take_add (bits : List Bool) {m n : Nat} (h : m + n ≤ bits.length) :
    bitsValue (bits.take (m + n)) = bitsValue (bits.take m) * 2 ^ n + bitsValue ((bits.drop m).take n) := by
  have hlen : ((bits.drop m).take n).length = n := by simp; omega
  rw [List.take_add, bitsValue, List.foldl_append, ← bitsValue, bitsValue_foldl, hlen]

end Sys2Proof

namespace Sys2Proof.Machine

section
variable {b : Build} {d d' d'' : Dec}

/-! ## One bit -/

theorem stagedBytes_cons (h : d.inputIndex < d.inputSize) :
    stagedBytes d = d.staging.read d.inputIndex :: stagedBytes { d with inputIndex := d.inputIndex + 1 } := by
  have hn : d.inputSize - d.inputIndex = d.inputSize - (d.inputIndex + 1) + 1 := by omega
  simp only [stagedBytes, hn, List.range_succ_eq_map, List.map_cons, List.map_map, Nat.add_zero]
  congr 1
  exact List.map_congr_left fun i _ => by simp only [Function.comp, Nat.add_assoc, Nat.add_comm 1 i]

theorem stagedBytes_drained (h : d.inputSize ≤ d.inputIndex) : stagedBytes d = [] := by
  rw [stagedBytes, Nat.sub_eq_zero_of_le h]
  rfl

/-- A fetch moves the next staged byte into the accumulator, and the stream is as before (20_memory.md R72). -/
theorem stagingFetch_unreadBits (h : stagingFetch b d = .ok d') (h0 : d.bitIndex = 0) (hi : d.inputIndex < d.inputSize) :
    unreadBits d' = unreadBits d := by
  have hbefore : unreadBits d = byteBits (d.staging.read d.inputIndex) ++
      streamBits (stagedBytes { d with inputIndex := d.inputIndex + 1 }) := by
    rw [unreadBits, h0, stagedBytes_cons hi]
    rfl
  obtain ⟨-, rfl⟩ := stagingFetch_ok h
  rw [hbefore, unreadBits, ← byteBits]
  congr 2
  by_cases hlast : d.inputIndex + 1 = d.inputSize
  · simp only [if_pos hlast]
    rw [stagedBytes_drained (Nat.le_refl 0), stagedBytes_drained (Nat.le_of_eq hlast.symm)]
  · simp only [if_neg hlast]
    rfl

/-- A byte is in the accumulator, or the next staged one can be fetched; the stream is as before. -/
theorem load_exists (hok : stagingOk b d) (h : 0 < bitsAvailable d) :
    ∃ l, (if d.bitIndex = 0 then stagingFetch b d else .ok d) = .ok l ∧ unreadBits l = unreadBits d ∧
      stagingOk b l ∧ 0 < l.bitIndex := by
  by_cases h0 : d.bitIndex = 0
  · have hi : d.inputIndex < d.inputSize := by unfold bitsAvailable at h; omega
    have hin : d.inputIndex + 1 ≤ b.spaceSize .decStg := Nat.le_trans hi hok.1
    obtain ⟨l, hl⟩ : ∃ l, stagingFetch b d = .ok l := ⟨_, by rw [stagingFetch, checkSpace_ok hin]⟩
    refine ⟨l, by rw [if_pos h0, hl], stagingFetch_unreadBits hl h0 hi, stagingFetch_stagingOk hok hi hl, ?_⟩
    obtain ⟨-, rfl⟩ := stagingFetch_ok hl
    exact Nat.succ_pos 7
  · exact ⟨d, if_neg h0, rfl, hok, Nat.pos_of_ne_zero h0⟩

/-- The bit delivered is the first of those not yet read (R129). -/
theorem deliverBit_unreadBits (h : 0 < d.bitIndex) :
    ∃ bit : Bool, (deliverBit d).1 = bit.toNat ∧ unreadBits d = bit :: unreadBits (deliverBit d).2 := by
  obtain ⟨n, hn⟩ := Nat.exists_eq_succ_of_ne_zero (Nat.ne_of_gt h)
  refine ⟨d.currentByte.getLsbD n, by simp [deliverBit, hn], ?_⟩
  simp only [unreadBits, deliverBit, hn, Nat.succ_sub_one, fieldBits, List.cons_append]
  rfl

/-! ## A field -/

/-- From `d` to `d'` the next `n` bits of the stream are taken, with the value they have (R131). -/
structure Reads (b : Build) (n : Nat) (d d' : Dec) : Prop where
  available : n ≤ (unreadBits d).length
  takes : ∀ acc, takeBits b n acc d = .ok (acc * 2 ^ n + bitsValue ((unreadBits d).take n), d')
  rest : unreadBits d' = (unreadBits d).drop n

/-- Bits that are there can be taken. -/
theorem Reads.exists (hok : stagingOk b d) {n : Nat} (h : n ≤ (unreadBits d).length) : ∃ d', Reads b n d d' := by
  induction n generalizing d with
  | zero => exact ⟨d, h, fun acc => by simp [takeBits, bitsValue], rfl⟩
  | succ n ih =>
    obtain ⟨l, hl, hU, ⟨hs, hi, h8⟩, hpos⟩ := load_exists hok (by rw [← unreadBits_length]; omega)
    obtain ⟨bit, hbit, hcons⟩ := deliverBit_unreadBits hpos
    rw [← hU, hcons] at h
    have hn : n ≤ (unreadBits (deliverBit l).2).length := Nat.le_of_succ_le_succ h
    obtain ⟨d', hr⟩ := ih (d := (deliverBit l).2) ⟨hs, hi, Nat.le_trans (Nat.sub_le _ _) h8⟩ hn
    refine ⟨d', by rw [← hU, hcons]; exact h, fun acc => ?_, by rw [← hU, hcons]; exact hr.rest⟩
    rw [← hU, hcons, List.take_succ_cons, bitsValue_cons, List.length_take_of_le hn, takeBits, hl]
    dsimp only
    rw [hr.takes, hbit, Nat.pow_succ]
    congr 2
    ring

theorem Reads.stagingOk {n : Nat} (hr : Reads b n d d') (hok : stagingOk b d) : stagingOk b d' :=
  takeBits_stagingOk hok (unreadBits_length d ▸ hr.available) (hr.takes 0)

/-- `get_bits` delivers the value of the next bits (R131). -/
theorem Reads.getBits {n : Nat} (hr : Reads b n d d') :
    getBits b n d = .ok (some (bitsValue ((unreadBits d).take n), d')) := by
  have hav : ¬ bitsAvailable d < n := by rw [← unreadBits_length]; exact Nat.not_lt.mpr hr.available
  simp [Machine.getBits, hav, hr.takes 0]

theorem Reads.skipBits {n : Nat} (hr : Reads b n d d') : skipBits b n d = .ok d' := by
  rw [Machine.skipBits, hr.takes 0]

theorem takeBits_add {m n acc v : Nat} (h : takeBits b m acc d = .ok (v, d')) :
    takeBits b (m + n) acc d = takeBits b n v d' := by
  induction m generalizing acc d with
  | zero => cases h; rw [Nat.zero_add]
  | succ m ih =>
    rw [Nat.succ_add, takeBits]
    rw [takeBits] at h
    split at h
    · cases h
    · exact ih h

/-- Two fields after each other are one. -/
theorem Reads.trans {m n : Nat} (hm : Reads b m d d') (hn : Reads b n d' d'') : Reads b (m + n) d d'' := by
  have hm' := hm.available
  have hn' := hn.available
  rw [hm.rest, List.length_drop] at hn'
  have hmn : m + n ≤ (unreadBits d).length := by omega
  refine ⟨hmn, fun acc => ?_, by rw [hn.rest, hm.rest, List.drop_drop]⟩
  rw [takeBits_add (hm.takes acc), hn.takes, hm.rest, bitsValue_take_add _ hmn, Nat.pow_add]
  congr 2
  ring

/-! ## The registers of a token -/

/-- The decoder in the given phase of a token, with the given fields: the registers that the accumulator does not have
(10_state.md R33, R37, R38). -/
def Dec.inPhase (d : Dec) (q : DecState) (index count : Nat) : Dec :=
  { d with state := q, outputIndex := index, outputCount := count }

theorem takeBits_inPhase {n acc v : Nat} (h : takeBits b n acc d = .ok (v, d')) (q : DecState) (index count : Nat) :
    takeBits b n acc (d.inPhase q index count) = .ok (v, d'.inPhase q index count) := by
  induction n generalizing acc d with
  | zero => cases h; rfl
  | succ n ih =>
    rw [takeBits] at h ⊢
    split at h
    · cases h
    · next l hl =>
      have hl' : (if (d.inPhase q index count).bitIndex = 0 then stagingFetch b (d.inPhase q index count)
          else .ok (d.inPhase q index count)) = .ok (l.inPhase q index count) := by
        by_cases h0 : d.bitIndex = 0
        · rw [if_pos h0] at hl
          rw [if_pos (show (d.inPhase q index count).bitIndex = 0 from h0)]
          obtain ⟨hin, rfl⟩ := stagingFetch_ok hl
          rw [stagingFetch, checkSpace_ok (show (d.inPhase q index count).inputIndex + 1 ≤ b.spaceSize .decStg from hin)]
          rfl
        · rw [if_neg h0] at hl
          rw [if_neg (show ¬ (d.inPhase q index count).bitIndex = 0 from h0)]
          cases hl
          rfl
      rw [hl']
      exact ih h

/-- Taking bits does not look at the phase. -/
theorem Reads.inPhase {n : Nat} (hr : Reads b n d d') (q : DecState) (index count : Nat) :
    Reads b n (d.inPhase q index count) (d'.inPhase q index count) :=
  ⟨hr.available, fun acc => takeBits_inPhase (hr.takes acc) q index count, hr.rest⟩

theorem Reads.getBits_inPhase {n : Nat} (hr : Reads b n d d') (q : DecState) (index count : Nat) :
    Machine.getBits b n (d.inPhase q index count) =
      .ok (some (bitsValue ((unreadBits d).take n), d'.inPhase q index count)) :=
  (hr.inPhase q index count).getBits

end

end Sys2Proof.Machine
end

section
/-! SUPPORT. A whole token of the stream as the phases that fetch and execute it (43_decoder_fsm.md R190 to R196): each phase
is one micro-step, and all but the last of them only take bits. -/

namespace Sys2Proof

/-- The backreference of format (W, L) with the given fields has this format and these fields (30_encoding.md R93). -/
theorem brefOf_bref? {W L index count : Nat} {i : Instr} (h : brefOf W L index count = some i) (hI : index < 2 ^ W)
    (hC : count < 2 ^ L) : i.bref? = some (W, L, index, count) := by
  unfold brefOf at h
  split at h <;> cases h <;> simp only [Instr.bref?, BitVec.toNat_ofNat, Nat.mod_eq_of_lt hI, Nat.mod_eq_of_lt hC]

/-- A field read from a string has at most as many bits as it asked for. -/
theorem bitsValue_take_lt (k : Nat) (bits : List Bool) : bitsValue (bits.take k) < 2 ^ k :=
  Nat.lt_of_lt_of_le (bitsValue_lt _) (Nat.pow_le_pow_right (by omega) (List.length_take_le k bits))

/-- A token at the front of a stream is a literal, or a backreference of the decoder's format; what follows it is left
(R91 to R93). -/
theorem decodeToken_ok {W L : Nat} {bits later : List Bool} {i : Instr} (h : decodeToken W L bits = .ok (i, later)) :
    (∃ rest, bits = true :: rest ∧ 8 ≤ rest.length ∧ i = .lit (BitVec.ofNat 8 (bitsValue (rest.take 8))) ∧
      later = rest.drop 8) ∨
    (∃ rest, bits = false :: rest ∧ W + L ≤ rest.length ∧
      i.bref? = some (W, L, bitsValue (rest.take W), bitsValue ((rest.drop W).take L)) ∧ later = rest.drop (W + L)) := by
  unfold decodeToken at h
  split at h
  · cases h
  · next rest =>
    split at h
    · cases h
    next value later' hv =>
    cases h
    obtain ⟨hlen, rfl, rfl⟩ := takeField_some hv
    exact .inl ⟨rest, rfl, hlen, rfl, rfl⟩
  · next rest =>
    split at h
    · cases h
    next index afterIndex hindex =>
    split at h
    · cases h
    next count later' hcount =>
    split at h
    · cases h
    next i' hbref =>
    cases h
    obtain ⟨hW, rfl, rfl⟩ := takeField_some hindex
    obtain ⟨hL, rfl, rfl⟩ := takeField_some hcount
    rw [List.length_drop] at hL
    exact .inr ⟨rest, rfl, by omega, brefOf_bref? hbref (bitsValue_take_lt _ _) (bitsValue_take_lt _ _), List.drop_drop⟩

end Sys2Proof

namespace Sys2Proof.Machine

section
variable {b : Build} {d d' : Dec} {k : OutSink}

/-! ## One phase -/

/-- The tag bit 1 (R191). -/
theorem decStep_literalTag {rest : List Bool} (hr : Reads b 1 d d') (hU : unreadBits d = true :: rest) (index count : Nat)
    (k : OutSink) : decStep b (d.inPhase .tagBit index count) k = .ok (d'.inPhase .yieldLiteral index count, k) := by
  change tagBitStep b _ k = _
  rw [tagBitStep, hr.getBits_inPhase, hU]
  rfl

/-- The tag bit 0 (R191). -/
theorem decStep_backrefTag {rest : List Bool} (hr : Reads b 1 d d') (hU : unreadBits d = false :: rest) (index count : Nat)
    (k : OutSink) : decStep b (d.inPhase .tagBit index count) k =
      .ok (d'.inPhase (if 8 < b.windowBits then .backrefIndexMsb else .backrefIndexLsb) 0 count, k) := by
  change tagBitStep b _ k = _
  rw [tagBitStep, hr.getBits_inPhase, hU]
  rfl

/-- The byte of a literal, taken and produced (R192). -/
theorem decStep_literal (hr : Reads b 8 d d') (index count : Nat) (room : k.canTakeByte = true) :
    decStep b (d.inPhase .yieldLiteral index count) k =
      .ok (produceByte b (BitVec.ofNat 8 (bitsValue ((unreadBits d).take 8))) (d'.inPhase .tagBit index count) k) := by
  change decLiteralStep b _ k = _
  rw [decLiteralStep, if_pos room, hr.getBits_inPhase]
  rfl

/-- The high piece of the distance (R193). -/
theorem decStep_highPiece (hr : Reads b (highIndexBits b) d d') (wide : 8 < b.windowBits) (index count : Nat) (k : OutSink) :
    decStep b (d.inPhase .backrefIndexMsb index count) k =
      .ok (d'.inPhase .backrefIndexLsb (bitsValue ((unreadBits d).take (highIndexBits b)) <<< 8) count, k) := by
  change backrefIndexMsbStep b _ k = _
  rw [backrefIndexMsbStep, if_pos wide, hr.getBits_inPhase]
  rfl

/-- The low piece of the distance (R194). -/
theorem decStep_lowPiece (hr : Reads b (lowIndexBits b) d d') (high count : Nat) (k : OutSink) :
    decStep b (d.inPhase .backrefIndexLsb high count) k =
      .ok (d'.inPhase .backrefCountLsb
        (operandOfField (high ||| bitsValue ((unreadBits d).take (lowIndexBits b)))) 0, k) := by
  change backrefIndexLsbStep b _ k = _
  rw [backrefIndexLsbStep, hr.getBits_inPhase]
  rfl

/-- The length (R195). -/
theorem decStep_length (hr : Reads b b.lookaheadBits d d') (distance count : Nat) (k : OutSink) :
    decStep b (d.inPhase .backrefCountLsb distance count) k =
      .ok (d'.inPhase .yieldBackref distance (operandOfField (bitsValue ((unreadBits d).take b.lookaheadBits))), k) := by
  change backrefCountLsbStep b _ k = _
  rw [backrefCountLsbStep, hr.getBits_inPhase]
  rfl

/-! ## The phases that take bits -/

/-- `n` micro-steps that each go to another state and produce nothing: the phases in which a token is fetched. -/
inductive Fetches (b : Build) (k : OutSink) : Nat → Dec → Dec → Prop where
  | none (d : Dec) : Fetches b k 0 d d
  | phase {n : Nat} {d d₁ d₂ : Dec} (earlier : Fetches b k n d d₁) (step : decStep b d₁ k = .ok (d₂, k))
      (moves : d₂.state ≠ d₁.state) : Fetches b k (n + 1) d d₂

/-- From the tag bit 0 to the low piece of the distance: one phase, or in a wide build two, the second of which reads the high
piece (R191, R193). -/
theorem fetch_distance {d₁ d₂ : Dec} {rest : List Bool} (k : OutSink) (htag : Reads b 1 d d₁)
    (hU : unreadBits d = false :: rest) (hdist : Reads b b.windowBits d₁ d₂) (hok : stagingOk b d) (index count : Nat) :
    ∃ n, n ≤ 3 ∧ Fetches b k n (d.inPhase .tagBit index count)
      (d₂.inPhase .backrefCountLsb (operandOfField (bitsValue ((unreadBits d₁).take b.windowBits))) 0) := by
  have hstart := decStep_backrefTag htag hU index count k
  by_cases wide : 8 < b.windowBits
  · rw [if_pos wide] at hstart
    have hlow : lowIndexBits b = 8 := Nat.min_eq_right (Nat.le_of_lt wide)
    have hW : highIndexBits b + lowIndexBits b = b.windowBits := by rw [hlow]; unfold highIndexBits; omega
    have hav := hdist.available
    obtain ⟨d₃, hhigh⟩ := Reads.exists (n := highIndexBits b) (htag.stagingOk hok) (by omega)
    obtain ⟨d₄, hlast⟩ := Reads.exists (n := lowIndexBits b) (hhigh.stagingOk (htag.stagingOk hok))
      (by rw [hhigh.rest, List.length_drop]; omega)
    have h42 : d₄ = d₂ := by
      have h₁ := (hhigh.trans hlast).skipBits
      rw [hW, hdist.skipBits] at h₁
      exact (Except.ok.inj h₁).symm
    subst h42
    have hval : bitsValue ((unreadBits d₁).take (highIndexBits b)) <<< 8 ||| bitsValue ((unreadBits d₃).take (lowIndexBits b)) =
        bitsValue ((unreadBits d₁).take b.windowBits) := by
      rw [← hW, bitsValue_take_add _ (by omega), ← hhigh.rest, hlow,
        ← Nat.shiftLeft_add_eq_or_of_lt (bitsValue_take_lt 8 _), Nat.shiftLeft_eq]
    have hend := decStep_lowPiece hlast (bitsValue ((unreadBits d₁).take (highIndexBits b)) <<< 8) count k
    rw [hval] at hend
    have hmid := decStep_highPiece hhigh wide 0 count k
    exact ⟨3, Nat.le_refl 3, .phase (.phase (.phase (.none _) hstart nofun) hmid nofun) hend nofun⟩
  · rw [if_neg wide] at hstart
    have hlow : lowIndexBits b = b.windowBits := Nat.min_eq_left (Nat.le_of_not_lt wide)
    have hend := decStep_lowPiece (hlow ▸ hdist) 0 count k
    rw [hlow, Nat.zero_or] at hend
    exact ⟨2, by omega, .phase (.phase (.none _) hstart nofun) hend nofun⟩

/-! ## The token -/

/-- The next token is a literal with room for its byte, or a backreference of the build's format; and its bits are there. -/
theorem nextToken_cases {i : Instr} {width : Nat} (h : nextToken b d k = some (i, width)) :
    d.state = .tagBit ∧
    ((∃ rest, unreadBits d = true :: rest ∧ 8 ≤ rest.length ∧ i = .lit (BitVec.ofNat 8 (bitsValue (rest.take 8))) ∧
        width = 1 + 8 ∧ k.canTakeByte = true) ∨
     (∃ rest, unreadBits d = false :: rest ∧ b.windowBits + b.lookaheadBits ≤ rest.length ∧
        i.bref? = some (b.windowBits, b.lookaheadBits, bitsValue (rest.take b.windowBits),
          bitsValue ((rest.drop b.windowBits).take b.lookaheadBits)) ∧
        width = 1 + (b.windowBits + b.lookaheadBits))) := by
  unfold nextToken at h
  split at h
  case isFalse => cases h
  case isTrue hq =>
    refine ⟨hq, ?_⟩
    split at h
    · cases h
    next i' later hdec =>
    split at h
    case isFalse => cases h
    case isTrue hroom =>
      cases h
      rcases decodeToken_ok hdec with ⟨rest, hU, hlen, rfl, rfl⟩ | ⟨rest, hU, hlen, hi, rfl⟩
      · refine .inl ⟨rest, hU, hlen, rfl, ?_, hroom⟩
        rw [hU, List.length_cons, List.length_drop]
        omega
      · refine .inr ⟨rest, hU, hlen, hi, ?_⟩
        rw [hU, List.length_cons, List.length_drop]
        omega

/-- What the token `i` of `width` bits is to the decoder `d`: up to `d₂` it is fetched, and one more micro-step executes it,
which is what the token does once its bits have been skipped. The poll takes the two alike. -/
structure TokenPhases (b : Build) (d : Dec) (k : OutSink) (i : Instr) (width : Nat) (d₁ d₂ d₃ : Dec) (k₃ : OutSink) :
    Prop where
  skips : skipBits b width d = .ok d₁
  fetches : ∃ n, n ≤ 4 ∧ Fetches b k n d d₂
  last : decStep b d₂ k = .ok (d₃, k₃)
  executes : ∀ s : State, s.build = b → s.dec = d₁ → s.decOut = some k → exec i s = .next (s.decRun d₃ k₃)
  answer : decPollStatus .yieldBackref d₃.state k₃ = decPollStatus d₂.state d₃.state k₃

/-- A literal is its tag bit and its byte (R191, R192). -/
theorem literal_phases {rest : List Bool} (hok : stagingOk b d) (hq : d.state = .tagBit) (hU : unreadBits d = true :: rest)
    (hlen : 8 ≤ rest.length) (room : k.canTakeByte = true) :
    ∃ d₁ d₂ d₃ k₃, TokenPhases b d k (.lit (BitVec.ofNat 8 (bitsValue (rest.take 8)))) (1 + 8) d₁ d₂ d₃ k₃ := by
  obtain ⟨d₁, htag⟩ := Reads.exists (n := 1) hok (by rw [hU]; exact Nat.succ_pos _)
  have hrest : unreadBits d₁ = rest := by rw [htag.rest, hU]; rfl
  obtain ⟨d₂, hbyte⟩ := Reads.exists (n := 8) (htag.stagingOk hok) (by rw [hrest]; exact hlen)
  have hd : d = d.inPhase .tagBit d.outputIndex d.outputCount := by rw [← hq]; rfl
  have hstart := decStep_literalTag htag hU d.outputIndex d.outputCount k
  have hend := decStep_literal hbyte d.outputIndex d.outputCount room
  rw [← hd] at hstart
  rw [hrest] at hend
  refine ⟨d₂.inPhase .tagBit d.outputIndex d.outputCount, _, _, _,
    { skips := ?_
      fetches := ⟨1, by omega, .phase (.none _) hstart (by rw [hq]; nofun)⟩
      last := hend
      executes := fun s hb hd₁ hk => ?_
      answer := rfl }⟩
  · have hskip := ((htag.trans hbyte).inPhase .tagBit d.outputIndex d.outputCount).skipBits
    rwa [← hd] at hskip
  · refine tokenStep_next.mpr ⟨k, hk, by rw [hd₁]; rfl, ?_⟩
    rw [hd₁, hb, runLiteral, if_pos room]
    rfl

/-- A backreference is its tag bit, the one or two pieces of its distance, its length, and its copy (R191 to R196). -/
theorem backref_phases {rest : List Bool} {i : Instr} (hok : stagingOk b d) (hq : d.state = .tagBit)
    (hU : unreadBits d = false :: rest) (hlen : b.windowBits + b.lookaheadBits ≤ rest.length)
    (hi : i.bref? = some (b.windowBits, b.lookaheadBits, bitsValue (rest.take b.windowBits),
      bitsValue ((rest.drop b.windowBits).take b.lookaheadBits))) (k : OutSink) :
    ∃ d₁ d₂ d₃ k₃, TokenPhases b d k i (1 + (b.windowBits + b.lookaheadBits)) d₁ d₂ d₃ k₃ := by
  obtain ⟨d₁, htag⟩ := Reads.exists (n := 1) hok (by rw [hU]; exact Nat.succ_pos _)
  have hrest : unreadBits d₁ = rest := by rw [htag.rest, hU]; rfl
  obtain ⟨d₂, hdist⟩ := Reads.exists (n := b.windowBits) (htag.stagingOk hok) (by rw [hrest]; omega)
  obtain ⟨d₃, hlength⟩ := Reads.exists (n := b.lookaheadBits) (hdist.stagingOk (htag.stagingOk hok))
    (by rw [hdist.rest, hrest, List.length_drop]; omega)
  have hd : d = d.inPhase .tagBit d.outputIndex d.outputCount := by rw [← hq]; rfl
  obtain ⟨n, hn, hfetch⟩ := fetch_distance k htag hU hdist hok d.outputIndex d.outputCount
  have hend := decStep_length hlength (operandOfField (bitsValue ((unreadBits d₁).take b.windowBits))) 0 k
  rw [hdist.rest, hrest] at hend
  rw [hrest, ← hd] at hfetch
  refine ⟨d₃.inPhase .tagBit d.outputIndex d.outputCount, _, _, _,
    { skips := ?_
      fetches := ⟨n + 1, by omega, hfetch.phase hend nofun⟩
      last := rfl
      executes := fun s hb hd₁ hk => ?_
      answer := rfl }⟩
  · have hskip := ((htag.trans (hdist.trans hlength)).inPhase .tagBit d.outputIndex d.outputCount).skipBits
    rwa [← hd] at hskip
  · subst hb
    rw [exec_of_bref hi]
    exact execBackref_next.mpr ⟨⟨rfl, rfl⟩, tokenStep_next.mpr ⟨k, hk, by rw [hd₁]; rfl, by rw [hd₁]; rfl⟩⟩

/-- A whole token is what its two to five micro-steps do. -/
theorem token_phases {i : Instr} {width : Nat} (hok : stagingOk b d) (h : nextToken b d k = some (i, width)) :
    ∃ d₁ d₂ d₃ k₃, TokenPhases b d k i width d₁ d₂ d₃ k₃ := by
  obtain ⟨hq, ⟨rest, hU, hlen, rfl, rfl, room⟩ | ⟨rest, hU, hlen, hi, rfl⟩⟩ := nextToken_cases h
  · exact literal_phases hok hq hU hlen room
  · exact backref_phases hok hq hU hlen hi k

end

end Sys2Proof.Machine
end

section
/-! SUPPORT. A poll shown micro-step by micro-step or token by token runs through the loop of the whole command
(44_streaming_protocol.md R215, R221) and ends where it ends. -/

namespace Sys2Proof.Machine

section
variable {s t u : State}

/-! ## Runs and single steps -/

theorem run_none (s : State) : Host.Core.run core 0 s = .next s := rfl

/-- The first step of a run, on any machine. -/
theorem run_succ (M : Host.Core) {n : Nat} {s t : M.State} (h : M.step s = .next t) : M.run (n + 1) s = M.run n t := by
  rw [Host.Core.run, h]

theorem run_step {n : Nat} (h : step s = .next t) (hr : Host.Core.run core n t = .next u) :
    Host.Core.run core (n + 1) s = .next u :=
  (run_succ core h).trans hr

theorem step_of_legal (hl : s.build.legal = true) : step s = stepLegal s := if_pos hl

/-- A step of a running poll of the encoder is the micro-step of its state. -/
theorem step_encStep (hl : s.build.legal = true) {k k' : OutSink} {e : Enc} (hk : s.encOut = some k)
    (h : encStep s.build s.enc k = .ok (e, k')) : step s = .next ((s.encRun e k').encAfter s.enc.state) := by
  have hf : s.fetch = .encMicro s.enc.state.microStep := by rw [State.fetch, hk]
  have hx : exec s.enc.state.microStep s = .next (s.encRun e k') := by
    rw [exec_encMicroStep]
    exact encMicroStep_next.mpr ⟨k, e, k', hk, rfl, h, rfl⟩
  rw [step_of_legal hl, stepLegal, hf]
  exact onNext_next.mpr ⟨_, hx, rfl⟩

/-- A step that fetches the micro-step of the decoder's state. -/
theorem step_decStep (hl : s.build.legal = true) {k k' : OutSink} {d : Dec} (hk : s.decOut = some k)
    (hf : s.fetch = .decMicro s.dec.state.microStep) (h : decStep s.build s.dec k = .ok (d, k')) :
    step s = .next ((s.decRun d k').decAfter s.dec.state) := by
  have hx : exec s.dec.state.microStep s = .next (s.decRun d k') := by
    rw [exec_decMicroStep]
    exact decMicroStep_next.mpr ⟨k, d, k', hk, rfl, h, rfl⟩
  rw [step_of_legal hl, stepLegal, hf]
  exact onNext_next.mpr ⟨_, hx, rfl⟩

/-- A step that fetches a token answers as the last of the token's micro-steps does. -/
theorem step_token (hl : s.build.legal = true) {k k₃ : OutSink} {i : Instr} {width : Nat} {d₁ d₂ d₃ : Dec}
    (hk : s.decOut = some k) (hf : s.fetch = .token i width) (h : TokenPhases s.build s.dec k i width d₁ d₂ d₃ k₃) :
    step s = .next ((s.decRun d₃ k₃).decAfter d₂.state) := by
  have hx : exec i { s with dec := d₁ } = .next (s.decRun d₃ k₃) := h.executes _ rfl rfl hk
  rw [step_of_legal hl, stepLegal, hf]
  dsimp only
  rw [h.skips]
  refine onNext_next.mpr ⟨_, hx, ?_⟩
  simp only [State.decAfter, State.decRun_decOut, State.decRun_dec, h.answer]

/-! ## The loop of ENC.POLL (R215) -/

/-- The block once a poll of the encoder has returned. -/
def encPolled (s : State) (r : Enc × OutSink × Status) : State :=
  s.encReturn r.1 (some (.polled r.2.2 r.2.1.out))

theorem encPollLoop_ok {b : Build} {fuel : Nat} {e : Enc} {k : OutSink} {r : Enc × OutSink × Status}
    (h : encPollLoop b fuel e k = .ok r) :
    ∃ fuel' e' k', fuel = fuel' + 1 ∧ encStep b e k = .ok (e', k') ∧
      ((∃ status, encPollStatus e.state e'.state k' = some status ∧ r = (e', k', status)) ∨
       (encPollStatus e.state e'.state k' = none ∧ encPollLoop b fuel' e' k' = .ok r)) := by
  cases fuel with
  | zero => cases h
  | succ fuel =>
    rw [encPollLoop] at h
    split at h
    · cases h
    · next e' k' hok =>
      split at h
      · next status hs => cases h; exact ⟨fuel, e', k', rfl, hok, .inl ⟨status, hs, rfl⟩⟩
      · next hs => exact ⟨fuel, e', k', rfl, hok, .inr ⟨hs, h⟩⟩

theorem encAfter_returns {q : EncState} {e : Enc} {k : OutSink} {status : Status}
    (h : encPollStatus q e.state k = some status) : (s.encRun e k).encAfter q = encPolled s (e, k, status) := by
  simp only [State.encAfter, State.encRun_encOut, State.encRun_enc, h]
  rfl

theorem encAfter_goes_on {q : EncState} {e : Enc} {k : OutSink} (h : encPollStatus q e.state k = none) :
    (s.encRun e k).encAfter q = s.encRun e k := by
  simp only [State.encAfter, State.encRun_encOut, State.encRun_enc, h]

/-- A running poll of the encoder, stepped, returns with the result of its loop. -/
theorem run_encPollLoop (hl : s.build.legal = true) {fuel : Nat} {k : OutSink} {r : Enc × OutSink × Status}
    (hk : s.encOut = some k) (h : encPollLoop s.build fuel s.enc k = .ok r) :
    ∃ n, Host.Core.run core n s = .next (encPolled s r) := by
  induction fuel generalizing s k with
  | zero => cases h
  | succ fuel ih =>
    obtain ⟨fuel', e', k', hfuel, hok, hrest⟩ := encPollLoop_ok h
    cases hfuel
    have hstep := step_encStep hl hk hok
    rcases hrest with ⟨status, hs, rfl⟩ | ⟨hs, hloop⟩
    · exact ⟨1, run_step (encAfter_returns hs ▸ hstep) (run_none _)⟩
    · obtain ⟨n, hn⟩ := ih (s := s.encRun e' k') hl rfl hloop
      exact ⟨n + 1, run_step (encAfter_goes_on hs ▸ hstep) hn⟩

/-! ## The loop of DEC.POLL (R221) -/

/-- The block once a poll of the decoder has returned. -/
def decPolled (s : State) (r : Dec × OutSink × Status) : State :=
  s.decReturn r.1 (some (.polled r.2.2 r.2.1.out))

theorem decPollLoop_ok {b : Build} {fuel : Nat} {d : Dec} {k : OutSink} {r : Dec × OutSink × Status}
    (h : decPollLoop b fuel d k = .ok r) :
    ∃ fuel' d' k', fuel = fuel' + 1 ∧ decStep b d k = .ok (d', k') ∧
      ((∃ status, decPollStatus d.state d'.state k' = some status ∧ r = (d', k', status)) ∨
       (decPollStatus d.state d'.state k' = none ∧ decPollLoop b fuel' d' k' = .ok r)) := by
  cases fuel with
  | zero => cases h
  | succ fuel =>
    rw [decPollLoop] at h
    split at h
    · cases h
    · next d' k' hok =>
      split at h
      · next status hs => cases h; exact ⟨fuel, d', k', rfl, hok, .inl ⟨status, hs, rfl⟩⟩
      · next hs => exact ⟨fuel, d', k', rfl, hok, .inr ⟨hs, h⟩⟩

theorem decAfter_returns {q : DecState} {d : Dec} {k : OutSink} {status : Status}
    (h : decPollStatus q d.state k = some status) : (s.decRun d k).decAfter q = decPolled s (d, k, status) := by
  simp only [State.decAfter, State.decRun_decOut, State.decRun_dec, h]
  rfl

theorem decAfter_goes_on {q : DecState} {d : Dec} {k : OutSink} (h : decPollStatus q d.state k = none) :
    (s.decRun d k).decAfter q = s.decRun d k := by
  simp only [State.decAfter, State.decRun_decOut, State.decRun_dec, h]

/-- The phases in which a token is fetched are a part of the loop. -/
theorem Fetches.decPollLoop {b : Build} {n fuel : Nat} {d d₂ : Dec} {k : OutSink} {r : Dec × OutSink × Status}
    (hf : Fetches b k n d d₂) (h : decPollLoop b fuel d k = .ok r) :
    ∃ fuel', fuel' ≤ fuel ∧ Machine.decPollLoop b fuel' d₂ k = .ok r := by
  induction hf with
  | none => exact ⟨fuel, Nat.le_refl _, h⟩
  | phase _ hstep hmoves ih =>
    obtain ⟨fuel₁, hle, h₁⟩ := ih h
    obtain ⟨fuel₂, d', k', rfl, hok, hrest⟩ := decPollLoop_ok h₁
    rw [hstep] at hok
    cases hok
    rw [decPollStatus, if_neg hmoves] at hrest
    rcases hrest with ⟨status, hs, -⟩ | ⟨-, hloop⟩
    · cases hs
    · exact ⟨fuel₂, by omega, hloop⟩

/-- One step of a running poll of the decoder goes one micro-step or several, a token, along its loop, and then the poll
returns or goes on. -/
theorem step_in_decPollLoop (hi : StateInv s) {fuel : Nat} {k : OutSink} {r : Dec × OutSink × Status}
    (he : s.encOut = none) (hk : s.decOut = some k) (h : decPollLoop s.build fuel s.dec k = .ok r) :
    ∃ fuel' d₂ d₃ k₃, fuel' ≤ fuel ∧ decPollLoop s.build fuel' d₂ k = .ok r ∧ decStep s.build d₂ k = .ok (d₃, k₃) ∧
      step s = .next ((s.decRun d₃ k₃).decAfter d₂.state) := by
  rcases fetch_cases s with ⟨k₀, he', -⟩ | ⟨k₀, -, hk', ⟨i, width, -, hn, hf⟩ | hf⟩ | ⟨w, later, -, hk', -⟩ | ⟨-, hk', -⟩
  · rw [he] at he'; cases he'
  · cases hk.symm.trans hk'
    obtain ⟨d₁, d₂, d₃, k₃, hphases⟩ := token_phases hi.dec.data.staging_ok hn
    obtain ⟨n, -, hfetches⟩ := hphases.fetches
    obtain ⟨fuel', hle, hloop⟩ := hfetches.decPollLoop h
    exact ⟨fuel', d₂, d₃, k₃, hle, hloop, hphases.last, step_token hi.build_legal hk hf hphases⟩
  · obtain ⟨fuel', d', k', -, hok, -⟩ := decPollLoop_ok h
    exact ⟨fuel, s.dec, d', k', Nat.le_refl _, h, hok, step_decStep hi.build_legal hk hf hok⟩
  · rw [hk] at hk'; cases hk'
  · rw [hk] at hk'; cases hk'

/-- A running poll of the decoder, stepped at any grain, returns with the result of its loop. -/
theorem run_decPollLoop (hi : StateInv s) {fuel : Nat} {k : OutSink} {r : Dec × OutSink × Status} (he : s.encOut = none)
    (hk : s.decOut = some k) (h : decPollLoop s.build fuel s.dec k = .ok r) :
    ∃ n, Host.Core.run core n s = .next (decPolled s r) := by
  induction fuel using Nat.strong_induction_on generalizing s k with
  | h fuel ih =>
    obtain ⟨fuel₂, d₂, d₃, k₃, hle, hloop, hok, hstep⟩ := step_in_decPollLoop hi he hk h
    obtain ⟨fuel', d', k', rfl, hok', hrest⟩ := decPollLoop_ok hloop
    cases hok.symm.trans hok'
    rcases hrest with ⟨status, hs, rfl⟩ | ⟨hs, hgoes⟩
    · exact ⟨1, run_step (decAfter_returns hs ▸ hstep) (run_none _)⟩
    · rw [decAfter_goes_on hs] at hstep
      obtain ⟨n, hn⟩ := ih fuel' hle (s := s.decRun d₃ k₃) (step_keeps_inv hi hstep) he rfl hgoes
      exact ⟨n + 1, run_step hstep hn⟩

/-! ## A poll as one command and as a run -/

/-- An `ENC.POLL` with room that completes has run its loop to the end. -/
theorem exec_encPoll_next {cap : Nat} (hc : 0 < cap) (h : exec (.encPoll cap) s = .next t) :
    ∃ fuel r, encPollLoop s.build fuel s.enc (.start cap) = .ok r ∧ t = encPolled s r := by
  rw [exec_encPoll, encCommand_next] at h
  obtain ⟨-, e, reply, hok, rfl⟩ := h
  obtain ⟨r, hp, rfl⟩ := map_withReply_ok hok
  rw [encPoll, if_neg (Nat.ne_of_gt hc)] at hp
  split at hp
  · cases hp
  · next e' k status hloop => cases hp; exact ⟨_, _, hloop, rfl⟩

/-- A `DEC.POLL` with room that completes has run its loop to the end. -/
theorem exec_decPoll_next {cap : Nat} (hc : 0 < cap) (h : exec (.decPoll cap) s = .next t) :
    ∃ fuel r, decPollLoop s.build fuel s.dec (.start cap) = .ok r ∧ t = decPolled s r := by
  rw [exec_decPoll, decCommand_next] at h
  obtain ⟨-, d, reply, hok, rfl⟩ := h
  obtain ⟨r, hp, rfl⟩ := map_withReply_ok hok
  rw [decPoll, if_neg (Nat.ne_of_gt hc)] at hp
  split at hp
  · cases hp
  · next d' k status hloop => cases hp; exact ⟨_, _, hloop, rfl⟩

/-- The grain is the step's: no instruction looks at it (log 6). -/
theorem exec_grain {i : Instr} (h : exec i s = .next t) (g : Grain) :
    exec i { s with grain := g } = .next { t with grain := g } := by
  cases ho : ofEncoder i with
  | true =>
    obtain ⟨ht, hlocal⟩ := exec_encLocal ho s t h
    rw [hlocal { s with grain := g } rfl rfl rfl rfl, ht]
  | false =>
    obtain ⟨ht, hlocal⟩ := exec_decLocal ho s t h
    rw [hlocal { s with grain := g } rfl rfl rfl rfl, ht]

/-- A poll that a step opens reaches, stepped, what it reaches as one command. -/
theorem run_opened (hi : StateInv s) (he : s.encOut = none) {i : Instr}
    (ho : s.opened i = some u) (h : exec i s = .next t) : ∃ n, Host.Core.run core n u = .next t := by
  have hu := hi.opened ho
  obtain ⟨-, cap, hcap, ⟨rfl, rfl⟩ | ⟨rfl, rfl⟩⟩ := opened_some ho
  · obtain ⟨fuel, r, hloop, rfl⟩ := exec_encPoll_next hcap h
    exact run_encPollLoop hu.build_legal rfl hloop
  · obtain ⟨fuel, r, hloop, rfl⟩ := exec_decPoll_next hcap h
    exact run_decPollLoop hu he rfl hloop

/-- A step with no poll running takes the host's oldest command: it opens it, or runs it whole. -/
theorem step_command (hl : s.build.legal = true) (he : s.encOut = none) (hd : s.decOut = none) {w : CommandWord}
    {later : List CommandWord} (hp : s.pending = w :: later) :
    (∀ u, ({ s with pending := later } : State).opened (decodeCommand w) = some u → step s = .next u) ∧
    (({ s with pending := later } : State).opened (decodeCommand w) = none →
      step s = exec (decodeCommand w) { s with pending := later }) := by
  have hf : s.fetch = .command (decodeCommand w) later := by rw [State.fetch, he, hd, hp]
  rw [step_of_legal hl, stepLegal, hf]
  dsimp only
  exact ⟨fun u ho => by rw [ho], fun ho => by rw [ho]⟩

/-- At the grain of commands a step with something to run runs the host's oldest command whole. -/
theorem step_whole (he : s.encOut = none) (hd : s.decOut = none) (hp : s.pending ≠ []) (hg : s.grain = .command)
    (h : step s = .next t) :
    ∃ w later, s.pending = w :: later ∧ exec (decodeCommand w) { s with pending := later } = .next t := by
  obtain ⟨-, ⟨-, -, hp', -⟩ | ⟨k, e, k', hk, -⟩ | ⟨k, d, k', -, hk, -⟩ | ⟨k, i, width, d, s', -, hk, -⟩ |
    ⟨w, later, -, -, hp', ho | ⟨-, hx⟩⟩⟩ := step_cases h
  · exact absurd hp' hp
  · rw [he] at hk; cases hk
  · rw [hd] at hk; cases hk
  · rw [hd] at hk; cases hk
  · exact absurd hg (opened_some ho).1
  · exact ⟨w, later, hp', hx⟩

end

end Sys2Proof.Machine

namespace Sys2Proof.Proofs

open Sys2Proof.Machine

/-- Settles O56: a command that is not opened runs whole at every grain; a poll that is opened runs through the loop of the
command, a token's micro-steps at once where the grain is the token. -/
theorem stepwiseIsAtomic : Obligations.StepwiseIsAtomic := by
  intro g s t hi he hd hp h
  obtain ⟨w, later, hp, hx⟩ := step_whole (s := { s with grain := .command }) he hd hp rfl h
  have hx' := exec_grain hx g
  have hs : StateInv { s with grain := g, pending := later } := { hi with }
  obtain ⟨hopen, hwhole⟩ := step_command (s := { s with grain := g }) hi.build_legal he hd hp
  cases ho : ({ s with grain := g, pending := later } : State).opened (decodeCommand w) with
  | none => exact ⟨1, Nat.one_pos, run_step ((hwhole ho).trans hx') (run_none _)⟩
  | some u =>
    obtain ⟨n, hn⟩ := run_opened hs he ho hx'
    exact ⟨n + 1, Nat.succ_pos n, run_step (hopen u ho) hn⟩

end Sys2Proof.Proofs
end

section
/-! SUPPORT. A token's bits and the decoder of the stream (30_encoding.md R91 to R97): a field is read back from its bits and
written back from its value, and the first bit of a stream alone decides how long the token at its front is. -/

namespace Sys2Proof

open Sys2Proof.Machine

/-! ## Fields -/

/-- The value of a string of bits, written as a field of its length, gives the string back. -/
theorem fieldBits_bitsValue (bits : List Bool) : fieldBits bits.length (bitsValue bits) = bits := by
  induction bits with
  | nil => rfl
  | cons bit rest ih =>
    have hlow : fieldBits rest.length (bitsValue (bit :: rest)) = rest := by
      rw [← fieldBits_mod _ (Nat.le_refl _), bitsValue_cons, Nat.mul_add_mod_self_right, fieldBits_mod _ (Nat.le_refl _), ih]
    have hhigh : (bitsValue (bit :: rest)).testBit rest.length = bit := by
      rw [bitsValue_cons, Nat.mul_comm, Nat.testBit_two_pow_mul_add _ (bitsValue_lt rest)]
      cases bit <;> simp
    rw [List.length_cons, fieldBits, hhigh, hlow]

/-- A field that was read from the front of a string is the front of the string. -/
theorem fieldBits_bitsValue_take {k : Nat} {bits : List Bool} (h : k ≤ bits.length) :
    fieldBits k (bitsValue (bits.take k)) = bits.take k := by
  simpa [List.length_take_of_le h] using fieldBits_bitsValue (bits.take k)

theorem takeField_short {k : Nat} {bits : List Bool} (h : bits.length < k) : takeField k bits = none := if_pos h

theorem takeField_enough {k : Nat} {bits : List Bool} (h : k ≤ bits.length) :
    takeField k bits = some (bitsValue (bits.take k), bits.drop k) := if_neg (Nat.not_lt.mpr h)

/-! ## The backreferences of a format (R93) -/

section
variable {W L index count : Nat} {i : Instr}

theorem format?_of_bref (h : i.bref? = some (W, L, index, count)) : i.format? = some (W, L) := by
  cases i <;> cases h <;> rfl

theorem encode_of_bref (h : i.bref? = some (W, L, index, count)) : encode i = .stream (brefBits W L index count) := by
  cases i <;> cases h <;> rfl

/-- A backreference token is the one of its format that has its field values. -/
theorem brefOf_of_bref (h : i.bref? = some (W, L, index, count)) : brefOf W L index count = some i := by
  cases i <;> cases h <;>
    · change some _ = some _
      simp only [BitVec.ofNat_toNat, BitVec.setWidth_eq]

/-- Every legal build has a backreference with the given fields (00_scope.md R8). -/
theorem brefOf_exists {b : Build} (h : b.legal = true) (index count : Nat) :
    ∃ i, brefOf b.windowBits b.lookaheadBits index count = some i := by
  obtain ⟨hW, hW', hL, hL', hLW, -⟩ := Build.legal_bounds h
  generalize b.windowBits = W, b.lookaheadBits = L at *
  interval_cases W <;> interval_cases L <;> exact ⟨_, rfl⟩

/-- The backreferences of a build are those of its format. -/
theorem wellFormed_bref_iff {b : Build} (h : i.bref? = some (W, L, index, count)) :
    WellFormed b i = true ↔ b.legal = true ∧ W = b.windowBits ∧ L = b.lookaheadBits := by
  have hstate : i.stateOf b = true := decide_eq_true fun hi => by rw [hi] at h; cases h
  simp [WellFormed, Instr.formatOf, format?_of_bref h, hstate]

theorem wellFormed_lit (b : Build) (value : Byte) : WellFormed b (.lit value) = b.legal := by
  simp [WellFormed, Instr.formatOf, Instr.format?, Instr.stateOf]

end

/-! ## A token at the front of a stream (R91 to R95) -/

theorem decodeToken_literal (W L : Nat) (value : Byte) (later : List Bool) :
    decodeToken W L (true :: byteBits value ++ later) = .ok (.lit value, later) := by
  have hfield : takeField 8 (byteBits value ++ later) = some (value.toNat, later) := by
    rw [byteBits, takeField_fieldBits, Nat.mod_eq_of_lt value.isLt]
  simp only [List.cons_append, decodeToken, hfield, BitVec.ofNat_toNat, BitVec.setWidth_eq]

theorem decodeToken_bref {W L index count : Nat} {i : Instr} (h : i.bref? = some (W, L, index, count)) (later : List Bool) :
    decodeToken W L (brefBits W L index count ++ later) = .ok (i, later) := by
  obtain ⟨hI, hC⟩ := bref_fields_lt h
  simp only [brefBits, List.cons_append, List.append_assoc, decodeToken, takeField_fieldBits, Nat.mod_eq_of_lt hI,
    Nat.mod_eq_of_lt hC, brefOf_of_bref h]

/-- How many bits the token at the front of a stream has, as its first bit tells (R95). -/
def tokenWidth (W L : Nat) (bits : List Bool) : Nat :=
  if bits.head? = some true then 9 else 1 + W + L

theorem tokenWidth_literal (W L : Nat) (rest : List Bool) : tokenWidth W L (true :: rest) = 8 + 1 := rfl

theorem tokenWidth_bref (W L : Nat) (rest : List Bool) : tokenWidth W L (false :: rest) = W + L + 1 := by
  simp [tokenWidth]; omega

/-- A stream with fewer bits is cut short inside its token (R97). -/
theorem decodeToken_short {W L : Nat} {bits : List Bool} (h : bits.length < tokenWidth W L bits) :
    decodeToken W L bits = .error .incompleteToken := by
  match bits with
  | [] => rfl
  | true :: rest =>
    rw [tokenWidth_literal, List.length_cons] at h
    simp only [decodeToken, takeField_short (show rest.length < 8 by omega)]
  | false :: rest =>
    rw [tokenWidth_bref, List.length_cons] at h
    by_cases hW : rest.length < W
    · simp only [decodeToken, takeField_short hW]
    · have hL : (rest.drop W).length < L := by rw [List.length_drop]; omega
      simp only [decodeToken, takeField_enough (Nat.not_lt.mp hW), takeField_short hL]

/-- In a legal build a stream with as many bits begins with a token: there is no reserved encoding (R97). -/
theorem decodeToken_whole {b : Build} {bits : List Bool} (hl : b.legal = true)
    (h : tokenWidth b.windowBits b.lookaheadBits bits ≤ bits.length) :
    ∃ i later, decodeToken b.windowBits b.lookaheadBits bits = .ok (i, later) := by
  match bits with
  | [] => simp [tokenWidth] at h
  | true :: rest =>
    rw [tokenWidth_literal, List.length_cons] at h
    have hv : 8 ≤ rest.length := by omega
    refine ⟨.lit (BitVec.ofNat 8 (bitsValue (rest.take 8))), rest.drop 8, ?_⟩
    simp only [decodeToken, takeField_enough hv]
  | false :: rest =>
    rw [tokenWidth_bref, List.length_cons] at h
    have hW : b.windowBits ≤ rest.length := by omega
    have hL : b.lookaheadBits ≤ (rest.drop b.windowBits).length := by rw [List.length_drop]; omega
    obtain ⟨i, hi⟩ := brefOf_exists hl (bitsValue (rest.take b.windowBits))
      (bitsValue ((rest.drop b.windowBits).take b.lookaheadBits))
    refine ⟨i, (rest.drop b.windowBits).drop b.lookaheadBits, ?_⟩
    simp only [decodeToken, takeField_enough hW, takeField_enough hL, hi]

/-- The token that is decoded has the encoding it was decoded from, and is one of the build (R91 to R93). -/
theorem encode_of_decodeToken {b : Build} {bits later : List Bool} {i : Instr} (hl : b.legal = true)
    (h : decodeToken b.windowBits b.lookaheadBits bits = .ok (i, later)) :
    later = bits.drop (tokenWidth b.windowBits b.lookaheadBits bits) ∧
    encode i = .stream (bits.take (tokenWidth b.windowBits b.lookaheadBits bits)) ∧ WellFormed b i = true := by
  rcases decodeToken_ok h with ⟨rest, rfl, hlen, rfl, rfl⟩ | ⟨rest, rfl, hlen, hi, rfl⟩
  · have hbyte : byteBits (BitVec.ofNat 8 (bitsValue (rest.take 8))) = rest.take 8 := by
      rw [byteBits, BitVec.toNat_ofNat, fieldBits_mod _ (Nat.le_refl 8), fieldBits_bitsValue_take hlen]
    rw [tokenWidth_literal, wellFormed_lit, encode, hbyte]
    exact ⟨rfl, rfl, hl⟩
  · have hL : b.lookaheadBits ≤ (rest.drop b.windowBits).length := by rw [List.length_drop]; omega
    rw [tokenWidth_bref, encode_of_bref hi, brefBits, fieldBits_bitsValue_take (by omega), fieldBits_bitsValue_take hL,
      ← List.take_add]
    exact ⟨rfl, rfl, (wellFormed_bref_iff hi).mpr ⟨hl, rfl, rfl⟩⟩

/-! ## The codes of the micro-steps (R104, R105) -/

theorem decode_encMicroStep (W L : Nat) (q : EncState) : decode W L (.encoderState q.code) = .ok (q.microStep, []) := by
  simp only [decode, decodeEncState_code]

theorem decode_decMicroStep (W L : Nat) (q : DecState) : decode W L (.decoderState q.code) = .ok (q.microStep, []) := by
  simp only [decode, decodeDecState_code]

/-! ## An instruction and its encoding -/

/-- What `Obligations.DecodeEncodeAgree` says of one instruction. -/
def DecodesFromEncoding (W L : Nat) (i : Instr) : Prop :=
  decode W L (encode i) = .ok (i, []) ∧
    ∀ bits later, encode i = .stream bits → decode W L (.stream (bits ++ later)) = .ok (i, later)

/-- A token that is decoded at the front of every stream is decoded from its own bits alone too. -/
theorem decodesFromEncoding_token {W L : Nat} {i : Instr} {bits : List Bool} (he : encode i = .stream bits)
    (h : ∀ later, decodeToken W L (bits ++ later) = .ok (i, later)) : DecodesFromEncoding W L i := by
  refine ⟨?_, fun bits' later he' => ?_⟩
  · rw [he, ← List.append_nil bits]
    exact h []
  · cases he.symm.trans he'
    exact h later

end Sys2Proof

namespace Sys2Proof.Proofs

open Sys2Proof.Machine

/-- Settles O5: the codes of commands and of micro-steps name one row each, and a token's fields are read back from its bits. -/
theorem decodeEncodeAgree : Obligations.DecodeEncodeAgree := by
  intro b i hw
  change DecodesFromEncoding b.windowBits b.lookaheadBits i
  rcases instr_cases i with ⟨q, rfl⟩ | ⟨q, rfl⟩ | (⟨input, rfl⟩ | ⟨cap, rfl⟩ | rfl | rfl) |
    (⟨input, rfl⟩ | ⟨cap, rfl⟩ | rfl | rfl) | ⟨value, rfl⟩ | ⟨W, L, index, count, hi⟩
  case inl =>
    rw [DecodesFromEncoding, encode_encMicroStep]
    exact ⟨decode_encMicroStep _ _ q, fun _ _ h => nomatch h⟩
  case inr.inl =>
    rw [DecodesFromEncoding, encode_decMicroStep]
    exact ⟨decode_decMicroStep _ _ q, fun _ _ h => nomatch h⟩
  case inr.inr.inr.inr.inl => exact decodesFromEncoding_token rfl (decodeToken_literal _ _ value)
  case inr.inr.inr.inr.inr =>
    obtain ⟨-, rfl, rfl⟩ := (wellFormed_bref_iff hi).mp hw
    exact decodesFromEncoding_token (encode_of_bref hi) (decodeToken_bref hi)
  all_goals exact ⟨rfl, fun _ _ h => nomatch h⟩

/-- Settles O6: below the width that the first bit tells a field is missing, and from it on the token that is decoded encodes
to the bits it was decoded from. -/
theorem everyStreamParses : Obligations.EveryStreamParses := by
  intro b bits hl
  refine ⟨decodeToken_short, fun hwidth => ?_⟩
  obtain ⟨i, later, hi⟩ := decodeToken_whole hl hwidth
  obtain ⟨rfl, hencode, hwf⟩ := encode_of_decodeToken hl hi
  exact ⟨i, hi, hencode, hwf⟩

/-- Settles O4: every word is read by its own decoder, code by code and field by field. -/
theorem decodingOfSpecWords : Obligations.DecodingOfSpecWords :=
  ⟨rfl, rfl, rfl, rfl, fun _ _ => ⟨rfl, rfl, rfl, rfl, rfl, rfl, rfl, rfl⟩, rfl, rfl, rfl, rfl, rfl, rfl⟩

end Sys2Proof.Proofs
end

section
/-! SUPPORT. What a copy produces and stores (43_decoder_fsm.md R196, 20_memory.md R68 to R70), and the tokens that produce bytes
(30_encoding.md R92, R93). -/

namespace Sys2Proof.Machine

section
variable {b : Build} {d : Dec} {k : OutSink} {w : Memory} {new : List Byte}

/-! ## The bytes of a copy -/

/-- The byte that the copy pending in `d` produces as number `i`, when `new` are the bytes it has produced before (R196). -/
def copiedByte (b : Build) (d : Dec) (new : List Byte) (i : Nat) : Byte :=
  if d.headIndex + i < d.outputIndex then 0
  else if d.outputIndex ≤ i then new.getD (i - d.outputIndex) 0
  else d.window.read ((d.headIndex + i - d.outputIndex) % b.window)

/-- What the copy pending in `d` has done when it has produced `new`: the window is `w`. -/
structure CopyProgress (b : Build) (d : Dec) (new : List Byte) (w : Memory) : Prop where
  wf : w.wf = true
  bytes : ∀ i, i < new.length → new.getD i 0 = copiedByte b d new i
  stored : ∀ i, i < new.length → w.read ((d.headIndex + i) % b.window) = new.getD i 0
  kept : ∀ a, (∀ i, i < new.length → a ≠ (d.headIndex + i) % b.window) → w.read a = d.window.read a

/-- A byte that is already produced does not depend on those that follow. -/
theorem copiedByte_append (h1 : 1 ≤ d.outputIndex) {i : Nat} (hi : i ≤ new.length) (c : Byte) :
    copiedByte b d (new ++ [c]) i = copiedByte b d new i := by
  unfold copiedByte
  split
  · rfl
  · split
    · rw [List.getD_append _ _ _ _ (by omega)]
    · rfl

/-- Addresses less than a window apart fall on different cells (20_memory.md R68). -/
theorem mod_window_ne {a c n : Nat} (hac : a < c) (hcn : c < a + n) : a % n ≠ c % n := fun h =>
  Nat.ne_of_lt hac (Nat.mod_injOn_Ico a n (by simp; omega) (by simp; omega) h)

/-- The decoder after so much of the copy. -/
def Dec.copied (d : Dec) (w : Memory) (n : Nat) : Dec :=
  { d with window := w, headIndex := d.headIndex + n, outputCount := d.outputCount - n }

theorem copySource_copied (b : Build) (d : Dec) (w : Memory) (n : Nat) :
    copySource b (d.copied w n) =
      if d.headIndex + n < d.outputIndex then 0 else w.read ((d.headIndex + n - d.outputIndex) % b.window) := rfl

/-- The source of the next byte is read from the window as it stands now, so that it may be a byte of this very copy
(20_memory.md R70). -/
theorem CopyProgress.copySource_eq (h : CopyProgress b d new w) (h1 : 1 ≤ d.outputIndex) (hN : d.outputIndex ≤ b.window) :
    copySource b (d.copied w new.length) = copiedByte b d new new.length := by
  rw [copySource_copied, copiedByte]
  by_cases hstart : d.headIndex + new.length < d.outputIndex
  · rw [if_pos hstart, if_pos hstart]
  · rw [if_neg hstart, if_neg hstart]
    split
    · next hown => rw [← h.stored _ (by omega), Nat.add_sub_assoc hown]
    · exact h.kept _ fun i hi => mod_window_ne (by omega) (by omega)

/-- One more byte of the copy. -/
theorem CopyProgress.next (h : CopyProgress b d new w) (h1 : 1 ≤ d.outputIndex) (hroom : new.length < b.window) {c : Byte}
    (hc : c = copiedByte b d new new.length) :
    CopyProgress b d (new ++ [c]) (w.write ((d.headIndex + new.length) % b.window) c) := by
  have hlen : (new ++ [c]).length = new.length + 1 := by simp
  have hlast : (new ++ [c]).getD new.length 0 = c := by simp
  have hfront : ∀ i, i < new.length → (new ++ [c]).getD i 0 = new.getD i 0 := fun i => List.getD_append _ _ _ _
  refine ⟨Memory.wf_write _ _ _ h.wf, fun i hi => ?_, fun i hi => ?_, fun a ha => ?_⟩
  · rw [copiedByte_append h1 (by omega)]
    rcases Nat.lt_or_eq_of_le (Nat.le_of_lt_succ (hlen ▸ hi)) with hlt | rfl
    · rw [hfront i hlt, h.bytes i hlt]
    · rw [hlast, hc]
  · rw [Memory.read_write _ _ _ _ h.wf]
    rcases Nat.lt_or_eq_of_le (Nat.le_of_lt_succ (hlen ▸ hi)) with hlt | rfl
    · rw [if_neg (mod_window_ne (by omega) (by omega)), hfront i hlt, h.stored i hlt]
    · rw [if_pos rfl, hlast]
  · rw [Memory.read_write _ _ _ _ h.wf, if_neg (ha _ (by omega))]
    exact h.kept a fun i hi => ha i (by omega)

/-! ## The loop -/

/-- One byte of the pending copy (R196). -/
def copyOne (b : Build) (p : Dec × OutSink) : Dec × OutSink :=
  copyBytes b 1 p.1 p.2

/-- The last byte of a copy may be split off, as the first is by definition. -/
theorem copyBytes_succ_last (b : Build) (n : Nat) (d : Dec) (k : OutSink) :
    copyBytes b (n + 1) d k = copyOne b (copyBytes b n d k) := by
  induction n generalizing d k with
  | zero => rfl
  | succ n ih => exact ih _ _

/-- `n` bytes of the pending copy, at most a window full (R196). -/
theorem copyBytes_progress (k : OutSink) (hw : d.window.wf = true) (h1 : 1 ≤ d.outputIndex) (hN : d.outputIndex ≤ b.window)
    {n : Nat} (hn : n ≤ b.window) :
    ∃ new w, new.length = n ∧ CopyProgress b d new w ∧
      copyBytes b n d k = (d.copied w n, { k with out := k.out ++ new }) := by
  induction n with
  | zero =>
    refine ⟨[], d.window, rfl, ⟨hw, nofun, nofun, fun _ _ => rfl⟩, ?_⟩
    rw [List.append_nil]; rfl
  | succ n ih =>
    obtain ⟨new, w, rfl, hp, hcopy⟩ := ih (by omega)
    refine ⟨_, _, by simp, hp.next h1 hn (hp.copySource_eq h1 hN), ?_⟩
    rw [copyBytes_succ_last, hcopy, ← List.append_assoc]
    rfl

/-- `YieldBackref` leaves exactly when it has copied all that was owed (R196). -/
theorem copyBackref_eq (hc : 1 ≤ d.outputCount) {d' : Dec} {k' : OutSink}
    (h : copyBytes b (copyCount d k) d k = (d', k')) :
    copyBackref b d k = ({ d' with state := if d'.outputCount = 0 then .tagBit else d'.state }, k') := by
  unfold copyBackref
  split
  · next h0 =>
    rw [h0] at h
    cases h
    rw [if_neg (by omega)]
  · rw [h]
    dsimp only
    split <;> rfl

/-- `YieldBackref` copies as many bytes as it owes and the output takes (R196). -/
theorem copyBackref_copied (k : OutSink) (hq : d.state = .yieldBackref) (hw : d.window.wf = true) (h1 : 1 ≤ d.outputIndex)
    (hN : d.outputIndex ≤ b.window) (hc : 1 ≤ d.outputCount) (hcN : d.outputCount ≤ b.window) :
    ∃ new, Copied b d k new (copyBackref b d k).1 (copyBackref b d k).2 := by
  obtain ⟨new, w, hlen, hp, hcopy⟩ := copyBytes_progress k hw h1 hN (n := copyCount d k)
    (Nat.le_trans (Nat.min_le_left _ _) hcN)
  have hle : new.length ≤ d.outputCount := hlen ▸ Nat.min_le_left _ _
  have hdone : d.outputCount - new.length = 0 ↔ new.length = d.outputCount := by omega
  rw [copyBackref_eq hc hcopy, ← hlen]
  refine ⟨new, hlen, hp.bytes, rfl, w, hp.wf, hp.stored, hp.kept, ?_⟩
  simp only [Dec.copied, hdone, hq]

end

/-! ## The tokens -/

section
variable {s : State} {k : OutSink}

/-- A token that runs inside a poll, between two tokens, completes. -/
theorem tokenStep_between (t : Dec → OutSink → Dec × OutSink) (hk : s.decOut = some k) (hq : s.dec.state = .tagBit) :
    tokenStep t s = .next (s.decRun (t s.dec k).1 (t s.dec k).2) :=
  tokenStep_next.mpr ⟨k, hk, hq, rfl⟩

theorem exec_lit (value : Byte) (s : State) : exec (.lit value) s = tokenStep (runLiteral s.build value) s := rfl

theorem runLiteral_full (b : Build) (value : Byte) (d : Dec) (h : k.cap ≤ k.produced) : runLiteral b value d k = (d, k) :=
  if_neg fun hr => Nat.not_lt.mpr h (k.canTakeByte_iff.mp hr)

theorem runLiteral_room (b : Build) (value : Byte) (d : Dec) (h : k.produced < k.cap) :
    runLiteral b value d k = produceByte b value d k :=
  if_pos (k.canTakeByte_iff.mpr h)

/-- In each of the 57 formats the length field is narrower than the distance field (00_scope.md R8). -/
theorem bref_lookahead_lt {i : Instr} {W L index count : Nat} (h : i.bref? = some (W, L, index, count)) : L < W := by
  cases i <;> cases h <;> decide

end

end Sys2Proof.Machine

namespace Sys2Proof.Proofs

open Sys2Proof.Machine

/-- Settles O38: the fields bound distance and length by the window, so that a copy never overwrites a byte it still reads. -/
theorem backrefTokens : Obligations.BackrefTokens := by
  intro i index count s k hi hk hq hw
  obtain ⟨hI, hC⟩ := bref_fields_lt hi
  have hLN : 2 ^ s.build.lookaheadBits < 2 ^ s.build.windowBits := Nat.pow_lt_pow_right (by omega) (bref_lookahead_lt hi)
  obtain ⟨new, hnew⟩ := copyBackref_copied (d := loadBackref index count s.dec) k rfl hw (Nat.le_add_left 1 index) hI
    (Nat.le_add_left 1 count) (Nat.le_trans hC (Nat.le_of_lt hLN))
  refine ⟨hI, hC, new, _, _, ?_, hnew⟩
  rw [exec_of_bref hi, execBackref_of_build rfl, tokenStep_between _ hk hq]
  rfl

/-- Settles O37: a literal is the one byte that `produceByte` stores at the head and emits. -/
theorem literalToken : Obligations.LiteralToken := by
  intro s k value hk hq hw
  rw [exec_lit, tokenStep_between _ hk hq]
  refine ⟨fun h => ?_, fun h => ?_⟩
  · rw [runLiteral_full _ _ _ h, State.decRun, ← hk]
  · rw [runLiteral_room _ _ _ h]
    exact ⟨_, Memory.wf_write _ _ _ hw, fun a => Memory.read_write _ _ _ a hw, rfl⟩

end Sys2Proof.Proofs
end

section
/-! SUPPORT. The accumulators' operations as the statements about them put it: what `push_bits` writes over the naturals, what
`push_outgoing_bits` takes off the pending field, what `get_bits` leaves, and the last byte of the stream
(40_bit_accumulator.md). -/

namespace Sys2Proof.Machine

/-! ## Packing (R122) -/

/-- The carry of an emitting `push_bits`: the low `r` bits of the field, left aligned. -/
theorem carry_toNat (bits : Byte) {r : Nat} (hr : r ≤ 8) :
    (if r = 0 then (0 : Byte) else bits <<< (8 - r)).toNat = (bits.toNat % 2 ^ r) <<< (8 - r) := by
  by_cases hr0 : r = 0
  · simp [hr0, Nat.mod_one]
  · rw [if_neg hr0, BitVec.toNat_shiftLeft, Nat.shiftLeft_eq, Nat.shiftLeft_eq, ← Nat.mul_mod_mul_right, ← Nat.pow_add,
      Nat.add_sub_cancel' hr]

/-- A field that fits into the free positions loses no bit when it is moved up to them. -/
theorem shiftLeft_toNat_of_fits {count s : Nat} {bits : Byte} (hb : bits.toNat < 2 ^ count) (hfit : count + s ≤ 8) :
    (bits <<< s).toNat = bits.toNat <<< s := by
  have hlt : bits.toNat <<< s < 2 ^ 8 :=
    Nat.lt_of_lt_of_le (Nat.shiftLeft_lt hb) (Nat.pow_le_pow_right (by omega) (by omega))
  rw [BitVec.toNat_shiftLeft, Nat.mod_eq_of_lt hlt]

/-! ## The pending field (R124) -/

/-- `push_outgoing_bits` appends the first 8 of the bits that are to be drained, or all of them if they are fewer. -/
theorem pushOutgoingBits_appends (b : Build) {e : Enc} (k : OutSink) (hacc : accumulatorOk e) :
    Appends e k (pushOutgoingBits b e k).1 (pushOutgoingBits b e k).2.1 ((outgoing e).take 8) := by
  rcases Nat.eq_zero_or_pos e.outgoingBitsCount with h0 | hpos
  · rw [pushOutgoingBits_none b e k h0, outgoing, h0]
    exact ⟨(List.append_nil _).symm, hacc, rfl, .inl rfl⟩
  · obtain ⟨w, i, k', bits, hpush, hpacks, hsplit⟩ := pushOutgoingBits_packs b k hacc hpos
    have hlen : bits.length = min 8 e.outgoingBitsCount := by
      have h := congrArg List.length hsplit
      simp only [List.length_append, outgoing, fieldBits_length] at h
      omega
    have htake : (outgoing e).take 8 = bits := by
      rw [List.take_eq_take_min, show (outgoing e).length = e.outgoingBitsCount from fieldBits_length _ _, ← hlen, ← hsplit,
        List.take_left' rfl]
    rw [hpush, htake]
    exact hpacks.appends

/-! ## Unpacking (R131) -/

section
variable {b : Build} {d d' : Dec} {n acc v : Nat}

/-- After a bit has been delivered the accumulator is not full. -/
theorem takeBits_partial (h8 : d.bitIndex ≤ 8) (hn : 1 ≤ n ∨ d.bitIndex ≤ 7) (h : takeBits b n acc d = .ok (v, d')) :
    d'.bitIndex ≤ 7 := by
  induction n generalizing acc d with
  | zero => cases h; omega
  | succ n ih =>
    simp only [takeBits] at h
    split at h
    · cases h
    · next loaded hl =>
      have hloaded : loaded.bitIndex ≤ 8 := by
        split at hl
        · obtain ⟨-, rfl⟩ := stagingFetch_ok hl
          exact Nat.le_refl 8
        · cases hl; exact h8
      have hrest : (deliverBit loaded).2.bitIndex ≤ 7 := Nat.sub_le_of_le_add hloaded
      exact ih (Nat.le_succ_of_le hrest) (.inr hrest) h

/-- Bits that the accumulator holds are taken without a fetch. -/
theorem takeBits_no_fetch (hn : n ≤ d.bitIndex) (h : takeBits b n acc d = .ok (v, d')) :
    d' = { d with bitIndex := d.bitIndex - n } := by
  induction n generalizing acc d with
  | zero => cases h; rfl
  | succ n ih =>
    rw [takeBits, if_neg (by omega)] at h
    rw [ih (d := (deliverBit d).2) (Nat.le_sub_one_of_lt hn) h]
    simp only [deliverBit, Nat.sub_sub, Nat.add_comm 1 n]

/-- Reading at least one bit is taking it as `get_bits` does. -/
theorem Reads.took (hr : Reads b n d d') (hn : 1 ≤ n) (hok : Machine.stagingOk b d) :
    Took b d n (bitsValue ((unreadBits d).take n)) d' :=
  ⟨getBits_frame hr.getBits, by rw [fieldBits_bitsValue_take hr.available, hr.rest, List.take_append_drop],
    bitsValue_take_lt n _, takeBits_partial hok.2.2 (.inl hn) (hr.takes 0), hr.stagingOk hok⟩

end

/-! ## The end of the stream (R125, R169) -/

section
variable {b : Build} {e : Enc} {k : OutSink}

theorem flushBitsStep_nothing (h0 : e.bitIndex = 0) : flushBitsStep b e k = .ok ({ e with state := .done }, k) :=
  if_pos h0

theorem flushBitsStep_emits (h0 : e.bitIndex ≠ 0) (hk : k.produced < k.cap) :
    flushBitsStep b e k = .ok ({ e with state := .done }, k.emit e.currentByte) := by
  rw [flushBitsStep, if_neg h0, if_pos (k.canTakeByte_iff.mpr hk)]

theorem flushBitsStep_full (h0 : e.bitIndex ≠ 0) (hk : k.cap ≤ k.produced) : flushBitsStep b e k = .ok (e, k) := by
  rw [flushBitsStep, if_neg h0, if_neg fun hr => Nat.not_lt.mpr hk (k.canTakeByte_iff.mp hr)]

/-- A flush that completes is what the instruction does under a running poll. -/
theorem exec_encStepFlushBits {s : State} {e' : Enc} {k' : OutSink} (hk : s.encOut = some k) (hq : s.enc.state = .flushBits)
    (h : flushBitsStep s.build s.enc k = .ok (e', k')) : exec .encStepFlushBits s = .next (s.encRun e' k') := by
  change encMicroStep .flushBits flushBitsStep s = _
  exact encMicroStep_next.mpr ⟨k, e', k', hk, hq, h, rfl⟩

end

end Sys2Proof.Machine

namespace Sys2Proof.Proofs

open Sys2Proof.Machine

/-- Settles O8: the two branches of the pseudocode, with the carry and the merged field as numbers. -/
theorem pushBitsAppends : Obligations.PushBitsAppends := by
  intro b count bits e k _ hc hb hacc free r p
  refine ⟨?_, pushBits_appends b k hc hb hacc, fun hx hp => pushBits_partial bits k hc hx hp⟩
  split
  · next h =>
    exact ⟨_, _, by rw [BitVec.toNat_or, BitVec.toNat_ushiftRight], carry_toNat bits (by omega), pushBits_emits h⟩
  · next h =>
    have hfit : count + (free - count) ≤ 8 := by omega
    exact ⟨_, by rw [BitVec.toNat_or, shiftLeft_toNat_of_fits hb hfit], pushBits_merges h⟩

/-- Settles O9: the piece that is pushed is the front of what is to be drained. -/
theorem pushOutgoingBitsDrains : Obligations.PushOutgoingBitsDrains := by
  intro b e k _ hacc
  exact ⟨pushOutgoingBits_count b e k, pushOutgoingBits_frame b e k, pushOutgoingBits_appends b k hacc,
    pushOutgoingBits_none b e k⟩

/-- Settles O10: bits that are available can be read, and the loop fetches only on an empty accumulator. -/
theorem getBitsTakesTheFront : Obligations.GetBitsTakesTheFront := by
  intro b count d h1 _ hok
  refine ⟨rfl, (unreadBits_length d).symm, fun hlt => if_pos hlt, fun hle => ?_⟩
  obtain ⟨d', hr⟩ := Reads.exists hok (n := count) (by rw [unreadBits_length]; exact hle)
  exact ⟨_, d', hr.getBits, hr.took h1 hok, fun hn => takeBits_no_fetch hn (hr.takes 0)⟩

/-- Settles O24: one case for each branch of `flushBitsStep`. -/
theorem flushBitsStep : Obligations.FlushBitsStep := by
  intro s k hk hq
  refine ⟨fun h0 => ?_, fun h0 hroom => ?_, fun h0 hfull => ?_⟩
  · rw [exec_encStepFlushBits hk hq (flushBitsStep_nothing h0), State.encRun, ← hk]
  · exact exec_encStepFlushBits hk hq (flushBitsStep_emits h0 hroom)
  · rw [exec_encStepFlushBits hk hq (flushBitsStep_full h0 hfull), State.encRun, ← hk]

end Sys2Proof.Proofs
end

section
/-! SUPPORT. A poll of the decoder returns within its bound (43_decoder_fsm.md R202), and so, from every state that meets the
invariant, every step of the block completes: no access leaves its space and nothing is refused. -/

namespace Sys2Proof.Machine

section
variable {b : Build} {d d' : Dec} {k k' : OutSink}

/-! ## Every micro-step of the decoder completes -/

/-- With the staging indices as they must be `get_bits` never leaves the staging space (20_memory.md R62). -/
theorem getBits_completes (hok : stagingOk b d) (n : Nat) : ∃ r, getBits b n d = .ok r := by
  by_cases hn : n ≤ (unreadBits d).length
  · obtain ⟨d', hr⟩ := Reads.exists hok hn
    exact ⟨_, hr.getBits⟩
  · exact ⟨none, if_pos (by rw [← unreadBits_length]; exact Nat.lt_of_not_le hn)⟩

/-- From every state that meets the invariant the micro-step of the decoder completes (R190). -/
theorem decStep_completes (hi : DecInv b d) (k : OutSink) : ∃ d' k', decStep b d k = .ok (d', k') := by
  have hget := getBits_completes hi.data.staging_ok
  cases hq : d.state with
  | tagBit =>
    obtain ⟨_ | ⟨bit, d₁⟩, hr⟩ := hget 1
    · simp only [decStep, hq, tagBitStep, hr]; exact ⟨_, _, rfl⟩
    · simp only [decStep, hq, tagBitStep, hr]; split <;> exact ⟨_, _, rfl⟩
  | yieldLiteral =>
    obtain ⟨_ | ⟨c, d₁⟩, hr⟩ := hget 8
    all_goals simp only [decStep, hq, decLiteralStep, hr]; split <;> exact ⟨_, _, rfl⟩
  | backrefIndexMsb =>
    obtain ⟨_ | ⟨v, d₁⟩, hr⟩ := hget (highIndexBits b)
    all_goals simp only [decStep, hq, backrefIndexMsbStep, hr, if_pos (hi.msb_only_wide hq)]; exact ⟨_, _, rfl⟩
  | backrefIndexLsb =>
    obtain ⟨_ | ⟨v, d₁⟩, hr⟩ := hget (lowIndexBits b)
    all_goals simp only [decStep, hq, backrefIndexLsbStep, hr]; exact ⟨_, _, rfl⟩
  | backrefCountLsb =>
    obtain ⟨_ | ⟨v, d₁⟩, hr⟩ := hget b.lookaheadBits
    all_goals simp only [decStep, hq, backrefCountLsbStep, hr]; exact ⟨_, _, rfl⟩
  | yieldBackref => exact ⟨_, _, by rw [decStep, hq]; rfl⟩

/-! ## Progress (R202) -/

/-- Bits that are taken are no longer available (40_bit_accumulator.md R130, R131). -/
theorem getBits_available (hok : stagingOk b d) {n v : Nat} (took : getBits b n d = .ok (some (v, d'))) :
    bitsAvailable d' + n = bitsAvailable d := by
  have hn : n ≤ (unreadBits d).length := by rw [unreadBits_length]; exact (getBits_some took).1
  obtain ⟨d₁, hr⟩ := Reads.exists hok hn
  cases took.symm.trans hr.getBits
  rw [← unreadBits_length, hr.rest, List.length_drop, ← unreadBits_length]
  omega

/-- A copy leaves the stream alone, and it keeps the state unless it ends the backreference (R196). -/
theorem copyBackref_available (b : Build) (d : Dec) (k : OutSink) :
    bitsAvailable (copyBackref b d k).1 = bitsAvailable d ∧
      ((copyBackref b d k).1.state = d.state ∨ (copyBackref b d k).1.state = .tagBit) := by
  obtain ⟨w, hw⟩ := copyBytes_frame b (copyCount d k) d k
  unfold copyBackref
  split
  · exact ⟨rfl, .inl rfl⟩
  · dsimp only
    split
    · exact ⟨by rw [hw]; rfl, .inr rfl⟩
    · rw [hw]; exact ⟨rfl, .inl rfl⟩

/-- A bound on the moves left that leave their state: one for each unread bit, and between any two of them the end of a
copy, which takes no bit. -/
def decMovesLeft (d : Dec) : Nat :=
  2 * bitsAvailable d + if d.state = .yieldBackref then 1 else 0

/-- A move that takes bits has fewer moves left after it, whatever state it enters. -/
theorem decMovesLeft_took (hok : stagingOk b d) {n v : Nat} {d₁ : Dec} (took : getBits b n d = .ok (some (v, d₁)))
    (hn : 1 ≤ n) (hav : bitsAvailable d' = bitsAvailable d₁) : decMovesLeft d' < decMovesLeft d := by
  have := getBits_available hok took
  unfold decMovesLeft
  split <;> omega

/-- A move keeps its state, after which the poll returns, or goes on with fewer moves left. -/
theorem DecMove.progress (hl : b.legal = true) (hok : stagingOk b d) (hm : DecMove b d k d' k') :
    d'.state = d.state ∨ decMovesLeft d' < decMovesLeft d := by
  obtain ⟨hW, -, hL, -, -, -⟩ := Build.legal_bounds hl
  cases hm with
  | starved | full => exact .inl rfl
  | literalTag hq took => exact .inr (decMovesLeft_took hok took (Nat.le_refl 1) rfl)
  | backrefTag hq took => exact .inr (decMovesLeft_took hok took (Nat.le_refl 1) rfl)
  | literal hq room took => exact .inr (decMovesLeft_took hok took (by omega) rfl)
  | highPiece hq wide took => exact .inr (decMovesLeft_took hok took (Nat.le_sub_of_add_le' wide) rfl)
  | lowPiece hq took =>
    have hlow : 1 ≤ lowIndexBits b := Nat.le_min.mpr ⟨by omega, by omega⟩
    exact .inr (decMovesLeft_took hok took hlow rfl)
  | length hq took => exact .inr (decMovesLeft_took hok took (by omega) rfl)
  | copy hq =>
    obtain ⟨hav, hkept | hends⟩ := copyBackref_available b d k
    · exact .inl hkept
    · right
      simp [decMovesLeft, hav, hends, hq]

/-- The loop of a poll returns, given more steps than there are moves left (44_streaming_protocol.md R221). -/
theorem decPollLoop_returns (hl : b.legal = true) {fuel : Nat} (hi : DecInv b d) (hfuel : decMovesLeft d < fuel) :
    ∃ r, decPollLoop b fuel d k = .ok r := by
  induction fuel generalizing d k with
  | zero => exact absurd hfuel (Nat.not_lt_zero _)
  | succ fuel ih =>
    obtain ⟨d', k', hok⟩ := decStep_completes hi k
    have hm := decStep_moves hok
    rw [decPollLoop, hok]
    dsimp only
    by_cases hkept : d'.state = d.state
    · rw [decPollStatus, if_pos hkept]
      exact ⟨_, rfl⟩
    · rw [decPollStatus, if_neg hkept]
      have hless := (hm.progress hl hi.data.staging_ok).resolve_left hkept
      exact ih (hm.keeps_inv hi) (by omega)

/-- The bound of a poll is enough for all moves left (log 12). -/
theorem decMovesLeft_lt_bound (d : Dec) : decMovesLeft d < decPollBound d := by
  unfold decMovesLeft decPollBound
  split <;> omega

end

/-! ## Both polls return (44_streaming_protocol.md R215, R221) -/

theorem encPoll_completes {b : Build} {e : Enc} (hl : b.legal = true) (hi : EncInv b e) (hfresh : indexFresh b e) (cap : Nat) :
    ∃ p, encPoll b cap e = .ok p := by
  unfold encPoll
  split
  · exact ⟨_, rfl⟩
  · obtain ⟨r, hr⟩ := encPollLoop_returns hl hi hfresh (k := .start cap) (Nat.zero_le _) (movesLeft_le_bound b e)
    rw [hr]
    exact ⟨_, rfl⟩

theorem decPoll_completes {b : Build} {d : Dec} (hl : b.legal = true) (hi : DecInv b d) (cap : Nat) :
    ∃ p, decPoll b cap d = .ok p := by
  unfold decPoll
  split
  · exact ⟨_, rfl⟩
  · obtain ⟨r, hr⟩ := decPollLoop_returns hl hi (k := .start cap) (decMovesLeft_lt_bound d)
    rw [hr]
    exact ⟨_, rfl⟩

section
variable {s : State}

/-! ## Every command completes (R210) -/

/-- A command word is a command to one of the units (30_encoding.md R99). -/
theorem decodeCommand_cases (w : CommandWord) : encCommands (decodeCommand w) ∨ decCommands (decodeCommand w) := by
  unfold decodeCommand
  split
  · exact .inl (.inl ⟨_, rfl⟩)
  · exact .inl (.inr (.inl ⟨_, rfl⟩))
  · exact .inl (.inr (.inr (.inl rfl)))
  · exact .inl (.inr (.inr (.inr rfl)))
  · exact .inr (.inl ⟨_, rfl⟩)
  · exact .inr (.inr (.inl ⟨_, rfl⟩))
  · exact .inr (.inr (.inr (.inl rfl)))
  · exact .inr (.inr (.inr (.inr rfl)))

theorem encCommand_completes (he : s.encOut = none) {r : Except Fault (Enc × Option Reply)} {p : Enc × Option Reply}
    (hr : r = .ok p) : ∃ t, encCommand s r = .next t :=
  ⟨_, encCommand_next.mpr ⟨he, p.1, p.2, hr, rfl⟩⟩

theorem decCommand_completes (hd : s.decOut = none) {r : Except Fault (Dec × Option Reply)} {p : Dec × Option Reply}
    (hr : r = .ok p) : ∃ t, decCommand s r = .next t :=
  ⟨_, decCommand_next.mpr ⟨hd, p.1, p.2, hr, rfl⟩⟩

/-- A command to an encoder whose poll does not run completes. -/
theorem exec_encCommands_completes (h : StateInv s) (he : s.encOut = none) {i : Instr} (hi : encCommands i) :
    ∃ t, exec i s = .next t := by
  rcases hi with ⟨input, rfl⟩ | ⟨cap, rfl⟩ | rfl | rfl
  · rw [exec_encSink]; exact encCommand_completes he rfl
  · obtain ⟨p, hp⟩ := encPoll_completes h.build_legal h.enc h.enc_fresh cap
    rw [exec_encPoll]
    exact encCommand_completes he (congrArg (Except.map withReply) hp)
  · rw [exec_encFinish]; exact encCommand_completes he rfl
  · rw [exec_encReset]; exact encCommand_completes he rfl

/-- A command to a decoder whose poll does not run completes. -/
theorem exec_decCommands_completes (h : StateInv s) (hd : s.decOut = none) {i : Instr} (hi : decCommands i) :
    ∃ t, exec i s = .next t := by
  rcases hi with ⟨input, rfl⟩ | ⟨cap, rfl⟩ | rfl | rfl
  · rw [exec_decSink]; exact decCommand_completes hd rfl
  · obtain ⟨p, hp⟩ := decPoll_completes h.build_legal h.dec cap
    rw [exec_decPoll]
    exact decCommand_completes hd (congrArg (Except.map withReply) hp)
  · rw [exec_decFinish]; exact decCommand_completes hd rfl
  · rw [exec_decReset]; exact decCommand_completes hd rfl

/-! ## Every step completes -/

/-- From every state that meets the invariant a step answers a next state, whatever it fetches. -/
theorem step_completes (h : StateInv s) : ∃ t, step s = .next t := by
  have hl := h.build_legal
  rcases fetch_cases s with ⟨k, he, -⟩ | ⟨k, -, hd, ⟨i, width, -, hn, hf⟩ | hf⟩ | ⟨w, later, he, hd, hp, -⟩ | ⟨-, -, -, hf⟩
  · obtain ⟨e, k', hok, -⟩ := encStep_moves h.enc k
    exact ⟨_, step_encStep hl he hok⟩
  · obtain ⟨d₁, d₂, d₃, k₃, hphases⟩ := token_phases h.dec.data.staging_ok hn
    exact ⟨_, step_token hl hd hf hphases⟩
  · obtain ⟨d, k', hok⟩ := decStep_completes h.dec k
    exact ⟨_, step_decStep hl hd hf hok⟩
  · obtain ⟨hopen, hwhole⟩ := step_command hl he hd hp
    have h' : StateInv { s with pending := later } := { h with }
    cases ho : ({ s with pending := later } : State).opened (decodeCommand w) with
    | some u => exact ⟨u, hopen u ho⟩
    | none =>
      rw [hwhole ho]
      rcases decodeCommand_cases w with hi | hi
      · exact exec_encCommands_completes h' he hi
      · exact exec_decCommands_completes h' hd hi
  · exact ⟨s, by rw [step_of_legal hl, stepLegal, hf]⟩

/-- A run from a state that meets the invariant never stops. -/
theorem run_completes (h : StateInv s) (n : Nat) : ∃ t, Host.Core.run core n s = .next t := by
  induction n generalizing s with
  | zero => exact ⟨s, run_none s⟩
  | succ n ih =>
    obtain ⟨u, hu⟩ := step_completes h
    obtain ⟨t, ht⟩ := ih (step_keeps_inv h hu)
    exact ⟨t, run_step hu ht⟩

end

end Sys2Proof.Machine

namespace Sys2Proof.Proofs

open Sys2Proof.Machine

/-- Settles O55: a step from a state that meets the invariant completes and keeps it, so a run never stops. -/
theorem invariantRunsOn : Obligations.InvariantRunsOn :=
  fun _ h n => run_completes h n

end Sys2Proof.Proofs
end

section
/-! SUPPORT. The result of the match finder by its definition (41_match_finder.md R142): the longest common run and, among
equals, the nearest, which is what both strategies look for. -/

namespace Sys2Proof.Machine

/-! ## The common run (R141) -/

/-- A common run is as long as `k` exactly when the bytes agree that far. -/
theorem le_mlen_iff {m : Memory} {pos fin n k : Nat} :
    k ≤ mlen m pos fin n ↔ k ≤ n ∧ ∀ i, i < k → m.read (pos + i) = m.read (fin + i) := by
  induction n generalizing pos fin k with
  | zero => exact ⟨fun h => ⟨h, fun i hi => absurd hi (by rw [mlen] at h; omega)⟩, And.left⟩
  | succ n ih =>
    cases k with
    | zero => exact ⟨fun _ => ⟨Nat.zero_le _, nofun⟩, fun _ => Nat.zero_le _⟩
    | succ k =>
      have hshift (a i : Nat) : a + 1 + i = a + (i + 1) := by omega
      rw [mlen, Nat.forall_lt_succ_left', Nat.succ_le_succ_iff]
      split
      · next h => rw [Nat.succ_le_succ_iff, ih]; simp only [hshift, Nat.add_zero, h, true_and]
      · next h => exact ⟨nofun, fun ⟨_, h0, _⟩ => absurd h0 h⟩

/-- The common run depends on the bytes of the two runs alone. -/
theorem mlen_congr {m m' : Memory} {pos fin n : Nat} (hpos : ∀ i, i < n → m'.read (pos + i) = m.read (pos + i))
    (hfin : ∀ i, i < n → m'.read (fin + i) = m.read (fin + i)) : mlen m' pos fin n = mlen m pos fin n := by
  refine eq_of_forall_le_iff fun k => ?_
  rw [le_mlen_iff, le_mlen_iff]
  refine and_congr_right fun hk => forall₂_congr fun i hi => ?_
  rw [hpos i (by omega), hfin i (by omega)]

/-! ## The definition of the result (R142) -/

/-- There is a longest run, and among equals a nearest. -/
theorem LongestNearest.exists (f : Nat → Nat) (n : Nat) : ∃ len d, LongestNearest f n len d := by
  induction n with
  | zero => exact ⟨0, 0, .zero f 0⟩
  | succ n ih =>
    obtain ⟨len, d, h⟩ := ih
    by_cases hlt : len < f (n + 1)
    · exact ⟨_, _, h.replace hlt⟩
    · exact ⟨len, d, h.extend (Nat.le_succ n) fun c h1 h2 => by rw [show c = n + 1 by omega]; omega⟩

theorem bestLength_le_iff {m : Memory} {fin maxLen n len : Nat} :
    bestLength m fin maxLen n ≤ len ↔ ∀ c, 1 ≤ c → c ≤ n → mlen m (fin - c) fin maxLen ≤ len := by
  induction n with
  | zero => exact ⟨fun _ c h1 h2 => by omega, fun _ => Nat.zero_le _⟩
  | succ n ih =>
    rw [bestLength, Nat.max_le, ih]
    refine ⟨fun ⟨h, hlast⟩ c h1 hc => ?_, fun h => ⟨fun c h1 hc => h c h1 (by omega), h _ (by omega) (Nat.le_refl _)⟩⟩
    by_cases hcn : c = n + 1
    · rw [hcn]; exact hlast
    · exact h c h1 (by omega)

theorem bestLength_eq {m : Memory} {fin maxLen n len d : Nat}
    (h : LongestNearest (fun c => mlen m (fin - c) fin maxLen) n len d) : bestLength m fin maxLen n = len := by
  refine Nat.le_antisymm (bestLength_le_iff.mpr h.longest) ?_
  rcases Nat.eq_zero_or_pos len with h0 | hpos
  · omega
  · obtain ⟨hd, hdn, hf⟩ := h.attained hpos
    exact hf ▸ bestLength_le_iff.mp (Nat.le_refl _) d hd hdn

/-- The search for the nearest finds the first candidate that has the given length. -/
theorem nearest_eq_some {m : Memory} {fin maxLen best n start d : Nat} (hs : start ≤ d) (hd : d < start + n)
    (hbest : mlen m (fin - d) fin maxLen = best)
    (hbefore : ∀ c, start ≤ c → c < d → mlen m (fin - c) fin maxLen ≠ best) :
    nearest m fin maxLen best start n = some d := by
  induction n generalizing start with
  | zero => omega
  | succ n ih =>
    rw [nearest]
    by_cases hsd : start = d
    · rw [hsd, if_pos hbest]
    · rw [if_neg (hbefore start (Nat.le_refl _) (by omega))]
      exact ih (by omega) (by omega) fun c h1 h2 => hbefore c (by omega) h2

/-- The finder's definition answers with the longest and nearest run (R142, R144). -/
theorem findLongestMatch_eq (breakEven : Nat) {m : Memory} {start fin maxLen len d : Nat}
    (h : LongestNearest (fun c => mlen m (fin - c) fin maxLen) (fin - start) len d) :
    findLongestMatch breakEven m start fin maxLen = acceptRun breakEven len d := by
  rw [findLongestMatch, acceptRun, bestLength_eq h]
  by_cases hb : breakEven < len
  · obtain ⟨hd, hdn, hf⟩ := h.attained (by omega)
    have hbefore (c : Nat) (h1 : 1 ≤ c) (hc : c < d) := Nat.ne_of_lt (h.nearest (by omega) c h1 hc)
    rw [if_neg (by omega), if_pos hb, nearest_eq_some hd (by omega) hf hbefore]
    rfl
  · rw [if_pos (by omega), if_neg hb]

/-! ## What an answer says -/

section
variable {m : Memory} {breakEven start fin maxLen len d : Nat}

/-- No candidate has a longer run than the one reported, said by its address. -/
theorem LongestNearest.longest_at (h : LongestNearest (fun c => mlen m (fin - c) fin maxLen) (fin - start) len d) {pos : Nat}
    (hs : start ≤ pos) (hp : pos < fin) : mlen m pos fin maxLen ≤ len := by
  have := h.longest (fin - pos) (by omega) (by omega)
  rwa [Nat.sub_sub_self (Nat.le_of_lt hp)] at this

/-- Of the candidates with the longest run none has a higher address than the one reported. -/
theorem LongestNearest.nearest_at (h : LongestNearest (fun c => mlen m (fin - c) fin maxLen) (fin - start) len d)
    (h0 : 0 < len) {pos : Nat} (hp : pos < fin) (heq : mlen m pos fin maxLen = len) : pos ≤ fin - d := by
  by_contra hlt
  have := h.nearest h0 (fin - pos) (by omega) (by omega)
  rw [Nat.sub_sub_self (Nat.le_of_lt hp), heq] at this
  exact Nat.lt_irrefl _ this

theorem acceptRun_none_iff : acceptRun breakEven len d = none ↔ len ≤ breakEven := by
  rw [acceptRun]
  split
  · next hb => exact ⟨nofun, fun hle => absurd hb (Nat.not_lt.mpr hle)⟩
  · next hb => exact ⟨fun _ => Nat.le_of_not_lt hb, fun _ => rfl⟩

theorem acceptRun_some {r : Match} (h : acceptRun breakEven len d = some r) :
    breakEven < len ∧ r.length = len ∧ r.distance = d := by
  rw [acceptRun] at h
  split at h
  · next hb => cases h; exact ⟨hb, rfl, rfl⟩
  · cases h

end

end Sys2Proof.Machine

namespace Sys2Proof.Proofs

open Sys2Proof.Machine

/-- Settles O11: a run is as long as `k` and not longer. -/
theorem commonRunIsLongest : Obligations.CommonRunIsLongest := by
  intro m pos fin maxLen k
  constructor
  · rintro rfl
    obtain ⟨hle, hagree⟩ := le_mlen_iff.mp (Nat.le_refl (mlen m pos fin maxLen))
    refine ⟨hle, hagree, fun hlt heq => ?_⟩
    have hlonger : mlen m pos fin maxLen + 1 ≤ mlen m pos fin maxLen :=
      le_mlen_iff.mpr ⟨hlt, fun i hi => (Nat.lt_succ_iff_lt_or_eq.mp hi).elim (hagree i) fun h => h ▸ heq⟩
    omega
  · rintro ⟨hle, hagree, hdiffer⟩
    refine Nat.le_antisymm ?_ (le_mlen_iff.mpr ⟨hle, hagree⟩)
    rcases Nat.lt_or_eq_of_le hle with hlt | rfl
    · exact mlen_le_of_ne maxLen (hdiffer hlt)
    · exact mlen_le ..

/-- Settles O12: the answer is the longest and nearest run if that is above the break-even, and it is determined by the runs of
the candidates. -/
theorem finderIsLongestAndNearest : Obligations.FinderIsLongestAndNearest := by
  refine ⟨fun _ => rfl, rfl, fun b m start fin maxLen hs _ => ?_⟩
  obtain ⟨len, d, h⟩ := LongestNearest.exists (fun c => mlen m (fin - c) fin maxLen) (fin - start)
  rw [findLongestMatch_eq b.breakEven h]
  refine ⟨⟨fun hn pos h1 h2 => ?_, fun hall => ?_⟩, fun r hr => ?_, fun m' hm => ?_⟩
  · exact Nat.le_trans (h.longest_at h1 h2) (acceptRun_none_iff.mp hn)
  · refine acceptRun_none_iff.mpr (Nat.le_of_not_lt fun hb => ?_)
    obtain ⟨hd, hdn, hf⟩ := h.attained (by omega)
    have := hall (fin - d) (by omega) (by omega)
    omega
  · obtain ⟨hb, hlen, hdist⟩ := acceptRun_some hr
    obtain ⟨hd, hdn, hf⟩ := h.attained (by omega)
    rw [hlen, hdist]
    exact ⟨hd, hdn, hb, hf ▸ mlen_le .., hf, fun pos h1 h2 => ⟨h.longest_at h1 h2, h.nearest_at (by omega) h2⟩⟩
  · refine findLongestMatch_eq b.breakEven (h.congr fun c h1 hc => (mlen_congr (fun i hi => ?_) fun i hi => ?_).symm)
    · exact hm _ (by omega) (by omega)
    · exact hm _ (by omega) (by omega)

/-- Settles O13: the scan and the definition both answer with the longest and nearest run. -/
theorem bruteForceFindsTheMatch : Obligations.BruteForceFindsTheMatch := by
  intro breakEven m start fin maxLen hs _
  obtain ⟨len, d, h⟩ := LongestNearest.exists (fun c => mlen m (fin - c) fin maxLen) (fin - start)
  rw [bruteForce_eq breakEven m (Nat.le_of_lt hs) h, findLongestMatch_eq breakEven h]

/-- Settles O14: the loop writes the entries below the limit, each with the previous address of the same byte, and no other. -/
theorem indexBuildIsCorrect : Obligations.IndexBuildIsCorrect := by
  intro m limit index hw
  refine ⟨IndexMemory.wf_doIndexing m limit index hw, fun i hi => doIndexing_correct m hw hi, fun i hi => ?_⟩
  obtain ⟨hout, -⟩ := indexFrom_read m limit (last := []) hw rfl fun _ _ hj => absurd hj (Nat.not_lt_zero _)
  exact hout i (.inr (by omega))

/-- Settles O15: over a correct index the walk and the definition both answer with the longest and nearest run. -/
theorem indexedSearchFindsTheMatch : Obligations.IndexedSearchFindsTheMatch := by
  intro breakEven m index start fin maxLen hs _ hindex
  obtain ⟨len, d, h⟩ := LongestNearest.exists (fun c => mlen m (fin - c) fin maxLen) (fin - start)
  rw [indexedSearch_eq breakEven (Nat.le_of_lt hs) hindex h, findLongestMatch_eq breakEven h]

end Sys2Proof.Proofs
end

section
/-! SUPPORT. The transitions of the encoder branch by branch, in any state (42_encoder_fsm.md R162 to R167): what each branch
gives, and what its micro-step then does as an instruction. -/

namespace Sys2Proof.Machine

section
variable {b : Build} {e : Enc} {k : OutSink}

/-! ## The branches -/

theorem canTakeByte_full (h : k.cap ≤ k.produced) : k.canTakeByte = false := canTakeByte_false (Nat.not_lt.mpr h)

theorem filledStep_eq (h : e.inputSize ≤ b.window) :
    filledStep b e k = .ok ({ e with
      index := if b.indexed = true then doIndexing e.buffer (b.window + e.inputSize) e.index else e.index
      state := .search }, k) := by
  by_cases hx : b.indexed = true
  · have hspace : b.window + e.inputSize ≤ b.spaceSize .encIdx := by
      simp only [Build.spaceSize, if_pos hx]
      omega
    simp only [filledStep, if_pos hx, checkSpace_ok hspace]
  · simp only [filledStep, if_neg hx]

theorem searchStep_short (h : e.inputSize < e.matchScanIndex + neededLookahead b e) :
    searchStep b e k = .ok ({ e with state := if e.finishing then .flushBits else .saveBacklog }, k) :=
  if_pos h

theorem searchStep_enough (h : e.matchScanIndex + neededLookahead b e ≤ e.inputSize) (hle : e.inputSize ≤ b.window) :
    searchStep b e k = .ok (afterSearch e (searchResult b e), k) := by
  have hspace : b.window + e.matchScanIndex + min b.lookahead (e.inputSize - e.matchScanIndex) ≤ b.spaceSize .encBuf := by
    simp only [Build.spaceSize]
    omega
  rw [searchStep, if_neg (Nat.not_lt.mpr h)]
  simp only [checkSpace_ok hspace, Nat.add_sub_cancel_left, searchResult]

theorem yieldTagBitStep_full (h : k.cap ≤ k.produced) : yieldTagBitStep b e k = .ok (e, k) := by
  simp [yieldTagBitStep, canTakeByte_full h]

theorem yieldTagBitStep_literal (h : k.produced < k.cap) (h0 : e.matchLength = 0) :
    yieldTagBitStep b e k =
      .ok ({ (pushBits b 1 1 e k).1 with state := .yieldLiteral }, (pushBits b 1 1 e k).2) := by
  rw [yieldTagBitStep, if_pos (k.canTakeByte_iff.mpr h), if_pos h0]

theorem yieldTagBitStep_backref (h : k.produced < k.cap) (h0 : e.matchLength ≠ 0) :
    yieldTagBitStep b e k = .ok ({ (pushBits b 1 0 e k).1 with
      outgoingBits := BitVec.ofNat 16 (fieldOfOperand e.matchPos), outgoingBitsCount := b.windowBits
      state := .yieldBrIndex }, (pushBits b 1 0 e k).2) := by
  rw [yieldTagBitStep, if_pos (k.canTakeByte_iff.mpr h), if_neg h0]

theorem yieldLiteralStep_full (h : k.cap ≤ k.produced) : yieldLiteralStep b e k = .ok (e, k) := by
  simp [yieldLiteralStep, canTakeByte_full h]

theorem yieldLiteralStep_room (h : k.produced < k.cap) (hin : literalAddress b e < 2 * b.window) :
    yieldLiteralStep b e k =
      .ok ({ (pushBits b 8 (e.buffer.read (literalAddress b e)) e k).1 with state := .search },
        (pushBits b 8 (e.buffer.read (literalAddress b e)) e k).2) := by
  have hspace : literalAddress b e + 1 ≤ b.spaceSize .encBuf := hin
  rw [yieldLiteralStep, if_pos (k.canTakeByte_iff.mpr h)]
  simp only [checkSpace_ok hspace]

theorem pushOutgoingBits_count_pos (h : 0 < e.outgoingBitsCount) : 0 < (pushOutgoingBits b e k).2.2 := by
  rw [pushOutgoingBits_count]
  omega

theorem yieldBrIndexStep_full (h : k.cap ≤ k.produced) : yieldBrIndexStep b e k = .ok (e, k) := by
  simp [yieldBrIndexStep, canTakeByte_full h]

theorem yieldBrIndexStep_drains (h : k.produced < k.cap) (hc : 0 < e.outgoingBitsCount) :
    yieldBrIndexStep b e k = .ok ((pushOutgoingBits b e k).1, (pushOutgoingBits b e k).2.1) := by
  rw [yieldBrIndexStep, if_pos (k.canTakeByte_iff.mpr h)]
  exact if_pos (pushOutgoingBits_count_pos hc)

theorem yieldBrIndexStep_drained (h : k.produced < k.cap) (hc : e.outgoingBitsCount = 0) :
    yieldBrIndexStep b e k = .ok ({ e with
      outgoingBits := BitVec.ofNat 16 (fieldOfOperand e.matchLength), outgoingBitsCount := b.lookaheadBits
      state := .yieldBrLength }, k) := by
  simp [yieldBrIndexStep, k.canTakeByte_iff.mpr h, pushOutgoingBits_none b e k hc]

theorem yieldBrLengthStep_full (h : k.cap ≤ k.produced) : yieldBrLengthStep b e k = .ok (e, k) := by
  simp [yieldBrLengthStep, canTakeByte_full h]

theorem yieldBrLengthStep_drains (h : k.produced < k.cap) (hc : 0 < e.outgoingBitsCount) :
    yieldBrLengthStep b e k = .ok ((pushOutgoingBits b e k).1, (pushOutgoingBits b e k).2.1) := by
  rw [yieldBrLengthStep, if_pos (k.canTakeByte_iff.mpr h)]
  exact if_pos (pushOutgoingBits_count_pos hc)

theorem yieldBrLengthStep_drained (h : k.produced < k.cap) (hc : e.outgoingBitsCount = 0) :
    yieldBrLengthStep b e k = .ok ({ e with
      matchScanIndex := e.matchScanIndex + e.matchLength, matchLength := 0, state := .search }, k) := by
  simp [yieldBrLengthStep, k.canTakeByte_iff.mpr h, pushOutgoingBits_none b e k hc]

/-- In a state whose index describes the buffer `Search` records the match of the definition, whichever strategy the build has
(R150). -/
theorem searchResult_eq_findLongestMatch
    (hindex : b.indexed = true → ∀ i, i ≤ b.window + e.matchScanIndex → indexEntryCorrect e.buffer e.index i) :
    searchResult b e = findLongestMatch b.breakEven e.buffer e.matchScanIndex (b.window + e.matchScanIndex)
      (min b.lookahead (e.inputSize - e.matchScanIndex)) := by
  obtain ⟨len, d, h⟩ := LongestNearest.exists
    (fun c => mlen e.buffer (b.window + e.matchScanIndex - c) (b.window + e.matchScanIndex)
      (min b.lookahead (e.inputSize - e.matchScanIndex))) (b.window + e.matchScanIndex - e.matchScanIndex)
  rw [searchResult, searchMatch_eq (Nat.le_add_left _ _) hindex h, findLongestMatch_eq b.breakEven h]

/-- Eight bits complete a byte in an accumulator that holds a bit already, or of a build that emits on an exact fill (R122). -/
theorem pushBits_byte_produced (bits : Byte) (h : b.emitOnExactFill = true ∨ 1 ≤ e.bitIndex) :
    (pushBits b 8 bits e k).2.produced = k.produced + 1 := by
  have hemits : 8 - e.bitIndex < 8 ∨ (8 - e.bitIndex = 8 ∧ b.emitOnExactFill = true) := by
    rcases Nat.eq_zero_or_pos e.bitIndex with h0 | hpos
    · exact .inr ⟨by rw [h0], h.resolve_right (by omega)⟩
    · exact .inl (by omega)
  rw [pushBits_emits hemits, OutSink.emit_produced]

end

/-! ## The micro-steps as instructions (R160) -/

section
variable {s : State} {k : OutSink}

/-- The micro-step that `enc.state` selects runs the transition of the state machine. -/
theorem exec_encMicroStep_next {q : EncState} (hk : s.encOut = some k) (hq : s.enc.state = q) {e : Enc} {k' : OutSink}
    (h : encStep s.build s.enc k = .ok (e, k')) :
    exec q.microStep s = .next { s with enc := e, encOut := some k' } := by
  rw [exec_encMicroStep]
  exact encMicroStep_next.mpr ⟨k, e, k', hk, hq, h, rfl⟩

/-- A transition that leaves the sink as it is writes the encoder alone. -/
theorem exec_encMicroStep_silent {q : EncState} (hk : s.encOut = some k) (hq : s.enc.state = q) {e : Enc}
    (h : encStep s.build s.enc k = .ok (e, k)) : exec q.microStep s = .next { s with enc := e } := by
  rw [exec_encMicroStep_next hk hq h, ← hk]

/-- A transition that changes neither the encoder nor the sink changes nothing. -/
theorem exec_encMicroStep_idle {q : EncState} (hk : s.encOut = some k) (hq : s.enc.state = q)
    (h : encStep s.build s.enc k = .ok (s.enc, k)) : exec q.microStep s = .next s :=
  exec_encMicroStep_silent hk hq h

/-- A transition that drains the pending field appends its first 8 bits, or all of them if they are fewer (R124). -/
theorem exec_encMicroStep_drains {q : EncState} (hk : s.encOut = some k) (hq : s.enc.state = q) (hacc : accumulatorOk s.enc)
    (h : encStep s.build s.enc k = .ok ((pushOutgoingBits s.build s.enc k).1, (pushOutgoingBits s.build s.enc k).2.1)) :
    ∃ w n k',
      let e' := { s.enc with
        currentByte := w, bitIndex := n, outgoingBitsCount := s.enc.outgoingBitsCount - min s.enc.outgoingBitsCount 8 }
      exec q.microStep s = .next { s with enc := e', encOut := some k' } ∧ Appends s.enc k e' k' ((outgoing s.enc).take 8) := by
  obtain ⟨w, n, hframe⟩ := pushOutgoingBits_frame s.build s.enc k
  have happ := pushOutgoingBits_appends s.build k hacc
  rw [hframe] at h happ
  exact ⟨w, n, _, exec_encMicroStep_next hk hq h, happ⟩

end

end Sys2Proof.Machine

namespace Sys2Proof.Proofs

open Sys2Proof.Machine

/-- Settles O17: with the input half within the window the index build stays in its space. -/
theorem filledStep : Obligations.FilledStep := by
  intro s k hk hq hle
  exact exec_encMicroStep_silent (q := .filled) hk hq (by rw [encStep, hq]; exact filledStep_eq hle)

/-- Settles O18: both strategies answer the match of the definition over an index that describes the buffer. -/
theorem searchStep : Obligations.SearchStep := by
  intro s k hk hq hle hindex e need
  have hexec {e' : Enc} (h : Machine.searchStep s.build s.enc k = .ok (e', k)) :
      exec .encStepSearch s = .next { s with enc := e' } :=
    exec_encMicroStep_silent (q := .search) hk hq (by rw [encStep, hq]; exact h)
  refine ⟨fun hshort => hexec (searchStep_short hshort),
    fun (henough : s.enc.matchScanIndex + neededLookahead s.build s.enc ≤ s.enc.inputSize) => ?_⟩
  have hneed := neededLookahead_pos s.build s.enc
  have hres := searchResult_eq_findLongestMatch (b := s.build) (e := s.enc) fun hx i hi => hindex hx i (by omega)
  have hfound := searchStep_enough (k := k) henough hle
  exact ⟨fun hnone => hexec (hfound.trans (by rw [hres, hnone]; rfl)),
    fun r hsome => hexec (hfound.trans (by rw [hres, hsome]; rfl))⟩

/-- Settles O19: one case for each branch of the transition. -/
theorem yieldTagBitStep : Obligations.YieldTagBitStep := by
  intro s k hk hq hacc
  have hstep : encStep s.build s.enc k = Machine.yieldTagBitStep s.build s.enc k := by rw [encStep, hq]
  refine ⟨fun hfull => ?_, fun hroom h0 => ?_, fun hroom h0 => ?_⟩
  · exact exec_encMicroStep_idle (q := .yieldTagBit) hk hq (hstep.trans (yieldTagBitStep_full hfull))
  · obtain ⟨w, n, k', hpush, hpacks⟩ := pushBits_packs s.build (count := 1) (bits := 1) k (by decide) (by decide) hacc
    have hok := yieldTagBitStep_literal (b := s.build) hroom h0
    rw [hpush] at hok
    exact ⟨w, n, k', exec_encMicroStep_next (q := .yieldTagBit) hk hq (hstep.trans hok), hpacks.appends⟩
  · obtain ⟨w, n, k', hpush, hpacks⟩ := pushBits_packs s.build (count := 1) (bits := 0) k (by decide) (by decide) hacc
    have hok := yieldTagBitStep_backref (b := s.build) hroom h0
    rw [hpush] at hok
    exact ⟨w, n, k', exec_encMicroStep_next (q := .yieldTagBit) hk hq (hstep.trans hok), hpacks.appends⟩

/-- Settles O20: eight bits pushed into an accumulator that holds one, or that emits on an exact fill, complete a byte. -/
theorem encYieldLiteralStep : Obligations.EncYieldLiteralStep := by
  intro s k hk hq hacc h1 hle
  have hstep : encStep s.build s.enc k = Machine.yieldLiteralStep s.build s.enc k := by rw [encStep, hq]
  refine ⟨fun hfull => ?_, fun hroom => ?_⟩
  · exact exec_encMicroStep_idle (q := .yieldLiteral) hk hq (hstep.trans (yieldLiteralStep_full hfull))
  · have hin : literalAddress s.build s.enc < 2 * s.build.window := by unfold literalAddress; omega
    have hok := yieldLiteralStep_room hroom hin
    obtain ⟨w, n, k', hpush, hpacks⟩ := pushBits_packs s.build (bits := s.enc.buffer.read (literalAddress s.build s.enc)) k
      (Nat.le_refl 8) (BitVec.isLt _) hacc
    rw [hpush] at hok
    refine ⟨w, n, k', exec_encMicroStep_next (q := .yieldLiteral) hk hq (hstep.trans hok), hpacks.appends, fun hbyte => ?_⟩
    have hcount := pushBits_byte_produced (k := k) (s.enc.buffer.read (literalAddress s.build s.enc)) hbyte
    rwa [hpush] at hcount

/-- Settles O21: one case for each branch of the transition. -/
theorem yieldBrIndexStep : Obligations.YieldBrIndexStep := by
  intro s k hk hq hacc _ c
  have hstep : encStep s.build s.enc k = Machine.yieldBrIndexStep s.build s.enc k := by rw [encStep, hq]
  refine ⟨fun hfull => ?_, fun hroom hpos => ?_, fun hroom h0 => ?_⟩
  · exact exec_encMicroStep_idle (q := .yieldBrIndex) hk hq (hstep.trans (yieldBrIndexStep_full hfull))
  · exact exec_encMicroStep_drains (q := .yieldBrIndex) hk hq hacc (hstep.trans (yieldBrIndexStep_drains hroom hpos))
  · exact exec_encMicroStep_silent (q := .yieldBrIndex) hk hq (hstep.trans (yieldBrIndexStep_drained hroom h0))

/-- Settles O22: one case for each branch of the transition. -/
theorem yieldBrLengthStep : Obligations.YieldBrLengthStep := by
  intro s k hk hq hacc _ c
  have hstep : encStep s.build s.enc k = Machine.yieldBrLengthStep s.build s.enc k := by rw [encStep, hq]
  refine ⟨fun hfull => ?_, fun hroom hpos => ?_, fun hroom h0 => ?_⟩
  · exact exec_encMicroStep_idle (q := .yieldBrLength) hk hq (hstep.trans (yieldBrLengthStep_full hfull))
  · exact exec_encMicroStep_drains (q := .yieldBrLength) hk hq hacc (hstep.trans (yieldBrLengthStep_drains hroom hpos))
  · exact exec_encMicroStep_silent (q := .yieldBrLength) hk hq (hstep.trans (yieldBrLengthStep_drained hroom h0))

end Sys2Proof.Proofs
end

section
/-! SUPPORT. What a micro-step of the encoder that completes has done, without any premise on the state, and what it looks at
of the output sink (42_encoder_fsm.md R160 to R171). -/

namespace Sys2Proof.Machine

/-- The states that wait for room in the output: the four that emit bits, and `FlushBits` with a partial byte (R164 to R167,
R169). -/
def waitsForRoom (e : Enc) : Prop :=
  e.state = .yieldTagBit ∨ e.state = .yieldLiteral ∨ e.state = .yieldBrIndex ∨ e.state = .yieldBrLength ∨
    (e.state = .flushBits ∧ e.bitIndex ≠ 0)

/-- The ways in which a micro-step completes, each with the state it starts in. Unlike `EncMove` it says nothing of the stream,
and so it needs no invariant. -/
inductive EncStepped (b : Build) (e : Enc) (k : OutSink) : Enc → OutSink → Prop where
  /-- `NotFull` and `Done` have no effect (R161, R170). -/
  | rest (at_state : e.state = .notFull ∨ e.state = .done) : EncStepped b e k e k
  /-- There is no room to emit (R164 to R167, R169). -/
  | blocked (full : k.cap ≤ k.produced) (at_state : waitsForRoom e) : EncStepped b e k e k
  /-- The pass begins (R162). -/
  | buildIndex (at_state : e.state = .filled) :
      EncStepped b e k { e with
        index := if b.indexed = true then doIndexing e.buffer (b.window + e.inputSize) e.index else e.index
        state := .search } k
  /-- Too little lookahead is left (R163). -/
  | leave (at_state : e.state = .search) (short : e.inputSize < e.matchScanIndex + neededLookahead b e) :
      EncStepped b e k { e with state := if e.finishing then .flushBits else .saveBacklog } k
  /-- The answer of the finder is recorded (R163). -/
  | search (at_state : e.state = .search) (enough : e.matchScanIndex + neededLookahead b e ≤ e.inputSize) :
      EncStepped b e k (afterSearch e (searchResult b e)) k
  /-- The tag bit of a literal (R164). -/
  | literalTag (at_state : e.state = .yieldTagBit) (room : k.produced < k.cap) (no_match : e.matchLength = 0) :
      EncStepped b e k { (pushBits b 1 1 e k).1 with state := .yieldLiteral } (pushBits b 1 1 e k).2
  /-- The tag bit of a backreference (R164). -/
  | backrefTag (at_state : e.state = .yieldTagBit) (room : k.produced < k.cap) (found : e.matchLength ≠ 0) :
      EncStepped b e k { (pushBits b 1 0 e k).1 with
        outgoingBits := BitVec.ofNat 16 (fieldOfOperand e.matchPos), outgoingBitsCount := b.windowBits
        state := .yieldBrIndex } (pushBits b 1 0 e k).2
  /-- The literal byte (R165). -/
  | literal (at_state : e.state = .yieldLiteral) (room : k.produced < k.cap) :
      EncStepped b e k { (pushBits b 8 (e.buffer.read (literalAddress b e)) e k).1 with state := .search }
        (pushBits b 8 (e.buffer.read (literalAddress b e)) e k).2
  /-- The first of the pending field bits (R166, R167). -/
  | drain (at_state : e.state = .yieldBrIndex ∨ e.state = .yieldBrLength) (room : k.produced < k.cap)
      (pending : 0 < e.outgoingBitsCount) :
      EncStepped b e k (pushOutgoingBits b e k).1 (pushOutgoingBits b e k).2.1
  /-- The distance is out (R166). -/
  | loadLength (at_state : e.state = .yieldBrIndex) (room : k.produced < k.cap) (drained : e.outgoingBitsCount = 0) :
      EncStepped b e k { e with
        outgoingBits := BitVec.ofNat 16 (fieldOfOperand e.matchLength), outgoingBitsCount := b.lookaheadBits
        state := .yieldBrLength } k
  /-- The length is out (R167). -/
  | passMatch (at_state : e.state = .yieldBrLength) (room : k.produced < k.cap) (drained : e.outgoingBitsCount = 0) :
      EncStepped b e k { e with matchScanIndex := e.matchScanIndex + e.matchLength, matchLength := 0, state := .search } k
  /-- The backlog shift (R168). -/
  | shift (at_state : e.state = .saveBacklog) : EncStepped b e k { saveBacklog b e with state := .notFull } k
  /-- There is no partial byte (R169). -/
  | flushNothing (at_state : e.state = .flushBits) (nothing : e.bitIndex = 0) :
      EncStepped b e k { e with state := .done } k
  /-- The partial byte (R169). -/
  | flushByte (at_state : e.state = .flushBits) (some_bits : e.bitIndex ≠ 0) (room : k.produced < k.cap) :
      EncStepped b e k { e with state := .done } (k.emit e.currentByte)

section
variable {b : Build} {e e' : Enc} {k k' : OutSink}

/-! ## Every micro-step that completes is one of them -/

theorem filledStep_stepped (hq : e.state = .filled) (h : filledStep b e k = .ok (e', k')) : EncStepped b e k e' k' := by
  have hm : EncStepped b e k _ k := .buildIndex hq
  unfold filledStep at h
  split at h
  · next hx =>
    rw [if_pos hx] at hm
    split at h
    · cases h
    · cases h; exact hm
  · next hx =>
    rw [if_neg hx] at hm
    cases h; exact hm

theorem searchStep_stepped (hq : e.state = .search) (h : searchStep b e k = .ok (e', k')) : EncStepped b e k e' k' := by
  by_cases hs : e.inputSize < e.matchScanIndex + neededLookahead b e
  · rw [searchStep_short hs] at h
    cases h; exact .leave hq hs
  · simp only [searchStep, if_neg hs, Nat.add_sub_cancel_left] at h
    split at h
    · cases h
    · cases h; exact .search hq (Nat.le_of_not_lt hs)

theorem yieldTagBitStep_stepped (hq : e.state = .yieldTagBit) (h : yieldTagBitStep b e k = .ok (e', k')) :
    EncStepped b e k e' k' := by
  rcases Nat.lt_or_ge k.produced k.cap with hroom | hfull
  · by_cases h0 : e.matchLength = 0
    · rw [yieldTagBitStep_literal hroom h0] at h
      cases h; exact .literalTag hq hroom h0
    · rw [yieldTagBitStep_backref hroom h0] at h
      cases h; exact .backrefTag hq hroom h0
  · rw [yieldTagBitStep_full hfull] at h
    cases h; exact .blocked hfull (.inl hq)

theorem yieldLiteralStep_stepped (hq : e.state = .yieldLiteral) (h : yieldLiteralStep b e k = .ok (e', k')) :
    EncStepped b e k e' k' := by
  rcases Nat.lt_or_ge k.produced k.cap with hroom | hfull
  · rw [yieldLiteralStep, if_pos (k.canTakeByte_iff.mpr hroom)] at h
    split at h
    · cases h
    · cases h; exact .literal hq hroom
  · rw [yieldLiteralStep_full hfull] at h
    cases h; exact .blocked hfull (.inr (.inl hq))

theorem yieldBrIndexStep_stepped (hq : e.state = .yieldBrIndex) (h : yieldBrIndexStep b e k = .ok (e', k')) :
    EncStepped b e k e' k' := by
  rcases Nat.lt_or_ge k.produced k.cap with hroom | hfull
  · rcases Nat.eq_zero_or_pos e.outgoingBitsCount with h0 | hpos
    · rw [yieldBrIndexStep_drained hroom h0] at h
      cases h; exact .loadLength hq hroom h0
    · rw [yieldBrIndexStep_drains hroom hpos] at h
      cases h; exact .drain (.inl hq) hroom hpos
  · rw [yieldBrIndexStep_full hfull] at h
    cases h; exact .blocked hfull (.inr (.inr (.inl hq)))

theorem yieldBrLengthStep_stepped (hq : e.state = .yieldBrLength) (h : yieldBrLengthStep b e k = .ok (e', k')) :
    EncStepped b e k e' k' := by
  rcases Nat.lt_or_ge k.produced k.cap with hroom | hfull
  · rcases Nat.eq_zero_or_pos e.outgoingBitsCount with h0 | hpos
    · rw [yieldBrLengthStep_drained hroom h0] at h
      cases h; exact .passMatch hq hroom h0
    · rw [yieldBrLengthStep_drains hroom hpos] at h
      cases h; exact .drain (.inr hq) hroom hpos
  · rw [yieldBrLengthStep_full hfull] at h
    cases h; exact .blocked hfull (.inr (.inr (.inr (.inl hq))))

theorem flushBitsStep_stepped (hq : e.state = .flushBits) (h : flushBitsStep b e k = .ok (e', k')) :
    EncStepped b e k e' k' := by
  by_cases h0 : e.bitIndex = 0
  · rw [flushBitsStep_nothing h0] at h
    cases h; exact .flushNothing hq h0
  · rcases Nat.lt_or_ge k.produced k.cap with hroom | hfull
    · rw [flushBitsStep_emits h0 hroom] at h
      cases h; exact .flushByte hq h0 hroom
    · rw [flushBitsStep_full h0 hfull] at h
      cases h; exact .blocked hfull (.inr (.inr (.inr (.inr ⟨hq, h0⟩))))

/-- What a micro-step that completes has done, in any state (R160). -/
theorem encStep_stepped (h : encStep b e k = .ok (e', k')) : EncStepped b e k e' k' := by
  unfold encStep at h
  split at h
  · next hq => cases h; exact .rest (.inl hq)
  · next hq => exact filledStep_stepped hq h
  · next hq => exact searchStep_stepped hq h
  · next hq => exact yieldTagBitStep_stepped hq h
  · next hq => exact yieldLiteralStep_stepped hq h
  · next hq => exact yieldBrIndexStep_stepped hq h
  · next hq => exact yieldBrLengthStep_stepped hq h
  · next hq => cases h; exact .shift hq
  · next hq => exact flushBitsStep_stepped hq h
  · next hq => cases h; exact .rest (.inr hq)

theorem pushOutgoingBits_state (b : Build) (e : Enc) (k : OutSink) : (pushOutgoingBits b e k).1.state = e.state := by
  obtain ⟨w, n, h⟩ := pushOutgoingBits_frame b e k
  rw [h]

theorem pushOutgoingBits_pending (b : Build) (e : Enc) (k : OutSink) :
    (pushOutgoingBits b e k).1.outgoingBitsCount = e.outgoingBitsCount - min e.outgoingBitsCount 8 := by
  obtain ⟨w, n, h⟩ := pushOutgoingBits_frame b e k
  rw [h]

/-- `NotFull` and `Done` are left by no micro-step (R161, R170). -/
theorem EncStepped.from_rest (h : EncStepped b e k e' k') (hq : e.state = .notFull ∨ e.state = .done) : e' = e ∧ k' = k := by
  cases h with
  | rest | blocked => exact ⟨rfl, rfl⟩
  | drain h => rcases h with h | h <;> simp [h] at hq
  | buildIndex h | leave h | search h | literalTag h | backrefTag h | literal h => simp [h] at hq
  | loadLength h | passMatch h | shift h | flushNothing h | flushByte h => simp [h] at hq

/-- A micro-step has no effect where the encoder rests or waits for room; else it leaves the state, or it drains pending bits
(R173). -/
theorem EncStepped.progress (h : EncStepped b e k e' k') :
    (e' = e ∧ k' = k ∧ ((e.state = .notFull ∨ e.state = .done) ∨ (k.cap ≤ k.produced ∧ waitsForRoom e))) ∨
    e'.state ≠ e.state ∨ (k.produced < k.cap ∧ e'.outgoingBitsCount < e.outgoingBitsCount) := by
  cases h with
  | rest hq => exact .inl ⟨rfl, rfl, .inl hq⟩
  | blocked full hq => exact .inl ⟨rfl, rfl, .inr ⟨full, hq⟩⟩
  | drain hq room pending =>
    refine .inr (.inr ⟨room, ?_⟩)
    rw [pushOutgoingBits_pending]
    omega
  | search hq => exact .inr (.inl (by rw [afterSearch_state, hq]; nofun))
  | leave hq => exact .inr (.inl (by rw [hq]; dsimp only; split <;> nofun))
  | buildIndex hq | literalTag hq | backrefTag hq | literal hq | loadLength hq | passMatch hq | shift hq | flushNothing hq
  | flushByte hq => exact .inr (.inl (by rw [hq]; nofun))

/-- A state that waits for room waits for nothing else: with the output full its micro-step has no effect. -/
theorem EncStepped.of_full (h : EncStepped b e k e' k') (full : k.cap ≤ k.produced) (hq : waitsForRoom e) :
    e' = e ∧ k' = k := by
  cases h with
  | rest | blocked => exact ⟨rfl, rfl⟩
  | literalTag _ room | backrefTag _ room | literal _ room | drain _ room | loadLength _ room | passMatch _ room
  | flushByte _ _ room => omega
  | buildIndex h | leave h | search h | shift h => simp [waitsForRoom, h] at hq
  | flushNothing h h0 => simp [waitsForRoom, h, h0] at hq

/-- The rows of the table for `Search`: its exits are taken when the lookahead needed is not there (R163, R171). -/
theorem encTarget_search {s : State} (k : OutSink) (hq : s.enc.state = .search) :
    encTarget s k = if s.enc.inputSize < s.enc.matchScanIndex + neededLookahead s.build s.enc
      then (if s.enc.finishing then .flushBits else .saveBacklog) else .yieldTagBit := by
  cases hf : s.enc.flags.getLsbD 0
  all_goals simp only [encTarget, hq, neededLookahead, Enc.finishing, Build.lookahead, hf, true_and, false_and, if_true,
    Bool.false_eq_true, Bool.true_eq_false, if_false]

/-- A micro-step goes where the table of R171 says. -/
theorem EncStepped.target {s : State} (h : EncStepped s.build s.enc k e' k') : e'.state = encTarget s k := by
  cases h with
  | rest hq => rcases hq with hq | hq <;> simp [encTarget, hq]
  | blocked full hq =>
    have hfull : ¬ k.produced < k.cap := Nat.not_lt.mpr full
    rcases hq with hq | hq | hq | hq | ⟨hq, h0⟩
    all_goals simp [encTarget, hq, hfull]
    exact h0
  | buildIndex hq | shift hq => simp [encTarget, hq]
  | leave hq short => rw [encTarget_search k hq, if_pos short]
  | search hq enough => rw [encTarget_search k hq, if_neg (Nat.not_lt.mpr enough), afterSearch_state]
  | literalTag hq room h0 | backrefTag hq room h0 => simp [encTarget, hq, room, h0]
  | literal hq room => simp [encTarget, hq, room]
  | drain hq room pending =>
    rw [pushOutgoingBits_state]
    rcases hq with hq | hq <;> simp [encTarget, hq, Nat.ne_of_gt pending]
  | loadLength hq room drained | passMatch hq room drained => simp [encTarget, hq, room, drained]
  | flushNothing hq nothing => simp [encTarget, hq, nothing]
  | flushByte hq some_bits room => simp [encTarget, hq, room]

end

end Sys2Proof.Machine
end

section
/-! SUPPORT. What a micro-step of the encoder looks at of the output sink: whether it can take a byte, and nothing else
(42_encoder_fsm.md R160). -/

namespace Sys2Proof.Machine

/-- An empty sink that can take a byte exactly when `k` can. -/
def OutSink.view (k : OutSink) : OutSink :=
  { cap := if k.canTakeByte then 1 else 0, out := [] }

/-- The result of a transition over `k.view`, with its bytes put behind those of `k`. -/
def OutSink.deliver (k : OutSink) (p : Enc × OutSink) : Enc × OutSink :=
  (p.1, { k with out := k.out ++ p.2.out })

@[simp] theorem OutSink.view_out (k : OutSink) : k.view.out = [] := rfl

@[simp] theorem OutSink.view_canTakeByte (k : OutSink) : k.view.canTakeByte = k.canTakeByte := by
  rw [Bool.eq_iff_iff, OutSink.canTakeByte_iff]
  by_cases h : k.canTakeByte = true <;> simp [OutSink.view, OutSink.produced, h]

theorem OutSink.view_congr {k k' : OutSink} (hcap : k'.cap = k.cap) (hproduced : k'.produced = k.produced) :
    k'.view = k.view := by
  rw [OutSink.view, OutSink.canTakeByte, hcap, hproduced]; rfl

/-- A transition that leaves the sink as it is. -/
@[simp] theorem OutSink.deliver_silent (k : OutSink) (e : Enc) : k.deliver (e, k.view) = (e, k) := by
  simp [OutSink.deliver]

section
variable (b : Build) (e : Enc) (k : OutSink)

theorem pushBits_view (count : Nat) (bits : Byte) :
    pushBits b count bits e k = k.deliver (pushBits b count bits e k.view) := by
  unfold pushBits
  dsimp only
  split <;> simp [OutSink.deliver, OutSink.emit]

theorem pushOutgoingBits_view :
    (pushOutgoingBits b e k).1 = (pushOutgoingBits b e k.view).1 ∧
      (pushOutgoingBits b e k).2.1 = { k with out := k.out ++ (pushOutgoingBits b e k.view).2.1.out } := by
  unfold pushOutgoingBits
  dsimp only
  split
  · rw [pushBits_view]
    exact ⟨rfl, rfl⟩
  · exact ⟨rfl, by simp⟩

theorem filledStep_view : filledStep b e k = (filledStep b e k.view).map k.deliver := by
  unfold filledStep
  split
  · cases checkSpace .encIdx (b.window + e.inputSize) (b.spaceSize .encIdx) <;> simp [Except.map]
  · simp [Except.map]

theorem searchStep_view : searchStep b e k = (searchStep b e k.view).map k.deliver := by
  unfold searchStep
  split
  · simp [Except.map]
  · dsimp only
    split <;> simp [Except.map]

theorem yieldTagBitStep_view : yieldTagBitStep b e k = (yieldTagBitStep b e k.view).map k.deliver := by
  unfold yieldTagBitStep
  rw [k.view_canTakeByte, pushBits_view b e k, pushBits_view b e k]
  split
  · split <;> rfl
  · simp [Except.map]

theorem yieldLiteralStep_view : yieldLiteralStep b e k = (yieldLiteralStep b e k.view).map k.deliver := by
  unfold yieldLiteralStep
  rw [k.view_canTakeByte, pushBits_view b e k]
  split
  · split <;> rfl
  · simp [Except.map]

theorem yieldBrIndexStep_view : yieldBrIndexStep b e k = (yieldBrIndexStep b e k.view).map k.deliver := by
  obtain ⟨he, hout⟩ := pushOutgoingBits_view b e k
  unfold yieldBrIndexStep
  simp only [k.view_canTakeByte, pushOutgoingBits_count, he, hout]
  split
  · split
    · rfl
    · simp [Except.map]
  · simp [Except.map]

theorem yieldBrLengthStep_view : yieldBrLengthStep b e k = (yieldBrLengthStep b e k.view).map k.deliver := by
  obtain ⟨he, hout⟩ := pushOutgoingBits_view b e k
  unfold yieldBrLengthStep
  simp only [k.view_canTakeByte, pushOutgoingBits_count, he, hout]
  split
  · split
    · rfl
    · simp [Except.map]
  · simp [Except.map]

theorem flushBitsStep_view : flushBitsStep b e k = (flushBitsStep b e k.view).map k.deliver := by
  unfold flushBitsStep
  rw [k.view_canTakeByte]
  split
  · simp [Except.map]
  · split
    · rfl
    · simp [Except.map]

/-- A micro-step is determined by the encoder, the parameters and whether there is room, and it adds its bytes to the output
(R160). -/
theorem encStep_view : encStep b e k = (encStep b e k.view).map k.deliver := by
  unfold encStep
  split
  · simp [notFullStep, Except.map]
  · exact filledStep_view b e k
  · exact searchStep_view b e k
  · exact yieldTagBitStep_view b e k
  · exact yieldLiteralStep_view b e k
  · exact yieldBrIndexStep_view b e k
  · exact yieldBrLengthStep_view b e k
  · simp [saveBacklogStep, Except.map]
  · exact flushBitsStep_view b e k
  · simp [doneStep, Except.map]

end

/-- The bytes that a micro-step adds, and that it adds the same to every sink with the same `cap` and `produced` (R160). -/
theorem encStep_local {b : Build} {e e' : Enc} {k k' : OutSink} (h : encStep b e k = .ok (e', k')) :
    ∃ new, k' = { k with out := k.out ++ new } ∧ ∀ k₁ : OutSink, k₁.cap = k.cap → k₁.produced = k.produced →
      encStep b e k₁ = .ok (e', { k₁ with out := k₁.out ++ new }) := by
  rw [encStep_view] at h
  cases hv : encStep b e k.view with
  | error f => rw [hv] at h; cases h
  | ok p =>
    rw [hv] at h
    cases h
    refine ⟨p.2.out, rfl, fun k₁ hcap hproduced => ?_⟩
    rw [encStep_view, OutSink.view_congr hcap hproduced, hv]
    rfl

end Sys2Proof.Machine
end

section
/-! SUPPORT. Who changes `enc.state` (42_encoder_fsm.md R161, R170, R171): the encoder at rest, the sink, and a poll as a run of
micro-steps. -/

namespace Sys2Proof.Machine

section
variable {b : Build} {e : Enc} {s t : State} {k : OutSink}

/-- What a micro-step that completes has done to the block. -/
theorem exec_encMicroStep_stepped {q : EncState} (h : exec q.microStep s = .next t) :
    s.enc.state = q ∧ ∃ k e k', s.encOut = some k ∧ encStep s.build s.enc k = .ok (e, k') ∧
      EncStepped s.build s.enc k e k' ∧ t = s.encRun e k' := by
  rw [exec_encMicroStep, encMicroStep_next] at h
  obtain ⟨k, e, k', hk, hq, hok, rfl⟩ := h
  exact ⟨hq, k, e, k', hk, hok, encStep_stepped hok, rfl⟩

/-! ## The encoder at rest -/

/-- A poll with room returns at once where the encoder rests (R161, R170). -/
theorem encPoll_rest (b : Build) {cap : Nat} (hc : 0 < cap) (hq : e.state = .notFull ∨ e.state = .done) :
    encPoll b cap e = .ok (e, .polled .empty []) := by
  have hstep : encStep b e (.start cap) = .ok (e, .start cap) := by rcases hq with hq | hq <;> rw [encStep, hq] <;> rfl
  have hloop (fuel : Nat) : encPollLoop b (fuel + 1) e (.start cap) = .ok (e, .start cap, .empty) := by
    rw [encPollLoop, hstep]
    dsimp only
    rw [encPollStatus_resting (hq.imp_right .inl)]
  rw [encPoll, if_neg (Nat.ne_of_gt hc), show encPollBound b e = _ + 7 + 1 from rfl, hloop]
  rfl

theorem exec_encPoll_rest (hk : s.encOut = none) {cap : Nat} (hc : 0 < cap) (hq : s.enc.state = .notFull ∨ s.enc.state = .done) :
    exec (.encPoll cap) s = .next { s with encReply := some (.polled .empty []) } := by
  rw [exec_encPoll, encPoll_rest s.build hc hq]
  exact encCommand_next.mpr ⟨hk, _, _, rfl, by rw [State.encReturn, hk]⟩

theorem exec_encFinish_next (hk : s.encOut = none) :
    exec .encFinish s = .next { s with enc := (encFinish s.enc).1, encReply := some (encFinish s.enc).2 } := by
  rw [exec_encFinish]
  exact encCommand_next.mpr ⟨hk, _, _, rfl, by rw [State.encReturn, hk]⟩

/-- A poll of the encoder that asks for no room changes nothing of it (R215). -/
theorem exec_encPoll_zero (h : exec (.encPoll 0) s = .next t) : t.enc = s.enc := by
  rw [exec_encPoll, encCommand_next] at h
  obtain ⟨-, e, reply, hok, rfl⟩ := h
  cases hok; rfl

theorem exec_encSink_enc {input : List Byte} (h : exec (.encSink input) s = .next t) :
    t.enc = (encSink s.build input s.enc).1 := by
  rw [exec_encSink, encCommand_next] at h
  obtain ⟨-, e, reply, hok, rfl⟩ := h
  cases hok; rfl

theorem exec_encFinish_enc (h : exec .encFinish s = .next t) : t.enc = (encFinish s.enc).1 := by
  rw [exec_encFinish, encCommand_next] at h
  obtain ⟨-, e, reply, hok, rfl⟩ := h
  cases hok; rfl

theorem exec_encReset_enc (h : exec .encReset s = .next t) : t.enc = .reset := by
  rw [exec_encReset, encCommand_next] at h
  obtain ⟨-, e, reply, hok, rfl⟩ := h
  cases hok; rfl

/-- The encoder at rest is changed by no other instruction than its sink, its finish and its reset (R161, R170). -/
theorem exec_enc_rest {i : Instr} (hq : s.enc.state = .notFull ∨ s.enc.state = .done) (h : exec i s = .next t) :
    t.enc = s.enc ∨ (∃ input, i = .encSink input) ∨ i = .encFinish ∨ i = .encReset := by
  cases hi : ofEncoder i with
  | false => rw [(exec_decLocal hi s t h).1]; exact .inl rfl
  | true =>
    rcases instr_cases i with ⟨q, rfl⟩ | ⟨q, rfl⟩ | (⟨input, rfl⟩ | ⟨cap, rfl⟩ | rfl | rfl) |
      (⟨input, rfl⟩ | ⟨cap, rfl⟩ | rfl | rfl) | ⟨value, rfl⟩ | ⟨W, L, index, count, hb⟩
    case inl =>
      obtain ⟨-, k, e, k', -, -, hstepped, rfl⟩ := exec_encMicroStep_stepped h
      exact .inl (hstepped.from_rest hq).1
    case inr.inl => cases q <;> cases hi
    case inr.inr.inl.inl => exact .inr (.inl ⟨input, rfl⟩)
    case inr.inr.inl.inr.inl =>
      rcases Nat.eq_zero_or_pos cap with rfl | hc
      · exact .inl (exec_encPoll_zero h)
      · rw [exec_encPoll, encPoll_rest s.build hc hq, encCommand_next] at h
        obtain ⟨-, e, reply, hok, rfl⟩ := h
        cases hok; exact .inl rfl
    case inr.inr.inl.inr.inr.inl => exact .inr (.inr (.inl rfl))
    case inr.inr.inl.inr.inr.inr => exact .inr (.inr (.inr rfl))
    case inr.inr.inr.inr.inr => rw [ofEncoder_of_bref hb] at hi; cases hi
    all_goals cases hi

/-! ## ENC.SINK and ENC.FINISH (R214, R216) -/

/-- A sink that does not accept leaves the encoder as it is (R214, R249). -/
theorem encSink_refuses (b : Build) (input : List Byte) (h : ¬ (e.finishing = false ∧ e.state = .notFull)) :
    (encSink b input e).1 = e := by
  unfold encSink
  split
  · rfl
  · next hf =>
    rw [if_neg fun hq => h ⟨Bool.eq_false_iff.mpr hf, hq⟩]
    split <;> rfl

/-- Out of `NotFull` and `Filled` every sink is `Misuse` (R214). -/
theorem encSink_misuse (b : Build) (input : List Byte) (hn : e.state ≠ .notFull) (hf : e.state ≠ .filled) :
    encSink b input e = (e, .sunk .misuse 0) := by
  unfold encSink
  rw [if_neg hn, if_neg hf]
  split <;> rfl

theorem encFinish_state (e : Enc) : (encFinish e).1.state = if e.state = .notFull then .filled else e.state := by
  rw [encFinish_eq]

/-- A finish in `Done` sets the flag, which is set already, and answers `Done` (R170, R216). -/
theorem encFinish_at_done (hq : e.state = .done) : encFinish e = ({ e with flags := e.flags ||| 1 }, .finished .done) := by
  have hkept : (if e.state = .notFull then .filled else e.state) = e.state := if_neg (by rw [hq]; nofun)
  rw [encFinish_eq, hkept, if_pos hq]
  rfl

/-- Where a sink goes: to `Filled` when it fills the input half (R171, R214). -/
theorem encSink_state {input : List Byte} (hle : e.inputSize ≤ b.window) :
    (encSink b input e).1.state =
      if e.state = .notFull ∧ e.flags.getLsbD 0 = false ∧ (encSink b input e).1.inputSize = b.window
      then .filled else e.state := by
  by_cases h : e.finishing = false ∧ e.state = .notFull
  · rw [encSink_accepts b input h.1 h.2, encAccept_eq h.2 hle]
    have hf : e.flags.getLsbD 0 = false := h.1
    simp only [h.2, hf, true_and]
  · rw [encSink_refuses b input h, if_neg fun ⟨hq, hf, _⟩ => h ⟨hf, hq⟩]

/-! ## A poll as a run of micro-steps (R215) -/

/-- The loop of a poll is a run of micro-steps, each the one that the state selects. -/
theorem encMicroSteps_of_loop {fuel : Nat} {r : Enc × OutSink × Status} (hk : s.encOut = some k)
    (h : encPollLoop s.build fuel s.enc k = .ok r) : ∃ n, encMicroSteps n s = .next (s.encRun r.1 r.2.1) := by
  induction fuel generalizing s k with
  | zero => cases h
  | succ fuel ih =>
    obtain ⟨fuel', e', k', hfuel, hok, hrest⟩ := encPollLoop_ok h
    cases hfuel
    have hfirst : exec s.enc.state.microStep s = .next (s.encRun e' k') := exec_encMicroStep_next hk rfl hok
    rcases hrest with ⟨status, -, rfl⟩ | ⟨-, hloop⟩
    · exact ⟨1, by simp only [encMicroSteps, hfirst]⟩
    · obtain ⟨n, hn⟩ := ih (s := s.encRun e' k') rfl hloop
      exact ⟨n + 1, by simp only [encMicroSteps, hfirst, hn]; rfl⟩

end

end Sys2Proof.Machine

namespace Sys2Proof.Proofs

open Sys2Proof.Machine

/-- Settles O16: at rest only the sink and the finish change the encoder, and a sink that leaves `NotFull` takes all of its
room. -/
theorem notFullWaits : Obligations.NotFullWaits := by
  intro s hq
  refine ⟨fun k hk => exec_encMicroStep_idle (q := .notFull) hk hq (by rw [encStep, hq]; rfl),
    fun hk cap hc => exec_encPoll_rest hk hc (.inl hq),
    fun hk => ⟨_, exec_encFinish_next hk, by rw [encFinish_state, if_pos hq]⟩, fun i t h hleft => ?_⟩
  rcases exec_enc_rest (.inl hq) h with hsame | ⟨input, rfl⟩ | rfl | rfl
  · exact absurd (by rw [hsame, hq]) hleft
  · rw [exec_encSink_enc h] at hleft ⊢
    by_cases hacc : s.enc.finishing = false ∧ s.enc.state = .notFull
    · rw [encSink_accepts s.build input hacc.1 hacc.2] at hleft ⊢
      simp only [encAccept] at hleft ⊢
      split at hleft
      · next hfills =>
        rw [if_pos hfills]
        exact ⟨rfl, .inr ⟨input, rfl, by unfold encRoom at hfills; omega⟩⟩
      · exact absurd hq hleft
    · rw [encSink_refuses s.build input hacc] at hleft
      exact absurd hq hleft
  · exact ⟨by rw [exec_encFinish_enc h, encFinish_state, if_pos hq], .inl rfl⟩
  · exact absurd (by rw [exec_encReset_enc h]; rfl) hleft

/-- Settles O25: at rest only the sink and the finish change the encoder, and neither leaves `Done`. -/
theorem doneIsTerminal : Obligations.DoneIsTerminal := by
  intro s hq
  refine ⟨fun hi => (hi.flush_at_end (.inr hq)).1,
    fun k hk => exec_encMicroStep_idle (q := .done) hk hq (by rw [encStep, hq]; rfl),
    fun hk => ⟨fun cap hc => exec_encPoll_rest hk hc (.inr hq), ?_, fun input => ?_⟩, fun i t h hi => ?_⟩
  · rw [exec_encFinish_next hk, encFinish_at_done hq]
  · rw [exec_encSink, encSink_misuse s.build input (by rw [hq]; nofun) (by rw [hq]; nofun)]
    exact encCommand_next.mpr ⟨hk, _, _, rfl, by rw [State.encReturn, hk]⟩
  · rcases exec_enc_rest (.inr hq) h with hsame | ⟨input, rfl⟩ | rfl | rfl
    · rw [hsame, hq]
    · rw [exec_encSink_enc h, encSink_misuse s.build input (by rw [hq]; nofun) (by rw [hq]; nofun), hq]
    · rw [exec_encFinish_enc h, encFinish_state, hq]; rfl
    · exact absurd rfl hi

/-- Settles O26: each micro-step goes where its row of the table says, the three commands write the state as they say, and a
poll runs through the micro-steps of its loop. -/
theorem encTransitions : Obligations.EncTransitions := by
  refine ⟨fun q s t h => ?_, fun input s t hle h => ?_, fun s t h => ?_, fun s t h => ?_, fun i s t hi h => ?_,
    fun cap s t h => ?_⟩
  · obtain ⟨hq, k, e, k', hk, -, hstepped, rfl⟩ := exec_encMicroStep_stepped h
    exact ⟨hq, k, hk, hstepped.target⟩
  · rw [exec_encSink_enc h]; exact encSink_state hle
  · rw [exec_encFinish_enc h]; exact encFinish_state s.enc
  · rw [exec_encReset_enc h]; rfl
  · rw [(exec_decLocal hi s t h).1]
  · rcases Nat.eq_zero_or_pos cap with rfl | hc
    · exact ⟨0, _, rfl, (exec_encPoll_zero h).symm⟩
    · obtain ⟨fuel, r, hloop, rfl⟩ := exec_encPoll_next hc h
      obtain ⟨n, hn⟩ := encMicroSteps_of_loop (s := { s with encOut := some (.start cap) }) rfl hloop
      exact ⟨n, _, hn, rfl⟩

/-- Settles O27: a transition sees of the sink whether there is room, and without room a state that waits for it is kept with
everything else. -/
theorem encStepIsLocal : Obligations.EncStepIsLocal := by
  intro q s t k hk h
  obtain ⟨rfl, k₀, e, k', hk₀, hok, hstepped, rfl⟩ := exec_encMicroStep_stepped h
  cases hk.symm.trans hk₀
  have hsame (hkept : e = s.enc ∧ k' = k) : s.encRun e k' = s := by rw [hkept.1, hkept.2, State.encRun, ← hk]
  refine ⟨rfl, ?_, fun hfull hkept => hsame ?_, fun hfull hwaits => hsame (hstepped.of_full hfull hwaits)⟩
  · obtain ⟨new, rfl, hlocal⟩ := encStep_local hok
    refine ⟨e, new, rfl, fun s' k₁ hb he hk₁ hcap hproduced => ?_⟩
    exact exec_encMicroStep_next hk₁ (congrArg Enc.state he) (by rw [hb, he]; exact hlocal k₁ hcap hproduced)
  · rcases hstepped.progress with ⟨rfl, rfl, -⟩ | hleft | ⟨hroom, -⟩
    · exact ⟨rfl, rfl⟩
    · exact absurd hkept hleft
    · omega

end Sys2Proof.Proofs
end

section
/-! SUPPORT. A micro-step that changes nothing is blocked, and any other one progresses (42_encoder_fsm.md R173,
43_decoder_fsm.md R202). -/

namespace Sys2Proof.Machine

section
variable {b : Build} {d d' : Dec} {k k' : OutSink}

/-- A copy has no effect without room, or it advances the head (R196). -/
theorem copyBackref_progress (b : Build) (k : OutSink) (hc : 1 ≤ d.outputCount) :
    (copyBackref b d k = (d, k) ∧ k.cap ≤ k.produced) ∨ d.headIndex < (copyBackref b d k).1.headIndex := by
  unfold copyBackref
  by_cases h0 : copyCount d k = 0
  · exact .inl ⟨if_pos h0, by unfold copyCount at h0; omega⟩
  · obtain ⟨w, hw⟩ := copyBytes_frame b (copyCount d k) d k
    have hmore : d.headIndex < (copyBytes b (copyCount d k) d k).1.headIndex := by
      rw [hw]
      exact Nat.lt_add_of_pos_right (Nat.pos_of_ne_zero h0)
    right
    rw [if_neg h0]
    dsimp only
    split <;> exact hmore

/-- A micro-step of the decoder has no effect where the output is full or the bits are not there; else it leaves the state, or
it copies bytes (R202). -/
theorem DecMove.effect (hi : DecInv b d) (hm : DecMove b d k d' k') :
    (d' = d ∧ k' = k ∧ (k.cap ≤ k.produced ∨ bitsAvailable d < wantedBits b d.state)) ∨
      d'.state ≠ d.state ∨ d.headIndex < d'.headIndex := by
  cases hm with
  | starved short => exact .inl ⟨rfl, rfl, .inr short⟩
  | full _ no_room => exact .inl ⟨rfl, rfl, .inl no_room⟩
  | copy hq =>
    obtain ⟨-, -, hc, -⟩ := hi.copy_in_range hq
    rcases copyBackref_progress b k hc with ⟨hsame, hfull⟩ | hmore
    · rw [hsame]; exact .inl ⟨rfl, rfl, .inl hfull⟩
    · exact .inr (.inr hmore)
  | backrefTag hq => exact .inr (.inl (by rw [hq]; dsimp only; split <;> nofun))
  | literalTag hq | literal hq | highPiece hq | lowPiece hq | length hq => exact .inr (.inl (by rw [hq]; nofun))

end

end Sys2Proof.Machine

namespace Sys2Proof.Proofs

open Sys2Proof.Machine

/-- Settles O52: in either unit a micro-step is blocked and has no effect, or it leaves its state, or what is pending gets
less. -/
theorem everyMicroStepProgresses : Obligations.EveryMicroStepProgresses := by
  refine ⟨fun q s t k hk h => ?_, fun q s t k _ hi hk h => ?_⟩
  · obtain ⟨rfl, k₀, e, k', hk₀, -, hstepped, rfl⟩ := exec_encMicroStep_stepped h
    cases hk.symm.trans hk₀
    rcases hstepped.progress with ⟨rfl, rfl, hblocked⟩ | hleft | ⟨-, hless⟩
    · refine ⟨fun _ => ?_, fun hne => absurd (by rw [State.encRun, ← hk]) hne⟩
      exact hblocked.elim .inr fun hfull => .inl hfull.1
    · exact ⟨fun heq => absurd (congrArg (·.enc.state) heq) hleft, fun _ => .inl hleft⟩
    · exact ⟨fun heq => absurd (congrArg (·.enc.outgoingBitsCount) heq) (Nat.ne_of_lt hless), fun _ => .inr hless⟩
  · rw [exec_decMicroStep, decMicroStep_next] at h
    obtain ⟨k₀, d, k', hk₀, rfl, hok, rfl⟩ := h
    cases hk.symm.trans hk₀
    rcases (decStep_moves hok).effect hi with ⟨rfl, rfl, hblocked⟩ | hleft | hmore
    · exact ⟨fun _ => hblocked, fun hne => absurd (by rw [State.decRun, ← hk]) hne⟩
    · exact ⟨fun heq => absurd (congrArg (·.dec.state) heq) hleft, fun _ => .inl hleft⟩
    · exact ⟨fun heq => absurd (congrArg (·.dec.headIndex) heq) (Nat.ne_of_gt hmore), fun _ => .inr hmore⟩

end Sys2Proof.Proofs
end

section
/-! SUPPORT. What a poll of the encoder leaves alone, and where it returns `More` (44_streaming_protocol.md R215, R224). -/

namespace Sys2Proof.Machine

section
variable {b : Build} {e₀ e e' : Enc} {k k' : OutSink}

/-! ## The memories in a move -/

/-- No move but the backlog shift writes the buffer or `enc.input_size` (R168, 20_memory.md R67). -/
theorem EncMove.input_cases (hm : EncMove b e k e' k') :
    (e'.buffer = e.buffer ∧ e'.inputSize = e.inputSize) ∨
      (e'.state = .notFull ∧ e'.inputSize = e.inputSize - e.matchScanIndex ∧
        e'.buffer = e.buffer.moveDown e.matchScanIndex 0 (2 * b.window - e.matchScanIndex)) := by
  cases hm with
  | shift => exact .inr ⟨rfl, rfl, rfl⟩
  | search => cases searchResult b e <;> exact .inl ⟨rfl, rfl⟩
  | _ => exact .inl ⟨rfl, rfl⟩

/-- No move but the one out of `Filled` writes the index, and no move enters `Filled` (R162, R171). -/
theorem EncMove.index_cases (hm : EncMove b e k e' k') :
    e'.state ≠ .filled ∧
      ((e.state = .filled ∧
          e'.index = if b.indexed = true then doIndexing e.buffer (b.window + e.inputSize) e.index else e.index) ∨
        (e.state ≠ .filled ∧ e'.index = e.index)) := by
  cases hm with
  | rest hq | blocked _ hq | drain hq =>
    have hne : e.state ≠ .filled := fun h => by simp [h] at hq
    exact ⟨hne, .inr ⟨hne, rfl⟩⟩
  | buildIndex hq => exact ⟨nofun, .inl ⟨hq, rfl⟩⟩
  | leave hq => rw [hq]; exact ⟨by dsimp only; split <;> nofun, .inr ⟨nofun, rfl⟩⟩
  | search hq => rw [afterSearch_state, hq]; exact ⟨nofun, .inr ⟨nofun, by cases searchResult b e <;> rfl⟩⟩
  | literalTag hq | backrefTag hq | literal hq | loadLength hq | passMatch hq | shift hq | flushNothing hq | flushByte hq =>
    rw [hq]; exact ⟨nofun, .inr ⟨nofun, rfl⟩⟩

/-! ## The memories in a poll -/

/-- The index once a poll that began in `e₀` has left `Filled`. -/
def polledIndex (b : Build) (e₀ : Enc) : IndexMemory :=
  if b.indexed = true ∧ e₀.state = .filled then doIndexing e₀.buffer (b.window + e₀.inputSize) e₀.index else e₀.index

/-- Inside a poll that began in `e₀`: the shift has been made, by what has left `enc.input_size`, and the encoder rests, or the
buffer is as it was. -/
def InputPolled (b : Build) (e₀ e : Enc) : Prop :=
  (e.buffer = e₀.buffer ∧ e.inputSize = e₀.inputSize) ∨
    (e.state = .notFull ∧ e.buffer =
      e₀.buffer.moveDown (e₀.inputSize - e.inputSize) 0 (2 * b.window - (e₀.inputSize - e.inputSize)))

/-- Inside a poll that began in `e₀`: no move has been made, or `Filled` is left and the index is that of the whole poll. -/
def IndexPolled (b : Build) (e₀ e : Enc) : Prop :=
  e = e₀ ∨ (e.state ≠ .filled ∧ e.index = polledIndex b e₀)

theorem EncMove.keeps_input (hi : EncInv b e) (h : InputPolled b e₀ e) (hm : EncMove b e k e' k') : InputPolled b e₀ e' := by
  rcases h with ⟨hbuf, hsize⟩ | ⟨hq, hbuf⟩
  · rcases hm.input_cases with ⟨hbuf', hsize'⟩ | ⟨hq', hsize', hbuf'⟩
    · exact .inl ⟨hbuf'.trans hbuf, hsize'.trans hsize⟩
    · have hshift : e₀.inputSize - e'.inputSize = e.matchScanIndex := by
        have := hi.scan_le_size
        omega
      exact .inr ⟨hq', by rw [hbuf', hbuf, hshift]⟩
  · rw [(hm.from_rest (.inl hq)).1]
    exact .inr ⟨hq, hbuf⟩

theorem IndexPolled.eq_polledIndex (h : IndexPolled b e₀ e) (hq : e.state ≠ .filled) : e.index = polledIndex b e₀ := by
  rcases h with rfl | ⟨-, h⟩
  · exact (if_neg fun hfilled => hq hfilled.2).symm
  · exact h

theorem EncMove.keeps_index (h : IndexPolled b e₀ e) (hm : EncMove b e k e' k') : IndexPolled b e₀ e' := by
  obtain ⟨hleft, ⟨hq, hindex⟩ | ⟨hq, hindex⟩⟩ := hm.index_cases
  · refine .inr ⟨hleft, ?_⟩
    obtain rfl : e = e₀ := h.resolve_right fun h' => h'.1 hq
    simp only [hindex, polledIndex, hq, and_true]
  · exact .inr ⟨hleft, hindex.trans (h.eq_polledIndex hq)⟩

/-- Where every byte of the buffer is after a poll (R67). -/
theorem InputPolled.read (h : InputPolled b e₀ e) (hwf : e₀.buffer.wf = true) (a : Nat) :
    e.buffer.read a = if a < 2 * b.window - (e₀.inputSize - e.inputSize)
      then e₀.buffer.read (a + (e₀.inputSize - e.inputSize)) else e₀.buffer.read a := by
  rcases h with ⟨hbuf, hsize⟩ | ⟨-, hbuf⟩
  · rw [hbuf, hsize, Nat.sub_self, Nat.add_zero, ite_self]
  · rw [hbuf]
    exact Memory.read_moveDown_whole _ _ _ a hwf

/-! ## The last move of a poll -/

/-- A poll returns after a move, out of a state that has what every move keeps. -/
theorem encPollLoop_last {P : Enc → OutSink → Prop} (hinv : ∀ e k, P e k → EncInv b e)
    (hstep : ∀ e k e' k', P e k → EncMove b e k e' k' → P e' k') {fuel : Nat} {status : Status} (h : P e k)
    (hr : encPollLoop b fuel e k = .ok (e', k', status)) :
    ∃ e₁ k₁, P e₁ k₁ ∧ EncMove b e₁ k₁ e' k' ∧ encPollStatus e₁.state e'.state k' = some status := by
  induction fuel generalizing e k with
  | zero => cases hr
  | succ fuel ih =>
    obtain ⟨fuel', e₁, k₁, hfuel, hok, hrest⟩ := encPollLoop_ok hr
    cases hfuel
    have hm := (hinv e k h).move_of_encStep hok
    rcases hrest with ⟨st, hs, hlast⟩ | ⟨-, hloop⟩
    · cases hlast
      exact ⟨e, k, h, hm, hs⟩
    · exact ih (hstep e k e₁ k₁ h hm) hloop

theorem encPollStatus_more {before after : EncState} (h : encPollStatus before after k = some .more) :
    after = before ∧ before ≠ .notFull ∧ before ≠ .done := by
  unfold encPollStatus at h
  split at h
  · cases h
  · next hrest =>
    obtain ⟨hn, hd, -⟩ := not_or.mp hrest |>.imp_right not_or.mp
    split at h
    · next hkept => exact ⟨hkept.1, hn, hd⟩
    · cases h

/-- A move that keeps its state is one of a state that rests or of one that emits (R171). -/
theorem EncMove.kept (hm : EncMove b e k e' k') (hkept : e'.state = e.state) :
    (e.state = .notFull ∨ e.state = .done) ∨ e.state = .yieldTagBit ∨ e.state = .yieldLiteral ∨ e.state = .yieldBrIndex ∨
      e.state = .yieldBrLength ∨ e.state = .flushBits := by
  cases hm with
  | rest hq => exact .inl hq
  | blocked _ hq => exact .inr hq
  | drain hq => exact .inr (.inr (.inr (hq.imp_right .inl)))
  | leave hq short => exact absurd hkept (EncMove.leaves (k := k) (.leave hq short) (.inl hq))
  | search hq enough => exact absurd hkept (EncMove.leaves (k := k) (.search hq enough) (.inl hq))
  | buildIndex hq | literalTag hq | backrefTag hq | literal hq | loadLength hq | passMatch hq | shift hq | flushNothing hq
  | flushByte hq => rw [hq] at hkept; cases hkept

/-! ## The poll as a whole -/

/-- What every move of a poll keeps, in one that began in `e₀` with the capacity `cap`. -/
structure Polling (b : Build) (e₀ : Enc) (cap : Nat) (e : Enc) (k : OutSink) : Prop where
  inv : EncInv b e
  fresh : indexFresh b e
  input : InputPolled b e₀ e
  index : IndexPolled b e₀ e
  flags_eq : e.flags = e₀.flags
  cap_eq : k.cap = cap
  produced_le : k.produced ≤ k.cap

theorem EncMove.keeps_polling {cap : Nat} (hl : b.legal = true) (h : Polling b e₀ cap e k) (hm : EncMove b e k e' k') :
    Polling b e₀ cap e' k' where
  inv := hm.keeps_inv hl h.inv h.fresh
  fresh := hm.keeps_fresh h.inv h.fresh
  input := hm.keeps_input h.inv h.input
  index := hm.keeps_index h.index
  flags_eq := hm.flags_eq.trans h.flags_eq
  cap_eq := hm.cap_eq.trans h.cap_eq
  produced_le := hm.produced_le h.produced_le

end

end Sys2Proof.Machine

namespace Sys2Proof.Proofs

open Sys2Proof.Machine

/-- Settles O42: a poll returns within its bound, each of its moves keeps what it leaves alone, and its last move says where it
rests. -/
theorem encPollResult : Obligations.EncPollResult := by
  intro s cap hk hl hi hfresh
  refine ⟨fun h0 => ?_, fun hc => ?_⟩
  · rw [exec_encPoll, encPoll, if_pos h0]
    exact encCommand_next.mpr ⟨hk, _, _, rfl, by rw [State.encReturn, hk]⟩
  · obtain ⟨⟨e', k, status⟩, hloop⟩ := encPollLoop_returns hl hi hfresh (k := .start cap) (Nat.zero_le _)
      (movesLeft_le_bound s.build s.enc)
    have hstart : Polling s.build s.enc cap s.enc (.start cap) :=
      ⟨hi, hfresh, .inl ⟨rfl, rfl⟩, .inl rfl, rfl, rfl, Nat.zero_le _⟩
    have hinv := fun e k (h : Polling s.build s.enc cap e k) => h.inv
    have hstep := fun e k e' k' (h : Polling s.build s.enc cap e k) (hm : EncMove s.build e k e' k') => hm.keeps_polling hl h
    obtain ⟨hend, hstatus⟩ := encPollLoop_keeps hinv hstep hstart hloop
    obtain ⟨e₁, k₁, -, hlast, hreturn⟩ := encPollLoop_last hinv hstep hstart hloop
    refine ⟨e', status, k.out, ?_, hend.cap_eq ▸ hend.produced_le, ?_, hend.flags_eq, hend.input.read hi.buffer_wf, ?_⟩
    · rw [exec_encPoll, (encPoll_ok hc).mpr ⟨k, hloop, rfl⟩]
      exact encCommand_next.mpr ⟨hk, _, _, rfl, by rw [State.encReturn, hk]⟩
    · refine hstatus.imp_right fun ⟨hmore, hfull⟩ => ⟨hmore, hfull.trans hend.cap_eq, ?_⟩
      subst hmore
      obtain ⟨hkept, hn, hd⟩ := encPollStatus_more hreturn
      rw [hkept]
      exact (hlast.kept hkept).resolve_left fun hrest => hrest.elim hn hd
    · exact hend.index.eq_polledIndex hlast.index_cases.1

end Sys2Proof.Proofs
end

section
/-! SUPPORT. What a step fetches, case by case (44_streaming_protocol.md R210, 30_encoding.md R91, R99): the converse of
`fetch_cases`. -/

namespace Sys2Proof.Machine

section
variable {s : State} {k : OutSink}

theorem fetch_encMicro (hk : s.encOut = some k) : s.fetch = .encMicro s.enc.state.microStep := by
  rw [State.fetch, hk]

/-- The micro-step of the decoder is what goes on at another grain than the token's, and where no whole token is there. -/
theorem fetch_decMicro (he : s.encOut = none) (hd : s.decOut = some k)
    (h : s.grain ≠ .token ∨ nextToken s.build s.dec k = none) : s.fetch = .decMicro s.dec.state.microStep := by
  have hnone : (if s.grain = .token then nextToken s.build s.dec k else none) = none := by
    split
    · next hg => exact h.resolve_left fun hne => hne hg
    · rfl
  rw [State.fetch, he, hd]
  dsimp only
  rw [hnone]

theorem fetch_token (he : s.encOut = none) (hd : s.decOut = some k) (hg : s.grain = .token) {i : Instr} {width : Nat}
    (h : nextToken s.build s.dec k = some (i, width)) : s.fetch = .token i width := by
  rw [State.fetch, he, hd]
  dsimp only
  rw [if_pos hg, h]

theorem fetch_idle (he : s.encOut = none) (hd : s.decOut = none) (hp : s.pending = []) : s.fetch = .idle := by
  rw [State.fetch, he, hd, hp]

/-- The whole token at the front of the stream is the next one if there is room for it, which only a literal needs (R192). -/
theorem nextToken_eq {b : Build} {d : Dec} {i : Instr} {later : List Bool} (hq : d.state = .tagBit)
    (h : decodeToken b.windowBits b.lookaheadBits (unreadBits d) = .ok (i, later))
    (hroom : i.bref? = none → k.produced < k.cap) :
    nextToken b d k = some (i, (unreadBits d).length - later.length) := by
  have htoken : tokenHasRoom i k = true := by
    unfold tokenHasRoom
    split
    · rfl
    · next hb => exact k.canTakeByte_iff.mpr (hroom hb)
  rw [nextToken, if_pos hq, h]
  exact if_pos htoken

/-! ## Which polls are opened (log 6) -/

theorem opened_none {i : Instr} (h : s.grain = .command ∨ ∀ cap, 0 < cap → i ≠ .encPoll cap ∧ i ≠ .decPoll cap) :
    s.opened i = none := by
  cases ho : s.opened i with
  | none => rfl
  | some u =>
    obtain ⟨hg, cap, hc, hpoll⟩ := opened_some ho
    obtain ⟨henc, hdec⟩ := h.resolve_left hg cap hc
    exact (hpoll.elim (fun h => henc h.1) fun h => hdec h.1).elim

theorem opened_encPoll (hg : s.grain ≠ .command) {cap : Nat} (hc : 0 < cap) :
    s.opened (.encPoll cap) = some { s with encOut := some (.start cap) } := by
  unfold State.opened
  split
  · next h => exact absurd h hg
  · exact if_neg (Nat.ne_of_gt hc)

theorem opened_decPoll (hg : s.grain ≠ .command) {cap : Nat} (hc : 0 < cap) :
    s.opened (.decPoll cap) = some { s with decOut := some (.start cap) } := by
  unfold State.opened
  split
  · next h => exact absurd h hg
  · exact if_neg (Nat.ne_of_gt hc)

/-! ## The step of what is fetched -/

theorem step_encMicro (hl : s.build.legal = true) (hk : s.encOut = some k) :
    step s = onNext (exec s.enc.state.microStep s) (State.encAfter s.enc.state) := by
  rw [step_of_legal hl, stepLegal, fetch_encMicro hk]

theorem step_decMicro (hl : s.build.legal = true) (he : s.encOut = none) (hd : s.decOut = some k)
    (h : s.grain ≠ .token ∨ nextToken s.build s.dec k = none) :
    step s = onNext (exec s.dec.state.microStep s) (State.decAfter s.dec.state) := by
  rw [step_of_legal hl, stepLegal, fetch_decMicro he hd h]

theorem step_nextToken (hl : s.build.legal = true) (he : s.encOut = none) (hd : s.decOut = some k) (hg : s.grain = .token)
    {i : Instr} {width : Nat} (h : nextToken s.build s.dec k = some (i, width)) {d : Dec}
    (hskip : skipBits s.build width s.dec = .ok d) :
    step s = onNext (exec i { s with dec := d }) (State.decAfter .yieldBackref) := by
  rw [step_of_legal hl, stepLegal, fetch_token he hd hg h]
  dsimp only
  rw [hskip]

theorem step_idle (hl : s.build.legal = true) (he : s.encOut = none) (hd : s.decOut = none) (hp : s.pending = []) :
    step s = .next s := by
  rw [step_of_legal hl, stepLegal, fetch_idle he hd hp]

end

end Sys2Proof.Machine

namespace Sys2Proof.Proofs

open Sys2Proof.Machine

/-- Settles O7: each kind of fetch names the instruction that decodes from what selects it. -/
theorem stepRunsDecodedInstruction : Obligations.StepRunsDecodedInstruction := by
  intro s W L
  refine ⟨fun hl => if_neg (by rw [hl]; nofun), fun hl => ⟨fun k hk => ?_, fun k he hd h => ?_, ?_, ?_, step_idle hl⟩⟩
  · exact ⟨_, decode_encMicroStep W L s.enc.state, step_encMicro hl hk⟩
  · exact ⟨_, decode_decMicroStep W L s.dec.state, step_decMicro hl he hd h⟩
  · intro k i later d he hd hg hq hdecode hroom hskip
    exact step_nextToken hl he hd hg (nextToken_eq hq hdecode hroom) hskip
  · intro w later he hd hp
    obtain ⟨hopen, hwhole⟩ := step_command hl he hd hp
    refine ⟨rfl, fun h => hwhole (opened_none h), fun cap hg hc hw => hopen _ ?_, fun cap hg hc hw => hopen _ ?_⟩
    · rw [hw]; exact opened_encPoll (s := { s with pending := later }) hg hc
    · rw [hw]; exact opened_decPoll (s := { s with pending := later }) hg hc

end Sys2Proof.Proofs
end

section
/-! SUPPORT. Runs of the decoder's micro-steps (43_decoder_fsm.md R190): a whole token and a whole poll
(44_streaming_protocol.md R221) are such runs. -/

namespace Sys2Proof.Machine

section
variable {s t u : State} {k : OutSink}

/-- A transition that completes is what the micro-step of its state does under a running poll. -/
theorem exec_decMicroStep_next {q : DecState} (hk : s.decOut = some k) (hq : s.dec.state = q) {d : Dec} {k' : OutSink}
    (h : decStep s.build s.dec k = .ok (d, k')) : exec q.microStep s = .next (s.decRun d k') := by
  rw [exec_decMicroStep]
  exact decMicroStep_next.mpr ⟨k, d, k', hk, hq, h, rfl⟩

/-- One more micro-step at the end of a run. -/
theorem decMicroSteps_snoc {n : Nat} (h : decMicroSteps n s = .next u) (hlast : exec u.dec.state.microStep u = .next t) :
    decMicroSteps (n + 1) s = .next t := by
  induction n generalizing s with
  | zero => cases h; simp only [decMicroSteps, hlast]
  | succ n ih =>
    rw [decMicroSteps] at h ⊢
    split at h
    · exact ih h
    · cases h
    · cases h

/-- The state of a running poll is what it runs on. -/
theorem decRun_self (hk : s.decOut = some k) : s.decRun s.dec k = s := by
  rw [State.decRun, ← hk]

/-- The phases in which a token is fetched are a run of micro-steps. -/
theorem Fetches.decMicroSteps {n : Nat} {d₂ : Dec} (hk : s.decOut = some k) (h : Fetches s.build k n s.dec d₂) :
    Machine.decMicroSteps n s = .next (s.decRun d₂ k) := by
  generalize hd : s.dec = d at h
  induction h with
  | none => rw [← hd, decRun_self hk]; rfl
  | phase _ hstep _ ih => exact decMicroSteps_snoc (ih hd) (exec_decMicroStep_next rfl rfl hstep)

/-- The loop of a poll is a run of micro-steps, each the one that the state selects. -/
theorem decMicroSteps_of_loop {fuel : Nat} {r : Dec × OutSink × Status} (hk : s.decOut = some k)
    (h : decPollLoop s.build fuel s.dec k = .ok r) : ∃ n, decMicroSteps n s = .next (s.decRun r.1 r.2.1) := by
  induction fuel generalizing s k with
  | zero => cases h
  | succ fuel ih =>
    obtain ⟨fuel', d, k', hfuel, hok, hrest⟩ := decPollLoop_ok h
    cases hfuel
    have hfirst : exec s.dec.state.microStep s = .next (s.decRun d k') := exec_decMicroStep_next hk rfl hok
    rcases hrest with ⟨status, -, rfl⟩ | ⟨-, hloop⟩
    · exact ⟨1, by simp only [decMicroSteps, hfirst]⟩
    · obtain ⟨n, hn⟩ := ih (s := s.decRun d k') rfl hloop
      exact ⟨n + 1, by simp only [decMicroSteps, hfirst, hn]; rfl⟩

end

end Sys2Proof.Machine

namespace Sys2Proof.Proofs

open Sys2Proof.Machine

/-- Settles O39: at most four micro-steps fetch the token, and the last one does to the output what executing it does. -/
theorem tokenIsItsMicroSteps : Obligations.TokenIsItsMicroSteps := by
  intro s k i width _ hi _ hk hn
  obtain ⟨d₁, d₂, d₃, k₃, hphases⟩ := token_phases hi.data.staging_ok hn
  obtain ⟨n, hle, hfetches⟩ := hphases.fetches
  refine ⟨d₁, s.decRun d₃ k₃, n + 1, hphases.skips, hphases.executes _ rfl rfl hk, Nat.succ_le_succ hle, ?_⟩
  exact decMicroSteps_snoc (hfetches.decMicroSteps hk) (exec_decMicroStep_next rfl rfl hphases.last)

end Sys2Proof.Proofs
end

section
/-! SUPPORT. The decoding of a stream as a function of its bits (43_decoder_fsm.md R200): one token at a time, and that it
undoes the greedy parse and the packing (R201). -/

namespace Sys2Proof.Machine

section
variable {b : Build} {bits rest later after pad : List Bool} {v index count k : Nat} {x y : List Byte}

/-! ## One token at a time (R200) -/

/-- The decoding of the stream `bits`, after the bytes `y`. -/
def decodeBits (b : Build) (bits : List Bool) (y : List Byte) : List Byte :=
  decodeFrom b bits.length bits y

theorem takeField_length (h : takeField k bits = some (v, later)) : later.length ≤ bits.length := by
  obtain ⟨-, -, rfl⟩ := takeField_some h
  rw [List.length_drop]
  omega

/-- The number of tokens that the decoding may still take does not matter once it is enough. -/
theorem decodeFrom_fuel {fuel fuel' : Nat} (h : bits.length ≤ fuel) (h' : bits.length ≤ fuel') :
    decodeFrom b fuel bits y = decodeFrom b fuel' bits y := by
  induction fuel generalizing fuel' bits y with
  | zero =>
    obtain rfl := List.length_eq_zero_iff.mp (Nat.le_zero.mp h)
    cases fuel' <;> rfl
  | succ fuel ih =>
    match bits, fuel' with
    | [], 0 => rfl
    | [], _ + 1 => rfl
    | bit :: rest, fuel' + 1 =>
      rw [List.length_cons] at h h'
      cases bit with
      | true =>
        simp only [decodeFrom]
        split
        · rfl
        · next hv =>
          have := takeField_length hv
          exact ih (by omega) (by omega)
      | false =>
        simp only [decodeFrom]
        split
        · rfl
        next hindex =>
        split
        · rfl
        · next hcount =>
          have := takeField_length hindex
          have := takeField_length hcount
          exact ih (by omega) (by omega)

theorem decodeBits_literal (hv : takeField 8 rest = some (v, later)) :
    decodeBits b (true :: rest) y = decodeBits b later (y ++ [BitVec.ofNat 8 v]) := by
  rw [decodeBits, List.length_cons, decodeFrom, hv]
  exact decodeFrom_fuel (takeField_length hv) (Nat.le_refl _)

theorem decodeBits_backref (hindex : takeField b.windowBits rest = some (index, after))
    (hcount : takeField b.lookaheadBits after = some (count, later)) :
    decodeBits b (false :: rest) y =
      decodeBits b later (appendCopies (operandOfField index) (operandOfField count) y) := by
  rw [decodeBits, List.length_cons, decodeFrom, hindex]
  dsimp only
  rw [hcount]
  exact decodeFrom_fuel (Nat.le_trans (takeField_length hcount) (takeField_length hindex)) (Nat.le_refl _)

/-- A stream that ends inside its next token adds nothing (R97). -/
theorem decodeBits_short (h : bits.length < tokenWidth b.windowBits b.lookaheadBits bits) : decodeBits b bits y = y := by
  match bits with
  | [] => rfl
  | true :: rest =>
    rw [tokenWidth_literal, List.length_cons] at h
    rw [decodeBits, List.length_cons, decodeFrom, takeField_short (by omega)]
  | false :: rest =>
    rw [tokenWidth_bref, List.length_cons] at h
    rw [decodeBits, List.length_cons, decodeFrom]
    by_cases hW : rest.length < b.windowBits
    · rw [takeField_short hW]
    · rw [takeField_enough (Nat.not_lt.mp hW)]
      dsimp only
      rw [takeField_short (by rw [List.length_drop]; omega)]

/-! ## The tokens of the parse (R174) -/

theorem takeField_fieldBits_of_lt (h : v < 2 ^ k) : takeField k (fieldBits k v ++ later) = some (v, later) := by
  rw [takeField_fieldBits, Nat.mod_eq_of_lt h]

theorem decodeBits_literal_token (value : Byte) :
    decodeBits b (tokenBits b (.literal value) ++ later) y = decodeBits b later (y ++ [value]) := by
  have hfield : takeField 8 (byteBits value ++ later) = some (value.toNat, later) := takeField_fieldBits_of_lt value.isLt
  rw [tokenBits, List.cons_append, decodeBits_literal hfield, BitVec.ofNat_toNat, BitVec.setWidth_eq]

theorem decodeBits_backref_token {distance length : Nat} (hd : 1 ≤ distance) (hdN : distance ≤ b.window)
    (hl : 1 ≤ length) (hlL : length ≤ b.lookahead) :
    decodeBits b (tokenBits b (.backref distance length) ++ later) y =
      decodeBits b later (appendCopies distance length y) := by
  have hI : fieldOfOperand distance < 2 ^ b.windowBits := Nat.sub_one_lt_of_le hd hdN
  have hC : fieldOfOperand length < 2 ^ b.lookaheadBits := Nat.sub_one_lt_of_le hl hlL
  rw [tokenBits, brefBits, List.cons_append, List.append_assoc,
    decodeBits_backref (takeField_fieldBits_of_lt hI) (takeField_fieldBits_of_lt hC)]
  congr 2
  exacts [Nat.sub_add_cancel hd, Nat.sub_add_cancel hl]

/-! ## Copies (R174, R200) -/

/-- Within a run the bytes `d` before are the bytes that follow. -/
theorem historyByte_of_lt_runLength {d start n i : Nat} (h : i < runLength x k d start n) :
    historyByte x k d (start + i) = x.getD (k + (start + i)) 0 ∧ i < n := by
  induction n generalizing start i with
  | zero => exact absurd h (Nat.not_lt_zero i)
  | succ n ih =>
    rw [runLength] at h
    split at h
    · next h0 =>
      cases i with
      | zero => exact ⟨h0, Nat.succ_pos n⟩
      | succ i =>
        obtain ⟨hi, hlt⟩ := ih (Nat.lt_of_succ_lt_succ h)
        rw [Nat.add_right_comm, Nat.add_assoc] at hi
        exact ⟨hi, Nat.succ_lt_succ hlt⟩
    · exact absurd h (Nat.not_lt_zero i)

/-- Copying a run extends the bytes decoded so far by the bytes that follow. -/
theorem appendCopies_take {d n : Nat} (hd : 1 ≤ d) (hn : k + n ≤ x.length)
    (h : ∀ i, i < n → historyByte x k d i = x.getD (k + i) 0) : appendCopies d n (x.take k) = x.take (k + n) := by
  induction n generalizing k with
  | zero => rfl
  | succ n ih =>
    have hlen : (x.take k).length = k := List.length_take_of_le (by omega)
    have hnext : (if k < d then 0 else (x.take k).getD (k - d) 0) = x.getD k 0 := by
      have h0 := h 0 (Nat.succ_pos n)
      rw [historyByte, Nat.add_zero] at h0
      rw [← h0]
      split
      · rfl
      · rw [List.getD_eq_getElem?_getD, List.getElem?_take_of_lt (by omega), List.getD_eq_getElem?_getD]
    have hk : x.take k ++ [x.getD k 0] = x.take (k + 1) := by
      rw [List.take_succ_eq_append_getElem (show k < x.length by omega), List.getD_eq_getElem _ _ (by omega)]
    rw [appendCopies, hlen, hnext, hk, ih (by omega), Nat.add_assoc, Nat.add_comm 1 n]
    intro i hi
    have hi' := h (i + 1) (by omega)
    rw [historyByte] at hi' ⊢
    rwa [Nat.add_assoc, Nat.add_comm 1 i]

/-- The decoding of one token of the parse is the part of the input that the token stands for. -/
theorem decodeBits_restBits_next (hk : k < x.length) (pad : List Bool) :
    ∃ n, 1 ≤ n ∧ k + n ≤ x.length ∧
      decodeBits b (restBits b x k ++ pad) (x.take k) = decodeBits b (restBits b x (k + n) ++ pad) (x.take (k + n)) := by
  have hbest := bestRun_longestNearest x k (min b.lookahead (x.length - k)) b.window
  have hnext := restBits_next b hk
  revert hbest hnext
  generalize bestRun x k (min b.lookahead (x.length - k)) b.window = best
  intro hbest hnext
  cases hrun : acceptRun b.breakEven best.1 best.2 with
  | none =>
    simp only [hrun] at hnext
    refine ⟨1, Nat.le_refl 1, hk, ?_⟩
    rw [hnext, List.append_assoc, decodeBits_literal_token, List.getD_eq_getElem _ _ hk,
      List.take_succ_eq_append_getElem hk]
  | some r =>
    simp only [hrun] at hnext
    obtain ⟨hlong, hlength, hdist⟩ := acceptRun_some hrun
    rw [hlength, hdist] at hnext
    obtain ⟨hd, hdN, hlen⟩ := hbest.attained (Nat.lt_of_le_of_lt (Nat.zero_le _) hlong)
    have hcopy : ∀ i, i < best.1 → historyByte x k best.2 i = x.getD (k + i) 0 ∧ i < min b.lookahead (x.length - k) :=
      fun i hi => by
        have h := historyByte_of_lt_runLength (start := 0) (Nat.lt_of_lt_of_eq hi hlen.symm)
        rwa [Nat.zero_add] at h
    have hmax := (hcopy (best.1 - 1) (by omega)).2
    refine ⟨best.1, by omega, by omega, ?_⟩
    rw [hnext, List.append_assoc, decodeBits_backref_token hd hdN (by omega) (by omega),
      appendCopies_take hd (by omega) fun i hi => (hcopy i hi).1]

/-- From every position the decoding of the rest of the parse is the rest of the input, and padding adds nothing. -/
theorem decodeBits_restBits (hpad : pad.length < tokenWidth b.windowBits b.lookaheadBits pad) {n : Nat}
    (hn : x.length - k ≤ n) (hk : k ≤ x.length) : decodeBits b (restBits b x k ++ pad) (x.take k) = x := by
  induction n generalizing k with
  | zero =>
    rw [restBits_end b (Nat.le_of_sub_eq_zero (Nat.le_zero.mp hn)), List.nil_append, decodeBits_short hpad,
      List.take_of_length_le (by omega)]
  | succ n ih =>
    rcases Nat.lt_or_eq_of_le hk with hlt | rfl
    · obtain ⟨m, hm, hmx, heq⟩ := decodeBits_restBits_next (b := b) hlt pad
      rw [heq]
      exact ih (by omega) hmx
    · exact ih (by omega) hk

/-! ## The padding (30_encoding.md R96) -/

/-- Eight bits are those of a byte. -/
theorem byteBits_bitsValue_take (h : 8 ≤ bits.length) : byteBits (BitVec.ofNat 8 (bitsValue (bits.take 8))) = bits.take 8 := by
  rw [byteBits, BitVec.toNat_ofNat, fieldBits_mod _ (Nat.le_refl 8), fieldBits_bitsValue_take h]

/-- The bytes that carry a stream carry it and less than a byte of padding. -/
theorem streamBits_packBits (bits : List Bool) : ∃ pad, pad.length < 8 ∧ streamBits (packBits bits) = bits ++ pad := by
  induction hn : bits.length using Nat.strong_induction_on generalizing bits with
  | h n ih =>
    by_cases h8 : bits.length < 8
    · by_cases h0 : bits = []
      · subst h0
        exact ⟨[], Nat.succ_pos 7, rfl⟩
      · have hpos := List.length_pos_iff.mpr h0
        refine ⟨fieldBits (8 - bits.length) (bitsValue bits * 2 ^ (8 - bits.length)), by rw [fieldBits_length]; omega, ?_⟩
        have hbyte : streamBits (packBits bits) = fieldBits 8 (bitsValue bits * 2 ^ (8 - bits.length)) := by
          rw [packBits_short bits h0 h8, streamBits, List.flatMap_singleton, byteBits, BitVec.toNat_ofNat,
            fieldBits_mod _ (Nat.le_refl 8)]
        have hsplit := fieldBits_add bits.length (8 - bits.length) (bitsValue bits * 2 ^ (8 - bits.length))
        rw [Nat.add_sub_cancel' (Nat.le_of_lt h8), Nat.shiftRight_eq_div_pow, Nat.mul_div_cancel _ (Nat.two_pow_pos _),
          fieldBits_bitsValue] at hsplit
        rw [hbyte, hsplit]
    · have hle := Nat.not_lt.mp h8
      obtain ⟨pad, hpad, hrest⟩ := ih (bits.drop 8).length (by rw [List.length_drop]; omega) _ rfl
      refine ⟨pad, hpad, ?_⟩
      conv_lhs => rw [← List.take_append_drop 8 bits, ← byteBits_bitsValue_take hle, packBits_byteBits_append]
      rw [streamBits, List.flatMap_cons, byteBits_bitsValue_take hle, ← streamBits, hrest, ← List.append_assoc,
        List.take_append_drop]

/-- In a legal build no token has less than a byte (00_scope.md R8). -/
theorem eight_le_tokenWidth (hl : b.legal = true) (bits : List Bool) : 8 ≤ tokenWidth b.windowBits b.lookaheadBits bits := by
  obtain ⟨hW, -, hL, -⟩ := Build.legal_bounds hl
  unfold tokenWidth
  split <;> omega

end

end Sys2Proof.Machine

namespace Sys2Proof.Proofs

open Sys2Proof.Machine

/-- Settles O57: token by token the decoding gives the part of the input that the parse took, and the padding is shorter than
any token. -/
theorem roundTrip : Obligations.RoundTrip := by
  intro b x hl
  obtain ⟨pad, hpad, hbits⟩ := streamBits_packBits (restBits b x 0)
  have hshort := Nat.lt_of_lt_of_le hpad (eight_le_tokenWidth hl pad)
  calc decompressed b (compressed b x)
    _ = decodeBits b (streamBits (packBits (restBits b x 0))) [] := rfl
    _ = decodeBits b (restBits b x 0 ++ pad) (x.take 0) := by rw [hbits]; rfl
    _ = x := decodeBits_restBits hshort (Nat.le_refl _) (Nat.zero_le _)

end Sys2Proof.Proofs
end

section
/-! SUPPORT. What a poll of the decoder leaves alone and where it returns (44_streaming_protocol.md R221, R224). -/

namespace Sys2Proof.Machine

section
variable {b : Build} {d₀ d d' : Dec} {k k' : OutSink}

/-! ## The stream in a move -/

/-- The bits that `get_bits` delivers are the next ones of the stream (40_bit_accumulator.md R131). -/
theorem getBits_reads (hok : stagingOk b d) {n v : Nat} (took : getBits b n d = .ok (some (v, d'))) :
    Reads b n d d' ∧ v = bitsValue ((unreadBits d).take n) := by
  have hn : n ≤ (unreadBits d).length := by rw [unreadBits_length]; exact (getBits_some took).1
  obtain ⟨d₁, hr⟩ := Reads.exists hok hn
  cases took.symm.trans hr.getBits
  exact ⟨hr, rfl⟩

theorem getBits_unreadBits (hok : stagingOk b d) {n v : Nat} (took : getBits b n d = .ok (some (v, d'))) :
    unreadBits d = fieldBits n v ++ unreadBits d' := by
  obtain ⟨hr, rfl⟩ := getBits_reads hok took
  rw [fieldBits_bitsValue_take hr.available, hr.rest, List.take_append_drop]

/-- Taking bits writes no register of the token and no memory (R131). -/
theorem getBits_keeps {n v : Nat} (took : getBits b n d = .ok (some (v, d'))) :
    d'.outputIndex = d.outputIndex ∧ d'.outputCount = d.outputCount ∧ d'.headIndex = d.headIndex ∧
      d'.window = d.window ∧ d'.staging = d.staging := by
  obtain ⟨c, i, size, index, rfl⟩ := getBits_frame took
  exact ⟨rfl, rfl, rfl, rfl, rfl⟩

/-- A copy under the invariant produces bytes as R196 says. -/
theorem DecInv.copied (hl : b.legal = true) (hi : DecInv b d) (hq : d.state = .yieldBackref) (k : OutSink) :
    ∃ new, Copied b d k new (Machine.copyBackref b d k).1 (Machine.copyBackref b d k).2 := by
  obtain ⟨h1, hN, hc, hcL⟩ := hi.copy_in_range hq
  exact copyBackref_copied k hq hi.window_wf h1 hN hc (Nat.le_trans hcL (Nat.le_of_lt (Build.lookahead_lt_window hl)))

/-- A move takes bits off the front of the stream and does not write the staging buffer (R129, R190). -/
theorem DecMove.takes (hl : b.legal = true) (hi : DecInv b d) (hm : DecMove b d k d' k') :
    (∃ taken, unreadBits d = taken ++ unreadBits d') ∧ d'.staging = d.staging := by
  cases hm with
  | starved | full => exact ⟨⟨[], rfl⟩, rfl⟩
  | literalTag _ took | backrefTag _ took | literal _ _ took | highPiece _ _ took | lowPiece _ took | length _ took =>
    obtain ⟨-, -, -, -, hstaging⟩ := getBits_keeps took
    have hU := getBits_unreadBits hi.data.staging_ok took
    exact ⟨⟨_, hU⟩, hstaging⟩
  | copy hq =>
    obtain ⟨new, -, -, -, w, -, -, -, hd⟩ := hi.copied hl hq k
    rw [hd]
    exact ⟨⟨[], rfl⟩, rfl⟩

/-! ## The output in a move -/

/-- From `d` and `k` to `d'` and `k'` the bytes `new` are emitted, the head advances by as many, and of the window only their
cells are written (20_memory.md R68). -/
structure Emits (b : Build) (d : Dec) (k : OutSink) (new : List Byte) (d' : Dec) (k' : OutSink) : Prop where
  out : k' = { k with out := k.out ++ new }
  head : d'.headIndex = d.headIndex + new.length
  window : ∀ a, (∀ j, j < new.length → a ≠ (d.headIndex + j) % b.window) → d'.window.read a = d.window.read a

theorem Emits.none (hw : d'.window = d.window) (hh : d'.headIndex = d.headIndex) : Emits b d k [] d' k where
  out := by rw [List.append_nil]
  head := hh
  window := fun _ _ => by rw [hw]

theorem DecMove.emits (hl : b.legal = true) (hi : DecInv b d) (hm : DecMove b d k d' k') : ∃ new, Emits b d k new d' k' := by
  cases hm with
  | starved | full => exact ⟨[], .none rfl rfl⟩
  | literalTag _ took | backrefTag _ took | highPiece _ _ took | lowPiece _ took | length _ took =>
    obtain ⟨-, -, hh, hw, -⟩ := getBits_keeps took
    exact ⟨[], .none hw hh⟩
  | @literal c d₁ _ _ took =>
    obtain ⟨-, -, hh, hw, -⟩ := getBits_keeps took
    refine ⟨[BitVec.ofNat 8 c], rfl, congrArg (· + 1) hh, fun a ha => ?_⟩
    have hne : a ≠ d.headIndex % b.window := ha 0 (Nat.succ_pos 0)
    dsimp only
    rw [produceByte_fst, hw, hh, Memory.read_write _ _ _ _ hi.window_wf, if_neg hne]
  | copy hq =>
    obtain ⟨new, -, -, hk, w, -, -, hkept, hd⟩ := hi.copied hl hq k
    rw [hd]
    exact ⟨new, hk, rfl, hkept⟩

/-! ## Where a move keeps its state -/

/-- The decoder lacks the bits that its state asks for: so it stands at reset and after a drain (40_bit_accumulator.md R132). -/
def starving (b : Build) (d : Dec) : Prop :=
  bitsAvailable d < wantedBits b d.state

/-- A copy that does not end the backreference fills the output (R196). -/
theorem copyBackref_kept (hi : DecInv b d) (hq : d.state = .yieldBackref) (hle : k.produced ≤ k.cap)
    (hkept : (copyBackref b d k).1.state = d.state) : (copyBackref b d k).2.produced = (copyBackref b d k).2.cap := by
  obtain ⟨-, -, hc, -⟩ := hi.copy_in_range hq
  obtain ⟨w, hw⟩ := copyBytes_frame b (copyCount d k) d k
  obtain ⟨bytes, hlen, hout⟩ := copyBytes_out b (copyCount d k) d k
  rw [copyBackref_eq hc (Prod.ext_iff.mpr ⟨hw, hout⟩)] at hkept ⊢
  dsimp only at hkept ⊢
  split at hkept
  · rw [hq] at hkept; cases hkept
  · next hleft =>
    simp only [OutSink.produced, List.length_append, hlen, copyCount] at hleft hle ⊢
    omega

/-- A move that keeps its state leaves the output full, or it lacks bits and has no effect (R202). -/
theorem DecMove.kept (hi : DecInv b d) (hle : k.produced ≤ k.cap) (hm : DecMove b d k d' k') (hkept : d'.state = d.state) :
    k'.produced = k'.cap ∨ (d' = d ∧ starving b d) := by
  cases hm with
  | starved short => exact .inr ⟨rfl, short⟩
  | full _ no_room => exact .inl (Nat.le_antisymm hle no_room)
  | copy hq => exact .inl (copyBackref_kept hi hq hle hkept)
  | backrefTag hq => rw [hq] at hkept; dsimp only at hkept; split at hkept <;> cases hkept
  | literalTag hq | literal hq | highPiece hq | lowPiece hq | length hq => rw [hq] at hkept; cases hkept

/-- No micro-step wants more than a byte, so that one that lacks bits has nothing staged (40_bit_accumulator.md R132). -/
theorem DecInv.nothing_staged (hl : b.legal = true) (hi : DecInv b d) (h : starving b d) :
    d.inputSize = 0 := by
  obtain ⟨-, hW, -, hL, -⟩ := Build.legal_bounds hl
  have hwanted : wantedBits b d.state ≤ 8 := by
    cases d.state <;> simp only [wantedBits] <;> omega
  have hindex := hi.index_lt_size
  unfold starving bitsAvailable at h
  omega

/-! ## The poll as a whole -/

/-- A poll returns after a move, out of a state that has what every move keeps. -/
theorem decPollLoop_last {P : Dec → OutSink → Prop} (hstep : ∀ d k d' k', P d k → DecMove b d k d' k' → P d' k')
    {fuel : Nat} {status : Status} (h : P d k) (hr : decPollLoop b fuel d k = .ok (d', k', status)) :
    ∃ d₁ k₁, P d₁ k₁ ∧ DecMove b d₁ k₁ d' k' ∧ decPollStatus d₁.state d'.state k' = some status := by
  induction fuel generalizing d k with
  | zero => cases hr
  | succ fuel ih =>
    obtain ⟨fuel', d₁, k₁, hfuel, hok, hrest⟩ := decPollLoop_ok hr
    cases hfuel
    have hm := decStep_moves hok
    rcases hrest with ⟨st, hs, hlast⟩ | ⟨-, hloop⟩
    · cases hlast
      exact ⟨d, k, h, hm, hs⟩
    · exact ih (hstep d k d₁ k₁ h hm) hloop

theorem decPollStatus_some {before after : DecState} {status : Status} (h : decPollStatus before after k = some status) :
    after = before ∧ status = if k.isFull then .more else .empty := by
  unfold decPollStatus at h
  split at h
  · next hkept => exact ⟨hkept, (Option.some.inj h).symm⟩
  · cases h

/-- What every move of a poll keeps, in one that began in `d₀` with the capacity `cap`. -/
structure DecPolling (b : Build) (d₀ : Dec) (cap : Nat) (d : Dec) (k : OutSink) : Prop where
  inv : DecInv b d
  cap_eq : k.cap = cap
  sink : sinkInv k
  stream : ∃ taken, unreadBits d₀ = taken ++ unreadBits d
  staging_eq : d.staging = d₀.staging
  emits : Emits b d₀ (.start cap) k.out d k

theorem DecPolling.start (hi : DecInv b d) {cap : Nat} (hc : 0 < cap) : DecPolling b d cap d (.start cap) :=
  ⟨hi, rfl, ⟨hc, Nat.zero_le _⟩, ⟨[], rfl⟩, rfl, .none rfl rfl⟩

theorem Emits.trans {d'' : Dec} {k'' : OutSink} {new later : List Byte} (h : Emits b d k new d' k')
    (h' : Emits b d' k' later d'' k'') : Emits b d k (new ++ later) d'' k'' where
  out := by rw [h'.out, h.out, List.append_assoc]
  head := by rw [h'.head, h.head, List.length_append, Nat.add_assoc]
  window := fun a ha => by
    have hlen : (new ++ later).length = new.length + later.length := List.length_append
    rw [h'.window a fun j hj => by rw [h.head, Nat.add_assoc]; exact ha _ (by omega),
      h.window a fun j hj => ha j (by omega)]

theorem DecMove.keeps_polling {cap : Nat} (hl : b.legal = true) (h : DecPolling b d₀ cap d k) (hm : DecMove b d k d' k') :
    DecPolling b d₀ cap d' k' := by
  obtain ⟨⟨taken', htaken'⟩, hstaging⟩ := hm.takes hl h.inv
  obtain ⟨taken, htaken⟩ := h.stream
  obtain ⟨new, hnew⟩ := hm.emits hl h.inv
  have hout : k'.out = k.out ++ new := by rw [hnew.out]
  exact ⟨hm.keeps_inv h.inv, by rw [hnew.out, ← h.cap_eq], hm.keeps_sinkInv h.sink,
    ⟨taken ++ taken', by rw [htaken, htaken', List.append_assoc]⟩, hstaging.trans h.staging_eq, hout ▸ h.emits.trans hnew⟩

/-- `DEC.POLL` with room is its loop (R221). -/
theorem decPoll_ok {cap : Nat} (hc : 0 < cap) {status : Status} {out : List Byte} :
    decPoll b cap d = .ok (d', .polled status out) ↔
      ∃ k, decPollLoop b (decPollBound d) d (.start cap) = .ok (d', k, status) ∧ k.out = out := by
  rw [decPoll, if_neg (Nat.ne_of_gt hc)]
  cases decPollLoop b (decPollBound d) d (.start cap) with
  | error f => simp
  | ok r =>
    obtain ⟨d₁, k, st⟩ := r
    simp only [Except.ok.injEq, Prod.mk.injEq, Reply.polled.injEq]
    constructor
    · rintro ⟨rfl, rfl, rfl⟩; exact ⟨k, ⟨rfl, rfl, rfl⟩, rfl⟩
    · rintro ⟨k', ⟨rfl, rfl, rfl⟩, rfl⟩; exact ⟨rfl, rfl, rfl⟩

/-- A poll with room returns (R202). -/
theorem decPoll_returns (hl : b.legal = true) (hi : DecInv b d) {cap : Nat} (hc : 0 < cap) :
    ∃ d' status out, decPoll b cap d = .ok (d', .polled status out) := by
  obtain ⟨⟨d', k, status⟩, hr⟩ := decPollLoop_returns hl hi (k := .start cap) (decMovesLeft_lt_bound d)
  exact ⟨d', status, k.out, (decPoll_ok hc).mpr ⟨k, hr, rfl⟩⟩

/-- Where a poll returns: it lacks bits, with room to spare, or the output is full (R221, R243). -/
def DecReturned (b : Build) (cap : Nat) (d : Dec) (status : Status) (out : List Byte) : Prop :=
  (status = .empty ∧ out.length < cap ∧ starving b d) ∨ (status = .more ∧ out.length = cap)

/-- A poll with room keeps what its moves keep, and returns where its last move keeps its state. -/
theorem decPoll_polling (hl : b.legal = true) (hi : DecInv b d) {cap : Nat} (hc : 0 < cap) {status : Status}
    {out : List Byte} (hp : decPoll b cap d = .ok (d', .polled status out)) :
    DecPolling b d cap d' { cap := cap, out := out } ∧ DecReturned b cap d' status out := by
  obtain ⟨k, hloop, rfl⟩ := (decPoll_ok hc).mp hp
  have hstep := fun d₁ k₁ d₂ k₂ (h : DecPolling b d cap d₁ k₁) (hm : DecMove b d₁ k₁ d₂ k₂) => hm.keeps_polling hl h
  have hend := decPollLoop_keeps hstep (.start hi hc) hloop
  obtain ⟨d₁, k₁, h₁, hlast, hreturn⟩ := decPollLoop_last hstep (.start hi hc) hloop
  obtain ⟨hkept, rfl⟩ := decPollStatus_some hreturn
  have hk : { cap := cap, out := k.out } = k := by rw [← hend.cap_eq]
  refine ⟨hk ▸ hend, ?_⟩
  by_cases hfull : k.produced = k.cap
  · exact .inr ⟨if_pos (k.isFull_iff.mpr hfull), hfull.trans hend.cap_eq⟩
  · obtain ⟨rfl, hshort⟩ := (hlast.kept h₁.inv h₁.sink.2 hkept).resolve_left hfull
    exact .inl ⟨if_neg fun h => hfull (k.isFull_iff.mp h),
      Nat.lt_of_le_of_ne (hend.cap_eq ▸ hend.sink.2) (hend.cap_eq ▸ hfull), hshort⟩

end

end Sys2Proof.Machine

namespace Sys2Proof.Proofs

open Sys2Proof.Machine

/-- Settles O45: a poll returns within its bound, each of its moves keeps what it leaves alone, and its last move says why it
returned. -/
theorem decPollResult : Obligations.DecPollResult := by
  intro s cap hk hl hi
  refine ⟨fun h0 => ?_, fun hc => ?_⟩
  · rw [exec_decPoll, decPoll, if_pos h0]
    exact decCommand_next.mpr ⟨hk, _, _, rfl, by rw [State.decReturn, hk]⟩
  · obtain ⟨d', status, out, hp⟩ := decPoll_returns hl hi hc
    obtain ⟨hend, hreturned⟩ := decPoll_polling hl hi hc hp
    obtain ⟨taken, htaken⟩ := hend.stream
    refine ⟨d', status, out, taken, ?_, ?_, htaken, hend.staging_eq, hend.emits.head, hend.emits.window⟩
    · rw [exec_decPoll, hp]
      exact decCommand_next.mpr ⟨hk, _, _, rfl, by rw [State.decReturn, hk]⟩
    · exact hreturned.imp_left fun ⟨hempty, hroom, hshort⟩ =>
        ⟨hempty, hroom, hend.inv.nothing_staged hl hshort, hshort⟩

end Sys2Proof.Proofs
end

section
/-! SUPPORT. A complete decode (44_streaming_protocol.md R230 to R232): every move of the decoder and every command of the host
keeps the whole output that the bytes produced so far and the stream still to come stand for (43_decoder_fsm.md R200). -/

namespace Sys2Proof.Machine

section
variable {b : Build} {d d' : Dec} {k k' : OutSink} {y y' out z : List Byte} {rest : List Bool}

/-! ## What the decoder is going to deliver -/

/-- The bits that the decoder has taken of the token under way: its tag bit, and what is read of the distance field. -/
def heldBits (b : Build) (d : Dec) : List Bool :=
  match d.state with
  | .tagBit | .yieldBackref => []
  | .yieldLiteral => [true]
  | .backrefIndexMsb => [false]
  | .backrefIndexLsb => false :: fieldBits (highIndexBits b) (d.outputIndex >>> lowIndexBits b)
  | .backrefCountLsb => false :: fieldBits b.windowBits (fieldOfOperand d.outputIndex)

/-- The whole output, once the bytes `y` have been produced and the bits `rest` follow those that the decoder holds: the copy
under way is ended, and the rest of the stream is decoded. -/
def promised (b : Build) (d : Dec) (y : List Byte) (rest : List Bool) : List Byte :=
  decodeBits b (heldBits b d ++ (unreadBits d ++ rest)) (appendCopies d.outputIndex d.outputCount y)

theorem heldBits_of_boundary (h : d.state = .tagBit ∨ d.state = .yieldBackref) : heldBits b d = [] := by
  unfold heldBits
  rcases h with h | h <;> rw [h]

/-- Outside a copy no copy is to be ended. -/
theorem promised_of_no_count (h : d.outputCount = 0) (y : List Byte) (rest : List Bool) :
    promised b d y rest = decodeBits b (heldBits b d ++ (unreadBits d ++ rest)) y := by
  rw [promised, h]
  rfl

theorem highIndexBits_add_lowIndexBits (b : Build) : highIndexBits b + lowIndexBits b = b.windowBits := by
  unfold highIndexBits lowIndexBits
  omega

/-! ## The copy (R196, R200) -/

theorem appendCopies_add (distance m n : Nat) (y : List Byte) :
    appendCopies distance (m + n) y = appendCopies distance n (appendCopies distance m y) := by
  induction m generalizing y with
  | zero => rw [Nat.zero_add]; rfl
  | succ m ih => rw [Nat.succ_add, appendCopies, appendCopies, ih]

/-- The window holds the byte that a copy of R200 appends next. -/
theorem windowDescribes.copySource_eq (h : windowDescribes b y d) (h1 : 1 ≤ d.outputIndex) (hN : d.outputIndex ≤ b.window) :
    copySource b d = if y.length < d.outputIndex then 0 else y.getD (y.length - d.outputIndex) 0 := by
  obtain ⟨hhead, hlast, -⟩ := h
  rw [copySource, hhead]
  split
  · rfl
  · exact hlast _ (by omega) fun j hj hjy => (mod_window_ne hj (by omega)).symm

/-- Copying `n` bytes of the window appends to the bytes produced as R200 says. -/
theorem copyBytes_appends (n : Nat) (hw : d.window.wf = true) (h : windowDescribes b (y ++ k.out) d) (h1 : 1 ≤ d.outputIndex)
    (hN : d.outputIndex ≤ b.window) : y ++ (copyBytes b n d k).2.out = appendCopies d.outputIndex n (y ++ k.out) := by
  induction n generalizing d k with
  | zero => rfl
  | succ n ih =>
    have hnext := windowDescribes_produceByte (k := k) (copySource b d) hw h
    rw [appendCopies, ← h.copySource_eq h1 hN, List.append_assoc]
    rw [List.append_assoc] at hnext
    exact ih (d := { (produceByte b (copySource b d) d k).1 with outputCount := d.outputCount - 1 })
      (Memory.wf_write _ _ _ hw) hnext h1 hN

/-- A copy that is interrupted goes on where it was. -/
theorem copyBackref_promised (hi : DecInv b d) (hq : d.state = .yieldBackref) (h : windowDescribes b (y ++ k.out) d) :
    promised b (copyBackref b d k).1 (y ++ (copyBackref b d k).2.out) rest = promised b d (y ++ k.out) rest := by
  obtain ⟨h1, hN, hc, -⟩ := hi.copy_in_range hq
  obtain ⟨w, hw⟩ := copyBytes_frame b (copyCount d k) d k
  have hout := copyBytes_appends (copyCount d k) hi.window_wf h h1 hN
  have hcount : copyCount d k + (d.outputCount - copyCount d k) = d.outputCount := Nat.add_sub_cancel' (Nat.min_le_left _ _)
  rw [copyBackref_eq hc rfl, hw]
  dsimp only
  rw [hout, promised, promised, heldBits_of_boundary (.inr hq), heldBits_of_boundary (by dsimp only; split <;> simp [hq]),
    ← appendCopies_add, hcount]
  rfl

/-! ## The moves -/

/-- Bits that are taken and held change nothing. -/
theorem promised_held (hok : stagingOk b d) {n v : Nat} {d₁ : Dec} (took : getBits b n d = .ok (some (v, d₁)))
    (h0 : d.outputCount = 0) (h0' : d'.outputCount = 0) (hU : unreadBits d' = unreadBits d₁)
    (hheld : heldBits b d' = heldBits b d ++ fieldBits n v) : promised b d' y rest = promised b d y rest := by
  rw [promised_of_no_count h0, promised_of_no_count h0', hU, hheld, getBits_unreadBits hok took]
  simp only [List.append_assoc]

/-- The byte of a literal is taken and produced (R192). -/
theorem promised_literal (hok : stagingOk b d) {c : Nat} {d₁ : Dec} (took : getBits b 8 d = .ok (some (c, d₁)))
    (h0 : d.outputCount = 0) (hq : d.state = .yieldLiteral) (h0' : d'.outputCount = 0) (hq' : d'.state = .tagBit)
    (hU : unreadBits d' = unreadBits d₁) (hy : y' = y ++ [BitVec.ofNat 8 c]) :
    promised b d' y' rest = promised b d y rest := by
  have hheld : heldBits b d = [true] := by rw [heldBits, hq]
  rw [promised_of_no_count h0, promised_of_no_count h0', hU, heldBits_of_boundary (.inl hq'), hheld,
    getBits_unreadBits hok took, List.append_assoc, List.singleton_append,
    decodeBits_literal (takeField_fieldBits_of_lt (getBits_lt took)), hy]
  rfl

/-- The length is taken, and the copy is to be made (R195, R196). -/
theorem promised_length (hi : DecInv b d) {v : Nat} {d₁ : Dec} (took : getBits b b.lookaheadBits d = .ok (some (v, d₁)))
    (hq : d.state = .backrefCountLsb) (hq' : d'.state = .yieldBackref) (hindex : d'.outputIndex = d.outputIndex)
    (hcount : d'.outputCount = operandOfField v) (hU : unreadBits d' = unreadBits d₁) :
    promised b d' y rest = promised b d y rest := by
  obtain ⟨h1, hN⟩ := hi.distance_in_range hq
  have hheld : heldBits b d = false :: fieldBits b.windowBits (fieldOfOperand d.outputIndex) := by rw [heldBits, hq]
  have hback : operandOfField (fieldOfOperand d.outputIndex) = d.outputIndex := Nat.sub_add_cancel h1
  have hdistance : fieldOfOperand d.outputIndex < 2 ^ b.windowBits := Nat.sub_one_lt_of_le h1 hN
  rw [promised_of_no_count (hi.no_count hq nofun), promised, hU, hindex, hcount, heldBits_of_boundary (.inr hq'), hheld,
    getBits_unreadBits hi.data.staging_ok took, List.append_assoc, List.cons_append,
    decodeBits_backref (takeField_fieldBits_of_lt hdistance) (takeField_fieldBits_of_lt (getBits_lt took)),
    hback]
  rfl

/-- Every move keeps what is promised: the bits that it takes are held, or made into bytes. -/
theorem DecMove.keeps_promised (hi : DecInv b d) (h : windowDescribes b (y ++ k.out) d) (hm : DecMove b d k d' k') :
    promised b d' (y ++ k'.out) rest = promised b d (y ++ k.out) rest := by
  have hok := hi.data.staging_ok
  cases hm with
  | starved | full => rfl
  | @literalTag bit d₁ hq took one =>
    have h0 := hi.no_count hq nofun
    obtain rfl : bit = 1 := by have := getBits_lt took; omega
    exact promised_held hok took h0 ((getBits_keeps took).2.1.trans h0) rfl (by rw [heldBits, heldBits, hq]; rfl)
  | @backrefTag d₁ hq took =>
    have h0 := hi.no_count hq nofun
    refine promised_held hok took h0 ((getBits_keeps took).2.1.trans h0) rfl ?_
    rw [heldBits_of_boundary (.inl hq)]
    by_cases wide : 8 < b.windowBits
    · rw [heldBits, if_pos wide]; rfl
    · have hnone : highIndexBits b = 0 := Nat.sub_eq_zero_of_le (Nat.le_of_not_lt wide)
      rw [heldBits, if_neg wide]
      dsimp only
      rw [hnone]; rfl
  | @highPiece v d₁ hq wide took =>
    have h0 := hi.no_count hq nofun
    refine promised_held hok took h0 ((getBits_keeps took).2.1.trans h0) rfl ?_
    have hlow : lowIndexBits b = 8 := Nat.min_eq_right (Nat.le_of_lt wide)
    rw [heldBits, heldBits, hq]
    dsimp only
    rw [hlow, Nat.shiftLeft_shiftRight]
    rfl
  | @lowPiece v d₁ hq took =>
    refine promised_held hok took (hi.no_count hq nofun) rfl rfl ?_
    rw [heldBits, heldBits, hq]
    dsimp only
    rw [fieldOfOperand, operandOfField, Nat.add_sub_cancel, ← highIndexBits_add_lowIndexBits,
      fieldBits_or (hi.high_field hq).2 (getBits_lt took)]
    rfl
  | literal hq room took =>
    have h0 := hi.no_count hq nofun
    exact promised_literal hok took h0 hq ((getBits_keeps took).2.1.trans h0) rfl rfl (List.append_assoc _ _ _).symm
  | length hq took => exact promised_length hi took hq rfl (getBits_keeps took).1 rfl rfl
  | copy hq => exact copyBackref_promised hi hq h

/-! ## DEC.POLL and DEC.DRAIN (R221, R230) -/

/-- The decoder has produced the bytes `y`. -/
structure Decoding (b : Build) (d : Dec) (y : List Byte) : Prop where
  inv : DecInv b d
  window : windowDescribes b y d

/-- Inside a poll the bytes delivered so far keep the promise. -/
theorem DecMove.keeps_decoding (h : Decoding b d (y ++ k.out)) (hm : DecMove b d k d' k') :
    Decoding b d' (y ++ k'.out) ∧ promised b d' (y ++ k'.out) rest = promised b d (y ++ k.out) rest := by
  obtain ⟨new, hnew⟩ := hm.produced
  have hwindow := hnew.describes h.inv.window_wf _ h.window
  rw [List.append_assoc] at hwindow
  refine ⟨⟨hm.keeps_inv h.inv, ?_⟩, hm.keeps_promised h.inv h.window⟩
  rw [hnew.emitted]
  exact hwindow

/-- A poll delivers bytes that keep the promise. -/
theorem decPoll_keeps_promised (h : Decoding b d y) {cap : Nat} {status : Status}
    (hp : decPoll b cap d = .ok (d', .polled status out)) :
    Decoding b d' (y ++ out) ∧ promised b d' (y ++ out) rest = promised b d y rest := by
  have hstart : Decoding b d (y ++ (OutSink.start cap).out) ∧
      promised b d (y ++ (OutSink.start cap).out) rest = promised b d y rest := by
    rw [OutSink.start_out, List.append_nil]
    exact ⟨h, rfl⟩
  obtain ⟨k, st, hend, hr⟩ := decPoll_keeps
    (P := fun d₁ k₁ => Decoding b d₁ (y ++ k₁.out) ∧ promised b d₁ (y ++ k₁.out) rest = promised b d y rest)
    (fun _ _ _ _ h₁ hm => (hm.keeps_decoding h₁.1).imp_right fun heq => heq.trans h₁.2) hstart hp
  cases hr
  exact hend

/-- A drain keeps the promise and takes all that it can. -/
theorem decDrain_keeps (hl : b.legal = true) (hd : DecDrain b d out d') :
    ∀ {y : List Byte}, Decoding b d y →
      Decoding b d' (y ++ out) ∧ promised b d' (y ++ out) rest = promised b d y rest ∧ starving b d' := by
  induction hd with
  | last cap room poll =>
    intro y h
    obtain ⟨hend, hpromised⟩ := decPoll_keeps_promised (rest := rest) h poll
    obtain ⟨-, ⟨-, -, hshort⟩ | ⟨hmore, -⟩⟩ := decPoll_polling hl h.inv room poll
    · exact ⟨hend, hpromised, hshort⟩
    · cases hmore
  | more cap room poll _ ih =>
    intro y h
    obtain ⟨hend₁, hpromised₁⟩ := decPoll_keeps_promised (rest := rest) h poll
    obtain ⟨hend, hpromised, hshort⟩ := ih hend₁
    rw [List.append_assoc] at hend hpromised
    exact ⟨hend, hpromised.trans hpromised₁, hshort⟩

theorem length_le_appendCopies (distance n : Nat) (y : List Byte) : y.length ≤ (appendCopies distance n y).length := by
  induction n generalizing y with
  | zero => exact Nat.le_refl _
  | succ n ih => exact Nat.le_trans (by simp) (ih _)

theorem length_le_decodeFrom (b : Build) (fuel : Nat) (bits : List Bool) (y : List Byte) :
    y.length ≤ (decodeFrom b fuel bits y).length := by
  induction fuel generalizing bits y with
  | zero => exact Nat.le_refl _
  | succ fuel ih =>
    match bits with
    | [] => exact Nat.le_refl _
    | true :: rest =>
      rw [decodeFrom]
      split
      · exact Nat.le_refl _
      · exact Nat.le_trans (by simp) (ih _ _)
    | false :: rest =>
      rw [decodeFrom]
      split
      · exact Nat.le_refl _
      · split
        · exact Nat.le_refl _
        · exact Nat.le_trans (length_le_appendCopies _ _ _) (ih _ _)

/-- The bytes produced are a part of the whole output. -/
theorem length_le_promised (b : Build) (d : Dec) (y : List Byte) (rest : List Bool) :
    y.length ≤ (promised b d y rest).length :=
  Nat.le_trans (length_le_appendCopies _ _ _) (length_le_decodeFrom _ _ _ _)

/-- A drain is always possible: one poll with more room than the whole output. -/
theorem decDrain_exists (hl : b.legal = true) (h : Decoding b d y) : ∃ out d', DecDrain b d out d' := by
  have hroom := Nat.succ_pos (promised b d y []).length
  obtain ⟨d', status, out, hp⟩ := decPoll_returns hl h.inv hroom
  obtain ⟨-, ⟨rfl, -⟩ | ⟨-, hfull⟩⟩ := decPoll_polling hl h.inv hroom hp
  · exact ⟨out, d', .last _ hroom hp⟩
  · obtain ⟨-, hpromised⟩ := decPoll_keeps_promised (rest := []) h hp
    have hle := length_le_promised b d' (y ++ out) []
    rw [hpromised, List.length_append] at hle
    omega

/-! ## DEC.SINK (R220) -/

/-- Bytes that are staged follow those that are there already (20_memory.md R71). -/
theorem stagedBytes_append (hw : d.staging.wf = true) (hle : d.inputIndex ≤ d.inputSize) (bytes : List Byte) :
    stagedBytes { d with staging := d.staging.append d.inputSize bytes, inputSize := d.inputSize + bytes.length } =
      stagedBytes d ++ bytes := by
  have hn : d.inputSize + bytes.length - d.inputIndex = (d.inputSize - d.inputIndex) + bytes.length := by omega
  simp only [stagedBytes, hn, List.range_add, List.map_append, List.map_map]
  congr 1
  · refine List.map_congr_left fun i hi => ?_
    have hi' := List.mem_range.mp hi
    rw [Memory.read_append _ _ _ _ hw, if_neg (by omega)]
  · refine List.ext_getElem (by simp) fun i h₁ h₂ => ?_
    have hi : d.inputIndex + (d.inputSize - d.inputIndex + i) = d.inputSize + i := by omega
    simp only [List.getElem_map, List.getElem_range, Function.comp, hi]
    rw [Memory.read_append _ _ _ _ hw, if_pos (by omega), Nat.add_sub_cancel_left, List.getD_eq_getElem _ _ h₂]

/-- A sink answers `Ok` only where there is room, and then it takes what fits. -/
theorem decSink_ok {input : List Byte} {n : Nat} (h : decSink b input d = (d', .sunk .ok n)) :
    n ≤ input.length ∧ d' = { d with
      staging := d.staging.append d.inputSize (input.take n), inputSize := d.inputSize + (input.take n).length } := by
  by_cases hroom : d.inputSize < b.stagingSize
  · rw [decSink_accepts input hroom] at h
    cases h
    exact ⟨Nat.min_le_right _ _, by rw [List.length_take_of_le (Nat.min_le_right _ _)]⟩
  · rw [decSink_full input (Nat.not_lt.mp hroom)] at h
    cases h

/-- A sink moves bytes of the stream into the staging buffer, and what is promised stays. -/
theorem decSink_keeps_promised (h : Decoding b d y) {m n : Nat} (hs : decSink b (z.take m) d = (d', .sunk .ok n)) :
    Decoding b d' y ∧ promised b d' y (streamBits (z.drop n)) = promised b d y (streamBits z) := by
  have hinv : DecInv b d' := by simpa only [hs] using h.inv.sink (z.take m)
  obtain ⟨hn, rfl⟩ := decSink_ok hs
  have htake : (z.take m).take n = z.take n := by
    rw [List.take_take, Nat.min_eq_left (Nat.le_trans hn (List.length_take_le _ _))]
  have hle : d.inputIndex ≤ d.inputSize := by have := h.inv.index_lt_size; omega
  refine ⟨⟨hinv, (windowDescribes_congr rfl rfl).mpr h.window⟩, ?_⟩
  rw [promised, unreadBits, stagedBytes_append h.inv.staging_wf hle, htake, streamBits_append, List.append_assoc,
    List.append_assoc, ← streamBits_append, List.take_append_drop, ← List.append_assoc (fieldBits _ _)]
  rfl

/-! ## From reset to the end -/

/-- Where the stream ends the decoder has delivered all that was promised. -/
theorem promised_at_end (hl : b.legal = true) (hi : DecInv b d) (hs : starving b d) : promised b d y [] = y := by
  obtain ⟨hW, -, hL, -⟩ := Build.legal_bounds hl
  have hne : d.state ≠ .yieldBackref := fun hq => by simp [starving, hq, wantedBits] at hs
  rw [promised_of_no_count (hi.no_copy_no_count hne), List.append_nil]
  refine decodeBits_short ?_
  have hadd := highIndexBits_add_lowIndexBits b
  have hlen := unreadBits_length d
  unfold starving at hs
  unfold heldBits
  cases hq : d.state <;> simp only [hq, wantedBits] at hs
  case tagBit =>
    have hnil : unreadBits d = [] := List.length_eq_zero_iff.mp (by omega)
    rw [hnil]
    exact Nat.lt_of_lt_of_le (Nat.succ_pos 7) (eight_le_tokenWidth hl _)
  case yieldLiteral =>
    rw [List.singleton_append, tokenWidth_literal, List.length_cons]
    omega
  case yieldBackref => exact absurd hq hne
  all_goals
    simp only [List.cons_append, List.nil_append, tokenWidth_bref, List.length_cons, List.length_append, fieldBits_length]
    unfold highIndexBits lowIndexBits at *
    omega

/-- The sink loop delivers exactly what was promised. -/
theorem decFeed_delivers (hl : b.legal = true) (hd : DecFeed b d z out d') :
    ∀ {y : List Byte}, Decoding b d y → starving b d → y ++ out = promised b d y (streamBits z) := by
  induction hd with
  | done d =>
    intro y h hs
    rw [List.append_nil, streamBits_nil, promised_at_end hl h.inv hs]
  | sink m n accepted drain _ ih =>
    intro y h _
    obtain ⟨h₁, hpromised₁⟩ := decSink_keeps_promised h accepted
    obtain ⟨h₂, hpromised₂, hs₂⟩ := decDrain_keeps hl drain h₁
    rw [← List.append_assoc, ih h₂ hs₂, hpromised₂, hpromised₁]

/-- The sink loop can always go on to its end, each time with all that is left. -/
theorem decFeed_exists (hl : b.legal = true) (left : Nat) :
    ∀ {d : Dec} {y z : List Byte}, Decoding b d y → starving b d → z.length ≤ left → ∃ out d', DecFeed b d z out d' := by
  induction left with
  | zero =>
    intro d y z _ _ hleft
    rw [List.length_eq_zero_iff.mp (Nat.le_zero.mp hleft)]
    exact ⟨[], d, .done d⟩
  | succ left ih =>
    intro d y z h hs hleft
    by_cases hz : z = []
    · subst hz
      exact ⟨[], d, .done d⟩
    · obtain ⟨-, -, -, -, -, hS⟩ := Build.legal_bounds hl
      have hempty := h.inv.nothing_staged hl hs
      have hpos := List.length_pos_iff.mpr hz
      obtain ⟨n, d₁, hn, haccepts⟩ : ∃ n d₁, 0 < n ∧ decSink b (z.take z.length) d = (d₁, .sunk .ok n) := by
        refine ⟨_, _, ?_, decSink_accepts (z.take z.length) (by omega)⟩
        rw [List.take_length, decRoom, hempty]
        omega
      obtain ⟨h₁, -⟩ := decSink_keeps_promised h haccepts
      obtain ⟨out₂, d₂, hdrain⟩ := decDrain_exists hl h₁
      obtain ⟨h₂, -, hs₂⟩ := decDrain_keeps (rest := []) hl hdrain h₁
      obtain ⟨later, d', hfeed⟩ := ih (z := z.drop n) h₂ hs₂ (by rw [List.length_drop]; omega)
      exact ⟨out₂ ++ later, d', .sink _ _ haccepts hdrain hfeed⟩

theorem Decoding.reset (b : Build) : Decoding b .reset [] :=
  ⟨.reset b, windowDescribes_reset b⟩

theorem starving_reset (b : Build) : starving b .reset := Nat.one_pos

theorem promised_reset (b : Build) (z : List Byte) : promised b .reset [] (streamBits z) = decompressed b z := rfl

/-- A complete decode delivers the decoding of the stream. -/
theorem decodes_decompressed (hl : b.legal = true) (h : Decodes b z y) : y = decompressed b z := by
  obtain ⟨d, hfeed⟩ := h
  rw [← promised_reset]
  exact decFeed_delivers hl hfeed (.reset b) (starving_reset b)

end

end Sys2Proof.Machine

namespace Sys2Proof.Proofs

open Sys2Proof.Machine

/-- Settles O58: what is promised is kept by every move of the decoder and every command of the host, from the decoding of the
whole stream at reset to what has been delivered at the end; and a complete decode exists, since every poll returns. -/
theorem decoderComputesDecompressed : Obligations.DecoderComputesDecompressed := by
  intro b z y hl
  refine ⟨decodes_decompressed hl, ?_⟩
  rintro rfl
  obtain ⟨out, d, hfeed⟩ := decFeed_exists hl z.length (.reset b) (starving_reset b) (Nat.le_refl _)
  exact decodes_decompressed hl ⟨d, hfeed⟩ ▸ ⟨d, hfeed⟩

end Sys2Proof.Proofs
end

section
/-! SUPPORT. The transitions of the decoder branch by branch, in any state (43_decoder_fsm.md R191 to R196): what each branch
writes, and what a micro-step does as an instruction. -/

namespace Sys2Proof.Machine

section
variable {b : Build} {d d' : Dec} {k : OutSink} {v : Nat}

/-! ## A micro-step that waits -/

/-- Without the bits that it wants a micro-step does nothing (40_bit_accumulator.md R132). -/
theorem decStep_starved {q : DecState} (hq : d.state = q) (h : bitsAvailable d < wantedBits b q) :
    decStep b d k = .ok (d, k) := by
  cases q with
  | tagBit =>
    have hnone : getBits b 1 d = .ok none := if_pos h
    simp only [decStep, hq, tagBitStep, hnone]
  | yieldLiteral =>
    have hnone : getBits b 8 d = .ok none := if_pos h
    simp only [decStep, hq, decLiteralStep, hnone, ite_self]
  | backrefIndexMsb =>
    have hshort : bitsAvailable d < b.windowBits - 8 := h
    have hnone : getBits b (highIndexBits b) d = .ok none := if_pos hshort
    simp only [decStep, hq, backrefIndexMsbStep, if_pos (show 8 < b.windowBits by omega), hnone]
  | backrefIndexLsb =>
    have hnone : getBits b (lowIndexBits b) d = .ok none := if_pos h
    simp only [decStep, hq, backrefIndexLsbStep, hnone]
  | backrefCountLsb =>
    have hnone : getBits b b.lookaheadBits d = .ok none := if_pos h
    simp only [decStep, hq, backrefCountLsbStep, hnone]
  | yieldBackref => exact absurd h (Nat.not_lt_zero _)

/-- Without room a literal and a copy wait (R192, R196). -/
theorem decStep_full (h : k.cap ≤ k.produced) (hq : d.state = .yieldLiteral ∨ d.state = .yieldBackref) :
    decStep b d k = .ok (d, k) := by
  rcases hq with hq | hq
  · simp only [decStep, hq, decLiteralStep, canTakeByte_full h]
    rfl
  · have hnone : copyCount d k = 0 := by unfold copyCount; omega
    simp only [decStep, hq, yieldBackrefStep, copyBackref, if_pos hnone]

/-! ## A micro-step that takes bits -/

theorem decStep_tagBit (hq : d.state = .tagBit) (took : getBits b 1 d = .ok (some (v, d'))) :
    decStep b d k = .ok (if v = 0
      then { d' with outputIndex := 0, state := if 8 < b.windowBits then .backrefIndexMsb else .backrefIndexLsb }
      else { d' with state := .yieldLiteral }, k) := by
  simp only [decStep, hq, tagBitStep, took]
  split <;> rfl

theorem decStep_yieldLiteral (hq : d.state = .yieldLiteral) (room : k.produced < k.cap)
    (took : getBits b 8 d = .ok (some (v, d'))) :
    decStep b d k = .ok ({ d' with
      window := d'.window.write (d'.headIndex % b.window) (BitVec.ofNat 8 v), headIndex := d'.headIndex + 1
      state := .tagBit }, k.emit (BitVec.ofNat 8 v)) := by
  simp only [decStep, hq, decLiteralStep, if_pos (k.canTakeByte_iff.mpr room), took]
  rfl

theorem decStep_backrefIndexMsb (hq : d.state = .backrefIndexMsb) (wide : 8 < b.windowBits)
    (took : getBits b (highIndexBits b) d = .ok (some (v, d'))) :
    decStep b d k = .ok ({ d' with outputIndex := v * 2 ^ 8, state := .backrefIndexLsb }, k) := by
  simp only [decStep, hq, backrefIndexMsbStep, if_pos wide, took, Nat.shiftLeft_eq]

/-- Merging a low field into a number whose low bits are free adds it (R194). -/
theorem or_eq_add {high low n : Nat} (hh : high % 2 ^ n = 0) (hl : low < 2 ^ n) : high ||| low = high + low := by
  have hhigh : (high / 2 ^ n) <<< n = high := by
    rw [Nat.shiftLeft_eq, Nat.div_mul_cancel (Nat.dvd_of_mod_eq_zero hh)]
  rw [← hhigh, Nat.shiftLeft_add_eq_or_of_lt hl]

theorem decStep_backrefIndexLsb (hq : d.state = .backrefIndexLsb) (hfree : d.outputIndex % 2 ^ lowIndexBits b = 0)
    (took : getBits b (lowIndexBits b) d = .ok (some (v, d'))) :
    decStep b d k = .ok ({ d' with
      outputIndex := d.outputIndex + v + 1, outputCount := 0, state := .backrefCountLsb }, k) := by
  simp only [decStep, hq, backrefIndexLsbStep, took, or_eq_add hfree (getBits_lt took), operandOfField]

theorem decStep_backrefCountLsb (hq : d.state = .backrefCountLsb)
    (took : getBits b b.lookaheadBits d = .ok (some (v, d'))) :
    decStep b d k = .ok ({ d' with outputCount := v + 1, state := .yieldBackref }, k) := by
  simp only [decStep, hq, backrefCountLsbStep, took, operandOfField]

/-- Bits that are there are taken as `get_bits` takes them (40_bit_accumulator.md R131). -/
theorem getBits_took (hok : stagingOk b d) {n : Nat} (hn : 1 ≤ n) (h : n ≤ bitsAvailable d) :
    ∃ v d', getBits b n d = .ok (some (v, d')) ∧ Took b d n v d' := by
  obtain ⟨d', hr⟩ := Reads.exists hok (n := n) (by rw [unreadBits_length]; exact h)
  exact ⟨_, d', hr.getBits, hr.took hn hok⟩

end

/-! ## The micro-steps as instructions (R190) -/

section
variable {s : State} {k : OutSink}

/-- A transition that leaves the sink as it is writes the decoder alone. -/
theorem exec_decMicroStep_silent {q : DecState} (hk : s.decOut = some k) (hq : s.dec.state = q) {d : Dec}
    (h : decStep s.build s.dec k = .ok (d, k)) : exec q.microStep s = .next { s with dec := d } := by
  rw [exec_decMicroStep_next hk hq h, State.decRun, ← hk]

/-- A transition that changes neither the decoder nor the sink changes nothing. -/
theorem exec_decMicroStep_idle {q : DecState} (hk : s.decOut = some k) (hq : s.dec.state = q)
    (h : decStep s.build s.dec k = .ok (s.dec, k)) : exec q.microStep s = .next s :=
  exec_decMicroStep_silent hk hq h

/-- Without the bits that it wants a micro-step changes nothing. -/
theorem exec_decMicroStep_starved {q : DecState} (hk : s.decOut = some k) (hq : s.dec.state = q)
    (h : bitsAvailable s.dec < wantedBits s.build q) : exec q.microStep s = .next s :=
  exec_decMicroStep_idle hk hq (decStep_starved hq h)

end

end Sys2Proof.Machine

namespace Sys2Proof.Proofs

open Sys2Proof.Machine

/-- Settles O28: the two branches of the tag bit. -/
theorem tagBitStep : Obligations.TagBitStep := by
  intro s k hk hq hok
  refine ⟨exec_decMicroStep_starved hk hq, fun h => ?_⟩
  obtain ⟨v, d', took, htook⟩ := getBits_took hok (Nat.le_refl 1) h
  have hstep := exec_decMicroStep_silent hk hq (decStep_tagBit hq took)
  refine ⟨v, d', htook, fun h1 => ?_, fun h0 => ?_⟩
  · rwa [if_neg h1] at hstep
  · rwa [if_pos h0] at hstep

/-- Settles O29: the byte that is taken is the one byte that is stored at the head and emitted. -/
theorem decYieldLiteralStep : Obligations.DecYieldLiteralStep := by
  intro s k hk hq hok hw
  refine ⟨fun h => ?_, fun room h => ?_⟩
  · rcases h with hfull | hshort
    · exact exec_decMicroStep_idle (q := .yieldLiteral) hk hq (decStep_full hfull (.inl hq))
    · exact exec_decMicroStep_starved hk hq hshort
  · obtain ⟨v, d', took, htook⟩ := getBits_took hok (by omega) h
    have hstep := exec_decMicroStep_next hk hq (decStep_yieldLiteral hq room took)
    obtain ⟨-, -, hhead, hwindow, -⟩ := getBits_keeps took
    rw [hhead, hwindow] at hstep
    exact ⟨v, d', _, htook, Memory.wf_write _ _ _ hw, fun a => Memory.read_write _ _ _ a hw, hstep⟩

/-- Settles O30: the high piece stands eight bits up. -/
theorem backrefIndexMsbStep : Obligations.BackrefIndexMsbStep := by
  intro s k hk hq hok wide _
  refine ⟨exec_decMicroStep_starved hk hq, fun h => ?_⟩
  obtain ⟨v, d', took, htook⟩ := getBits_took hok (Nat.le_sub_of_add_le' wide) h
  exact ⟨v, d', htook, exec_decMicroStep_silent hk hq (decStep_backrefIndexMsb hq wide took)⟩

/-- Settles O31: the low piece goes where the high part has no bits, so that merging it is adding it. -/
theorem backrefIndexLsbStep : Obligations.BackrefIndexLsbStep := by
  intro s k hk hq hok hW hfree
  refine ⟨exec_decMicroStep_starved hk hq, fun h => ?_⟩
  obtain ⟨v, d', took, htook⟩ := getBits_took hok (Nat.le_min.mpr ⟨hW, by omega⟩) h
  exact ⟨v, d', htook, exec_decMicroStep_silent hk hq (decStep_backrefIndexLsb hq hfree took)⟩

/-- Settles O32: the length field has the L bits that bound the length by the lookahead. -/
theorem backrefCountLsbStep : Obligations.BackrefCountLsbStep := by
  intro s k hk hq hok hL _
  refine ⟨exec_decMicroStep_starved hk hq, fun h => ?_⟩
  obtain ⟨v, d', took, htook⟩ := getBits_took hok hL h
  exact ⟨v, d', htook, exec_decMicroStep_silent hk hq (decStep_backrefCountLsb hq took), Nat.le_add_left 1 v,
    getBits_lt took⟩

/-- Settles O33: a copy produces the bytes of R196, and without room none. -/
theorem yieldBackrefStep : Obligations.YieldBackrefStep := by
  intro s k hk hq hw h1 hN hc hcN
  refine ⟨fun hfull => exec_decMicroStep_idle (q := .yieldBackref) hk hq (decStep_full hfull (.inr hq)), ?_⟩
  obtain ⟨new, hnew⟩ := copyBackref_copied k hq hw h1 hN hc hcN
  exact ⟨new, _, _, exec_decMicroStep_next (q := .yieldBackref) hk hq (by rw [decStep, hq]; rfl), hnew⟩

end Sys2Proof.Proofs
end

section
/-! SUPPORT. What a micro-step of the decoder looks at of the output sink, the room in it (43_decoder_fsm.md R190), and where it
goes (R197). -/

namespace Sys2Proof.Machine

/-! ## The room in the sink (R190) -/

/-- An empty sink with as much room as `k` has left. -/
def OutSink.rest (k : OutSink) : OutSink :=
  { cap := k.cap - k.produced, out := [] }

/-- The result of a transition over `k.rest`, with its bytes put behind those of `k`. -/
def OutSink.after (k : OutSink) (p : Dec × OutSink) : Dec × OutSink :=
  (p.1, { k with out := k.out ++ p.2.out })

@[simp] theorem OutSink.rest_canTakeByte (k : OutSink) : k.rest.canTakeByte = k.canTakeByte := by
  rw [Bool.eq_iff_iff, OutSink.canTakeByte_iff, OutSink.canTakeByte_iff]
  exact Nat.sub_pos_iff_lt

theorem OutSink.rest_congr {k k' : OutSink} (hcap : k'.cap = k.cap) (hproduced : k'.produced = k.produced) :
    k'.rest = k.rest := by
  rw [OutSink.rest, hcap, hproduced]; rfl

/-- A transition that leaves the sink as it is. -/
@[simp] theorem OutSink.after_silent (k : OutSink) (d : Dec) : k.after (d, k.rest) = (d, k) := by
  simp [OutSink.after, OutSink.rest]

section
variable (b : Build) (d : Dec) (k : OutSink)

@[simp] theorem copyCount_rest : copyCount d k.rest = copyCount d k := rfl

theorem copyBytes_after (n : Nat) (k₀ : OutSink) :
    copyBytes b n d { k with out := k.out ++ k₀.out } = k.after (copyBytes b n d k₀) := by
  induction n generalizing d k₀ with
  | zero => rfl
  | succ n ih =>
    have h := ih { (produceByte b (copySource b d) d k₀).1 with outputCount := d.outputCount - 1 }
      (produceByte b (copySource b d) d k₀).2
    simp only [produceByte, OutSink.emit, ← List.append_assoc] at h
    exact h

theorem copyBackref_rest : copyBackref b d k = k.after (copyBackref b d k.rest) := by
  have hcopy : copyBytes b (copyCount d k) d k = k.after (copyBytes b (copyCount d k) d k.rest) := by
    rw [← copyBytes_after]
    simp [OutSink.rest]
  unfold copyBackref
  rw [copyCount_rest, hcopy]
  split
  · rw [OutSink.after_silent]
  · generalize copyBytes b (copyCount d k) d k.rest = p
    by_cases h0 : p.1.outputCount = 0 <;> simp [OutSink.after, h0]

theorem tagBitStep_rest : tagBitStep b d k = (tagBitStep b d k.rest).map k.after := by
  unfold tagBitStep
  rcases getBits b 1 d with f | _ | ⟨bit, d'⟩
  · rfl
  · simp [Except.map]
  · dsimp only
    split <;> simp [Except.map]

theorem decLiteralStep_rest : decLiteralStep b d k = (decLiteralStep b d k.rest).map k.after := by
  unfold decLiteralStep
  rw [OutSink.rest_canTakeByte]
  split
  · rcases getBits b 8 d with f | _ | ⟨c, d'⟩
    · rfl
    · simp [Except.map]
    · rfl
  · simp [Except.map]

theorem backrefIndexMsbStep_rest : backrefIndexMsbStep b d k = (backrefIndexMsbStep b d k.rest).map k.after := by
  unfold backrefIndexMsbStep
  split
  · rcases getBits b (highIndexBits b) d with f | _ | ⟨v, d'⟩
    · rfl
    all_goals simp [Except.map]
  · rfl

theorem backrefIndexLsbStep_rest : backrefIndexLsbStep b d k = (backrefIndexLsbStep b d k.rest).map k.after := by
  unfold backrefIndexLsbStep
  rcases getBits b (lowIndexBits b) d with f | _ | ⟨v, d'⟩
  · rfl
  all_goals simp [Except.map]

theorem backrefCountLsbStep_rest : backrefCountLsbStep b d k = (backrefCountLsbStep b d k.rest).map k.after := by
  unfold backrefCountLsbStep
  rcases getBits b b.lookaheadBits d with f | _ | ⟨v, d'⟩
  · rfl
  all_goals simp [Except.map]

/-- A micro-step is determined by the decoder, the parameters and the room, and it adds its bytes to the output (R190). -/
theorem decStep_rest : decStep b d k = (decStep b d k.rest).map k.after := by
  unfold decStep
  split
  · exact tagBitStep_rest b d k
  · exact decLiteralStep_rest b d k
  · exact backrefIndexMsbStep_rest b d k
  · exact backrefIndexLsbStep_rest b d k
  · exact backrefCountLsbStep_rest b d k
  · exact congrArg Except.ok (copyBackref_rest b d k)

end

/-- The bytes that a micro-step adds, and that it adds the same to every sink with the same `cap` and `produced` (R190). -/
theorem decStep_local {b : Build} {d d' : Dec} {k k' : OutSink} (h : decStep b d k = .ok (d', k')) :
    ∃ new, k' = { k with out := k.out ++ new } ∧ ∀ k₁ : OutSink, k₁.cap = k.cap → k₁.produced = k.produced →
      decStep b d k₁ = .ok (d', { k₁ with out := k₁.out ++ new }) := by
  rw [decStep_rest] at h
  cases hv : decStep b d k.rest with
  | error f => rw [hv] at h; cases h
  | ok p =>
    rw [hv] at h
    cases h
    refine ⟨p.2.out, rfl, fun k₁ hcap hproduced => ?_⟩
    rw [decStep_rest, OutSink.rest_congr hcap hproduced, hv]
    rfl

/-! ## Where a micro-step goes (R197) -/

section
variable {s t : State} {d d' : Dec} {k k' : OutSink} {b : Build}

/-- The table's row for a micro-step that lacks bits. -/
theorem decTarget_starved (short : bitsAvailable s.dec < wantedBits s.build s.dec.state) (k : OutSink) :
    decTarget s k = s.dec.state := by
  rw [← unreadBits_length] at short
  cases hq : s.dec.state <;> rw [hq] at short <;> simp only [decTarget, hq]
  case tagBit => rw [List.length_eq_zero_iff.mp (Nat.lt_one_iff.mp short)]
  case yieldLiteral => exact if_neg fun h => Nat.not_le.mpr short h.2
  case yieldBackref => exact absurd short (Nat.not_lt_zero _)
  all_goals exact if_neg (Nat.not_le.mpr short)

/-- A copy leaves its state exactly when there is room for all that is owed (R196). -/
theorem copyBackref_state (hq : d.state = .yieldBackref) (hc : 1 ≤ d.outputCount) :
    (copyBackref b d k).1.state =
      if 0 < k.cap - k.produced ∧ d.outputCount ≤ k.cap - k.produced then .tagBit else .yieldBackref := by
  obtain ⟨w, hw⟩ := copyBytes_frame b (copyCount d k) d k
  rw [copyBackref_eq hc rfl, hw, ← hq]
  have hends : d.outputCount - copyCount d k = 0 ↔
      0 < k.cap - k.produced ∧ d.outputCount ≤ k.cap - k.produced := by unfold copyCount; omega
  simp only [hends]

/-- Every move goes where the table says. -/
theorem DecMove.target (hi : DecInv s.build s.dec) (hm : DecMove s.build s.dec k d' k') : d'.state = decTarget s k := by
  have hok := hi.data.staging_ok
  have hav {n v : Nat} {d₁ : Dec} (took : getBits s.build n s.dec = .ok (some (v, d₁))) : n ≤ (unreadBits s.dec).length := by
    rw [unreadBits_length]; exact (getBits_some took).1
  cases hm with
  | starved short => exact (decTarget_starved short k).symm
  | full hq no_room =>
    simp only [decTarget, hq]
    exact (if_neg fun h => by omega).symm
  | @literalTag bit d₁ hq took one =>
    obtain rfl : bit = 1 := by have := getBits_lt took; omega
    have hU : unreadBits s.dec = true :: unreadBits d₁ := getBits_unreadBits hok took
    simp only [decTarget, hq, hU]
  | @backrefTag d₁ hq took =>
    have hU : unreadBits s.dec = false :: unreadBits d₁ := getBits_unreadBits hok took
    simp only [decTarget, hq, hU]
  | literal hq room took =>
    simp only [decTarget, hq]
    exact (if_pos ⟨Nat.sub_pos_of_lt room, hav took⟩).symm
  | highPiece hq _ took =>
    simp only [decTarget, hq]
    exact (if_pos (hav took)).symm
  | lowPiece hq took =>
    simp only [decTarget, hq]
    exact (if_pos (hav took)).symm
  | length hq took =>
    simp only [decTarget, hq]
    exact (if_pos (hav took)).symm
  | copy hq =>
    obtain ⟨-, -, hc, -⟩ := hi.copy_in_range hq
    rw [copyBackref_state hq hc]
    simp only [decTarget, hq]

/-! ## The commands that leave `dec.state` (R220, R222) -/

theorem exec_decPoll_zero (h : exec (.decPoll 0) s = .next t) : t.dec = s.dec := by
  rw [exec_decPoll, decCommand_next] at h
  obtain ⟨-, d, reply, hok, rfl⟩ := h
  cases hok
  rfl

theorem decSink_state (b : Build) (input : List Byte) (d : Dec) : (decSink b input d).1.state = d.state := by
  unfold decSink
  split <;> rfl

theorem exec_decSink_state {input : List Byte} (h : exec (.decSink input) s = .next t) : t.dec.state = s.dec.state := by
  rw [exec_decSink, decCommand_next] at h
  obtain ⟨-, d, reply, hok, rfl⟩ := h
  cases hok
  exact decSink_state _ input _

theorem exec_decFinish_state (h : exec .decFinish s = .next t) : t.dec.state = s.dec.state := by
  rw [exec_decFinish, decCommand_next] at h
  obtain ⟨-, d, reply, hok, rfl⟩ := h
  cases hok
  rfl

theorem exec_decReset_dec (h : exec .decReset s = .next t) : t.dec = .reset := by
  rw [exec_decReset, decCommand_next] at h
  obtain ⟨-, d, reply, hok, rfl⟩ := h
  cases hok
  rfl

/-- What a micro-step that completes has done to the block. -/
theorem exec_decMicroStep_stepped {q : DecState} (h : exec q.microStep s = .next t) :
    s.dec.state = q ∧ ∃ k d k', s.decOut = some k ∧ decStep s.build s.dec k = .ok (d, k') ∧ t = s.decRun d k' := by
  rw [exec_decMicroStep, decMicroStep_next] at h
  obtain ⟨k, d, k', hk, hq, hok, rfl⟩ := h
  exact ⟨hq, k, d, k', hk, hok, rfl⟩

/-! ## The decoder at rest in each of its states -/

/-- A build with the given W and L. -/
def buildOf (W L : Nat) : Build :=
  { Build.shipped with windowBits := W, lookaheadBits := L }

/-- What a host sinks into a reset decoder, and the room that it then polls with, so that the decoder rests in the given
state: with the tag bit still to come, or with too few bits after it, or with a copy that does not fit. -/
def restingInput : DecState → Build × List Byte × Nat
  | .tagBit => (buildOf 8 4, [], 1)
  | .yieldLiteral => (buildOf 8 4, [0x80], 1)
  | .backrefIndexMsb => (buildOf 15 8, [0x80, 0x00], 2)
  | .backrefIndexLsb => (buildOf 8 4, [0x00], 1)
  | .backrefCountLsb => (buildOf 7 4, [0x00], 1)
  | .yieldBackref => (buildOf 4 3, [0x07], 1)

end

end Sys2Proof.Machine

namespace Sys2Proof.Proofs

open Sys2Proof.Machine

/-- Settles O34: each micro-step goes where its row of the table says, the commands write the state as they say, a poll runs
through the micro-steps of its loop, and one sink and one poll lead to each state. -/
theorem decTransitions : Obligations.DecTransitions := by
  refine ⟨fun q s t _ hi h => ?_, fun s t h => ?_, fun i s t hi h => ?_, fun cap s t h => ?_, fun q => ?_⟩
  · obtain ⟨hq, k, d, k', hk, hok, rfl⟩ := exec_decMicroStep_stepped h
    exact ⟨hq, k, hk, (decStep_moves hok).target hi⟩
  · rw [exec_decReset_dec h]; rfl
  · rcases hi with ⟨input, rfl⟩ | rfl | hi
    · exact exec_decSink_state h
    · exact exec_decFinish_state h
    · rw [(exec_encLocal hi s t h).1]
  · rcases Nat.eq_zero_or_pos cap with rfl | hc
    · exact ⟨0, _, rfl, (exec_decPoll_zero h).symm⟩
    · obtain ⟨fuel, r, hloop, rfl⟩ := exec_decPoll_next hc h
      obtain ⟨n, hn⟩ := decMicroSteps_of_loop (s := { s with decOut := some (.start cap) }) rfl hloop
      exact ⟨n, _, hn, rfl⟩
  · refine ⟨(restingInput q).1, (restingInput q).2.1, (restingInput q).2.2, ?_⟩
    cases q
    · exact ⟨_, _, rfl, rfl, rfl, rfl⟩
    · exact ⟨_, _, rfl, rfl, rfl, rfl⟩
    · exact ⟨_, _, rfl, rfl, rfl, rfl⟩
    · exact ⟨_, _, rfl, rfl, rfl, rfl⟩
    · exact ⟨_, _, rfl, rfl, rfl, rfl⟩
    · exact ⟨_, _, rfl, rfl, rfl, rfl⟩

/-- Settles O35: a transition sees of the sink the room that is left, and one that lacks bits or room keeps everything. -/
theorem decStepIsLocal : Obligations.DecStepIsLocal := by
  intro q s t k hk h
  obtain ⟨hq, k₀, d, k', hk₀, hok, rfl⟩ := exec_decMicroStep_stepped h
  cases hk.symm.trans hk₀
  have hsame (hidle : exec q.microStep s = .next s) : s.decRun d k' = s := by
    rw [hidle] at h
    exact (Host.Outcome.next.inj h).symm
  refine ⟨hq, ?_, fun hshort => hsame (exec_decMicroStep_starved hk hq hshort), fun hfull hwaits => hsame ?_⟩
  · obtain ⟨new, rfl, hlocal⟩ := decStep_local hok
    refine ⟨d, new, rfl, fun s' k₁ hb hd hk₁ hcap hproduced => ?_⟩
    exact exec_decMicroStep_next hk₁ (by rw [hd, hq]) (by rw [hb, hd]; exact hlocal k₁ hcap hproduced)
  · exact exec_decMicroStep_idle hk hq (decStep_full hfull (hq ▸ hwaits))

end Sys2Proof.Proofs
end

section
/-! SUPPORT. What the commands that need no poll loop answer (44_streaming_protocol.md R214 to R223): a command to a unit whose
poll does not run completes with the result of the unit alone, and a sink that is refused keeps the encoder. -/

namespace Sys2Proof.Machine

section
variable {s : State} {e : Enc}

/-! ## A command to an idle unit (R210) -/

theorem encCommand_idle (hk : s.encOut = none) (e : Enc) (reply : Option Reply) :
    encCommand s (.ok (e, reply)) = .next { s with enc := e, encReply := reply } :=
  encCommand_next.mpr ⟨hk, e, reply, rfl, by rw [State.encReturn, hk]⟩

theorem decCommand_idle (hk : s.decOut = none) (d : Dec) (reply : Option Reply) :
    decCommand s (.ok (d, reply)) = .next { s with dec := d, decReply := reply } :=
  decCommand_next.mpr ⟨hk, d, reply, rfl, by rw [State.decReturn, hk]⟩

/-! ## ENC.SINK refused (R214, R249) -/

/-- The finishing flag is looked at first, whatever the state. -/
theorem encSink_finishing (b : Build) (input : List Byte) (hf : e.finishing = true) :
    encSink b input e = (e, .sunk .misuse 0) :=
  if_pos hf

/-- In `Filled` the build names the status. -/
theorem encSink_filled (b : Build) (input : List Byte) (hf : e.finishing = false) (hq : e.state = .filled) :
    encSink b input e = (e, .sunk (filledStatus b.sinkFilledStatus) 0) := by
  have hn : e.state ≠ .notFull := by rw [hq]; nofun
  rw [encSink, hf, if_neg Bool.false_ne_true, if_neg hn, if_pos hq]

theorem exec_encSink_kept {input : List Byte} {r : Reply} (hk : s.encOut = none)
    (h : encSink s.build input s.enc = (s.enc, r)) :
    exec (.encSink input) s = .next { s with encReply := some r } := by
  rw [exec_encSink, h]
  exact encCommand_idle hk s.enc (some r)

/-! ## ENC.FINISH before the end (R216) -/

/-- `Done` is reached with the finishing flag set (R163, R169). -/
theorem EncInv.not_done {b : Build} (hi : EncInv b e) (hf : e.finishing = false) : e.state ≠ .done := fun hq =>
  Bool.false_ne_true (hf.symm.trans (hi.flush_at_end (.inr hq)).1)

end

end Sys2Proof.Machine

namespace Sys2Proof.Proofs

open Sys2Proof.Machine

/-- Settles O3: the reset of an idle unit writes the unit and its reply, and a block just created holds the same unit. -/
theorem resetCommandsRestore : Obligations.ResetCommandsRestore := by
  refine fun s => ⟨fun hk => ?_, fun hk => ?_⟩
  · exact ⟨_, (exec_encReset s).trans (encCommand_idle hk _ _), rfl, rfl, rfl⟩
  · exact ⟨_, (exec_decReset s).trans (decCommand_idle hk _ _), rfl, rfl, rfl⟩

/-- Settles O41: each refusal answers its status and keeps the encoder. -/
theorem encSinkRefuses : Obligations.EncSinkRefuses := by
  refine fun s input hk => ⟨fun hf => ?_, fun _ hn hq => ?_, fun hf hq hb => ?_, fun hf hq hb => ?_⟩
  · exact exec_encSink_kept hk (encSink_finishing _ input hf)
  · exact exec_encSink_kept hk (encSink_misuse _ input hn hq)
  · exact exec_encSink_kept hk (by rw [encSink_filled _ input hf hq, hb]; rfl)
  · exact exec_encSink_kept hk (by rw [encSink_filled _ input hf hq, hb]; rfl)

/-- Settles O43: a finish sets the flag and forces `NotFull` to `Filled`, and before the first one of a stream the state is
not `Done`. -/
theorem encFinishResult : Obligations.EncFinishResult := by
  refine fun s hk => ⟨?_, EncInv.not_done⟩
  rw [exec_encFinish_next hk, encFinish_eq]
  rfl

/-- Settles O46: the reply alone is written. -/
theorem decFinishResult : Obligations.DecFinishResult := fun s hk =>
  (exec_decFinish s).trans (decCommand_idle hk s.dec (some (decFinish s.dec)))

end Sys2Proof.Proofs
end

section
/-! SUPPORT. The cause table of the statuses (60_exceptions.md R241 to R249): what each command can answer, when, and what it then
keeps; and the poll loops as runs of whole micro-steps (R250). -/

namespace Sys2Proof.Machine

/-- The causes of `Misuse` at `ENC.SINK` (R246 parts a and b). -/
def SinkMisused (s : State) : Prop :=
  s.enc.finishing = true ∨ (s.enc.state ≠ .notFull ∧ s.enc.state ≠ .filled) ∨
    (s.enc.state = .filled ∧ s.build.sinkFilledStatus = .misuse)

/-- The rows of the cause table (R248): the command, the units that it leaves, and its result. -/
inductive Answer (s : State) : Instr → Enc → Dec → Reply → Prop where
  /-- Input that cannot be taken (R246 parts a and b). -/
  | encSinkMisuse (input : List Byte) (cause : SinkMisused s) :
      Answer s (.encSink input) s.enc s.dec (.sunk .misuse 0)
  /-- No room in the input half (R242). -/
  | encSinkFull (input : List Byte) (no_misuse : ¬ SinkMisused s) (at_state : s.enc.state = .filled) :
      Answer s (.encSink input) s.enc s.dec (.sunk .full 0)
  /-- Input is taken (R241). -/
  | encSinkOk (input : List Byte) (no_misuse : ¬ SinkMisused s) (at_state : s.enc.state = .notFull) :
      Answer s (.encSink input) (encAccept s.build input s.enc) s.dec
        (.sunk .ok (min (encRoom s.build s.enc) input.length))
  /-- No room asked for (R246 part c). -/
  | encPollMisuse : Answer s (.encPoll 0) s.enc s.dec (.polled .misuse [])
  /-- Nothing more can be made (R243). -/
  | encPollEmpty {cap : Nat} (room : cap ≠ 0) (e : Enc) (out : List Byte) :
      Answer s (.encPoll cap) e s.dec (.polled .empty out)
  /-- The output is full (R244). -/
  | encPollMore {cap : Nat} (room : cap ≠ 0) (e : Enc) (out : List Byte) (full : out.length = cap) :
      Answer s (.encPoll cap) e s.dec (.polled .more out)
  /-- The encoder has drained (R245). -/
  | encFinishDone (drained : s.enc.state = .done) (e : Enc) : Answer s .encFinish e s.dec (.finished .done)
  /-- The encoder has not drained (R244). -/
  | encFinishMore (undrained : s.enc.state ≠ .done) (e : Enc) : Answer s .encFinish e s.dec (.finished .more)
  /-- No room in the staging buffer (R242). -/
  | decSinkFull (input : List Byte) (no_room : decRoom s.build s.dec = 0) : Answer s (.decSink input) s.enc s.dec (.sunk .full 0)
  /-- Input is staged (R241). -/
  | decSinkOk (input : List Byte) (room : decRoom s.build s.dec ≠ 0) (n : Nat) (d : Dec) :
      Answer s (.decSink input) s.enc d (.sunk .ok n)
  /-- No room asked for (R246 part c). -/
  | decPollMisuse : Answer s (.decPoll 0) s.enc s.dec (.polled .misuse [])
  /-- The decoder waits for bits (R243). -/
  | decPollEmpty {cap : Nat} (room : cap ≠ 0) (d : Dec) (out : List Byte) :
      Answer s (.decPoll cap) s.enc d (.polled .empty out)
  /-- The output is full (R244). -/
  | decPollMore {cap : Nat} (room : cap ≠ 0) (d : Dec) (out : List Byte) (full : out.length = cap) :
      Answer s (.decPoll cap) s.enc d (.polled .more out)
  /-- Nothing is staged (R245). -/
  | decFinishDone (drained : s.dec.inputSize = 0) : Answer s .decFinish s.enc s.dec (.finished .done)
  /-- Bytes are staged (R244). -/
  | decFinishMore (undrained : s.dec.inputSize ≠ 0) : Answer s .decFinish s.enc s.dec (.finished .more)

section
variable {s t : State} {b : Build}

/-! ## How a poll returns (R215, R221, R243, R244) -/

/-- A poll of the encoder returns `Empty`, or `More` with the output full, from every state. -/
theorem encPollLoop_status {fuel : Nat} {e : Enc} {k : OutSink} {r : Enc × OutSink × Status}
    (h : encPollLoop b fuel e k = .ok r) : r.2.2 = .empty ∨ (r.2.2 = .more ∧ r.2.1.produced = k.cap) := by
  induction fuel generalizing e k with
  | zero => cases h
  | succ fuel ih =>
    obtain ⟨fuel', e', k', hfuel, hok, hrest⟩ := encPollLoop_ok h
    cases hfuel
    obtain ⟨new, rfl, -⟩ := encStep_local hok
    rcases hrest with ⟨status, hs, rfl⟩ | ⟨-, hloop⟩
    · exact (encPollStatus_some hs).imp_left And.left
    · exact (ih hloop :)

/-- A poll of the decoder returns `Empty`, or `More` with the output full, from every state. -/
theorem decPollLoop_status {fuel : Nat} {d : Dec} {k : OutSink} {r : Dec × OutSink × Status}
    (h : decPollLoop b fuel d k = .ok r) : r.2.2 = .empty ∨ (r.2.2 = .more ∧ r.2.1.produced = k.cap) := by
  induction fuel generalizing d k with
  | zero => cases h
  | succ fuel ih =>
    obtain ⟨fuel', d', k', hfuel, hok, hrest⟩ := decPollLoop_ok h
    cases hfuel
    obtain ⟨new, rfl, -⟩ := decStep_local hok
    rcases hrest with ⟨status, hs, rfl⟩ | ⟨-, hloop⟩
    · obtain ⟨-, rfl⟩ := decPollStatus_some hs
      split
      · next hfull => exact .inr ⟨rfl, (OutSink.isFull_iff _).mp hfull⟩
      · exact .inl rfl
    · exact (ih hloop :)

/-! ## What each command answers -/

theorem encSink_answer (s : State) (input : List Byte) :
    Answer s (.encSink input) (encSink s.build input s.enc).1 s.dec (encSink s.build input s.enc).2 := by
  cases hf : s.enc.finishing with
  | true => rw [encSink_finishing _ input hf]; exact .encSinkMisuse input (.inl hf)
  | false =>
    by_cases hn : s.enc.state = .notFull
    · rw [encSink_accepts _ input hf hn]
      exact .encSinkOk input (by simp [SinkMisused, hf, hn]) hn
    by_cases hq : s.enc.state = .filled
    · rw [encSink_filled _ input hf hq]
      cases hb : s.build.sinkFilledStatus with
      | misuse => exact .encSinkMisuse input (.inr (.inr ⟨hq, hb⟩))
      | full => exact .encSinkFull input (by simp [SinkMisused, hf, hq, hb]) hq
    · rw [encSink_misuse _ input hn hq]; exact .encSinkMisuse input (.inr (.inl ⟨hn, hq⟩))

theorem encFinish_answer (s : State) : Answer s .encFinish (encFinish s.enc).1 s.dec (encFinish s.enc).2 := by
  rw [encFinish_eq]
  by_cases hq : s.enc.state = .done
  · rw [if_pos (c := s.enc.state = .done) hq]; exact .encFinishDone hq _
  · rw [if_neg (c := s.enc.state = .done) hq]; exact .encFinishMore hq _

theorem decSink_answer (s : State) (input : List Byte) :
    Answer s (.decSink input) s.enc (decSink s.build input s.dec).1 (decSink s.build input s.dec).2 := by
  unfold decSink
  split
  · next hroom => exact .decSinkFull input hroom
  · next hroom => exact .decSinkOk input hroom _ _

theorem decFinish_answer (s : State) : Answer s .decFinish s.enc s.dec (decFinish s.dec) := by
  unfold decFinish
  split
  · next hq => exact .decFinishDone hq
  · next hq => exact .decFinishMore hq

theorem encPoll_answer {cap : Nat} {p : Enc × Reply} (h : encPoll s.build cap s.enc = .ok p) :
    Answer s (.encPoll cap) p.1 s.dec p.2 := by
  unfold encPoll at h
  split at h
  · next hc => subst hc; cases h; exact .encPollMisuse
  · next hc =>
    split at h
    · cases h
    · next e' k status hloop =>
      cases h
      rcases encPollLoop_status hloop with rfl | ⟨rfl, hfull⟩
      · exact .encPollEmpty hc _ _
      · exact .encPollMore hc _ _ hfull

theorem decPoll_answer {cap : Nat} {p : Dec × Reply} (h : decPoll s.build cap s.dec = .ok p) :
    Answer s (.decPoll cap) s.enc p.1 p.2 := by
  unfold decPoll at h
  split at h
  · next hc => subst hc; cases h; exact .decPollMisuse
  · next hc =>
    split at h
    · cases h
    · next d' k status hloop =>
      cases h
      rcases decPollLoop_status hloop with rfl | ⟨rfl, hfull⟩
      · exact .decPollEmpty hc _ _
      · exact .decPollMore hc _ _ hfull

/-! ## What every instruction answers -/

/-- The instruction `i` has been answered, as the cause table says. -/
def Answered (s : State) (i : Instr) (t : State) : Prop :=
  ∃ r, replyTo i t = some r ∧ Answer s i t.enc t.dec r

/-- A command of the encoder that completes answers with the result of the unit. -/
theorem encCommand_answered {i : Instr} {x : Except Fault (Enc × Reply)} (hreply : replyTo i t = t.encReply)
    (hx : ∀ p, x = .ok p → Answer s i p.1 s.dec p.2) (h : encCommand s (x.map withReply) = .next t) : Answered s i t := by
  obtain ⟨-, e, reply, hok, rfl⟩ := encCommand_next.mp h
  obtain ⟨r, hr, rfl⟩ := map_withReply_ok hok
  exact ⟨r, hreply, hx _ hr⟩

/-- A command of the decoder that completes answers with the result of the unit. -/
theorem decCommand_answered {i : Instr} {x : Except Fault (Dec × Reply)} (hreply : replyTo i t = t.decReply)
    (hx : ∀ p, x = .ok p → Answer s i s.enc p.1 p.2) (h : decCommand s (x.map withReply) = .next t) : Answered s i t := by
  obtain ⟨-, d, reply, hok, rfl⟩ := decCommand_next.mp h
  obtain ⟨r, hr, rfl⟩ := map_withReply_ok hok
  exact ⟨r, hreply, hx _ hr⟩

theorem replyTo_of_bref {i : Instr} {W L index count : Nat} (h : i.bref? = some (W, L, index, count)) (u : State) :
    replyTo i u = none := by
  cases i <;> cases h <;> rfl

/-- An instruction that completes is one that is never answered, or it has been answered as the cause table says. -/
theorem exec_answered {i : Instr} (h : exec i s = .next t) : (∀ u, replyTo i u = none) ∨ Answered s i t := by
  rcases instr_cases i with ⟨q, rfl⟩ | ⟨q, rfl⟩ | (⟨input, rfl⟩ | ⟨cap, rfl⟩ | rfl | rfl) |
    (⟨input, rfl⟩ | ⟨cap, rfl⟩ | rfl | rfl) | ⟨value, rfl⟩ | ⟨W, L, index, count, hb⟩
  case inl | inr.inl => exact .inl fun u => by cases q <;> rfl
  case inr.inr.inl.inl =>
    exact .inr (encCommand_answered (x := .ok (encSink s.build input s.enc)) rfl (fun | _, rfl => encSink_answer s input) h)
  case inr.inr.inl.inr.inl => exact .inr (encCommand_answered rfl (fun _ => encPoll_answer) h)
  case inr.inr.inl.inr.inr.inl =>
    exact .inr (encCommand_answered (x := .ok (encFinish s.enc)) rfl (fun | _, rfl => encFinish_answer s) h)
  case inr.inr.inr.inl.inl =>
    exact .inr (decCommand_answered (x := .ok (decSink s.build input s.dec)) rfl (fun | _, rfl => decSink_answer s input) h)
  case inr.inr.inr.inl.inr.inl => exact .inr (decCommand_answered rfl (fun _ => decPoll_answer) h)
  case inr.inr.inr.inl.inr.inr.inl =>
    exact .inr (decCommand_answered (x := .ok (s.dec, decFinish s.dec)) rfl (fun | _, rfl => decFinish_answer s) h)
  case inr.inr.inr.inr.inr => exact .inl (replyTo_of_bref hb)
  all_goals exact .inl fun _ => rfl

end

/-! ## The causes of each status -/

section
variable {s : State} {i : Instr} {e : Enc} {d : Dec} {r : Reply}

/-- All the causes of `Misuse` (R246). -/
theorem Answer.misuse_iff (h : Answer s i e d r) : r.status = .misuse ↔
    (∃ input, i = .encSink input ∧ SinkMisused s) ∨ i = .encPoll 0 ∨ i = .decPoll 0 := by
  cases h with
  | encSinkMisuse input cause => exact iff_of_true rfl (.inl ⟨input, rfl, cause⟩)
  | encPollMisuse => exact iff_of_true rfl (.inr (.inl rfl))
  | decPollMisuse => exact iff_of_true rfl (.inr (.inr rfl))
  | encSinkFull _ no_misuse | encSinkOk _ no_misuse => simp [Reply.status, no_misuse]
  | encPollEmpty room | encPollMore room | decPollEmpty room | decPollMore room => simp [Reply.status, room]
  | _ => simp [Reply.status]

/-- A refusal keeps both units and counts nothing (R250). -/
theorem Answer.refusal_keeps (h : Answer s i e d r) (hr : r.status = .misuse ∨ r.status = .full) :
    e = s.enc ∧ d = s.dec ∧ r.count = 0 := by
  cases h with
  | encSinkMisuse | encSinkFull | encPollMisuse | decSinkFull | decPollMisuse => exact ⟨rfl, rfl, rfl⟩
  | _ => simp [Reply.status] at hr

/-- `Done` comes from a finish of a unit that has drained (R245). -/
theorem Answer.done_iff (h : Answer s i e d r) : r.status = .done ↔
    (i = .encFinish ∧ s.enc.state = .done) ∨ (i = .decFinish ∧ s.dec.inputSize = 0) := by
  cases h with
  | encFinishDone drained => exact iff_of_true rfl (.inl ⟨rfl, drained⟩)
  | decFinishDone drained => exact iff_of_true rfl (.inr ⟨rfl, drained⟩)
  | encFinishMore undrained | decFinishMore undrained => simp [Reply.status, undrained]
  | _ => simp [Reply.status]

/-- A finish answers `More` where it does not answer `Done` (R244). -/
theorem Answer.finish_status (h : Answer s i e d r) (hi : i = .encFinish ∨ i = .decFinish) (hr : r.status ≠ .done) :
    r.status = .more := by
  cases h with
  | encFinishMore | decFinishMore => rfl
  | encFinishDone | decFinishDone => exact absurd rfl hr
  | _ => simp at hi

/-- `More` comes from a finish, or from a poll with the output full (R244). -/
theorem Answer.more_from (h : Answer s i e d r) (hr : r.status = .more) : i = .encFinish ∨ i = .decFinish ∨
    ∃ cap out, (i = .encPoll cap ∨ i = .decPoll cap) ∧ r = .polled .more out ∧ out.length = cap := by
  cases h with
  | encFinishMore => exact .inl rfl
  | decFinishMore => exact .inr (.inl rfl)
  | encPollMore room e out full => exact .inr (.inr ⟨_, out, .inl rfl, rfl, full⟩)
  | decPollMore room d out full => exact .inr (.inr ⟨_, out, .inr rfl, rfl, full⟩)
  | _ => cases hr

end

end Sys2Proof.Machine

namespace Sys2Proof.Proofs

open Sys2Proof.Machine

/-- Settles O47: a refusal keeps both units, and the loop of a poll with room is a run of whole micro-steps. -/
theorem refusalsWriteNothing : Obligations.RefusalsWriteNothing := by
  refine ⟨fun i s t r h hr => ?_, fun cap s t hc h => ?_, fun cap s t hc h => ?_⟩
  · rcases exec_answered h with hsilent | ⟨r', hr', ha⟩
    · rw [hsilent t] at hr; cases hr
    · cases hr'.symm.trans hr
      exact ha.refusal_keeps
  · obtain ⟨fuel, r, hloop, rfl⟩ := exec_encPoll_next hc h
    obtain ⟨n, hn⟩ := encMicroSteps_of_loop (s := { s with encOut := some (.start cap) }) rfl hloop
    exact ⟨n, _, r.2.1, r.2.2, hn, rfl, rfl⟩
  · obtain ⟨fuel, r, hloop, rfl⟩ := exec_decPoll_next hc h
    obtain ⟨n, hn⟩ := decMicroSteps_of_loop (s := { s with decOut := some (.start cap) }) rfl hloop
    exact ⟨n, _, r.2.1, r.2.2, hn, rfl, rfl⟩

/-- Settles O48: an instruction that is never answered has no status, and the others are rows of the cause table. -/
theorem statusCauses : Obligations.StatusCauses := by
  intro i s t h
  rcases exec_answered h with hsilent | ⟨r, hr, ha⟩
  · have hnot := hsilent { t with encReply := some (.finished .ok), decReply := some (.finished .ok) }
    simp only [hsilent t, Option.map_none, reduceCtorEq, false_iff, false_imp_iff, true_and, and_true]
    refine ⟨?_, ?_, ?_, ?_⟩
    · rintro (⟨input, rfl, -⟩ | rfl | rfl) <;> cases hnot
    · rintro (⟨rfl, -⟩ | ⟨rfl, -⟩) <;> cases hnot
    · rintro rfl; cases hnot
    · rintro rfl; cases hnot
  · simp only [hr, Option.map_some, Option.some.injEq]
    refine ⟨ha.misuse_iff, fun hm => ?_, ha.done_iff, fun hi hq => ?_, fun hi hq => ?_, ha.more_from⟩
    · obtain ⟨-, -, hcount⟩ := ha.refusal_keeps (.inl hm)
      exact hcount
    · exact ha.finish_status (.inl hi) (by simp [ha.done_iff, hi, hq])
    · exact ha.finish_status (.inr hi) (by simp [ha.done_iff, hi, hq])

end Sys2Proof.Proofs
end

section
/-! SUPPORT. The values of a block just created (70_reset_and_hazards.md R271, 10_state.md R46). -/

namespace Sys2Proof.Proofs

open Sys2Proof.Machine

/-- Settles O1: the registers are the fields of `Enc.reset` and `Dec.reset`, and the four memories list no cell, so that every
address of them reads as the reset contents, for which the laws of the empty memory stand. -/
theorem resetStateValues : Obligations.ResetStateValues := by
  intro b
  refine ⟨⟨rfl, rfl, rfl, rfl, rfl, rfl, rfl, rfl, rfl, rfl, rfl, ?buffer, ?index⟩,
    ⟨rfl, rfl, rfl, rfl, rfl, rfl, rfl, rfl, rfl, ?window, ?staging⟩, State.created_build b⟩
  case buffer | window | staging => exact Memory.read_nil
  case index => exact IndexMemory.read_nil

end Sys2Proof.Proofs
end
